-- ==== Sys2Proof/Word.lean ====
section
/-! DEFINITION. Words of the KX8 and their plainest arithmetic: 64-bit scalars, 2,048-bit vector registers, vectors
indexed by a bit vector. Bit 0 is the least significant bit (R1). -/

namespace Sys2Proof

/-- A scalar register, a system register, a 64-bit memory word. -/
abbrev Word := BitVec 64

/-- One byte of memory. -/
abbrev Byte := BitVec 8

/-- A vector register: 64 lanes of 32 bits as one flat value, lane i at bits 32i+31:32i, so that element e of a
type of width w lies at bits w·e+w−1 : w·e (R23). -/
abbrev VWord := BitVec 2048

/-- The 80-bit instruction word (R45). -/
abbrev IWord := BitVec 80

/-- The member of a register file at a register number. -/
def vget {α : Type} {k : Nat} (v : Vector α (2 ^ k)) (i : BitVec k) : α := v[i.toNat]'i.isLt

/-- A register file with the register of one number replaced. -/
def vset {α : Type} {k : Nat} (v : Vector α (2 ^ k)) (i : BitVec k) (x : α) : Vector α (2 ^ k) :=
  v.set i.toNat x i.isLt

@[simp] theorem vget_vset_same {α : Type} {k : Nat} (v : Vector α (2 ^ k)) (i : BitVec k) (x : α) :
    vget (vset v i x) i = x := by simp [vget, vset]

theorem vget_vset_other {α : Type} {k : Nat} (v : Vector α (2 ^ k)) (i j : BitVec k) (x : α) (h : j ≠ i) :
    vget (vset v i x) j = vget v j := by
  have : i.toNat ≠ j.toNat := fun e => h (BitVec.eq_of_toNat_eq e.symm)
  simp [vget, vset, this]

end Sys2Proof
end

