-- ==== Sys2Proof/Syntax.lean ====
section
/-! DEFINITION. The instruction words of the eight engines and the steps of the machine that no word names, one
constructor for each row of the opcode table. Register numbers, operation codes and modifiers are decoded here, once. -/

namespace Sys2Proof

/-! ## Register numbers (R58) -/

/-- s0–s31. -/ abbrev SReg := BitVec 5
/-- a0–a7. -/ abbrev AReg := BitVec 3
/-- v0–v63, before or after the mapping of R59. -/ abbrev VReg := BitVec 6
/-- p0–p7. -/ abbrev PReg := BitVec 3
/-- g0–g15. -/ abbrev GReg := BitVec 4
/-- cb0–cb15. -/ abbrev CReg := BitVec 4
/-- qi0–qi3, qo0–qo3. -/ abbrev QReg := BitVec 2
/-- Global tile number, bit 7 the die (R10). -/ abbrev TileId := BitVec 8

/-- A register of any class, as a word reads or writes it. -/
inductive RegRef where
  | s (n : SReg) | a (n : AReg) | v (n : VReg) | p (n : PReg) | g (n : GReg) | cb (n : CReg)
  | qi (n : QReg) | qo (n : QReg)
deriving DecidableEq, Repr

/-- Engine of a word (R45). -/
inductive Eng where
  | ctrl | load | vec | mat | store | async | code | sys
deriving DecidableEq, Repr

/-- Issue queue (R12). -/
inductive Queue where
  | x | l | c | s | a
deriving DecidableEq, Repr

/-- The fields that every word carries beside its operands (R45): tokens, producer distance, tags, predicate. -/
structure Hdr where
  giveF : Bool
  giveB : Bool
  takeF : Bool
  takeB : Bool
  pdist : BitVec 3
  sba : BitVec 3
  sbc0 : BitVec 3
  sbc1 : BitVec 3
  neg : Bool
  preg : PReg
deriving DecidableEq, Repr

/-- A header of zeros. -/
def Hdr.zero : Hdr := ⟨false, false, false, false, 0, 0, 0, 0, false, 0⟩

/-! ## Types and modes -/

/-- Element types (R22). -/
inductive Ty where
  | f32 | f16 | bf16 | i32 | n32 | i16 | n16 | i8 | n8 | i64 | n64
deriving DecidableEq, Repr

/-- Rounding modes (R27). -/
inductive Rnd where
  | rne | rtz | rdn | rup
deriving DecidableEq, Repr

/-- MX formats MXINT4, MXINT6, MXINT8 (R31). -/
inductive Mx where
  | w4 | w6 | w8
deriving DecidableEq, Repr

/-- Synchronisation scopes (R4). -/
inductive Scope where
  | t | c | d | p | x
deriving DecidableEq, Repr

/-- Codebook entry types (R157). -/
inductive CbTy where
  | f32 | f16 | bf16 | i32
deriving DecidableEq, Repr

/-! ## Operands -/

/-- A vector source: a register or a popped queue register (R126). -/
inductive VSrc where
  | v (n : VReg) | qi (n : QReg)
deriving DecidableEq, Repr

/-- A vector destination. -/
inductive VDst where
  | v (n : VReg) | qo (n : QReg)
deriving DecidableEq, Repr

/-- Operand B of a vector word: a vector source or an 8-bit immediate (R127). -/
inductive BSrc where
  | src (a : VSrc) | imm (i : BitVec 8)
deriving DecidableEq, Repr

/-- A scalar count or index, or an 8-bit immediate. -/
inductive SSrc where
  | s (n : SReg) | imm (i : BitVec 8)
deriving DecidableEq, Repr

/-- Destination of a reduction: a scalar or a vector destination (R146). -/
inductive RDst where
  | s (n : SReg) | v (n : VReg) | qo (n : QReg)
deriving DecidableEq, Repr

/-- Destination of ldd (R96). -/
inductive LdDst where
  | s (n : SReg) | p (n : PReg)
deriving DecidableEq, Repr

/-- Destination of a vector load (R96). -/
inductive VLdDst where
  | v (n : VReg) | qi (n : QReg)
deriving DecidableEq, Repr

/-- Source of a vector store (R96). -/
inductive VStSrc where
  | v (n : VReg) | qo (n : QReg)
deriving DecidableEq, Repr

/-- Address operand of AM 0 and AM 1 (R98). -/
inductive GAddr where
  | off (s : SReg) (imm : BitVec 12) | post (a : AReg)
deriving DecidableEq, Repr

/-- Scratchpad address operand of AM 2 (R98). -/
inductive SpAddr where
  | off (s : SReg) (imm : BitVec 12) | post (a : AReg)
deriving DecidableEq, Repr

/-- Address operand of the scalar loads and stores (R98). -/
inductive Addr where
  | off (s : SReg) (imm : BitVec 12)
  | post (a : AReg)
  | sp (s : SReg) (imm : BitVec 12)
  | spPost (a : AReg)
  | idx (s : SReg) (i : SReg) (sp : Bool) (sc : BitVec 2)
deriving DecidableEq, Repr

/-- Address operand of ldmx and stmx, with a 9-bit offset (R105). -/
inductive MxAddr where
  | off (s : SReg) (imm : BitVec 9) | post (a : AReg)
deriving DecidableEq, Repr

/-! ## Operand records, by form -/

/-- Register form of a scalar word (R76). -/
structure RRR where
  (d a b : SReg)
deriving DecidableEq, Repr

/-- Immediate form of a scalar word. -/
structure RRI where
  (d a : SReg) (imm : BitVec 17)
deriving DecidableEq, Repr

/-- Shift-immediate form. -/
structure RRS where
  (d a : SReg) (sh : BitVec 6)
deriving DecidableEq, Repr

/-- Unary form. -/
structure RR where
  (d a : SReg)
deriving DecidableEq, Repr

/-- bfx and bfi (R79); sx is reserved for bfi. -/
structure BfOp where
  (d a : SReg) (pos : BitVec 6) (len : BitVec 7) (sx : Bool)
deriving DecidableEq, Repr

/-- The two forms of movhi (R80). -/
inductive MovHi where
  | mid (d : SReg) (imm : BitVec 25) | top (d : SReg) (imm : BitVec 14)
deriving DecidableEq, Repr

/-- Conditions of brc (R81). -/
inductive BrcCond where
  | eq | ne | lt | ge | ltn | gen
deriving DecidableEq, Repr

/-- Conditions of brp (R81). -/
inductive BrpCond where
  | any | all | none
deriving DecidableEq, Repr

/-- brc. -/
structure BrcOp where
  (cond : BrcCond) (a b : SReg) (imm : BitVec 17)
deriving DecidableEq, Repr

/-- brp. -/
structure BrpOp where
  (cond : BrpCond) (p : PReg) (imm : BitVec 17)
deriving DecidableEq, Repr

/-- lset (R83). -/
structure LSetOp where
  (n : SReg) (i : Bool) (e : BitVec 2) (imm : BitVec 17)
deriving DecidableEq, Repr

/-- Special registers of movs (R87). -/
inductive SpecReg where
  | cyc | tile | iter0 | iter1 | iter2 | iter3 | iter4 | iter5 | vrb | loopst | lleft | launch | wave | tags | pcnow
deriving DecidableEq, Repr

/-- Address-register modes (R88). -/
inductive AMode where
  | lin | circ | brev
deriving DecidableEq, Repr

/-- amode (R89). -/
structure AModeOp where
  (d : AReg) (base stride modulus : SReg) (mode : AMode)
deriving DecidableEq, Repr

/-- The two forms of amov (R90). -/
inductive AMovOp where
  | toS (d : SReg) (a : AReg) | toA (d : AReg) (a : SReg)
deriving DecidableEq, Repr

/-- Barrier levels (R265). -/
inductive BarLevel where
  | t | d | p
deriving DecidableEq, Repr

/-- Scalar loads ldb, ldh, ldw (R96). -/
structure SLdOp where
  (d : SReg) (sx : Bool) (addr : Addr)
deriving DecidableEq, Repr

/-- ldd. -/
structure DLdOp where
  (d : LdDst) (addr : Addr)
deriving DecidableEq, Repr

/-- stb, sth, stw. -/
structure SStOp where
  (d : SReg) (addr : Addr)
deriving DecidableEq, Repr

/-- std. -/
structure DStOp where
  (d : LdDst) (addr : Addr)
deriving DecidableEq, Repr

/-- ldv. -/
structure VLdOp where
  (d : VLdDst) (ew : BitVec 2) (addr : GAddr)
deriving DecidableEq, Repr

/-- ldvs. -/
structure VLdSOp where
  (d : VLdDst) (ew : BitVec 2) (addr : GAddr) (stride : SReg)
deriving DecidableEq, Repr

/-- stv. -/
structure VStOp where
  (d : VStSrc) (ew : BitVec 2) (addr : GAddr)
deriving DecidableEq, Repr

/-- stvs. -/
structure VStSOp where
  (d : VStSrc) (ew : BitVec 2) (addr : GAddr) (stride : SReg)
deriving DecidableEq, Repr

/-- ldg (R104). -/
structure GLdOp where
  (d : VLdDst) (base : SReg) (idx : VReg) (sp sgn : Bool) (sc : BitVec 2)
deriving DecidableEq, Repr

/-- stg. -/
structure GStOp where
  (d : VStSrc) (base : SReg) (idx : VReg) (sp sgn : Bool) (sc : BitVec 2)
deriving DecidableEq, Repr

/-- lds. -/
structure BLdOp where
  (d : VLdDst) (ew : BitVec 2) (addr : SpAddr)
deriving DecidableEq, Repr

/-- ldss. -/
structure BLdSOp where
  (d : VLdDst) (ew : BitVec 2) (addr : SpAddr) (stride : SReg)
deriving DecidableEq, Repr

/-- sts. -/
structure BStOp where
  (d : VStSrc) (ew : BitVec 2) (addr : SpAddr)
deriving DecidableEq, Repr

/-- stss. -/
structure BStSOp where
  (d : VStSrc) (ew : BitVec 2) (addr : SpAddr) (stride : SReg)
deriving DecidableEq, Repr

/-- ldmx and stmx (R105); n is the block count less one. -/
structure MxOp where
  (d : VReg) (fmt : Mx) (n : BitVec 3) (addr : MxAddr) (scale : SReg)
deriving DecidableEq, Repr

/-- ldt and stt (R208). -/
structure TileOp where
  (d : VReg) (scope : Scope) (addr : GAddr) (shape : SReg)
deriving DecidableEq, Repr

/-- ixld and ixst (R171, R172); for ixst d is the descriptor and desc is zero. -/
structure IxLdOp where
  (d : SReg) (addr : GAddr) (desc : SReg)
deriving DecidableEq, Repr

/-- ixst. -/
structure IxStOp where
  (desc : SReg) (addr : GAddr)
deriving DecidableEq, Repr

/-- pref (R106). -/
structure PrefOp where
  (addr : GAddr) (lines : BitVec 2)
deriving DecidableEq, Repr

/-- Operations of atom (R254). -/
inductive AtomOp where
  | add | and | or | xor | min | max | minn | maxn | swap | fadd
deriving DecidableEq, Repr

/-- Operations of red (R254). -/
inductive RedOp where
  | add | or | min | max | fadd
deriving DecidableEq, Repr

/-- Ordering flags (R254). -/
inductive Ord where
  | none | acq | rel | ar
deriving DecidableEq, Repr

/-- atom; w64 selects 64-bit operands. -/
structure AtomOpnd where
  (d a b : SReg) (w64 : Bool) (op : AtomOp) (ord : Ord) (scope : Scope)
deriving DecidableEq, Repr

/-- acas. -/
structure AcasOp where
  (d a b c : SReg) (w64 : Bool) (ord : Ord) (scope : Scope)
deriving DecidableEq, Repr

/-- Operand of red: a scalar or a vector. -/
inductive RedSrc where
  | s (n : SReg) | v (n : VReg)
deriving DecidableEq, Repr

/-- red. -/
structure RedOpnd where
  (d : RedSrc) (a : SReg) (w64 : Bool) (op : RedOp) (ord : Ord) (scope : Scope)
deriving DecidableEq, Repr

/-- Two-operand floating words (R132). -/
structure FBin where
  (d : VDst) (a : VSrc) (b : BSrc) (ty : Ty) (rnd : Rnd) (sat : Bool)
deriving DecidableEq, Repr

/-- fma, fms, fnma. -/
structure FTern where
  (d : VDst) (a : VSrc) (b : BSrc) (c : VSrc) (ty : Ty) (rnd : Rnd) (sat : Bool)
deriving DecidableEq, Repr

/-- Unary floating words with rounding (R135). -/
structure FUn where
  (d : VDst) (a : VSrc) (ty : Ty) (rnd : Rnd) (sat : Bool)
deriving DecidableEq, Repr

/-- Two-operand words without rounding. -/
structure VBin where
  (d : VDst) (a : VSrc) (b : BSrc) (ty : Ty)
deriving DecidableEq, Repr

/-- Two-operand integer words that may saturate. -/
structure VBinSat where
  (d : VDst) (a : VSrc) (b : BSrc) (ty : Ty) (sat : Bool)
deriving DecidableEq, Repr

/-- imad. -/
structure VTernSat where
  (d : VDst) (a : VSrc) (b : BSrc) (c : VSrc) (ty : Ty) (sat : Bool)
deriving DecidableEq, Repr

/-- Unary words without rounding. -/
structure VUn where
  (d : VDst) (a : VSrc) (ty : Ty)
deriving DecidableEq, Repr

/-- iabs. -/
structure VUnSat where
  (d : VDst) (a : VSrc) (ty : Ty) (sat : Bool)
deriving DecidableEq, Repr

/-- Conditions of fcmp (R136). -/
inductive FCond where
  | eq | ne | lt | le | gt | ge | un | or
deriving DecidableEq, Repr

/-- Conditions of icmp. -/
inductive ICond where
  | eq | ne | lt | le | gt | ge
deriving DecidableEq, Repr

/-- fcmp. -/
structure FCmpOp where
  (d : PReg) (a : VSrc) (b : BSrc) (ty : Ty) (sel : BitVec 2) (cond : FCond)
deriving DecidableEq, Repr

/-- icmp. -/
structure ICmpOp where
  (d : PReg) (a : VSrc) (b : BSrc) (ty : Ty) (sel : BitVec 2) (cond : ICond)
deriving DecidableEq, Repr

/-- fcvt and icvt (R138). -/
structure CvtOp where
  (d : VDst) (a : VSrc) (ty sty : Ty) (h : BitVec 2) (rnd : Rnd) (sat : Bool)
deriving DecidableEq, Repr

/-- sel (R140). -/
structure SelOp where
  (d : VDst) (a b : VSrc) (p : PReg)
deriving DecidableEq, Repr

/-- movv. -/
structure MovvOp where
  (d : VDst) (a : VSrc)
deriving DecidableEq, Repr

/-- bcast. -/
structure BcastOp where
  (d : VDst) (a : SSrc) (ty : Ty)
deriving DecidableEq, Repr

/-- extr (R141). -/
structure ExtrOp where
  (d : SReg) (a : VSrc) (i : SSrc) (ty : Ty)
deriving DecidableEq, Repr

/-- iota (R142). -/
structure IotaOp where
  (d : VDst) (a : SReg) (step : SSrc) (ty : Ty) (sat : Bool)
deriving DecidableEq, Repr

/-- perm (R143). -/
structure PermOp where
  (d : VDst) (a b c : VSrc)
deriving DecidableEq, Repr

/-- Kinds of shfl (R144). -/
inductive ShflKind where
  | rot | dn | up | xor
deriving DecidableEq, Repr

/-- shfl. -/
structure ShflOp where
  (d : VDst) (a : VSrc) (cnt : SSrc) (kind : ShflKind)
deriving DecidableEq, Repr

/-- rdadd, rdmax, rdmin (R146); rnd and sat are used by rdadd alone. -/
structure RdOp where
  (d : RDst) (a : VSrc) (ty : Ty) (rnd : Rnd) (sat : Bool)
deriving DecidableEq, Repr

/-- Operations of scan (R147). -/
inductive ScanKind where
  | add | max | min
deriving DecidableEq, Repr

/-- scan. -/
structure ScanOp where
  (d : VDst) (a : VSrc) (ty : Ty) (op : ScanKind) (rnd : Rnd) (sat : Bool)
deriving DecidableEq, Repr

/-- topk (R148). -/
structure TopkOp where
  (d c : VReg) (a : VSrc) (k : SSrc) (ty : Ty)
deriving DecidableEq, Repr

/-- vhist (R151). -/
structure VhistOp where
  (d : VReg) (a : VSrc) (g : SSrc) (ty : Ty) (acc : Bool)
deriving DecidableEq, Repr

/-- digit (R150). -/
structure DigitOp where
  (d : VDst) (a : VSrc) (pre : SSrc) (ty : Ty) (pos : BitVec 5) (len : BitVec 4)
deriving DecidableEq, Repr

/-- pcnt. -/
structure PcntOp where
  (d : SReg) (a : PReg)
deriving DecidableEq, Repr

/-- pand, por, pxor. -/
structure PBinOp where
  (d a b : PReg)
deriving DecidableEq, Repr

/-- pnot. -/
structure PUnOp where
  (d a : PReg)
deriving DecidableEq, Repr

/-- mma and mmaw (R195); d is zero for mma, cb selects a coded B with descriptor c. -/
structure MmaOp where
  (a b : SReg) (cb : Option SReg) (wa wb : Mx) (ks : BitVec 7) (za : Bool) (acc : BitVec 4)
deriving DecidableEq, Repr

/-- mmaw. -/
structure MmawOp where
  (d : SReg) (m : MmaOp)
deriving DecidableEq, Repr

/-- ard (R203). -/
structure ArdOp where
  (d : VDst) (c : SReg) (acc : BitVec 4) (idx : BitVec 6) (col : Bool)
deriving DecidableEq, Repr

/-- awr (R204). -/
structure AwrOp where
  (a : VSrc) (acc : BitVec 4) (idx : BitVec 6) (col : Bool)
deriving DecidableEq, Repr

/-- Formats of adrn (R205). -/
inductive DrainFmt where
  | f32 | f16 | bf16 | mx8 | mx6 | mx4
deriving DecidableEq, Repr

/-- adrn. -/
structure AdrnOp where
  (a : SReg) (fmt : DrainFmt) (rnd : Rnd) (sat za : Bool) (acc : BitVec 4)
deriving DecidableEq, Repr

/-- mstat (R206). -/
structure MstatOp where
  (d : SReg) (clr : Bool)
deriving DecidableEq, Repr

/-- Kinds of cpy (R218). -/
inductive CpyKind where
  | plain | cvt | ef | pln | pak | tps
deriving DecidableEq, Repr

/-- cpy. -/
structure CpyOp where
  (d a b c : SReg) (kind : CpyKind) (scope : Scope) (acq rel ip ssp dsp : Bool) (ring : Option GReg)
deriving DecidableEq, Repr

/-- cpyf (R235). -/
structure CpyfOp where
  (d a b c : SReg) (ring : Option GReg)
deriving DecidableEq, Repr

/-- Operations of cred (R278). -/
inductive CredKind where
  | sumF32 | sumI32 | maxF32 | minF32 | smx
deriving DecidableEq, Repr

/-- Flags shared by the collective and Unveil words. -/
structure CmdFlags where
  (scope : Scope) (acq rel : Bool) (ring : Option GReg)
deriving DecidableEq, Repr

/-- cred. -/
structure CredOp where
  (d a b c : SReg) (op : CredKind) (fl : CmdFlags)
deriving DecidableEq, Repr

/-- cmc. -/
structure CmcOp where
  (d a b c : SReg) (fl : CmdFlags)
deriving DecidableEq, Repr

/-- cbar: a holds the shape. -/
structure CbarOp where
  (d a : SReg) (fl : CmdFlags)
deriving DecidableEq, Repr

/-- unv (R244). -/
structure UnvOp where
  (d a : SReg) (fl : CmdFlags)
deriving DecidableEq, Repr

/-- patclr (R246). -/
structure PatclrOp where
  (d a b : SReg) (fl : CmdFlags)
deriving DecidableEq, Repr

/-- cbld and cbst (R162). -/
structure CbMemOp where
  (d : CReg) (a : SReg) (sp : Bool)
deriving DecidableEq, Repr

/-- cbget (R163). -/
structure CbGetOp where
  (d : VDst) (a : CReg) (q : BitVec 2)
deriving DecidableEq, Repr

/-- cbput (R164). -/
structure CbPutOp where
  (d : CReg) (a : VSrc) (q : BitVec 2)
deriving DecidableEq, Repr

/-- The three forms of cbcnt (R165). -/
inductive CbCntOp where
  | set (d : CReg) (a : SReg) (ty : CbTy)
  | rd (d : SReg) (a : CReg)
  | rt (d : SReg) (a : CReg) (b : SReg)
deriving DecidableEq, Repr

/-- ixremap (R167). -/
structure IxRemapOp where
  (d : SReg) (a : CReg) (b : SReg) (n : Bool)
deriving DecidableEq, Repr

/-- cbenc (R168). -/
structure CbEncOp where
  (d : SReg) (a : VSrc) (b c : SReg)
deriving DecidableEq, Repr

/-- cbdec (R169). -/
structure CbDecOp where
  (d : VDst) (a b : SReg)
deriving DecidableEq, Repr

/-- Operations of cbpair (R181). -/
inductive PairKind where
  | add | sub | mul | max | min
deriving DecidableEq, Repr

/-- cbpair. -/
structure CbPairOp where
  (a b : CReg) (rnd : Rnd) (sat : Bool) (op : PairKind)
deriving DecidableEq, Repr

/-- ixpair (R182). -/
structure IxPairOp where
  (d a b c : SReg)
deriving DecidableEq, Repr

/-- reclust (R186). -/
structure ReclustOp where
  (d : CReg) (a b c : SReg) (k : BitVec 9)
deriving DecidableEq, Repr

/-- The five forms of bsget (R184). -/
inductive BsGetOp where
  | e (d : VDst) (a : SReg) | h (d : VDst) (a : SReg) | r (d : VDst) (a : SReg)
  | st (d : SReg) | cst (d : SReg)
deriving DecidableEq, Repr

/-- System registers (R297). -/
inductive SysReg where
  | vflags | vtrapen | cst | epol | phcfg | tcause | tpc | tepc | tval | tvec | tscr0 | tscr1 | rqstat | tvrb | troot
deriving DecidableEq, Repr

/-- mfs (R298). -/
structure MfsOp where
  (d : SReg) (reg : SysReg) (drain : Bool)
deriving DecidableEq, Repr

/-- mts. -/
structure MtsOp where
  (reg : SysReg) (a : SReg)
deriving DecidableEq, Repr

/-- Entry number of a replay-queue word (R303). -/
inductive RqSel where
  | imm (n : BitVec 5) | s (a : SReg)
deriving DecidableEq, Repr

/-- rqrd. -/
structure RqrdOp where
  (d c : SReg) (n : RqSel)
deriving DecidableEq, Repr

/-! ## Parameters of the machine's own steps -/

/-- The banked frame a step acts on: the user frame or the handler frame (R289). -/
inductive FrameSel where
  | user | handler
deriving DecidableEq, Repr

/-- The strand's two access FIFOs (R109). -/
inductive Fifo where
  | l | s
deriving DecidableEq, Repr

/-- The engine whose command a step acts on: the tile's copy channel or its Unveil FIFO. -/
inductive CmdEng where
  | chan | unveil
deriving DecidableEq, Repr

/-- A mesh direction, in the order N, E, S, W of FSTAT.VOTES (R351). -/
inductive Dir where
  | n | e | s | w
deriving DecidableEq, Repr

/-- Kinds of access that a translation checks (R314). -/
inductive AccKind where
  | read | write | atomic | fetch
deriving DecidableEq, Repr

/-- How the words of a security request were signed, as the ROM verified it (R369). -/
inductive Signer where
  | vendor | owner (slot : BitVec 2)
deriving DecidableEq, Repr

/-- What happened to the block of a compressed-block recovery (R344): whether the second read and the replica's read
succeed. -/
structure BlockTry where
  (rereadOk replicaOk : Bool)
deriving DecidableEq, Repr

/-- One contribution to a collective instance, as it reaches the combining point (R279, R281). -/
structure Contribution where
  (group : BitVec 4) (inst : Nat) (index : Nat) (op : BitVec 3) (kind : BitVec 2) (count : Nat) (root : Nat)
  (data : List (BitVec 32))
deriving DecidableEq, Repr

/-- A host or peer request to BAR2 (R357). -/
inductive BusReq where
  | read (len : Nat) | write (data : List Byte)
deriving DecidableEq, Repr

/-- A request to the device's seal key (R377): sign an image-cache entry, or verify one against the source's hash and the loader's
version. -/
structure SealReq where
  (verify : Bool) (srcHash : BitVec 512) (level : BitVec 8) (loader : BitVec 64) (image : List Byte) (sig : BitVec 1056)
  (wantHash : BitVec 512) (wantLoader : BitVec 64)
deriving DecidableEq, Repr

/-! ## The instruction and step set

The first constructors are the words of R71, with the shared fields first; those from resultWrite on are the rows of the
table that are steps of the machine, with what chooses the step. -/

/-- Every row of the opcode table. -/
inductive Instr where
  | nop (h : Hdr)
  | br (h : Hdr) (imm : BitVec 17)
  | brc (h : Hdr) (o : BrcOp)
  | brp (h : Hdr) (o : BrpOp)
  | bri (h : Hdr) (a : SReg) (link : Bool)
  | call (h : Hdr) (imm : BitVec 17)
  | ret (h : Hdr)
  | movi (h : Hdr) (d : SReg) (imm : BitVec 25)
  | movhi (h : Hdr) (o : MovHi)
  | add (h : Hdr) (o : RRR)
  | sub (h : Hdr) (o : RRR)
  | addi (h : Hdr) (o : RRI)
  | mul (h : Hdr) (o : RRR)
  | mulh (h : Hdr) (o : RRR)
  | mulhn (h : Hdr) (o : RRR)
  | div (h : Hdr) (o : RRR)
  | divn (h : Hdr) (o : RRR)
  | rem (h : Hdr) (o : RRR)
  | remn (h : Hdr) (o : RRR)
  | and (h : Hdr) (o : RRR)
  | or (h : Hdr) (o : RRR)
  | xor (h : Hdr) (o : RRR)
  | andi (h : Hdr) (o : RRI)
  | ori (h : Hdr) (o : RRI)
  | xori (h : Hdr) (o : RRI)
  | shl (h : Hdr) (o : RRR)
  | shr (h : Hdr) (o : RRR)
  | sar (h : Hdr) (o : RRR)
  | shli (h : Hdr) (o : RRS)
  | shri (h : Hdr) (o : RRS)
  | sari (h : Hdr) (o : RRS)
  | min (h : Hdr) (o : RRR)
  | max (h : Hdr) (o : RRR)
  | minn (h : Hdr) (o : RRR)
  | maxn (h : Hdr) (o : RRR)
  | clz (h : Hdr) (o : RR)
  | popc (h : Hdr) (o : RR)
  | bfx (h : Hdr) (o : BfOp)
  | bfi (h : Hdr) (o : BfOp)
  | seq (h : Hdr) (o : RRR)
  | slt (h : Hdr) (o : RRR)
  | sltn (h : Hdr) (o : RRR)
  | lset (h : Hdr) (o : LSetOp)
  | loopb (h : Hdr) (imm : BitVec 17)
  | lexit (h : Hdr)
  | movs (h : Hdr) (d : SReg) (r : SpecReg)
  | amode (h : Hdr) (o : AModeOp)
  | amov (h : Hdr) (o : AMovOp)
  | waitt (h : Hdr) (a : SReg)
  | waits (h : Hdr) (mask : BitVec 7)
  | waita (h : Hdr) (d a : SReg) (trap : Bool)
  | rwaite (h : Hdr) (d : SReg) (g : GReg)
  | rwaitf (h : Hdr) (d : SReg) (g : GReg)
  | mon (h : Hdr) (a : SReg)
  | moncl (h : Hdr)
  | bar (h : Hdr) (lvl : BarLevel) (id : BitVec 4)
  | rinit (h : Hdr) (d : GReg) (a b : SReg)
  | ldb (h : Hdr) (o : SLdOp)
  | ldh (h : Hdr) (o : SLdOp)
  | ldw (h : Hdr) (o : SLdOp)
  | ldd (h : Hdr) (o : DLdOp)
  | ldv (h : Hdr) (o : VLdOp)
  | ldvs (h : Hdr) (o : VLdSOp)
  | ldg (h : Hdr) (o : GLdOp)
  | lds (h : Hdr) (o : BLdOp)
  | ldss (h : Hdr) (o : BLdSOp)
  | ldmx (h : Hdr) (o : MxOp)
  | ldt (h : Hdr) (o : TileOp)
  | kvlook (h : Hdr) (o : RRR)
  | ixld (h : Hdr) (o : IxLdOp)
  | pref (h : Hdr) (o : PrefOp)
  | rfree (h : Hdr) (g : GReg)
  | mark (h : Hdr) (sc : Scope)
  | markS (h : Hdr) (sc : Scope)
  | fadd (h : Hdr) (o : FBin)
  | fsub (h : Hdr) (o : FBin)
  | fmul (h : Hdr) (o : FBin)
  | fma (h : Hdr) (o : FTern)
  | fms (h : Hdr) (o : FTern)
  | fnma (h : Hdr) (o : FTern)
  | fmin (h : Hdr) (o : VBin)
  | fmax (h : Hdr) (o : VBin)
  | fabs (h : Hdr) (o : VUn)
  | fneg (h : Hdr) (o : VUn)
  | fcpys (h : Hdr) (o : VBin)
  | fdiv (h : Hdr) (o : FBin)
  | fsqrt (h : Hdr) (o : FUn)
  | frcp (h : Hdr) (o : FUn)
  | frsq (h : Hdr) (o : FUn)
  | fexp2 (h : Hdr) (o : FUn)
  | flog2 (h : Hdr) (o : FUn)
  | fcmp (h : Hdr) (o : FCmpOp)
  | fclass (h : Hdr) (o : VUn)
  | fcvt (h : Hdr) (o : CvtOp)
  | fscalb (h : Hdr) (o : FBin)
  | icvt (h : Hdr) (o : CvtOp)
  | iadd (h : Hdr) (o : VBinSat)
  | isub (h : Hdr) (o : VBinSat)
  | imul (h : Hdr) (o : VBinSat)
  | imulh (h : Hdr) (o : VBin)
  | imad (h : Hdr) (o : VTernSat)
  | imin (h : Hdr) (o : VBin)
  | imax (h : Hdr) (o : VBin)
  | iabs (h : Hdr) (o : VUnSat)
  | iand (h : Hdr) (o : VBin)
  | ior (h : Hdr) (o : VBin)
  | ixor (h : Hdr) (o : VBin)
  | inot (h : Hdr) (o : VUn)
  | ishl (h : Hdr) (o : VBin)
  | ishr (h : Hdr) (o : VBin)
  | isar (h : Hdr) (o : VBin)
  | icmp (h : Hdr) (o : ICmpOp)
  | sel (h : Hdr) (o : SelOp)
  | movv (h : Hdr) (o : MovvOp)
  | bcast (h : Hdr) (o : BcastOp)
  | extr (h : Hdr) (o : ExtrOp)
  | iota (h : Hdr) (o : IotaOp)
  | perm (h : Hdr) (o : PermOp)
  | shfl (h : Hdr) (o : ShflOp)
  | rdadd (h : Hdr) (o : RdOp)
  | rdmax (h : Hdr) (o : RdOp)
  | rdmin (h : Hdr) (o : RdOp)
  | scan (h : Hdr) (o : ScanOp)
  | topk (h : Hdr) (o : TopkOp)
  | vhist (h : Hdr) (o : VhistOp)
  | okey (h : Hdr) (o : VUn)
  | okeyi (h : Hdr) (o : VUn)
  | digit (h : Hdr) (o : DigitOp)
  | pcnt (h : Hdr) (o : PcntOp)
  | pand (h : Hdr) (o : PBinOp)
  | por (h : Hdr) (o : PBinOp)
  | pxor (h : Hdr) (o : PBinOp)
  | pnot (h : Hdr) (o : PUnOp)
  | mma (h : Hdr) (o : MmaOp)
  | mmaw (h : Hdr) (o : MmawOp)
  | aclr (h : Hdr) (mask : BitVec 16)
  | ard (h : Hdr) (o : ArdOp)
  | awr (h : Hdr) (o : AwrOp)
  | adrn (h : Hdr) (o : AdrnOp)
  | mstat (h : Hdr) (o : MstatOp)
  | stb (h : Hdr) (o : SStOp)
  | sth (h : Hdr) (o : SStOp)
  | stw (h : Hdr) (o : SStOp)
  | std (h : Hdr) (o : DStOp)
  | stv (h : Hdr) (o : VStOp)
  | stvs (h : Hdr) (o : VStSOp)
  | stg (h : Hdr) (o : GStOp)
  | sts (h : Hdr) (o : BStOp)
  | stss (h : Hdr) (o : BStSOp)
  | stmx (h : Hdr) (o : MxOp)
  | stt (h : Hdr) (o : TileOp)
  | ixst (h : Hdr) (o : IxStOp)
  | atom (h : Hdr) (o : AtomOpnd)
  | acas (h : Hdr) (o : AcasOp)
  | red (h : Hdr) (o : RedOpnd)
  | rpub (h : Hdr) (g : GReg)
  | fence (h : Hdr) (sc : Scope)
  | cpy (h : Hdr) (o : CpyOp)
  | cpyf (h : Hdr) (o : CpyfOp)
  | cpyq (h : Hdr) (o : RR)
  | cred (h : Hdr) (o : CredOp)
  | cmc (h : Hdr) (o : CmcOp)
  | cbar (h : Hdr) (o : CbarOp)
  | unv (h : Hdr) (o : UnvOp)
  | patclr (h : Hdr) (o : PatclrOp)
  | cbld (h : Hdr) (o : CbMemOp)
  | cbst (h : Hdr) (o : CbMemOp)
  | cbget (h : Hdr) (o : CbGetOp)
  | cbput (h : Hdr) (o : CbPutOp)
  | cbcnt (h : Hdr) (o : CbCntOp)
  | cbdedup (h : Hdr) (c : CReg)
  | ixremap (h : Hdr) (o : IxRemapOp)
  | cbenc (h : Hdr) (o : CbEncOp)
  | cbdec (h : Hdr) (o : CbDecOp)
  | ixmov (h : Hdr) (o : RRR)
  | cbpair (h : Hdr) (o : CbPairOp)
  | ixpair (h : Hdr) (o : IxPairOp)
  | ixhist (h : Hdr) (o : RR)
  | reclust (h : Hdr) (o : ReclustOp)
  | bsget (h : Hdr) (o : BsGetOp)
  | trap (h : Hdr) (brk : Bool) (imm : BitVec 16)
  | tret (h : Hdr)
  | mfs (h : Hdr) (o : MfsOp)
  | mts (h : Hdr) (o : MtsOp)
  | rqrd (h : Hdr) (o : RqrdOp)
  | rqrel (h : Hdr) (n : RqSel)
  | rqdrop (h : Hdr) (n : RqSel)
  | phase (h : Hdr) (a : SReg)
  | icflush (h : Hdr) (a b : SReg)
  | halt (h : Hdr)
  | resultWrite
  | accessPerform (f : FrameSel) (q : Fifo) (k e : Nat)
  | remoteRequest (f : FrameSel) (q : Fifo) (k e : Nat)
  | variableLatencyCompletion (k : Nat)
  | accessResponse (k : Nat)
  | atomicStep (f : FrameSel) (k e : Nat)
  | tileOperationPerform (f : FrameSel) (q : Fifo) (k : Nat)
  | watchWake
  | tokenDeadlock
  | trapEntry
  | handlerFault
  | trapReturn
  | snapshotWrite
  | waittWake
  | waitaDeadline
  | monitorRegistrationAck
  | barrierArrival (f : FrameSel)
  | barrierRelease (id : BitVec 4)
  | ringRegistrationAnswer
  | ringClaimGrant
  | promiseWrite
  | commandStart (eng : CmdEng)
  | commandAcquire (eng : CmdEng)
  | commandAccess (eng : CmdEng) (write : Bool) (k : Nat)
  | commandCompletion (eng : CmdEng)
  | cpyfLineFill
  | readCountExpiry (line : Nat)
  | unveilStateBlockRead
  | unveilRound
  | patclrClear
  | contributionArrival (src : Option Contribution)
  | matrixCommandStart
  | kStepCompletion
  | matrixCommandCompletion
  | ardSnapshot
  | phaseProceed
  | phaseCommit
  | phaseCancellation
  | strikeReport
  | pageTableWalk (va : BitVec 48)
  | compressedBlockRecovery (pa : BitVec 56) (t : BlockTry)
  | strandRetirement
  | preemption
  | csctlGo
  | ccommit (die : Bool) (cluster : BitVec 4) (val : Word)
  | strandStart (die : Bool) (cluster : BitVec 4)
  | launchRecord (die : Bool) (pair : BitVec 3)
  | launchQueueSignal (hart : BitVec 3) (iid : BitVec 11)
  | completionRecord (die : Bool) (pair : BitVec 3)
  | heartbeatPeriod
  | heartbeat (src : Dir) (flit : Word) (crcOk : Bool)
  | vote (src : Dir) (flit : Word)
  | fenceNotice (src : Dir) (flit : Word)
  | selfTestCompletion (pass : Bool)
  | appeal (src : Dir) (flit : Word) (crcOk : Bool)
  | readmitVote (src : Dir) (flit : Word)
  | readmit
  | force
  | orphcntRead (die : Bool)
  | bclostRead (die : Bool)
  | bstatWrite (die : Bool) (bank : BitVec 11) (val : Word)
  | membercfgWrite (val : Word)
  | queuePairEnable (die : Bool) (pair : BitVec 3) (val : Word)
  | tinvcGo (die : Bool) (val : Word)
  | invalidationComplete (die : Bool)
  | fwctlGo
  | enrolKey (slot : BitVec 2) (hash : BitVec 512) (by_ : Signer)
  | revokeSlot (slot : BitVec 2) (by_ : Signer)
  | raiseSvnFloor (floor : BitVec 32) (by_ : Signer)
  | setVlock (by_ : Signer)
  | attestationRequest (nonce : BitVec 512)
  | bar2Access (off : BitVec 40) (req : BusReq)
  | clockReferenceLoss
  | thermalStop (die : Bool)
  | powerUp
  | registerWrite (off : BitVec 32) (val : Word)
  | wordSplit
  | lineEviction (line : Nat)
  | ownerAcknowledgement
  | monclAcknowledgement
  | contextImageDone
  | firmwareLoadCompletion
  | brodnisPortTraining (die : Bool) (port : BitVec 4) (up : Bool)
  | timeBeacon (val : Nat)
  | sealRequest (r : SealReq)
deriving DecidableEq, Repr

/-- The engine of a word (R71); the machine's own steps have none. -/
def Instr.eng : Instr → Option Eng
  | .nop _ | .br _ _ | .brc _ _ | .brp _ _ | .bri _ _ _ | .call _ _ | .ret _ | .movi _ _ _ | .movhi _ _
  | .add _ _ | .sub _ _ | .addi _ _ | .mul _ _ | .mulh _ _ | .mulhn _ _ | .div _ _ | .divn _ _ | .rem _ _
  | .remn _ _ | .and _ _ | .or _ _ | .xor _ _ | .andi _ _ | .ori _ _ | .xori _ _ | .shl _ _ | .shr _ _
  | .sar _ _ | .shli _ _ | .shri _ _ | .sari _ _ | .min _ _ | .max _ _ | .minn _ _ | .maxn _ _ | .clz _ _
  | .popc _ _ | .bfx _ _ | .bfi _ _ | .seq _ _ | .slt _ _ | .sltn _ _ | .lset _ _ | .loopb _ _ | .lexit _
  | .movs _ _ _ | .amode _ _ | .amov _ _ | .waitt _ _ | .waits _ _ | .waita _ _ _ _ | .rwaite _ _ _
  | .rwaitf _ _ _ | .mon _ _ | .moncl _ | .bar _ _ _ | .rinit _ _ _ _ => some .ctrl
  | .ldb _ _ | .ldh _ _ | .ldw _ _ | .ldd _ _ | .ldv _ _ | .ldvs _ _ | .ldg _ _ | .lds _ _ | .ldss _ _
  | .ldmx _ _ | .ldt _ _ | .kvlook _ _ | .ixld _ _ | .pref _ _ | .rfree _ _ | .mark _ _ => some .load
  | .markS _ _ | .stb _ _ | .sth _ _ | .stw _ _ | .std _ _ | .stv _ _ | .stvs _ _ | .stg _ _ | .sts _ _
  | .stss _ _ | .stmx _ _ | .stt _ _ | .ixst _ _ | .atom _ _ | .acas _ _ | .red _ _ | .rpub _ _ | .fence _ _ => some .store
  | .fadd _ _ | .fsub _ _ | .fmul _ _ | .fma _ _ | .fms _ _ | .fnma _ _ | .fmin _ _ | .fmax _ _ | .fabs _ _
  | .fneg _ _ | .fcpys _ _ | .fdiv _ _ | .fsqrt _ _ | .frcp _ _ | .frsq _ _ | .fexp2 _ _ | .flog2 _ _
  | .fcmp _ _ | .fclass _ _ | .fcvt _ _ | .fscalb _ _ | .icvt _ _ | .iadd _ _ | .isub _ _ | .imul _ _
  | .imulh _ _ | .imad _ _ | .imin _ _ | .imax _ _ | .iabs _ _ | .iand _ _ | .ior _ _ | .ixor _ _ | .inot _ _
  | .ishl _ _ | .ishr _ _ | .isar _ _ | .icmp _ _ | .sel _ _ | .movv _ _ | .bcast _ _ | .extr _ _ | .iota _ _
  | .perm _ _ | .shfl _ _ | .rdadd _ _ | .rdmax _ _ | .rdmin _ _ | .scan _ _ | .topk _ _ | .vhist _ _
  | .okey _ _ | .okeyi _ _ | .digit _ _ | .pcnt _ _ | .pand _ _ | .por _ _ | .pxor _ _ | .pnot _ _ => some .vec
  | .mma _ _ | .mmaw _ _ | .aclr _ _ | .ard _ _ | .awr _ _ | .adrn _ _ | .mstat _ _ => some .mat
  | .cpy _ _ | .cpyf _ _ | .cpyq _ _ | .cred _ _ | .cmc _ _ | .cbar _ _ | .unv _ _ | .patclr _ _ => some .async
  | .cbld _ _ | .cbst _ _ | .cbget _ _ | .cbput _ _ | .cbcnt _ _ | .cbdedup _ _ | .ixremap _ _ | .cbenc _ _
  | .cbdec _ _ | .ixmov _ _ | .cbpair _ _ | .ixpair _ _ | .ixhist _ _ | .reclust _ _ | .bsget _ _ => some .code
  | .trap _ _ _ | .tret _ | .mfs _ _ | .mts _ _ | .rqrd _ _ | .rqrel _ _ | .rqdrop _ _ | .phase _ _
  | .icflush _ _ _ | .halt _ => some .sys
  | .resultWrite | .accessPerform _ _ _ _ | .accessResponse _ | .atomicStep _ _ _ | .tileOperationPerform _ _ _
  | .watchWake | .tokenDeadlock | .trapEntry | .handlerFault | .trapReturn | .snapshotWrite | .waittWake
  | .waitaDeadline | .monitorRegistrationAck | .barrierArrival _ | .barrierRelease _ | .ringRegistrationAnswer
  | .ringClaimGrant | .promiseWrite | .commandStart _ | .commandAcquire _ | .commandAccess _ _ _
  | .commandCompletion _ | .cpyfLineFill | .readCountExpiry _ | .unveilStateBlockRead | .unveilRound
  | .patclrClear | .contributionArrival _ | .matrixCommandStart | .kStepCompletion | .matrixCommandCompletion
  | .ardSnapshot | .phaseProceed | .phaseCommit | .phaseCancellation | .strikeReport | .pageTableWalk _
  | .compressedBlockRecovery _ _ | .strandRetirement | .preemption | .csctlGo | .ccommit _ _ _
  | .strandStart _ _ | .launchRecord _ _ | .launchQueueSignal _ _ | .completionRecord _ _ | .heartbeatPeriod
  | .heartbeat _ _ _ | .vote _ _ | .fenceNotice _ _ | .selfTestCompletion _ | .appeal _ _ _ | .readmitVote _ _
  | .readmit | .force | .orphcntRead _ | .bclostRead _ | .bstatWrite _ _ _ | .membercfgWrite _
  | .queuePairEnable _ _ _ | .tinvcGo _ _ | .invalidationComplete _ | .fwctlGo | .enrolKey _ _ _
  | .revokeSlot _ _ | .raiseSvnFloor _ _ | .setVlock _ | .attestationRequest _ | .bar2Access _ _
  | .remoteRequest _ _ _ _ | .clockReferenceLoss | .thermalStop _ | .powerUp | .registerWrite _ _ | .wordSplit
  | .variableLatencyCompletion _ | .lineEviction _ | .ownerAcknowledgement | .monclAcknowledgement
  | .contextImageDone | .firmwareLoadCompletion | .brodnisPortTraining _ _ _ | .timeBeacon _ | .sealRequest _ => none

/-- The shared fields of a word. -/
def Instr.hdr : Instr → Hdr
  | .nop h | .br h _ | .brc h _ | .brp h _ | .bri h _ _ | .call h _ | .ret h | .movi h _ _ | .movhi h _
  | .add h _ | .sub h _ | .addi h _ | .mul h _ | .mulh h _ | .mulhn h _ | .div h _ | .divn h _ | .rem h _
  | .remn h _ | .and h _ | .or h _ | .xor h _ | .andi h _ | .ori h _ | .xori h _ | .shl h _ | .shr h _
  | .sar h _ | .shli h _ | .shri h _ | .sari h _ | .min h _ | .max h _ | .minn h _ | .maxn h _ | .clz h _
  | .popc h _ | .bfx h _ | .bfi h _ | .seq h _ | .slt h _ | .sltn h _ | .lset h _ | .loopb h _ | .lexit h
  | .movs h _ _ | .amode h _ | .amov h _ | .waitt h _ | .waits h _ | .waita h _ _ _ | .rwaite h _ _
  | .rwaitf h _ _ | .mon h _ | .moncl h | .bar h _ _ | .rinit h _ _ _ | .ldb h _ | .ldh h _ | .ldw h _
  | .ldd h _ | .ldv h _ | .ldvs h _ | .ldg h _ | .lds h _ | .ldss h _ | .ldmx h _ | .ldt h _ | .kvlook h _
  | .ixld h _ | .pref h _ | .rfree h _ | .mark h _ | .markS h _ | .fadd h _ | .fsub h _ | .fmul h _ | .fma h _
  | .fms h _ | .fnma h _ | .fmin h _ | .fmax h _ | .fabs h _ | .fneg h _ | .fcpys h _ | .fdiv h _ | .fsqrt h _
  | .frcp h _ | .frsq h _ | .fexp2 h _ | .flog2 h _ | .fcmp h _ | .fclass h _ | .fcvt h _ | .fscalb h _
  | .icvt h _ | .iadd h _ | .isub h _ | .imul h _ | .imulh h _ | .imad h _ | .imin h _ | .imax h _ | .iabs h _
  | .iand h _ | .ior h _ | .ixor h _ | .inot h _ | .ishl h _ | .ishr h _ | .isar h _ | .icmp h _ | .sel h _
  | .movv h _ | .bcast h _ | .extr h _ | .iota h _ | .perm h _ | .shfl h _ | .rdadd h _ | .rdmax h _
  | .rdmin h _ | .scan h _ | .topk h _ | .vhist h _ | .okey h _ | .okeyi h _ | .digit h _ | .pcnt h _
  | .pand h _ | .por h _ | .pxor h _ | .pnot h _ | .mma h _ | .mmaw h _ | .aclr h _ | .ard h _ | .awr h _
  | .adrn h _ | .mstat h _ | .stb h _ | .sth h _ | .stw h _ | .std h _ | .stv h _ | .stvs h _ | .stg h _
  | .sts h _ | .stss h _ | .stmx h _ | .stt h _ | .ixst h _ | .atom h _ | .acas h _ | .red h _ | .rpub h _
  | .fence h _ | .cpy h _ | .cpyf h _ | .cpyq h _ | .cred h _ | .cmc h _ | .cbar h _ | .unv h _ | .patclr h _
  | .cbld h _ | .cbst h _ | .cbget h _ | .cbput h _ | .cbcnt h _ | .cbdedup h _ | .ixremap h _ | .cbenc h _
  | .cbdec h _ | .ixmov h _ | .cbpair h _ | .ixpair h _ | .ixhist h _ | .reclust h _ | .bsget h _ | .trap h _ _
  | .tret h | .mfs h _ | .mts h _ | .rqrd h _ | .rqrel h _ | .rqdrop h _ | .phase h _ | .icflush h _ _
  | .halt h => h
  | .resultWrite | .accessPerform _ _ _ _ | .accessResponse _ | .atomicStep _ _ _ | .tileOperationPerform _ _ _
  | .watchWake | .tokenDeadlock | .trapEntry | .handlerFault | .trapReturn | .snapshotWrite | .waittWake
  | .waitaDeadline | .monitorRegistrationAck | .barrierArrival _ | .barrierRelease _ | .ringRegistrationAnswer
  | .ringClaimGrant | .promiseWrite | .commandStart _ | .commandAcquire _ | .commandAccess _ _ _
  | .commandCompletion _ | .cpyfLineFill | .readCountExpiry _ | .unveilStateBlockRead | .unveilRound
  | .patclrClear | .contributionArrival _ | .matrixCommandStart | .kStepCompletion | .matrixCommandCompletion
  | .ardSnapshot | .phaseProceed | .phaseCommit | .phaseCancellation | .strikeReport | .pageTableWalk _
  | .compressedBlockRecovery _ _ | .strandRetirement | .preemption | .csctlGo | .ccommit _ _ _
  | .strandStart _ _ | .launchRecord _ _ | .launchQueueSignal _ _ | .completionRecord _ _ | .heartbeatPeriod
  | .heartbeat _ _ _ | .vote _ _ | .fenceNotice _ _ | .selfTestCompletion _ | .appeal _ _ _ | .readmitVote _ _
  | .readmit | .force | .orphcntRead _ | .bclostRead _ | .bstatWrite _ _ _ | .membercfgWrite _
  | .queuePairEnable _ _ _ | .tinvcGo _ _ | .invalidationComplete _ | .fwctlGo | .enrolKey _ _ _
  | .revokeSlot _ _ | .raiseSvnFloor _ _ | .setVlock _ | .attestationRequest _ | .bar2Access _ _
  | .remoteRequest _ _ _ _ | .clockReferenceLoss | .thermalStop _ | .powerUp | .registerWrite _ _ | .wordSplit
  | .variableLatencyCompletion _ | .lineEviction _ | .ownerAcknowledgement | .monclAcknowledgement
  | .contextImageDone | .firmwareLoadCompletion | .brodnisPortTraining _ _ _ | .timeBeacon _ | .sealRequest _ => Hdr.zero

end Sys2Proof
end

