-- ==== Sys2Proof/Machine/Bits.lean ====
section
/-! DEFINITION. Bit fields, element layout and byte order: the helpers every family uses (R1, R22, R23). -/

namespace Sys2Proof.Machine

/-- Width of an element type (R22). -/
def tyWidth : Ty → Nat
  | .f32 | .i32 | .n32 => 32
  | .f16 | .bf16 | .i16 | .n16 => 16
  | .i8 | .n8 => 8
  | .i64 | .n64 => 64

/-- Elements of a type in a vector register (R22). -/
def tyCount (t : Ty) : Nat := 2048 / tyWidth t

/-- An i type (R22). -/
def tySigned : Ty → Bool
  | .i32 | .i16 | .i8 | .i64 => true
  | _ => false

/-- A floating type (R25). -/
def tyFloat : Ty → Bool
  | .f32 | .f16 | .bf16 => true
  | _ => false

/-- Element e of width w of a flat value. -/
def elem {n : Nat} (w : Nat) (x : BitVec n) (e : Nat) : BitVec w := x.extractLsb' (w * e) w

/-- Flat value with f e as element e of width w, for e below cnt. -/
def buildElems (n w cnt : Nat) (f : Nat → BitVec w) : BitVec n :=
  (List.range cnt).foldl (fun acc e => acc ||| ((f e).setWidth n <<< (w * e))) 0

/-- A flat value with element e of width w replaced. -/
def putElem {n : Nat} (w : Nat) (x : BitVec n) (e : Nat) (v : BitVec w) : BitVec n :=
  (x &&& ~~~(((BitVec.allOnes w).setWidth n) <<< (w * e))) ||| ((v.setWidth n) <<< (w * e))

/-- Bits of `new` where `mask` is one, of `old` elsewhere. -/
def blend {n : Nat} (mask new old : BitVec n) : BitVec n := (new &&& mask) ||| (old &&& ~~~mask)

/-- The lane that holds the start of element e of width w (R23): its predicate bit governs the element. -/
def laneOf (w e : Nat) : Nat := e * w / 32

/-- Bits of the enabled elements of width w, of cnt elements, under a lane predicate (R57, R128). -/
def elemMask (w cnt : Nat) (p : Word) : VWord :=
  buildElems 2048 w cnt fun e => if p.getLsbD (laneOf w e) then BitVec.allOnes w else 0

/-- Value as an integer in a signedness. -/
def toZ {w : Nat} (signed : Bool) (x : BitVec w) : Int := if signed then x.toInt else (x.toNat : Int)

/-- Extension of an element to a scalar (R23). -/
def extendTo64 {w : Nat} (signed : Bool) (x : BitVec w) : Word := if signed then x.signExtend 64 else x.setWidth 64

/-- n little-endian bytes of a value (R1). -/
def toBytes {k : Nat} (n : Nat) (x : BitVec k) : List Byte := (List.range n).map fun i => x.extractLsb' (8 * i) 8

/-- The value of little-endian bytes (R1). -/
def ofBytes (k : Nat) : List Byte → BitVec k
  | [] => 0
  | b :: r => (b.setWidth k) ||| (ofBytes k r <<< 8)

/-- The bits `lo` and up of a value, `w` of them. -/
def bits {n : Nat} (x : BitVec n) (lo w : Nat) : BitVec w := x.extractLsb' lo w

/-- A truth value as a bit of a register. -/
def flag64 (b : Bool) : Word := if b then 1 else 0

/-- The low bits of a value in reverse order, n of them (R101). -/
def revBits (n x : Nat) : Nat :=
  (List.range n).foldl (fun acc i => if x.testBit i then acc + 2 ^ (n - 1 - i) else acc) 0

/-- Position of the highest one bit of x, plus one; fuel bounds the search. -/
def bitLen (fuel : Nat) (x : Nat) : Nat :=
  match fuel with
  | 0 => 0
  | k + 1 => if x = 0 then 0 else 1 + bitLen k (x / 2)

/-- Number of one bits among the low n. -/
def popCount (n x : Nat) : Nat := (List.range n).foldl (fun acc i => if x.testBit i then acc + 1 else acc) 0

/-- The list with member k replaced. -/
def setAt {α : Type} : List α → Nat → α → List α
  | [], _, _ => []
  | _ :: r, 0, y => y :: r
  | x :: r, k + 1, y => x :: setAt r k y

/-- The list without member k. -/
def dropAt {α : Type} : List α → Nat → List α
  | [], _ => []
  | _ :: r, 0 => r
  | x :: r, k + 1 => x :: dropAt r k

end Sys2Proof.Machine
end

