-- ==== Sys2Proof/Machine/Float.lean ====
section
/-! DEFINITION. Floating-point formats, exact values and the one rounding of R25–R30: every engine's arithmetic is built from
these. A finite value is (−1)^neg · m · 2^e, exactly. -/

namespace Sys2Proof.Machine

/-- A format (R25): exponent bits and fraction bits. -/
structure Fmt where
  eb : Nat
  fb : Nat
deriving DecidableEq, Repr

def fmtF32 : Fmt := ⟨8, 23⟩
def fmtF16 : Fmt := ⟨5, 10⟩
def fmtBf16 : Fmt := ⟨8, 7⟩

/-- The format of a floating type. -/
def fmtOf : Ty → Fmt
  | .f16 => fmtF16
  | .bf16 => fmtBf16
  | _ => fmtF32

def Fmt.bias (f : Fmt) : Int := 2 ^ (f.eb - 1) - 1
def Fmt.emin (f : Fmt) : Int := 1 - f.bias
/-- All ones in the exponent field. -/
def Fmt.expMax (f : Fmt) : Nat := 2 ^ f.eb - 1
def Fmt.signBit (f : Fmt) (neg : Bool) : Nat := if neg then 2 ^ (f.eb + f.fb) else 0
def Fmt.inf (f : Fmt) (neg : Bool) : Nat := f.signBit neg + f.expMax * 2 ^ f.fb
def Fmt.maxFin (f : Fmt) (neg : Bool) : Nat := f.inf neg - 1
def Fmt.zero (f : Fmt) (neg : Bool) : Nat := f.signBit neg
/-- The canonical NaN (R25). -/
def Fmt.nan (f : Fmt) : Nat := f.expMax * 2 ^ f.fb + 2 ^ (f.fb - 1)

/-- What a bit pattern stands for. -/
inductive FVal where
  | nan (signalling : Bool)
  | inf (neg : Bool)
  | fin (neg : Bool) (m : Nat) (e : Int)
deriving DecidableEq, Repr

/-- The value of a pattern; with `flush`, a subnormal is read as a zero of its sign (R30). -/
def Fmt.val (f : Fmt) (flush : Bool) (x : Nat) : FVal :=
  let neg := x.testBit (f.eb + f.fb)
  let ex := x / 2 ^ f.fb % 2 ^ f.eb
  let fr := x % 2 ^ f.fb
  if ex = f.expMax then (if fr = 0 then .inf neg else .nan (fr < 2 ^ (f.fb - 1)))
  else if ex = 0 then (if flush then .fin neg 0 0 else .fin neg fr (f.emin - f.fb))
  else .fin neg (fr + 2 ^ f.fb) ((ex : Int) - f.bias - f.fb)

def FVal.isNan : FVal → Bool
  | .nan _ => true
  | _ => false
def FVal.isSnan : FVal → Bool
  | .nan s => s
  | _ => false
def FVal.isInf : FVal → Bool
  | .inf _ => true
  | _ => false
def FVal.isZero : FVal → Bool
  | .fin _ 0 _ => true
  | _ => false
def FVal.neg : FVal → Bool
  | .nan _ => false
  | .inf s => s
  | .fin s _ _ => s
def FVal.negate : FVal → FVal
  | .nan s => .nan s
  | .inf s => .inf !s
  | .fin s m e => .fin (!s) m e

/-! ## Flags (R153): NV, DZ, OF, UF, NX at bits 4 to 0 -/

abbrev FFlags := BitVec 5
def flNV : FFlags := 16
def flDZ : FFlags := 8
def flOF : FFlags := 4
def flUF : FFlags := 2
def flNX : FFlags := 1
def flIf (b : Bool) (f : FFlags) : FFlags := if b then f else 0

/-- A rounded result: its bits and the flags it sets. -/
structure FRes where
  bits : Nat
  fl : FFlags
deriving DecidableEq, Repr

/-- How a result is finished (R27, R28, R30). -/
structure FMode where
  rnd : Rnd
  sat : Bool
  flush : Bool
deriving DecidableEq, Repr

/-- RNE, subnormals honoured, no saturation: the engines of R30's list. -/
def fRNE : FMode := ⟨.rne, false, false⟩

/-! ## Rounding -/

/-- Whether the magnitude rounds up: `half` compares the discarded part with one half (0 zero, 1 below, 2 equal, 3 above). -/
def roundsUp (rnd : Rnd) (neg odd : Bool) (half : Nat) : Bool :=
  match rnd with
  | .rne => half == 3 || (half == 2 && odd)
  | .rtz => false
  | .rdn => neg && half != 0
  | .rup => !neg && half != 0

/-- m · 2^sh rounded to an integer, and whether that was inexact. -/
def roundShift (rnd : Rnd) (neg : Bool) (m : Nat) (sh : Int) : Nat × Bool :=
  if 0 ≤ sh then (m * 2 ^ sh.toNat, false)
  else
    let d := (-sh).toNat
    if m.log2 + 2 < d then (if m = 0 then (0, false) else (if roundsUp rnd neg false 1 then 1 else 0, true))
    else
      let q := m / 2 ^ d
      let r := m % 2 ^ d
      let h := 2 ^ (d - 1)
      let half := if r = 0 then 0 else if r < h then 1 else if r = h then 2 else 3
      (if roundsUp rnd neg (q % 2 = 1) half then q + 1 else q, r != 0)

/-- Infinity or the largest finite, beyond the largest finite (R27). -/
def overflowsToInf (rnd : Rnd) (neg : Bool) : Bool :=
  match rnd with
  | .rne => true
  | .rtz => false
  | .rdn => neg
  | .rup => !neg

/-- The exact value (−1)^neg · m · 2^e, m ≠ 0, rounded once and finished (R27, R28, R30). -/
def Fmt.roundFin (f : Fmt) (md : FMode) (neg : Bool) (m : Nat) (e : Int) : FRes :=
  if m = 0 then ⟨f.zero neg, 0⟩
  else
    let top : Int := e + m.log2
    let (q, inx) := roundShift md.rnd neg m (e - (top - f.fb))
    let top' : Int := if q = 2 ^ (f.fb + 1) then top + 1 else top
    let q' := if q = 2 ^ (f.fb + 1) then 2 ^ f.fb else q
    if f.bias < top' then
      let inf := overflowsToInf md.rnd neg && !md.sat
      ⟨if inf then f.inf neg else f.maxFin neg, flOF ||| flNX⟩
    else if top' < f.emin then
      if md.flush then ⟨f.zero neg, flUF ||| flNX⟩
      else
        let (k, inx') := roundShift md.rnd neg m (e - (f.emin - f.fb))
        ⟨f.signBit neg + k, if inx' then flUF ||| flNX else 0⟩
    else ⟨f.signBit neg + ((top' + f.bias).toNat * 2 ^ f.fb + (q' - 2 ^ f.fb)), flIf inx flNX⟩

/-- An infinity as a result (R28). -/
def Fmt.mkInf (f : Fmt) (md : FMode) (neg : Bool) : Nat := if md.sat then f.maxFin neg else f.inf neg

/-- A NaN result (R26). -/
def Fmt.mkNan (f : Fmt) (nv : Bool) : FRes := ⟨f.nan, flIf nv flNV⟩

/-- A value carried to a format: fcvt between floating types, and results that are exact (R26–R30). -/
def Fmt.finish (f : Fmt) (md : FMode) : FVal → FRes
  | .nan s => f.mkNan s
  | .inf n => ⟨f.mkInf md n, 0⟩
  | .fin n m e => f.roundFin md n m e

/-! ## Exact sums and products of finite values -/

/-- The exact sum as a signed mantissa and an exponent. -/
def exactAdd (n1 : Bool) (m1 : Nat) (e1 : Int) (n2 : Bool) (m2 : Nat) (e2 : Int) : Int × Int :=
  let e := if e1 ≤ e2 then e1 else e2
  let a : Int := m1 * 2 ^ (e1 - e).toNat
  let b : Int := m2 * 2 ^ (e2 - e).toNat
  ((if n1 then -a else a) + (if n2 then -b else b), e)

/-- The sum of finite values, rounded; the sign of an exact zero sum is that of R27. A zero operand's exponent does not
matter. -/
def Fmt.addFin (f : Fmt) (md : FMode) (n1 : Bool) (m1 : Nat) (e1 : Int) (n2 : Bool) (m2 : Nat) (e2 : Int) : FRes :=
  if m1 = 0 && m2 = 0 then ⟨f.zero (if n1 == n2 then n1 else md.rnd == .rdn), 0⟩
  else if m1 = 0 then f.roundFin md n2 m2 e2
  else if m2 = 0 then f.roundFin md n1 m1 e1
  else
    let (s, e) := exactAdd n1 m1 e1 n2 m2 e2
    if s = 0 then ⟨f.zero (md.rnd == .rdn), 0⟩ else f.roundFin md (decide (s < 0)) s.natAbs e

/-- a + b (R132). -/
def Fmt.add (f : Fmt) (md : FMode) (a b : FVal) : FRes :=
  match a, b with
  | .nan s, _ => f.mkNan (s || b.isSnan)
  | _, .nan s => f.mkNan s
  | .inf n1, .inf n2 => if n1 = n2 then ⟨f.mkInf md n1, 0⟩ else f.mkNan true
  | .inf n1, _ => ⟨f.mkInf md n1, 0⟩
  | _, .inf n2 => ⟨f.mkInf md n2, 0⟩
  | .fin n1 m1 e1, .fin n2 m2 e2 => f.addFin md n1 m1 e1 n2 m2 e2

/-- a × b (R132). -/
def Fmt.mul (f : Fmt) (md : FMode) (a b : FVal) : FRes :=
  match a, b with
  | .nan s, _ => f.mkNan (s || b.isSnan)
  | _, .nan s => f.mkNan s
  | .inf n1, .inf n2 => ⟨f.mkInf md (n1 != n2), 0⟩
  | .inf n1, .fin n2 m _ => if m = 0 then f.mkNan true else ⟨f.mkInf md (n1 != n2), 0⟩
  | .fin n1 m _, .inf n2 => if m = 0 then f.mkNan true else ⟨f.mkInf md (n1 != n2), 0⟩
  | .fin n1 m1 e1, .fin n2 m2 e2 => f.roundFin md (n1 != n2) (m1 * m2) (e1 + e2)

/-- a × b + c with one rounding (R132): 0 × ∞ sets invalid whatever the addend. -/
def Fmt.fma (f : Fmt) (md : FMode) (a b c : FVal) : FRes :=
  let badProd := (a.isInf && b.isZero) || (a.isZero && b.isInf)
  if badProd then f.mkNan true
  else if a.isNan || b.isNan || c.isNan then f.mkNan (a.isSnan || b.isSnan || c.isSnan)
  else
    match a, b with
    | .fin n1 m1 e1, .fin n2 m2 e2 =>
      match c with
      | .fin n3 m3 e3 => f.addFin md (n1 != n2) (m1 * m2) (e1 + e2) n3 m3 e3
      | _ => ⟨f.mkInf md c.neg, 0⟩
    | _, _ =>
      let n := a.neg != b.neg
      match c with
      | .inf n3 => if n = n3 then ⟨f.mkInf md n, 0⟩ else f.mkNan true
      | _ => ⟨f.mkInf md n, 0⟩

/-- a / b (R132). The quotient is formed with more bits than any format keeps, and a last bit that says whether more
followed. -/
def Fmt.div (f : Fmt) (md : FMode) (a b : FVal) : FRes :=
  match a, b with
  | .nan s, _ => f.mkNan (s || b.isSnan)
  | _, .nan s => f.mkNan s
  | .inf _, .inf _ => f.mkNan true
  | .inf n1, .fin n2 _ _ => ⟨f.mkInf md (n1 != n2), 0⟩
  | .fin n1 _ _, .inf n2 => ⟨f.zero (n1 != n2), 0⟩
  | .fin n1 m1 e1, .fin n2 m2 e2 =>
    if m2 = 0 then (if m1 = 0 then f.mkNan true else ⟨f.mkInf md (n1 != n2), flDZ⟩)
    else
      let k := f.fb + 6 + m2.log2
      let q := m1 * 2 ^ k / m2
      let r := m1 * 2 ^ k % m2
      f.roundFin md (n1 != n2) (2 * q + (if r = 0 then 0 else 1)) (e1 - e2 - k - 1)

/-- a × 2^k (R132). -/
def Fmt.scalb (f : Fmt) (md : FMode) (a : FVal) (k : Int) : FRes :=
  match a with
  | .fin n m e => f.roundFin md n m (e + k)
  | x => f.finish md x

/-! ## Minimum, maximum, compare (R133, R136) -/

/-- Order of two numbers: the exact comparison of finite values. -/
def finLt (n1 : Bool) (m1 : Nat) (e1 : Int) (n2 : Bool) (m2 : Nat) (e2 : Int) : Bool := decide ((exactAdd n1 m1 e1 (!n2) m2 e2).1 < 0)

/-- a < b as numbers, −0 = +0; false with a NaN. -/
def FVal.lt (a b : FVal) : Bool :=
  match a, b with
  | .nan _, _ | _, .nan _ => false
  | .inf n1, .inf n2 => n1 && !n2
  | .inf n1, .fin _ _ _ => n1
  | .fin _ _ _, .inf n2 => !n2
  | .fin n1 m1 e1, .fin n2 m2 e2 => finLt n1 m1 e1 n2 m2 e2

/-- a = b as numbers. -/
def FVal.eq (a b : FVal) : Bool := !a.isNan && !b.isNan && !a.lt b && !b.lt a

/-- a before b in the order of R133, which puts −0 below +0. -/
def FVal.below (a b : FVal) : Bool := a.lt b || (a.isZero && b.isZero && a.neg && !b.neg)

/-- The bits a flushed operand shows: a subnormal as a zero of its sign (R133). -/
def Fmt.flushed (f : Fmt) (flush : Bool) (x : Nat) : Nat :=
  if flush && x / 2 ^ f.fb % 2 ^ f.eb == 0 then x / 2 ^ (f.eb + f.fb) * 2 ^ (f.eb + f.fb) else x

/-- fmin and fmax (R133). -/
def Fmt.minMax (f : Fmt) (isMax flush : Bool) (x y : Nat) : FRes :=
  let x := f.flushed flush x
  let y := f.flushed flush y
  let a := f.val false x
  let b := f.val false y
  let fl := flIf (a.isSnan || b.isSnan) flNV
  if a.isNan && b.isNan then ⟨f.nan, fl⟩
  else if a.isNan then ⟨y, fl⟩
  else if b.isNan then ⟨x, fl⟩
  else ⟨if (if isMax then a.below b else b.below a) then y else x, fl⟩

/-- fcmp (R136). -/
def fcmpHolds (k : FCond) (a b : FVal) : Bool :=
  let un := a.isNan || b.isNan
  match k with
  | .eq => a.eq b
  | .ne => un || !a.eq b
  | .lt => a.lt b
  | .le => !un && !b.lt a
  | .gt => b.lt a
  | .ge => !un && !a.lt b
  | .un => un
  | .or => !un

/-- fclass (R137): the number of the one bit set. -/
def Fmt.classBit (f : Fmt) (x : Nat) : Nat :=
  match f.val false x with
  | .nan s => if s then 8 else 9
  | .inf n => if n then 0 else 7
  | .fin n m _ =>
    if m = 0 then (if n then 3 else 4)
    else if m < 2 ^ f.fb then (if n then 2 else 5)
    else if n then 1 else 6

/-! ## Integers (R24, R29) -/

def intMin (signed : Bool) (w : Nat) : Int := if signed then -(2 ^ (w - 1)) else 0
def intMax (signed : Bool) (w : Nat) : Int := if signed then 2 ^ (w - 1) - 1 else 2 ^ w - 1

/-- An exact integer reduced once to a type (R24). -/
def intFinish (signed : Bool) (w : Nat) (sat : Bool) (x : Int) : BitVec w :=
  if sat then BitVec.ofInt w (if x < intMin signed w then intMin signed w else if intMax signed w < x then intMax signed w else x)
  else BitVec.ofInt w x

/-- A floating value to an integer type (R29). -/
def floatToInt (signed : Bool) (w : Nat) (rnd : Rnd) : FVal → BitVec w × FFlags
  | .nan _ => (0, flNV)
  | .inf n => (BitVec.ofInt w (if n then intMin signed w else intMax signed w), flNV)
  | .fin n m e =>
    if 0 ≤ e ∧ (w : Int) + 1 < e ∧ m ≠ 0 then (BitVec.ofInt w (if n then intMin signed w else intMax signed w), flNV)
    else
      let (q, inx) := roundShift rnd n m e
      let z : Int := if n then -(q : Int) else q
      if z < intMin signed w then (BitVec.ofInt w (intMin signed w), flNV)
      else if intMax signed w < z then (BitVec.ofInt w (intMax signed w), flNV)
      else (BitVec.ofInt w z, flIf inx flNX)

/-- An integer to a floating format (R29). -/
def Fmt.ofInt (f : Fmt) (md : FMode) (z : Int) : FRes := f.roundFin md (decide (z < 0)) z.natAbs 0

end Sys2Proof.Machine
end

