-- ==== Sys2Proof/Machine/FloatFun.lean ====
section
/-! DEFINITION. Square root, reciprocals, 2^x and log2 x (R135), correctly rounded; the code unit's and the collectives'
arithmetic builds on them. The irrational results are formed to more than 240 bits, which log entry 9 takes to decide every
rounding. -/

namespace Sys2Proof.Machine

/-- floor(√x), bit by bit from bit k−1 down. -/
def isqrtAux (x : Nat) : (k r : Nat) → Nat
  | 0, r => r
  | k + 1, r =>
    let r' := r + 2 ^ k
    isqrtAux x k (if r' * r' ≤ x then r' else r)

def isqrt (x : Nat) : Nat := isqrtAux x (x.log2 / 2 + 1) 0

/-- √(m · 2^e) to more bits than any format keeps, with a last bit that says whether more followed. -/
def sqrtFin (m : Nat) (e : Int) : Nat × Int :=
  let s : Nat := if (e - 64) % 2 = 0 then 64 else 65
  let x := m * 2 ^ s
  let r := isqrt x
  (2 * r + (if r * r = x then 0 else 1), (e - s) / 2 - 1)

/-- 1/√(m · 2^e), in the same form. -/
def rsqrtFin (m : Nat) (e : Int) : Nat × Int :=
  let (m', e') := if e % 2 = 0 then (m, e) else (2 * m, e - 1)
  let k := 40 + m'.log2
  let r := isqrt (2 ^ (2 * k) / m')
  (2 * r + (if r * r * m' = 2 ^ (2 * k) then 0 else 1), -(e' / 2) - k - 1)

/-- fsqrt (R135). -/
def Fmt.sqrt (f : Fmt) (md : FMode) : FVal → FRes
  | .nan s => f.mkNan s
  | .inf n => if n then f.mkNan true else ⟨f.mkInf md false, 0⟩
  | .fin n m e =>
    if m = 0 then ⟨f.zero n, 0⟩
    else if n then f.mkNan true
    else
      let (q, x) := sqrtFin m e
      f.roundFin md false q x

/-- frcp (R135). -/
def Fmt.rcp (f : Fmt) (md : FMode) (a : FVal) : FRes := f.div md (.fin false 1 0) a

/-- frsq (R135). -/
def Fmt.rsq (f : Fmt) (md : FMode) : FVal → FRes
  | .nan s => f.mkNan s
  | .inf n => if n then f.mkNan true else ⟨f.zero false, 0⟩
  | .fin n m e =>
    if m = 0 then ⟨f.mkInf md n, flDZ⟩
    else if n then f.mkNan true
    else
      let (q, x) := rsqrtFin m e
      f.roundFin md false q x

/-- ln 2 · 2^320, truncated. -/
def ln2Scaled : Nat := 1480553391661173448385607439722553250922680800745876974795605978609098082859138712941075737848984

/-- Σ t^k/k! in units of 2^−320, terms 0 to fuel; `term` is the k-th. -/
def expSum : (fuel k term acc t : Nat) → Nat
  | 0, _, _, acc, _ => acc
  | fuel + 1, k, term, acc, t => expSum fuel (k + 1) (term * t / 2 ^ 320 / (k + 1)) (acc + term) t

/-- 2^(F/2^320) in units of 2^−320, for 0 ≤ F < 2^320. -/
def exp2Frac (F : Nat) : Nat := expSum 80 0 (2 ^ 320) 0 (F * ln2Scaled / 2 ^ 320)

/-- 2^x for a finite x (R135): an integer x is exact. -/
def Fmt.exp2Fin (f : Fmt) (md : FMode) (neg : Bool) (m : Nat) (e : Int) : FRes :=
  if m = 0 then f.roundFin md false 1 0
  else if 20 < e + m.log2 then f.roundFin md false 3 (if neg then -(2 ^ 21) else 2 ^ 21)
  else
    -- x · 2^320 as an integer: every operand of the three formats has no bits below 2^−149
    let z : Int := let a : Int := m * 2 ^ (e + 320).toNat; if neg then -a else a
    let n := z / 2 ^ 320
    let fr := (z % 2 ^ 320).toNat
    if fr = 0 then f.roundFin md false 1 n else f.roundFin md false (2 * exp2Frac fr + 1) (n - 321)

/-- fexp2 (R135). -/
def Fmt.exp2 (f : Fmt) (md : FMode) : FVal → FRes
  | .nan s => f.mkNan s
  | .inf n => if n then ⟨f.zero false, 0⟩ else ⟨f.mkInf md false, 0⟩
  | .fin n m e => f.exp2Fin md n m e

/-- Σ z^(2k+1)/(2k+1) in units of 2^−320, for odd exponents up to 2·fuel. -/
def atanhSum : (fuel k pw acc z2 : Nat) → Nat
  | 0, _, _, acc, _ => acc
  | fuel + 1, k, pw, acc, z2 => atanhSum fuel (k + 1) (pw * z2 / 2 ^ 320) (acc + pw / (2 * k + 1)) z2

/-- log2(m/2^k) in units of 2^−320, for 2^k ≤ m < 2^(k+1): ln y = 2 artanh((y−1)/(y+1)). -/
def log2Mant (m k : Nat) : Nat :=
  let z := (m - 2 ^ k) * 2 ^ 320 / (m + 2 ^ k)
  2 * atanhSum 105 0 z 0 (z * z / 2 ^ 320) * 2 ^ 320 / ln2Scaled

/-- flog2 (R135): exact for a power of two. -/
def Fmt.log2 (f : Fmt) (md : FMode) : FVal → FRes
  | .nan s => f.mkNan s
  | .inf n => if n then f.mkNan true else ⟨f.mkInf md false, 0⟩
  | .fin n m e =>
    if m = 0 then ⟨f.mkInf md true, flDZ⟩
    else if n then f.mkNan true
    else
      let k := m.log2
      let E : Int := e + k
      if m = 2 ^ k then f.ofInt md E
      else
        let z : Int := E * 2 ^ 320 + log2Mant m k
        if z < 0 then f.roundFin md true (2 * z.natAbs - 1) (-321) else f.roundFin md false (2 * z.natAbs + 1) (-321)

end Sys2Proof.Machine
end

