-- ==== Sys2Proof/Machine/MxFmt.lean ====
section
/-! DEFINITION. MX arithmetic: quantisation of a block (R35) and one K-step of an accumulator element (R40, R206). -/

namespace Sys2Proof.Machine

/-- A block of w-bit codes with its scale, and the events of its conversion (R206): a NaN met, a code clamped, a code inexact
(log entry 20). -/
structure MxBlock where
  codes : List Int
  scale : Nat
  fl : FFlags
deriving DecidableEq, Repr

/-- floor(log2) of a nonzero finite value. -/
def floorLog2 (m : Nat) (e : Int) : Int := e + m.log2

/-- QuantiseMX (R35). -/
def quantiseMx (w : Nat) (xs : List FVal) : MxBlock :=
  if xs.any fun x => x.isNan || x.isInf then
    ⟨List.replicate xs.length 0, 255, flIf (xs.any FVal.isNan) flNV⟩
  else
    let tops := xs.filterMap fun x => match x with
      | .fin _ m e => if m = 0 then none else some (floorLog2 m e)
      | _ => none
    match tops with
    | [] => ⟨List.replicate xs.length 0, 0, 0⟩
    | a :: r =>
      let X := r.foldl max a
      let e := (max (X + 127) 0).toNat
      let lim : Int := 2 ^ (w - 1) - 1
      let one (x : FVal) : Int × FFlags := match x with
        | .fin n m k =>
          let (q, inx) := roundShift .rne n m (k + ((w : Int) - 2) + (127 - e))
          let z : Int := if n then -(q : Int) else q
          if z < -lim then (-lim, flOF ||| flNX) else if lim < z then (lim, flOF ||| flNX) else (z, flIf inx flNX)
        | _ => (0, 0)
      let l := xs.map one
      ⟨l.map Prod.fst, e, l.foldl (fun a x => a ||| x.2) 0⟩

/-- The block value of R40 from S ≠ 0 as an exact real, or an infinity. -/
def blockValue (s : Int) (wa wb ea eb : Nat) : FVal :=
  let x : Int := 4 - (wa : Int) - wb + ea + eb - 254
  let m := s.natAbs
  let big : Bool := if 103 ≤ x then decide (2 ^ 25 - 1 ≤ m * 2 ^ (x - 103).toNat) else decide ((2 ^ 25 - 1) * 2 ^ (103 - x).toNat ≤ m)
  if big then .inf (decide (s < 0)) else .fin (decide (s < 0)) m x

/-- BlockStep (R40) on the sum of code products, with the events of R206. -/
def blockStep (acc : Nat) (s : Int) (wa wb ea eb : Nat) : FRes :=
  let a := fmtF32.val false acc
  if ea = 255 ∨ eb = 255 then ⟨fmtF32.nan, flIf (!a.isNan) flNV⟩
  else
    let v := if s = 0 then FVal.fin false 0 0 else blockValue s wa wb ea eb
    let r := fmtF32.add fRNE a v
    let fin := !a.isNan && !a.isInf && !v.isInf
    ⟨r.bits, (if fin then r.fl else 0) ||| flIf v.isInf flOF ||| flIf (!a.isNan && (fmtF32.val false r.bits).isNan) flNV⟩

end Sys2Proof.Machine
end

