-- ==== Sys2Proof/WellFormed.lean ====
section
/-! DEFINITION. Which instructions the encoding admits: the decode checks of R72 that an operand's type does not already
make. -/

namespace Sys2Proof

/-- Width in bits of an element type (R22). -/
def Ty.width : Ty → Nat
  | .f32 | .i32 | .n32 => 32
  | .f16 | .bf16 | .i16 | .n16 => 16
  | .i8 | .n8 => 8
  | .i64 | .n64 => 64

/-- Floating types. -/
def Ty.isFloat : Ty → Bool
  | .f32 | .f16 | .bf16 => true
  | _ => false

/-- Signed integer types. -/
def Ty.isSigned : Ty → Bool
  | .i32 | .i16 | .i8 | .i64 => true
  | _ => false

/-- Unsigned integer types of 8 to 32 bits. -/
def Ty.isN : Ty → Bool
  | .n32 | .n16 | .n8 => true
  | _ => false

/-- Integer types. -/
def Ty.isInt (t : Ty) : Bool := !t.isFloat

/-- No token bit set (R51). -/
def Hdr.noTok (h : Hdr) : Bool := !h.giveF && !h.giveB && !h.takeF && !h.takeB

/-- PRED is 0b0000. -/
def Hdr.noPred (h : Hdr) : Bool := !h.neg && h.preg == 0

/-- Header of a word that allocates no tag (R53). -/
def Hdr.noTag (h : Hdr) : Bool := h.sba == 0

/-- Header of a CTRL or SYS word: no tokens, no tag (R51, R53). -/
def Hdr.isX (h : Hdr) : Bool := h.noTok && h.noTag

/-- Header of a multi-queue word (R48). -/
def Hdr.isMulti (h : Hdr) : Bool := h.noTok && h.noTag && h.noPred

/-- Predicate destinations p1–p3 (R60). -/
def pDest (p : PReg) : Bool := p == 1 || p == 2 || p == 3

/-- SBA is refused on a load into a queue register (R53). -/
def VLdDst.tagOk (h : Hdr) : VLdDst → Bool
  | .v _ => true
  | .qi _ => h.noTag

/-- SBA is refused on a reduction into a queue register (R53). -/
def RDst.tagOk (h : Hdr) : RDst → Bool
  | .qo _ => h.noTag
  | _ => true

/-- SBA is refused on a scan into a queue register (R53). -/
def VDst.tagOk (h : Hdr) : VDst → Bool
  | .qo _ => h.noTag
  | _ => true

/-- ldd may write p1–p3 only (R96). -/
def LdDst.loadOk : LdDst → Bool
  | .s _ => true
  | .p n => pDest n

/-- LEN and POS of bfx and bfi (R79). -/
def BfOp.wf (o : BfOp) : Bool := 1 ≤ o.len.toNat && o.len.toNat ≤ 64 && o.pos.toNat + o.len.toNat ≤ 64

/-- H is below the width ratio (R138). -/
def cvtH (t u : Ty) (h : BitVec 2) : Bool :=
  h.toNat * min t.width u.width < max t.width u.width

/-- Flags of fcvt: a floating source, any type of 8 to 32 bits (R138). -/
def CvtOp.wfF (o : CvtOp) : Bool := o.sty.isFloat && o.ty.width ≤ 32 && cvtH o.ty o.sty o.h

/-- icvt: an integer source of 8 to 32 bits, a floating destination. -/
def CvtOp.wfI (o : CvtOp) : Bool := o.ty.isFloat && o.sty.isInt && o.sty.width ≤ 32 && cvtH o.ty o.sty o.h

/-- SEL names an element of a lane (R136). -/
def selOk (t : Ty) (sel : BitVec 2) : Bool := sel.toNat * t.width < 32

/-- A count immediate in a range. -/
def SSrc.immIn (lo hi : Nat) : SSrc → Bool
  | .s _ => true
  | .imm i => lo ≤ i.toNat && i.toNat ≤ hi

/-- Addresses of lset reach forward (R83). -/
def LSetOp.wf (o : LSetOp) : Bool := 1 ≤ o.imm.toInt

/-- Kinds and flags of cpy (R218). -/
def CpyOp.wf (o : CpyOp) : Bool :=
  match o.kind with
  | .plain | .tps => !o.ip
  | .cvt | .ef => true
  | .pln => !o.ip && !o.ssp && o.dsp
  | .pak => !o.ip && o.ssp && !o.dsp

/-- RND is zero on an MX drain (R205). -/
def AdrnOp.wf (o : AdrnOp) : Bool :=
  match o.fmt with
  | .f32 | .f16 | .bf16 => true
  | .mx8 | .mx6 | .mx4 => o.rnd == .rne

/-- POS and LEN of digit (R150). -/
def DigitOp.wf (o : DigitOp) : Bool :=
  o.ty.isN && 1 ≤ o.len.toNat && o.len.toNat ≤ 8 && o.pos.toNat + o.len.toNat ≤ o.ty.width &&
    (o.ty != .n8 || o.pos.toNat + o.len.toNat == 8)

/-- RND applies to a floating rdadd alone (R146). -/
def RdOp.wfAdd (o : RdOp) : Bool := o.ty.isFloat || o.rnd == .rne

/-- rdmax and rdmin take no RND, no SAT and no 64-bit type. -/
def RdOp.wfMax (o : RdOp) : Bool := o.ty.width ≤ 32 && o.rnd == .rne && !o.sat

/-- scan (R147). -/
def ScanOp.wf (o : ScanOp) : Bool :=
  o.ty.width ≤ 32 && ((o.ty.isFloat && o.op == .add) || o.rnd == .rne)

/-- fadd requires SIZE 2 (R254). -/
def AtomOpnd.wf (o : AtomOpnd) : Bool := o.op != .fadd || !o.w64

/-- fadd and the v form require SIZE 2 (R254). -/
def RedOpnd.wf (o : RedOpnd) : Bool :=
  (o.op != .fadd || !o.w64) && (match o.d with | .s _ => true | .v _ => !o.w64)

/-- cbcnt.set allocates no tag (R165). -/
def CbCntOp.tagOk (h : Hdr) : CbCntOp → Bool
  | .set .. => h.noTag
  | _ => true

/-- The vector forms of bsget allocate no tag (R184). -/
def BsGetOp.tagOk (h : Hdr) : BsGetOp → Bool
  | .st _ | .cst _ => true
  | _ => h.noTag

/-- The decode checks of R72 on an instruction; a step of the machine has none but the range of a port number. -/
def Instr.wf : Instr → Bool
  | .nop h | .br h _ | .brc h _ | .brp h _ | .bri h _ _ | .call h _ | .ret h | .movi h _ _ | .movhi h _
  | .add h _ | .sub h _ | .addi h _ | .mul h _ | .mulh h _ | .mulhn h _ | .div h _ | .divn h _ | .rem h _ | .remn h _
  | .and h _ | .or h _ | .xor h _ | .andi h _ | .ori h _ | .xori h _ | .shl h _ | .shr h _ | .sar h _
  | .shli h _ | .shri h _ | .sari h _ | .min h _ | .max h _ | .minn h _ | .maxn h _ | .clz h _ | .popc h _
  | .seq h _ | .slt h _ | .sltn h _ | .lexit h | .movs h _ _ | .amode h _ | .amov h _
  | .waitt h _ | .waits h _ | .waita h _ _ _ | .rwaite h _ _ | .rwaitf h _ _ | .mon h _ | .moncl h | .rinit h _ _ _
  | .trap h _ _ | .tret h | .mfs h _ | .mts h _ | .rqrd h _ | .rqrel h _ | .rqdrop h _ | .icflush h _ _ | .halt h => h.isX
  | .bfx h o => h.isX && o.wf
  | .bfi h o => h.isX && o.wf && !o.sx
  | .lset h o => h.isMulti && o.wf
  | .loopb h _ | .bar h _ _ | .phase h _ | .mark h _ | .markS h _ => h.isMulti
  | .ldb _ _ | .ldh _ _ | .ldw _ _ => true
  | .ldd _ o => o.d.loadOk
  | .ldv h o => o.d.tagOk h
  | .ldvs h o => o.d.tagOk h
  | .ldg h o => o.d.tagOk h
  | .lds h o => o.d.tagOk h
  | .ldss h o => o.d.tagOk h
  | .ldmx _ _ | .kvlook _ _ | .ixld _ _ => true
  | .ldt _ o => o.scope != .t
  | .pref h _ | .rfree h _ => h.noTag
  | .fadd h o | .fsub h o | .fmul h o | .fdiv h o | .fscalb h o => h.noTag && o.ty.isFloat
  | .fma h o | .fms h o | .fnma h o => h.noTag && o.ty.isFloat
  | .fmin h o | .fmax h o | .fcpys h o => h.noTag && o.ty.isFloat
  | .fabs h o | .fneg h o | .fclass h o => h.noTag && o.ty.isFloat
  | .fsqrt h o | .frcp h o | .frsq h o | .fexp2 h o | .flog2 h o => h.noTag && o.ty.isFloat
  | .fcmp _ o => pDest o.d && o.ty.isFloat && selOk o.ty o.sel
  | .icmp _ o => pDest o.d && o.ty.isInt && (if o.ty.width == 64 then o.sel == 0 else selOk o.ty o.sel)
  | .fcvt h o => h.noTag && o.wfF
  | .icvt h o => h.noTag && o.wfI
  | .iadd h o | .isub h o => h.noTag && o.ty.isInt
  | .imul h o => h.noTag && o.ty.isInt && o.ty.width ≤ 32
  | .imulh h o => h.noTag && o.ty.isInt && o.ty.width ≤ 32
  | .imad h o => h.noTag && o.ty.isInt && o.ty.width ≤ 32
  | .imin h o | .imax h o | .iand h o | .ior h o | .ixor h o | .ishl h o | .ishr h o | .isar h o => h.noTag && o.ty.isInt
  | .iabs h o => h.noTag && o.ty.isSigned
  | .inot h o => h.noTag && o.ty.isInt
  | .sel h _ | .movv h _ | .bcast h _ | .perm h _ => h.noTag
  | .extr _ _ => true
  | .iota h o => h.noTag && o.ty.isInt && o.ty.width ≤ 32
  | .shfl h o => h.noTag && o.cnt.immIn 0 63
  | .rdadd h o => o.d.tagOk h && o.wfAdd
  | .rdmax h o | .rdmin h o => o.d.tagOk h && o.wfMax
  | .scan h o => o.d.tagOk h && o.wf
  | .topk _ o => o.ty.width ≤ 32 && o.k.immIn 1 64 && o.d != o.c
  | .vhist _ o => o.ty.isN && o.g.immIn 0 3
  | .okey h o | .okeyi h o => h.noTag && o.ty.width ≤ 32
  | .digit h o => h.noTag && o.wf
  | .pcnt _ _ => true
  | .pand _ o | .por _ o | .pxor _ o => pDest o.d
  | .pnot _ o => pDest o.d
  | .mma h _ | .awr h _ => h.noTag
  | .mmaw _ _ | .ard _ _ | .mstat _ _ => true
  | .aclr h m => h.noTag && m != 0
  | .adrn h o => h.noTag && o.wf
  | .stb h _ | .sth h _ | .stw h _ => h.noTag
  | .std h _ | .stv h _ | .stvs h _ | .stg h _ | .sts h _ | .stss h _ | .stmx h _ | .ixst h _ | .rpub h _ | .fence h _ => h.noTag
  | .stt h o => h.noTag && o.scope != .t
  | .atom _ o => o.wf
  | .acas _ _ => true
  | .red h o => h.noTag && o.wf
  | .cpy h o => h.noTok && o.wf
  | .cpyf h _ | .cpyq h _ | .cred h _ | .cmc h _ | .cbar h _ | .unv h _ | .patclr h _ => h.noTok
  | .cbld _ _ | .ixremap _ _ | .cbenc _ _ | .ixmov _ _ | .ixpair _ _ | .ixhist _ _ => true
  | .cbst h _ | .cbget h _ | .cbput h _ | .cbdedup h _ | .cbdec h _ | .cbpair h _ => h.noTag
  | .cbcnt h o => o.tagOk h
  | .reclust _ o => 2 ≤ o.k.toNat && o.k.toNat ≤ 256
  | .bsget h o => o.tagOk h
  | .brodnisPortTraining _ p _ => p.toNat < 9
  | .resultWrite | .accessPerform .. | .accessResponse _ | .atomicStep .. | .tileOperationPerform .. | .watchWake
  | .tokenDeadlock | .trapEntry | .handlerFault | .trapReturn | .snapshotWrite | .waittWake | .waitaDeadline
  | .monitorRegistrationAck | .barrierArrival _ | .barrierRelease _ | .ringRegistrationAnswer | .ringClaimGrant
  | .promiseWrite | .commandStart _ | .commandAcquire _ | .commandAccess _ _ _ | .commandCompletion _ | .cpyfLineFill
  | .readCountExpiry _ | .unveilStateBlockRead | .unveilRound | .patclrClear | .contributionArrival _
  | .matrixCommandStart | .kStepCompletion | .matrixCommandCompletion | .ardSnapshot | .phaseProceed | .phaseCommit
  | .phaseCancellation | .strikeReport | .pageTableWalk _ | .compressedBlockRecovery .. | .strandRetirement
  | .preemption | .csctlGo | .ccommit .. | .strandStart .. | .launchRecord .. | .launchQueueSignal ..
  | .completionRecord .. | .heartbeatPeriod | .heartbeat .. | .vote .. | .fenceNotice .. | .selfTestCompletion _
  | .appeal .. | .readmitVote .. | .readmit | .force | .orphcntRead _ | .bclostRead _ | .bstatWrite .. | .membercfgWrite _
  | .queuePairEnable .. | .tinvcGo .. | .invalidationComplete _ | .fwctlGo | .enrolKey .. | .revokeSlot ..
  | .raiseSvnFloor .. | .setVlock _ | .attestationRequest _ | .bar2Access .. | .remoteRequest .. | .clockReferenceLoss
  | .thermalStop _ | .powerUp | .registerWrite .. | .wordSplit | .variableLatencyCompletion _ | .lineEviction _
  | .ownerAcknowledgement | .monclAcknowledgement | .contextImageDone | .firmwareLoadCompletion | .timeBeacon _
  | .sealRequest _ => true

end Sys2Proof
end

