-- ==== Sys2Proof/Config.lean ====
section
/-! DEFINITION. What one part or one implementation fixes, and the values the spec leaves open: the opaque constants
have no value that Lean can see. -/

namespace Sys2Proof.Config

/-- CYC at power-up: the spec aligns the two dies' counters and gives no value. DESIGN CHOICE (log 5), unsafe. -/
def resetClk : Nat := 0

/-- What a byte of HBM that nothing has written reads as: the spec gives no power-up contents. DESIGN CHOICE (log 3),
unsafe. -/
def ramByte : BitVec 8 := 0

/-- Bytes of one member's HBM: 640 GiB (R17). -/
def hbmBytes : Nat := 0xA000000000

/-- Stepping of the part (R360). Free value (log 8). -/
opaque stepping : BitVec 8

/-- Serial number of the module (R360). Free value (log 8). -/
opaque serial : BitVec 64

/-- Which of its places the capability list takes in the identity block (R360). Free value (log 8). -/
opaque capSlot : Nat

/-- BAR0 offset of the first capability (R360): past MEMBERCFG, and the list, 15 words, ends within the block (log 8). -/
def capPtr : BitVec 32 := BitVec.ofNat 32 (0x20 + 8 * (capSlot % 494))

/-- Device ID, class code and MSI-X vectors of each of the two PCIe functions (R356). -/
def deviceId : BitVec 16 := 0x0A08
def classCode : BitVec 24 := 0x120000
def msixVectors : Nat := 64

/-- SHA-512 of the bytes given (R367–R370). Free value (log 8). -/
opaque sha512 : List (BitVec 8) → BitVec 512

/-- Whether a P-521 signature verifies under a key, over a hash (R367). Free value (log 8). -/
opaque ecdsaOk : (key : List (BitVec 8)) → (hash : BitVec 512) → (sig : List (BitVec 8)) → Bool

/-- The signature of the identity key over a hash (R370). Free value (log 8). -/
opaque identitySign : BitVec 512 → BitVec 1056

/-- The signature of the seal key over a hash (R377). Free value (log 8). -/
opaque sealSign : BitVec 512 → BitVec 1056

/-- VERSION of a capability (R361). Free value (log 8). -/
opaque capVersion : Nat → BitVec 8

/-- SHA-512 of the seal public key (R361). Free value (log 8). -/
opaque sealHash : BitVec 512

/-- SHA-512 of the vendor public key, in fuses (R369). Free value (log 8). -/
opaque vendorHash : BitVec 512

/-- The prediction that a channel's queue model gives a cpyq beyond CYC + 1 (R226): its counter is State.freeCnt. Free
value (log 10). -/
opaque prediction : Nat → Nat

/-- SELFOK of a tile's heartbeat (R346), which no rule computes. Its counter is State.freeCnt. Free value (log 72). -/
opaque selfOk : Nat → Bool

/-- Flits that a tile's own traffic injects in a period (R347), of which the spec gives no count. Free value (log 72). -/
opaque traffic : (period tile : Nat) → Nat

/-- The identity of a hart's IMSIC file that an MSI of a kind sets (R342), which the firmware chooses. Free value (log 68). -/
opaque irqIid : Nat → BitVec 11

/-- What the firmware and security block holds beyond its listed registers: the vendor's certificate for the identity key lies there, at
a place the spec does not give (R370). Free value (log 8). -/
opaque securityWord : Nat → BitVec 64

/-- ECC syndrome of an uncorrectable error (R340), which no rule computes. Free value (log 11). -/
opaque syndrome : Nat → BitVec 8

/-- The page-table walker of its die that takes a walk (R339), which no rule chooses. Free value (log 11). -/
opaque walker : Nat → BitVec 10

/-- Whether a home slice keeps a line in the LLC at the moment a rule asks (R123, R235): never a value a program reads.
Free value (log 12). -/
opaque keepLine : Nat → Bool

/-- Byte of a phase-log record (R308, R311): the rows of AB that hold it are the spec's, its layout is not given. Its counter is
State.freeCnt. Free value (log 26). -/
opaque logByte : Nat → Nat → BitVec 8

end Sys2Proof.Config
end

