-- ==== Sys2Proof/Decode.lean ====
section
/-! DEFINITION. The decoder of the 80-bit word (R45, R58, R62, R71, R72) and the encoder. -/

namespace Sys2Proof

/-! ## Fields of the word (R45) -/

/-- The word cut into its fields. -/
structure Fields where
  eng : BitVec 3
  opc : BitVec 8
  h : Hdr
  dst : BitVec 8
  sa : BitVec 8
  sb : BitVec 8
  sc : BitVec 8
  mod : BitVec 17
deriving DecidableEq, Repr

/-- A one-bit field as a truth value. -/
def bitB (b : Bool) : BitVec 1 := BitVec.ofBool b

/-- The fields of a word. -/
def Fields.ofWord (w : IWord) : Fields where
  eng := w.extractLsb' 77 3
  opc := w.extractLsb' 69 8
  h :=
    { giveF := w.getLsbD 68, giveB := w.getLsbD 67, takeF := w.getLsbD 66, takeB := w.getLsbD 65
      pdist := w.extractLsb' 62 3, sba := w.extractLsb' 59 3, sbc0 := w.extractLsb' 56 3, sbc1 := w.extractLsb' 53 3
      neg := w.getLsbD 52, preg := w.extractLsb' 49 3 }
  dst := w.extractLsb' 41 8
  sa := w.extractLsb' 33 8
  sb := w.extractLsb' 25 8
  sc := w.extractLsb' 17 8
  mod := w.extractLsb' 0 17

/-- The word of the fields. -/
def Fields.toWord (f : Fields) : IWord :=
  f.eng ++ f.opc ++ bitB f.h.giveF ++ bitB f.h.giveB ++ bitB f.h.takeF ++ bitB f.h.takeB ++ f.h.pdist ++ f.h.sba ++
    f.h.sbc0 ++ f.h.sbc1 ++ bitB f.h.neg ++ f.h.preg ++ f.dst ++ f.sa ++ f.sb ++ f.sc ++ f.mod

/-! ## Operand numbers (R58) -/

def sReg? (n : BitVec 8) : Option SReg := if n.extractLsb' 5 3 = 0b010#3 then some (n.extractLsb' 0 5) else none
def vReg? (n : BitVec 8) : Option VReg := if n.extractLsb' 6 2 = 0b00#2 then some (n.extractLsb' 0 6) else none
def aReg? (n : BitVec 8) : Option AReg := if n.extractLsb' 3 5 = 0b01100#5 then some (n.extractLsb' 0 3) else none
def qiReg? (n : BitVec 8) : Option QReg := if n.extractLsb' 2 6 = 0b011010#6 then some (n.extractLsb' 0 2) else none
def qoReg? (n : BitVec 8) : Option QReg := if n.extractLsb' 2 6 = 0b011011#6 then some (n.extractLsb' 0 2) else none
def cbReg? (n : BitVec 8) : Option CReg := if n.extractLsb' 4 4 = 0b0111#4 then some (n.extractLsb' 0 4) else none
def pReg? (n : BitVec 8) : Option PReg := if n.extractLsb' 3 5 = 0b10000#5 then some (n.extractLsb' 0 3) else none
def gReg? (n : BitVec 8) : Option GReg :=
  if n.extractLsb' 3 5 = 0b10001#5 then some (0#1 ++ n.extractLsb' 0 3)
  else if n.extractLsb' 3 5 = 0b10010#5 then some (1#1 ++ n.extractLsb' 0 3) else none

def sNum (n : SReg) : BitVec 8 := 0b010#3 ++ n
def vNum (n : VReg) : BitVec 8 := 0b00#2 ++ n
def aNum (n : AReg) : BitVec 8 := 0b01100#5 ++ n
def qiNum (n : QReg) : BitVec 8 := 0b011010#6 ++ n
def qoNum (n : QReg) : BitVec 8 := 0b011011#6 ++ n
def cbNum (n : CReg) : BitVec 8 := 0b0111#4 ++ n
def pNum (n : PReg) : BitVec 8 := 0b10000#5 ++ n
def gNum (n : GReg) : BitVec 8 := 0x88#8 + n.zeroExtend 8

def vSrc? (n : BitVec 8) : Option VSrc :=
  match vReg? n with
  | some r => some (.v r)
  | none => (qiReg? n).map .qi
def vDst? (n : BitVec 8) : Option VDst :=
  match vReg? n with
  | some r => some (.v r)
  | none => (qoReg? n).map .qo
def vLdDst? (n : BitVec 8) : Option VLdDst :=
  match vReg? n with
  | some r => some (.v r)
  | none => (qiReg? n).map .qi
def vStSrc? (n : BitVec 8) : Option VStSrc :=
  match vReg? n with
  | some r => some (.v r)
  | none => (qoReg? n).map .qo
def rDst? (n : BitVec 8) : Option RDst :=
  match sReg? n with
  | some r => some (.s r)
  | none => match vReg? n with
    | some r => some (.v r)
    | none => (qoReg? n).map .qo
def ldDst? (n : BitVec 8) : Option LdDst :=
  match sReg? n with
  | some r => some (.s r)
  | none => (pReg? n).map .p
def redSrc? (n : BitVec 8) : Option RedSrc :=
  match sReg? n with
  | some r => some (.s r)
  | none => (vReg? n).map .v
def bSrc? (sbi : Bool) (n : BitVec 8) : Option BSrc := if sbi then some (.imm n) else (vSrc? n).map .src
def sSrc? (sbi : Bool) (n : BitVec 8) : Option SSrc := if sbi then some (.imm n) else (sReg? n).map .s

def VSrc.num : VSrc → BitVec 8
  | .v n => vNum n
  | .qi n => qiNum n
def VDst.num : VDst → BitVec 8
  | .v n => vNum n
  | .qo n => qoNum n
def VLdDst.num : VLdDst → BitVec 8
  | .v n => vNum n
  | .qi n => qiNum n
def VStSrc.num : VStSrc → BitVec 8
  | .v n => vNum n
  | .qo n => qoNum n
def RDst.num : RDst → BitVec 8
  | .s n => sNum n
  | .v n => vNum n
  | .qo n => qoNum n
def LdDst.num : LdDst → BitVec 8
  | .s n => sNum n
  | .p n => pNum n
def RedSrc.num : RedSrc → BitVec 8
  | .s n => sNum n
  | .v n => vNum n
def BSrc.num : BSrc → BitVec 8
  | .src a => a.num
  | .imm i => i
def BSrc.sbi : BSrc → Bool
  | .src _ => false
  | .imm _ => true
def SSrc.num : SSrc → BitVec 8
  | .s a => sNum a
  | .imm i => i
def SSrc.sbi : SSrc → Bool
  | .s _ => false
  | .imm _ => true

/-! ## Codes of the modifier fields (R22, R27, R62) -/

def Ty.ofCode (c : BitVec 4) : Option Ty :=
  match c.toNat with
  | 0 => some .f32 | 1 => some .f16 | 2 => some .bf16 | 3 => some .i32 | 4 => some .n32 | 5 => some .i16
  | 6 => some .n16 | 7 => some .i8 | 8 => some .n8 | 9 => some .i64 | 10 => some .n64 | _ => none
def Ty.code : Ty → BitVec 4
  | .f32 => 0 | .f16 => 1 | .bf16 => 2 | .i32 => 3 | .n32 => 4 | .i16 => 5 | .n16 => 6 | .i8 => 7 | .n8 => 8
  | .i64 => 9 | .n64 => 10
def Rnd.ofCode (c : BitVec 2) : Rnd :=
  match c.toNat with
  | 0 => .rne | 1 => .rtz | 2 => .rdn | _ => .rup
def Rnd.code : Rnd → BitVec 2
  | .rne => 0 | .rtz => 1 | .rdn => 2 | .rup => 3
def Scope.ofCode (c : BitVec 3) : Option Scope :=
  match c.toNat with
  | 0 => some .t | 1 => some .c | 2 => some .d | 3 => some .p | 4 => some .x | _ => none
def Scope.code : Scope → BitVec 3
  | .t => 0 | .c => 1 | .d => 2 | .p => 3 | .x => 4
def Mx.ofCode (c : BitVec 2) : Option Mx :=
  match c.toNat with
  | 0 => some .w4 | 1 => some .w6 | 2 => some .w8 | _ => none
def Mx.code : Mx → BitVec 2
  | .w4 => 0 | .w6 => 1 | .w8 => 2
def CbTy.ofCode (c : BitVec 2) : CbTy :=
  match c.toNat with
  | 0 => .f32 | 1 => .f16 | 2 => .bf16 | _ => .i32
def CbTy.code : CbTy → BitVec 2
  | .f32 => 0 | .f16 => 1 | .bf16 => 2 | .i32 => 3
def BrcCond.ofCode (c : BitVec 8) : Option BrcCond :=
  match c.toNat with
  | 0 => some .eq | 1 => some .ne | 2 => some .lt | 3 => some .ge | 4 => some .ltn | 5 => some .gen | _ => none
def BrcCond.code : BrcCond → BitVec 8
  | .eq => 0 | .ne => 1 | .lt => 2 | .ge => 3 | .ltn => 4 | .gen => 5
def BrpCond.ofCode (c : BitVec 8) : Option BrpCond :=
  match c.toNat with
  | 0 => some .any | 1 => some .all | 2 => some BrpCond.none | _ => Option.none
def BrpCond.code : BrpCond → BitVec 8
  | .any => 0 | .all => 1 | .none => 2
def SpecReg.ofCode (c : BitVec 8) : Option SpecReg :=
  match c.toNat with
  | 0 => some .cyc | 1 => some .tile | 2 => some .iter0 | 3 => some .iter1 | 4 => some .iter2 | 5 => some .iter3
  | 6 => some .iter4 | 7 => some .iter5 | 8 => some .vrb | 9 => some .loopst | 10 => some .lleft | 11 => some .launch
  | 12 => some .wave | 13 => some .tags | 14 => some .pcnow | _ => none
def SpecReg.code : SpecReg → BitVec 8
  | .cyc => 0 | .tile => 1 | .iter0 => 2 | .iter1 => 3 | .iter2 => 4 | .iter3 => 5 | .iter4 => 6 | .iter5 => 7
  | .vrb => 8 | .loopst => 9 | .lleft => 10 | .launch => 11 | .wave => 12 | .tags => 13 | .pcnow => 14
def AMode.ofCode (c : BitVec 2) : Option AMode :=
  match c.toNat with
  | 0 => some .lin | 1 => some .circ | 2 => some .brev | _ => none
def AMode.code : AMode → BitVec 2
  | .lin => 0 | .circ => 1 | .brev => 2
def BarLevel.ofCode (c : BitVec 2) : Option BarLevel :=
  match c.toNat with
  | 0 => some .t | 1 => some .d | 2 => some .p | _ => none
def BarLevel.code : BarLevel → BitVec 2
  | .t => 0 | .d => 1 | .p => 2
def AtomOp.ofCode (c : BitVec 4) : Option AtomOp :=
  match c.toNat with
  | 0 => some .add | 1 => some .and | 2 => some .or | 3 => some .xor | 4 => some .min | 5 => some .max
  | 6 => some .minn | 7 => some .maxn | 8 => some .swap | 9 => some .fadd | _ => none
def AtomOp.code : AtomOp → BitVec 4
  | .add => 0 | .and => 1 | .or => 2 | .xor => 3 | .min => 4 | .max => 5 | .minn => 6 | .maxn => 7 | .swap => 8 | .fadd => 9
def RedOp.ofCode (c : BitVec 4) : Option RedOp :=
  match c.toNat with
  | 0 => some .add | 2 => some .or | 4 => some .min | 5 => some .max | 9 => some .fadd | _ => none
def RedOp.code : RedOp → BitVec 4
  | .add => 0 | .or => 2 | .min => 4 | .max => 5 | .fadd => 9
def Ord.ofCode (c : BitVec 2) : Ord :=
  match c.toNat with
  | 0 => .none | 1 => .acq | 2 => .rel | _ => .ar
def Ord.code : Ord → BitVec 2
  | .none => 0 | .acq => 1 | .rel => 2 | .ar => 3
def FCond.ofCode (c : BitVec 3) : FCond :=
  match c.toNat with
  | 0 => .eq | 1 => .ne | 2 => .lt | 3 => .le | 4 => .gt | 5 => .ge | 6 => .un | _ => .or
def FCond.code : FCond → BitVec 3
  | .eq => 0 | .ne => 1 | .lt => 2 | .le => 3 | .gt => 4 | .ge => 5 | .un => 6 | .or => 7
def ICond.ofCode (c : BitVec 3) : Option ICond :=
  match c.toNat with
  | 0 => some .eq | 1 => some .ne | 2 => some .lt | 3 => some .le | 4 => some .gt | 5 => some .ge | _ => none
def ICond.code : ICond → BitVec 3
  | .eq => 0 | .ne => 1 | .lt => 2 | .le => 3 | .gt => 4 | .ge => 5
def ShflKind.ofCode (c : BitVec 3) : Option ShflKind :=
  match c.toNat with
  | 0 => some .rot | 1 => some .dn | 2 => some .up | 3 => some .xor | _ => none
def ShflKind.code : ShflKind → BitVec 3
  | .rot => 0 | .dn => 1 | .up => 2 | .xor => 3
def ScanKind.ofCode (c : BitVec 2) : Option ScanKind :=
  match c.toNat with
  | 0 => some .add | 1 => some .max | 2 => some .min | _ => none
def ScanKind.code : ScanKind → BitVec 2
  | .add => 0 | .max => 1 | .min => 2
def DrainFmt.ofCode (c : BitVec 3) : Option DrainFmt :=
  match c.toNat with
  | 0 => some .f32 | 1 => some .f16 | 2 => some .bf16 | 4 => some .mx8 | 5 => some .mx6 | 6 => some .mx4 | _ => none
def DrainFmt.code : DrainFmt → BitVec 3
  | .f32 => 0 | .f16 => 1 | .bf16 => 2 | .mx8 => 4 | .mx6 => 5 | .mx4 => 6
def CpyKind.ofCode (c : BitVec 3) : Option CpyKind :=
  match c.toNat with
  | 0 => some .plain | 1 => some .cvt | 2 => some .ef | 3 => some .pln | 4 => some .pak | 5 => some .tps | _ => none
def CpyKind.code : CpyKind → BitVec 3
  | .plain => 0 | .cvt => 1 | .ef => 2 | .pln => 3 | .pak => 4 | .tps => 5
def CredKind.ofCode (c : BitVec 3) : Option CredKind :=
  match c.toNat with
  | 0 => some .sumF32 | 1 => some .sumI32 | 2 => some .maxF32 | 3 => some .minF32 | 4 => some .smx | _ => none
def CredKind.code : CredKind → BitVec 3
  | .sumF32 => 0 | .sumI32 => 1 | .maxF32 => 2 | .minF32 => 3 | .smx => 4
def PairKind.ofCode (c : BitVec 3) : Option PairKind :=
  match c.toNat with
  | 0 => some .add | 1 => some .sub | 2 => some .mul | 3 => some .max | 4 => some .min | _ => none
def PairKind.code : PairKind → BitVec 3
  | .add => 0 | .sub => 1 | .mul => 2 | .max => 3 | .min => 4
def SysReg.ofCode (c : BitVec 8) : Option SysReg :=
  match c.toNat with
  | 0x00 => some .vflags | 0x01 => some .vtrapen | 0x02 => some .cst | 0x03 => some .epol | 0x04 => some .phcfg
  | 0x10 => some .tcause | 0x11 => some .tpc | 0x12 => some .tepc | 0x13 => some .tval | 0x14 => some .tvec
  | 0x15 => some .tscr0 | 0x16 => some .tscr1 | 0x17 => some .rqstat | 0x18 => some .tvrb | 0x19 => some .troot
  | _ => none
def SysReg.code : SysReg → BitVec 8
  | .vflags => 0x00 | .vtrapen => 0x01 | .cst => 0x02 | .epol => 0x03 | .phcfg => 0x04 | .tcause => 0x10
  | .tpc => 0x11 | .tepc => 0x12 | .tval => 0x13 | .tvec => 0x14 | .tscr0 => 0x15 | .tscr1 => 0x16
  | .rqstat => 0x17 | .tvrb => 0x18 | .troot => 0x19

/-! ## Modifier layouts -/

/-- Vector arithmetic (R62): TYPE, RND, SAT, SBI, low bits. -/
def vMod (ty : Ty) (rnd : Rnd) (sat sbi : Bool) (low : BitVec 9) : BitVec 17 :=
  ty.code ++ rnd.code ++ bitB sat ++ bitB sbi ++ low
/-- Loads and stores (R62): SIZE, AM, imm12. -/
def mMod (size : BitVec 3) (am : BitVec 2) (imm : BitVec 12) : BitVec 17 := size ++ am ++ imm
/-- imm12 of AM 3 (R98). -/
def idxImm (sp sgn : Bool) (sc : BitVec 2) : BitVec 12 := 0#8 ++ bitB sp ++ bitB sgn ++ sc

def GAddr.am : GAddr → BitVec 2
  | .off .. => 0
  | .post _ => 1
def GAddr.imm : GAddr → BitVec 12
  | .off _ i => i
  | .post _ => 0
def GAddr.num : GAddr → BitVec 8
  | .off s _ => sNum s
  | .post a => aNum a
def SpAddr.imm : SpAddr → BitVec 12
  | .off _ i => i
  | .post _ => 0
def SpAddr.num : SpAddr → BitVec 8
  | .off s _ => sNum s
  | .post a => aNum a
def Addr.am : Addr → BitVec 2
  | .off .. => 0
  | .post _ => 1
  | .sp .. | .spPost _ => 2
  | .idx .. => 3
def Addr.imm : Addr → BitVec 12
  | .off _ i | .sp _ i => i
  | .post _ | .spPost _ => 0
  | .idx _ _ isSp sc => idxImm isSp false sc
def Addr.num : Addr → BitVec 8
  | .off s _ | .sp s _ | .idx s _ _ _ => sNum s
  | .post a | .spPost a => aNum a
def Addr.sbNum : Addr → BitVec 8
  | .idx _ i _ _ => sNum i
  | _ => 0
def MxAddr.am : MxAddr → BitVec 2
  | .off .. => 0
  | .post _ => 1
def MxAddr.imm : MxAddr → BitVec 9
  | .off _ i => i
  | .post _ => 0
def MxAddr.num : MxAddr → BitVec 8
  | .off s _ => sNum s
  | .post a => aNum a

/-- The class 1 part of an AM 0 or AM 1 address: the offset of a post-increment is zero. -/
def gAddrOk (f : Fields) : Bool :=
  let am := f.mod.extractLsb' 12 2
  am == 0 || (am == 1 && f.mod.extractLsb' 0 12 == 0)
/-- The operand part of an AM 0 or AM 1 address. -/
def gAddr? (f : Fields) : Option GAddr :=
  if f.mod.extractLsb' 12 2 = 0#2 then (sReg? f.sa).map fun s => .off s (f.mod.extractLsb' 0 12)
  else (aReg? f.sa).map .post
/-- The class 1 part of an AM 2 address. -/
def spAddrOk (f : Fields) : Bool :=
  f.mod.extractLsb' 12 2 == 2#2 && ((aReg? f.sa).isNone || f.mod.extractLsb' 0 12 == 0)
def spAddr? (f : Fields) : Option SpAddr :=
  match sReg? f.sa with
  | some s => some (.off s (f.mod.extractLsb' 0 12))
  | none => (aReg? f.sa).map .post
/-- The class 1 part of any address of the scalar words: unused SB and reserved imm12 bits (R96, R98). -/
def addrOk (f : Fields) : Bool :=
  match (f.mod.extractLsb' 12 2).toNat with
  | 0 => f.sb == 0
  | 1 => f.sb == 0 && f.mod.extractLsb' 0 12 == 0
  | 2 => f.sb == 0 && ((aReg? f.sa).isNone || f.mod.extractLsb' 0 12 == 0)
  | _ => f.mod.extractLsb' 4 8 == 0 && !f.mod.getLsbD 2
def addr? (f : Fields) : Option Addr :=
  match (f.mod.extractLsb' 12 2).toNat with
  | 0 => (sReg? f.sa).map fun s => .off s (f.mod.extractLsb' 0 12)
  | 1 => (aReg? f.sa).map .post
  | 2 => match sReg? f.sa with
    | some s => some (.sp s (f.mod.extractLsb' 0 12))
    | none => (aReg? f.sa).map .spPost
  | _ => do return .idx (← sReg? f.sa) (← sReg? f.sb) (f.mod.getLsbD 3) (f.mod.extractLsb' 0 2)

/-! ## The decoder -/

/-- Why a word is refused, in the order of R72: cause classes 0, 1 and 2. -/
inductive DecErr where
  | opcode | reserved | operand
deriving DecidableEq, Repr

/-- Cause class of a decode failure. -/
def DecErr.cls : DecErr → Nat
  | .opcode => 0
  | .reserved => 1
  | .operand => 2

/-- The class 1 check, then the operand classes (R72). -/
def mk (c1 : Bool) (r : Option Instr) : Except DecErr Instr :=
  if c1 then (match r with | some i => .ok i | none => .error .operand) else .error .reserved

namespace Fields

def az (f : Fields) : Bool := f.sa == 0
def bz (f : Fields) : Bool := f.sb == 0
def cz (f : Fields) : Bool := f.sc == 0
def dz (f : Fields) : Bool := f.dst == 0
def mz (f : Fields) : Bool := f.mod == 0
def rest (f : Fields) : Bool := f.az && f.bz && f.cz && f.dz
def bit (f : Fields) (i : Nat) : Bool := f.mod.getLsbD i
def bits (f : Fields) (lo n : Nat) : BitVec n := f.mod.extractLsb' lo n
def ty (f : Fields) : Option Ty := Ty.ofCode (f.bits 13 4)
def rnd (f : Fields) : Rnd := Rnd.ofCode (f.bits 11 2)
def sat (f : Fields) : Bool := f.bit 10
def sbi (f : Fields) : Bool := f.bit 9
def low (f : Fields) : BitVec 9 := f.bits 0 9
/-- TYPE is valid and accepted. -/
def tyIn (f : Fields) (p : Ty → Bool) : Bool := match f.ty with | some t => p t | none => false
def rnd0 (f : Fields) : Bool := f.bits 11 2 == 0
/-- The second use of an operand field that must be zero unless it holds an immediate of SBI. -/
def isQi (n : BitVec 8) : Bool := (qiReg? n).isSome
def isQo (n : BitVec 8) : Bool := (qoReg? n).isSome

/-- SBA by the rule of R53 for the words whose destination must be a scalar or predicate register. -/
def tagSP (f : Fields) : Bool := f.h.noTag || (sReg? f.dst).isSome || (pReg? f.dst).isSome
/-- SBA of the reductions and of scan (R53, R146). -/
def tagV (f : Fields) : Bool := f.tagSP || (vReg? f.dst).isSome
/-- SBA of the variable-latency producers: DST numbers a register, and no queue register (R53). -/
def tagR (f : Fields) : Bool := f.h.noTag || (f.dst.toNat < 0x98 && !isQi f.dst && !isQo f.dst)

end Fields

open Fields

def rrr? (f : Fields) : Option RRR := do return ⟨← sReg? f.dst, ← sReg? f.sa, ← sReg? f.sb⟩
def rri? (f : Fields) : Option RRI := do return ⟨← sReg? f.dst, ← sReg? f.sa, f.mod⟩
def rrs? (f : Fields) : Option RRS := do return ⟨← sReg? f.dst, ← sReg? f.sa, f.bits 0 6⟩
def rr? (f : Fields) : Option RR := do return ⟨← sReg? f.dst, ← sReg? f.sa⟩
def bf (f : Fields) (d a : SReg) : BfOp := ⟨d, a, f.bits 0 6, f.bits 6 7, f.bit 16⟩

def regForm (f : Fields) (k : RRR → Instr) : Except DecErr Instr := mk (f.h.isX && f.cz && f.mz) ((rrr? f).map k)
def immForm (f : Fields) (k : RRI → Instr) : Except DecErr Instr := mk (f.h.isX && f.bz && f.cz) ((rri? f).map k)
def shForm (f : Fields) (k : RRS → Instr) : Except DecErr Instr :=
  mk (f.h.isX && f.bz && f.cz && f.bits 6 11 == 0) ((rrs? f).map k)
def unForm (f : Fields) (k : RR → Instr) : Except DecErr Instr := mk (f.h.isX && f.bz && f.cz && f.mz) ((rr? f).map k)

/-- CTRL, ENG 0. -/
def decodeCtrl (f : Fields) : Except DecErr Instr :=
  let h := f.h
  let x := h.isX
  match f.opc.toNat with
  | 0x00 => mk (x && f.rest && f.mz) (some (.nop h))
  | 0x01 => mk (x && f.rest) (some (.br h f.mod))
  | 0x02 => mk (x && f.cz && (BrcCond.ofCode f.dst).isSome)
      (do return .brc h ⟨← BrcCond.ofCode f.dst, ← sReg? f.sa, ← sReg? f.sb, f.mod⟩)
  | 0x03 => mk (x && f.bz && f.cz && (BrpCond.ofCode f.dst).isSome)
      (do return .brp h ⟨← BrpCond.ofCode f.dst, ← pReg? f.sa, f.mod⟩)
  | 0x04 => mk (x && f.dz && f.bz && f.cz && f.bits 1 16 == 0) ((sReg? f.sa).map fun a => .bri h a (f.bit 0))
  | 0x05 => mk (x && f.rest) (some (.call h f.mod))
  | 0x06 => mk (x && f.rest && f.mz) (some (.ret h))
  | 0x07 => mk (x && f.az && f.bz) ((sReg? f.dst).map fun d => .movi h d (f.sc ++ f.mod))
  | 0x08 => mk (x && f.az && (f.sb == 1 || (f.sb == 2 && (f.sc ++ f.mod).extractLsb' 14 11 == 0)))
      ((sReg? f.dst).map fun d =>
        if f.sb = 1 then .movhi h (.mid d (f.sc ++ f.mod)) else .movhi h (.top d (f.bits 0 14)))
  | 0x10 => regForm f (.add h) | 0x11 => regForm f (.sub h) | 0x12 => immForm f (.addi h) | 0x13 => regForm f (.mul h)
  | 0x14 => regForm f (.mulh h) | 0x15 => regForm f (.mulhn h) | 0x16 => regForm f (.div h) | 0x17 => regForm f (.divn h)
  | 0x18 => regForm f (.rem h) | 0x19 => regForm f (.remn h) | 0x1A => regForm f (.and h) | 0x1B => regForm f (.or h)
  | 0x1C => regForm f (.xor h) | 0x1D => immForm f (.andi h) | 0x1E => immForm f (.ori h) | 0x1F => immForm f (.xori h)
  | 0x20 => regForm f (.shl h) | 0x21 => regForm f (.shr h) | 0x22 => regForm f (.sar h) | 0x23 => shForm f (.shli h)
  | 0x24 => shForm f (.shri h) | 0x25 => shForm f (.sari h) | 0x26 => regForm f (.min h) | 0x27 => regForm f (.max h)
  | 0x28 => regForm f (.minn h) | 0x29 => regForm f (.maxn h) | 0x2A => unForm f (.clz h) | 0x2B => unForm f (.popc h)
  | 0x2C => mk (x && f.bz && f.cz && f.bits 13 3 == 0 && (bf f 0 0).wf)
      (do return .bfx h (bf f (← sReg? f.dst) (← sReg? f.sa)))
  | 0x2D => mk (x && f.bz && f.cz && f.bits 13 3 == 0 && !f.bit 16 && (bf f 0 0).wf)
      (do return .bfi h (bf f (← sReg? f.dst) (← sReg? f.sa)))
  | 0x2E => regForm f (.seq h) | 0x2F => regForm f (.slt h) | 0x30 => regForm f (.sltn h)
  | 0x38 => mk (h.isMulti && f.dz && f.cz && f.sb.extractLsb' 3 5 == 0 && decide (1 ≤ f.mod.toInt))
      ((sReg? f.sa).map fun s => .lset h ⟨s, f.sb.getLsbD 2, f.sb.extractLsb' 0 2, f.mod⟩)
  | 0x39 => mk (h.isMulti && f.rest) (some (.loopb h f.mod))
  | 0x3A => mk (x && f.rest && f.mz) (some (.lexit h))
  | 0x3B => mk (x && f.az && f.bz && f.cz && f.bits 8 9 == 0 && (SpecReg.ofCode (f.bits 0 8)).isSome)
      (do return .movs h (← sReg? f.dst) (← SpecReg.ofCode (f.bits 0 8)))
  | 0x3C => mk (x && f.bits 0 15 == 0 && (AMode.ofCode (f.bits 15 2)).isSome)
      (do return .amode h ⟨← aReg? f.dst, ← sReg? f.sa, ← sReg? f.sb, ← sReg? f.sc, ← AMode.ofCode (f.bits 15 2)⟩)
  | 0x3D => mk (x && f.bz && f.cz && f.mz)
      (match sReg? f.dst with
      | some d => (aReg? f.sa).map fun a => .amov h (.toS d a)
      | none => do return .amov h (.toA (← aReg? f.dst) (← sReg? f.sa)))
  | 0x40 => mk (x && f.dz && f.bz && f.cz && f.mz) ((sReg? f.sa).map (.waitt h))
  | 0x41 => mk (x && f.rest && f.bits 7 10 == 0) (some (.waits h (f.bits 0 7)))
  | 0x42 => mk (x && f.bz && f.cz && f.bits 1 16 == 0) (do return .waita h (← sReg? f.dst) (← sReg? f.sa) (f.bit 0))
  | 0x43 => mk (x && f.bz && f.cz && f.mz) (do return .rwaite h (← sReg? f.dst) (← gReg? f.sa))
  | 0x44 => mk (x && f.bz && f.cz && f.mz) (do return .rwaitf h (← sReg? f.dst) (← gReg? f.sa))
  | 0x45 => mk (x && f.dz && f.bz && f.cz && f.mz) ((sReg? f.sa).map (.mon h))
  | 0x46 => mk (x && f.rest && f.mz) (some (.moncl h))
  | 0x47 => mk (h.isMulti && f.rest && f.bits 6 11 == 0 && (BarLevel.ofCode (f.bits 4 2)).isSome)
      (do return .bar h (← BarLevel.ofCode (f.bits 4 2)) (f.bits 0 4))
  | 0x48 => mk (x && f.cz && f.mz) (do return .rinit h (← gReg? f.dst) (← sReg? f.sa) (← sReg? f.sb))
  | _ => .error .opcode

/-- SIZE of a load or store. -/
def Fields.size (f : Fields) : BitVec 3 := f.bits 14 3
/-- The element-width check of a vector access: SIZE 0–3. -/
def Fields.ewOk (f : Fields) : Bool := !f.bit 16
def Fields.ew (f : Fields) : BitVec 2 := f.bits 14 2
/-- imm12 of ldg and stg (R98). -/
def Fields.gatherOk (f : Fields) : Bool := f.size == 2 && f.bits 12 2 == 3 && f.bits 4 8 == 0
def mxSize? (f : Fields) : Option Mx :=
  match f.size.toNat with
  | 4 => some .w4 | 5 => some .w6 | 6 => some .w8 | _ => none
def Mx.sizeCode : Mx → BitVec 3
  | .w4 => 4 | .w6 => 5 | .w8 => 6
def Fields.mxOk (f : Fields) : Bool :=
  (mxSize? f).isSome && (f.bits 12 2 == 0 || (f.bits 12 2 == 1 && f.bits 0 9 == 0))
def mxAddr? (f : Fields) : Option MxAddr :=
  if f.bits 12 2 = 0#2 then (sReg? f.sa).map fun s => .off s (f.bits 0 9) else (aReg? f.sa).map .post
def mx? (f : Fields) : Option MxOp := do
  return ⟨← vReg? f.dst, ← mxSize? f, f.bits 9 3, ← mxAddr? f, ← sReg? f.sb⟩
/-- SCOPE of ldt and stt: 1–4 (R208). -/
def Fields.tileOk (f : Fields) : Bool := f.size != 0 && (Scope.ofCode f.size).isSome && gAddrOk f
def tile? (f : Fields) : Option TileOp := do
  return ⟨← vReg? f.dst, ← Scope.ofCode f.size, ← gAddr? f, ← sReg? f.sb⟩
def sld? (f : Fields) : Option SLdOp := do return ⟨← sReg? f.dst, f.bit 16, ← addr? f⟩
def sst? (f : Fields) : Option SStOp := do return ⟨← sReg? f.dst, ← addr? f⟩
/-- p destinations of ldd (R96). -/
def ldd? (n : BitVec 8) : Option LdDst :=
  match ldDst? n with
  | some d => if d.loadOk then some d else none
  | none => none

/-- LOAD, ENG 1. -/
def decodeLoad (f : Fields) : Except DecErr Instr :=
  let h := f.h
  match f.opc.toNat with
  | 0x00 => mk (f.tagR && f.cz && f.bits 14 2 == 0 && addrOk f) ((sld? f).map (.ldb h))
  | 0x01 => mk (f.tagR && f.cz && f.bits 14 2 == 1 && addrOk f) ((sld? f).map (.ldh h))
  | 0x02 => mk (f.tagR && f.cz && f.bits 14 2 == 2 && addrOk f) ((sld? f).map (.ldw h))
  | 0x03 => mk (f.tagR && f.cz && f.size == 3 && addrOk f) (do return .ldd h ⟨← ldd? f.dst, ← addr? f⟩)
  | 0x04 => mk (f.bz && f.cz && f.ewOk && gAddrOk f && f.tagR) (do return .ldv h ⟨← vLdDst? f.dst, f.ew, ← gAddr? f⟩)
  | 0x05 => mk (f.cz && f.ewOk && gAddrOk f && f.tagR)
      (do return .ldvs h ⟨← vLdDst? f.dst, f.ew, ← gAddr? f, ← sReg? f.sb⟩)
  | 0x06 => mk (f.cz && f.gatherOk && f.tagR)
      (do return .ldg h ⟨← vLdDst? f.dst, ← sReg? f.sa, ← vReg? f.sb, f.bit 3, f.bit 2, f.bits 0 2⟩)
  | 0x07 => mk (f.bz && f.cz && f.ewOk && spAddrOk f && f.tagR)
      (do return .lds h ⟨← vLdDst? f.dst, f.ew, ← spAddr? f⟩)
  | 0x08 => mk (f.cz && f.ewOk && spAddrOk f && f.tagR)
      (do return .ldss h ⟨← vLdDst? f.dst, f.ew, ← spAddr? f, ← sReg? f.sb⟩)
  | 0x09 => mk (f.tagR && f.cz && f.mxOk) ((mx? f).map (.ldmx h))
  | 0x0A => mk (f.tagR && f.cz && f.tileOk) ((tile? f).map (.ldt h))
  | 0x0B => mk (f.tagR && f.cz && f.mz) ((rrr? f).map (.kvlook h))
  | 0x0C => mk (f.tagR && f.cz && f.size == 0 && gAddrOk f) (do return .ixld h ⟨← sReg? f.dst, ← gAddr? f, ← sReg? f.sb⟩)
  | 0x0D => mk (f.dz && f.bz && f.cz && f.ewOk && gAddrOk f && h.noTag) (do return .pref h ⟨← gAddr? f, f.ew⟩)
  | 0x0E => mk (f.dz && f.bz && f.cz && f.mz && h.noTag) ((gReg? f.sa).map (.rfree h))
  | 0x0F => mk (h.isMulti && f.rest && f.bits 3 14 == 0 && (Scope.ofCode (f.bits 0 3)).isSome)
      ((Scope.ofCode (f.bits 0 3)).map (.mark h))
  | _ => .error .opcode

/-- MOD bits 13:5 of the atomics (R254). -/
def Fields.atomOk (f : Fields) : Bool := f.bits 15 2 == 1 && f.bits 0 5 == 0 && (Scope.ofCode (f.bits 5 3)).isSome
def Fields.w64 (f : Fields) : Bool := f.bit 14
def Fields.ord (f : Fields) : Ord := Ord.ofCode (f.bits 8 2)
def aMod (w64 : Bool) (op : BitVec 4) (ord : Ord) (sc : Scope) : BitVec 17 :=
  (1#2 : BitVec 2) ++ bitB w64 ++ op ++ ord.code ++ sc.code ++ 0#5

/-- STORE, ENG 4. -/
def decodeStore (f : Fields) : Except DecErr Instr :=
  let h := f.h
  let nt := h.noTag
  match f.opc.toNat with
  | 0x00 => mk (nt && f.cz && f.size == 0 && addrOk f) ((sst? f).map (.stb h))
  | 0x01 => mk (nt && f.cz && f.size == 1 && addrOk f) ((sst? f).map (.sth h))
  | 0x02 => mk (nt && f.cz && f.size == 2 && addrOk f) ((sst? f).map (.stw h))
  | 0x03 => mk (nt && f.cz && f.size == 3 && addrOk f) (do return .std h ⟨← ldDst? f.dst, ← addr? f⟩)
  | 0x04 => mk (nt && f.bz && f.cz && f.ewOk && gAddrOk f) (do return .stv h ⟨← vStSrc? f.dst, f.ew, ← gAddr? f⟩)
  | 0x05 => mk (nt && f.cz && f.ewOk && gAddrOk f)
      (do return .stvs h ⟨← vStSrc? f.dst, f.ew, ← gAddr? f, ← sReg? f.sb⟩)
  | 0x06 => mk (nt && f.cz && f.gatherOk)
      (do return .stg h ⟨← vStSrc? f.dst, ← sReg? f.sa, ← vReg? f.sb, f.bit 3, f.bit 2, f.bits 0 2⟩)
  | 0x07 => mk (nt && f.bz && f.cz && f.ewOk && spAddrOk f) (do return .sts h ⟨← vStSrc? f.dst, f.ew, ← spAddr? f⟩)
  | 0x08 => mk (nt && f.cz && f.ewOk && spAddrOk f)
      (do return .stss h ⟨← vStSrc? f.dst, f.ew, ← spAddr? f, ← sReg? f.sb⟩)
  | 0x09 => mk (nt && f.cz && f.mxOk) ((mx? f).map (.stmx h))
  | 0x0A => mk (nt && f.cz && f.tileOk) ((tile? f).map (.stt h))
  | 0x0B => mk (nt && f.bz && f.cz && f.size == 0 && gAddrOk f) (do return .ixst h ⟨← sReg? f.dst, ← gAddr? f⟩)
  | 0x0C => mk (f.tagR && f.cz && f.atomOk && (match AtomOp.ofCode (f.bits 10 4) with | some o => o != .fadd || !f.w64 | none => false))
      (do return .atom h ⟨← sReg? f.dst, ← sReg? f.sa, ← sReg? f.sb, f.w64, ← AtomOp.ofCode (f.bits 10 4), f.ord,
        ← Scope.ofCode (f.bits 5 3)⟩)
  | 0x0D => mk (f.tagR && f.atomOk && f.bits 10 4 == 0)
      (do return .acas h ⟨← sReg? f.dst, ← sReg? f.sa, ← sReg? f.sb, ← sReg? f.sc, f.w64, f.ord,
        ← Scope.ofCode (f.bits 5 3)⟩)
  | 0x0E => mk (nt && f.bz && f.cz && f.atomOk && (match RedOp.ofCode (f.bits 10 4) with | some o => o != .fadd || !f.w64 | none => false)
        && ((vReg? f.dst).isNone || !f.w64))
      (do return .red h ⟨← redSrc? f.dst, ← sReg? f.sa, f.w64, ← RedOp.ofCode (f.bits 10 4), f.ord,
        ← Scope.ofCode (f.bits 5 3)⟩)
  | 0x0F => mk (nt && f.dz && f.bz && f.cz && f.mz) ((gReg? f.sa).map (.rpub h))
  | 0x10 => mk (nt && h.noTok && f.rest && f.bits 3 14 == 0 && (Scope.ofCode (f.bits 0 3)).isSome)
      ((Scope.ofCode (f.bits 0 3)).map (.fence h))
  | 0x11 => mk (h.isMulti && f.rest && f.bits 3 14 == 0 && (Scope.ofCode (f.bits 0 3)).isSome)
      ((Scope.ofCode (f.bits 0 3)).map (.markS h))
  | _ => .error .opcode

/-- Unused SB: zero, with SBI clear (R126). -/
def Fields.noB (f : Fields) : Bool := f.bz && !f.sbi
/-- Low bits of a vector word that uses none. -/
def Fields.low0 (f : Fields) : Bool := f.low == 0
def Fields.b (f : Fields) : Option BSrc := bSrc? f.sbi f.sb

def fBin (f : Fields) (k : FBin → Instr) : Except DecErr Instr :=
  mk (f.tagSP && f.cz && f.tyIn Ty.isFloat && f.low0)
    (do return k ⟨← vDst? f.dst, ← vSrc? f.sa, ← f.b, ← f.ty, f.rnd, f.sat⟩)
def fTern (f : Fields) (k : FTern → Instr) : Except DecErr Instr :=
  mk (f.tagSP && f.tyIn Ty.isFloat && f.low0)
    (do return k ⟨← vDst? f.dst, ← vSrc? f.sa, ← f.b, ← vSrc? f.sc, ← f.ty, f.rnd, f.sat⟩)
def fUn (f : Fields) (k : FUn → Instr) : Except DecErr Instr :=
  mk (f.tagSP && f.noB && f.cz && f.tyIn Ty.isFloat && f.low0)
    (do return k ⟨← vDst? f.dst, ← vSrc? f.sa, ← f.ty, f.rnd, f.sat⟩)
def vBin (f : Fields) (p : Ty → Bool) (k : VBin → Instr) : Except DecErr Instr :=
  mk (f.tagSP && f.cz && f.tyIn p && f.rnd0 && !f.sat && f.low0)
    (do return k ⟨← vDst? f.dst, ← vSrc? f.sa, ← f.b, ← f.ty⟩)
def vBinSat (f : Fields) (p : Ty → Bool) (k : VBinSat → Instr) : Except DecErr Instr :=
  mk (f.tagSP && f.cz && f.tyIn p && f.rnd0 && f.low0)
    (do return k ⟨← vDst? f.dst, ← vSrc? f.sa, ← f.b, ← f.ty, f.sat⟩)
def vUn (f : Fields) (p : Ty → Bool) (k : VUn → Instr) : Except DecErr Instr :=
  mk (f.tagSP && f.noB && f.cz && f.tyIn p && f.rnd0 && !f.sat && f.low0)
    (do return k ⟨← vDst? f.dst, ← vSrc? f.sa, ← f.ty⟩)
/-- Integer types of 8 to 32 bits. -/
def Ty.isInt32 (t : Ty) : Bool := t.isInt && t.width ≤ 32
/-- Types of at most 32 bits. -/
def Ty.le32 (t : Ty) : Bool := t.width ≤ 32
/-- A *lanes* word: TYPE, RND, SAT zero. -/
def Fields.lanes (f : Fields) : Bool := f.bits 10 7 == 0
def cvt (f : Fields) (p : CvtOp → Bool) (k : CvtOp → Instr) : Except DecErr Instr :=
  let o? (d : VDst) (a : VSrc) : Option CvtOp := do
    return ⟨d, a, ← f.ty, ← Ty.ofCode (f.bits 5 4), f.bits 3 2, f.rnd, f.sat⟩
  mk (f.tagSP && f.noB && f.cz && f.bits 0 3 == 0 && (match o? (.v 0) (.v 0) with | some o => p o | none => false))
    (do k <$> o? (← vDst? f.dst) (← vSrc? f.sa))
def pDst? (n : BitVec 8) : Option PReg :=
  match pReg? n with
  | some p => if pDest p then some p else none
  | none => none
def rd (f : Fields) (p : RdOp → Bool) (k : RdOp → Instr) : Except DecErr Instr :=
  let o? (d : RDst) (a : VSrc) : Option RdOp := do return ⟨d, a, ← f.ty, f.rnd, f.sat⟩
  mk (f.tagV && f.noB && f.cz && f.low0 && (match o? (.s 0) (.v 0) with | some o => p o | none => false))
    (do k <$> o? (← rDst? f.dst) (← vSrc? f.sa))
def pBin (f : Fields) (k : PBinOp → Instr) : Except DecErr Instr :=
  mk (f.tagSP && f.cz && f.mz) (do return k ⟨← pDst? f.dst, ← pReg? f.sa, ← pReg? f.sb⟩)
/-- A count immediate within its range. -/
def Fields.immIn (f : Fields) (lo hi : Nat) : Bool := !f.sbi || (lo ≤ f.sb.toNat && f.sb.toNat ≤ hi)
def Fields.s (f : Fields) : Option SSrc := sSrc? f.sbi f.sb

/-- VEC, ENG 2. -/
def decodeVec (f : Fields) : Except DecErr Instr :=
  let h := f.h
  let nt := f.tagSP
  match f.opc.toNat with
  | 0x00 => fBin f (.fadd h) | 0x01 => fBin f (.fsub h) | 0x02 => fBin f (.fmul h)
  | 0x03 => fTern f (.fma h) | 0x04 => fTern f (.fms h) | 0x05 => fTern f (.fnma h)
  | 0x06 => vBin f Ty.isFloat (.fmin h) | 0x07 => vBin f Ty.isFloat (.fmax h)
  | 0x08 => vUn f Ty.isFloat (.fabs h) | 0x09 => vUn f Ty.isFloat (.fneg h) | 0x0A => vBin f Ty.isFloat (.fcpys h)
  | 0x0B => fBin f (.fdiv h) | 0x0C => fUn f (.fsqrt h) | 0x0D => fUn f (.frcp h) | 0x0E => fUn f (.frsq h)
  | 0x0F => fUn f (.fexp2 h) | 0x10 => fUn f (.flog2 h)
  | 0x11 => mk (nt && f.cz && f.tyIn (fun t => t.isFloat && selOk t (f.bits 3 2)) && f.rnd0 && !f.sat && f.bits 5 4 == 0)
      (do return .fcmp h ⟨← pDst? f.dst, ← vSrc? f.sa, ← f.b, ← f.ty, f.bits 3 2, FCond.ofCode (f.bits 0 3)⟩)
  | 0x12 => vUn f Ty.isFloat (.fclass h)
  | 0x13 => cvt f CvtOp.wfF (.fcvt h)
  | 0x14 => fBin f (.fscalb h)
  | 0x15 => cvt f CvtOp.wfI (.icvt h)
  | 0x20 => vBinSat f Ty.isInt (.iadd h) | 0x21 => vBinSat f Ty.isInt (.isub h) | 0x22 => vBinSat f Ty.isInt32 (.imul h)
  | 0x23 => vBin f Ty.isInt32 (.imulh h)
  | 0x24 => mk (nt && f.tyIn Ty.isInt32 && f.rnd0 && f.low0)
      (do return .imad h ⟨← vDst? f.dst, ← vSrc? f.sa, ← f.b, ← vSrc? f.sc, ← f.ty, f.sat⟩)
  | 0x25 => vBin f Ty.isInt (.imin h) | 0x26 => vBin f Ty.isInt (.imax h)
  | 0x27 => mk (nt && f.noB && f.cz && f.tyIn Ty.isSigned && f.rnd0 && f.low0)
      (do return .iabs h ⟨← vDst? f.dst, ← vSrc? f.sa, ← f.ty, f.sat⟩)
  | 0x28 => vBin f Ty.isInt (.iand h) | 0x29 => vBin f Ty.isInt (.ior h) | 0x2A => vBin f Ty.isInt (.ixor h)
  | 0x2B => vUn f Ty.isInt (.inot h)
  | 0x2C => vBin f Ty.isInt (.ishl h) | 0x2D => vBin f Ty.isInt (.ishr h) | 0x2E => vBin f Ty.isInt (.isar h)
  | 0x2F => mk (nt && f.cz && f.tyIn (fun t => t.isInt && (if t.width == 64 then f.bits 3 2 == 0 else selOk t (f.bits 3 2))) && f.rnd0
        && !f.sat && f.bits 5 4 == 0 && (ICond.ofCode (f.bits 0 3)).isSome)
      (do return .icmp h ⟨← pDst? f.dst, ← vSrc? f.sa, ← f.b, ← f.ty, f.bits 3 2, ← ICond.ofCode (f.bits 0 3)⟩)
  | 0x40 => mk (nt && f.lanes && !f.sbi && f.low0)
      (do return .sel h ⟨← vDst? f.dst, ← vSrc? f.sa, ← vSrc? f.sb, ← pReg? f.sc⟩)
  | 0x41 => mk (nt && f.noB && f.cz && f.lanes && f.low0) (do return .movv h ⟨← vDst? f.dst, ← vSrc? f.sa⟩)
  | 0x42 => mk (nt && f.cz && f.ty.isSome && f.rnd0 && !f.sat && f.low0 && (if f.sbi then f.az else f.bz))
      (do return .bcast h ⟨← vDst? f.dst, ← if f.sbi then some (.imm f.sb) else (sReg? f.sa).map .s, ← f.ty⟩)
  | 0x43 => mk (nt && f.cz && f.ty.isSome && f.rnd0 && !f.sat && f.low0)
      (do return .extr h ⟨← sReg? f.dst, ← vSrc? f.sa, ← f.s, ← f.ty⟩)
  | 0x44 => mk (nt && f.cz && f.tyIn Ty.isInt32 && f.rnd0 && f.low0)
      (do return .iota h ⟨← vDst? f.dst, ← sReg? f.sa, ← f.s, ← f.ty, f.sat⟩)
  | 0x45 => mk (nt && f.lanes && !f.sbi && f.low0)
      (do return .perm h ⟨← vDst? f.dst, ← vSrc? f.sa, ← vSrc? f.sb, ← vSrc? f.sc⟩)
  | 0x46 => mk (nt && f.cz && f.lanes && f.bits 3 6 == 0 && (ShflKind.ofCode (f.bits 0 3)).isSome && f.immIn 0 63)
      (do return .shfl h ⟨← vDst? f.dst, ← vSrc? f.sa, ← f.s, ← ShflKind.ofCode (f.bits 0 3)⟩)
  | 0x50 => rd f RdOp.wfAdd (.rdadd h) | 0x51 => rd f RdOp.wfMax (.rdmax h) | 0x52 => rd f RdOp.wfMax (.rdmin h)
  | 0x53 =>
      let o? (d : VDst) (a : VSrc) : Option ScanOp := do
        return ⟨d, a, ← f.ty, ← ScanKind.ofCode (f.bits 0 2), f.rnd, f.sat⟩
      mk (f.tagV && f.noB && f.cz && f.bits 2 7 == 0 && (match o? (.v 0) (.v 0) with | some o => o.wf | none => false))
        (do Instr.scan h <$> o? (← vDst? f.dst) (← vSrc? f.sa))
  | 0x54 => mk (f.tagR && f.tyIn Ty.le32 && f.rnd0 && !f.sat && f.low0 && f.immIn 1 64)
      (do
        let d ← vReg? f.dst
        let c ← vReg? f.sc
        if d = c then none else return .topk h ⟨d, c, ← vSrc? f.sa, ← f.s, ← f.ty⟩)
  | 0x55 => mk (f.tagR && f.cz && f.tyIn Ty.isN && f.rnd0 && !f.sat && f.bits 1 8 == 0 && f.immIn 0 3)
      (do return .vhist h ⟨← vReg? f.dst, ← vSrc? f.sa, ← f.s, ← f.ty, f.bit 0⟩)
  | 0x56 => vUn f Ty.le32 (.okey h) | 0x57 => vUn f Ty.le32 (.okeyi h)
  | 0x58 =>
      let o? (d : VDst) (a : VSrc) (p : SSrc) : Option DigitOp := do return ⟨d, a, p, ← f.ty, f.bits 4 5, f.bits 0 4⟩
      mk (nt && f.cz && f.rnd0 && !f.sat && (match o? (.v 0) (.v 0) (.s 0) with | some o => o.wf | none => false))
        (do Instr.digit h <$> o? (← vDst? f.dst) (← vSrc? f.sa) (← f.s))
  | 0x60 => mk (nt && f.bz && f.cz && f.mz) (do return .pcnt h ⟨← sReg? f.dst, ← pReg? f.sa⟩)
  | 0x61 => pBin f (.pand h) | 0x62 => pBin f (.por h) | 0x63 => pBin f (.pxor h)
  | 0x64 => mk (nt && f.bz && f.cz && f.mz) (do return .pnot h ⟨← pDst? f.dst, ← pReg? f.sa⟩)
  | _ => .error .opcode

def mma? (f : Fields) : Option MmaOp := do
  return ⟨← sReg? f.sa, ← sReg? f.sb, ← if f.bit 16 then (sReg? f.sc).map some else some none,
    ← Mx.ofCode (f.bits 14 2), ← Mx.ofCode (f.bits 12 2), f.bits 5 7, f.bit 4, f.bits 0 4⟩
def Fields.mmaOk (f : Fields) : Bool :=
  (f.bit 16 || f.cz) && (Mx.ofCode (f.bits 14 2)).isSome && (Mx.ofCode (f.bits 12 2)).isSome

/-- MAT, ENG 3. -/
def decodeMat (f : Fields) : Except DecErr Instr :=
  let h := f.h
  match f.opc.toNat with
  | 0x00 => mk (h.noTag && f.dz && f.mmaOk) ((mma? f).map (.mma h))
  | 0x01 => mk (f.tagSP && f.mmaOk) (do return .mmaw h ⟨← sReg? f.dst, ← mma? f⟩)
  | 0x02 => mk (h.noTag && f.rest && !f.bit 16 && f.bits 0 16 != 0) (some (.aclr h (f.bits 0 16)))
  | 0x03 => mk (f.az && f.bz && f.bits 11 6 == 0)
      (do return .ard h ⟨← vDst? f.dst, ← sReg? f.sc, f.bits 0 4, f.bits 4 6, f.bit 10⟩)
  | 0x04 => mk (h.noTag && f.dz && f.bz && f.cz && f.bits 11 6 == 0)
      (do return .awr h ⟨← vSrc? f.sa, f.bits 0 4, f.bits 4 6, f.bit 10⟩)
  | 0x05 =>
      let o? (a : SReg) : Option AdrnOp := do
        return ⟨a, ← DrainFmt.ofCode (f.bits 4 3), Rnd.ofCode (f.bits 7 2), f.bit 9, f.bit 10, f.bits 0 4⟩
      mk (h.noTag && f.dz && f.bz && f.cz && f.bits 11 6 == 0 && (match o? 0 with | some o => o.wf | none => false))
        (do Instr.adrn h <$> o? (← sReg? f.sa))
  | 0x06 => mk (f.tagSP && f.az && f.bz && f.cz && f.bits 1 16 == 0) ((sReg? f.dst).map fun d => .mstat h ⟨d, f.bit 0⟩)
  | _ => .error .opcode

/-- RG and RING (R218). -/
def Fields.ringOk (f : Fields) : Bool := f.bit 5 || f.bits 1 4 == 0
def Fields.ring (f : Fields) : Option GReg := if f.bit 5 then some (f.bits 1 4) else none
/-- Flags of the collective and Unveil words, whose other bits are zero. -/
def Fields.flagsOk (f : Fields) : Bool :=
  (Scope.ofCode (f.bits 11 3)).isSome && f.bits 6 3 == 0 && f.ringOk && !f.bit 0
def flags? (f : Fields) : Option CmdFlags := do return ⟨← Scope.ofCode (f.bits 11 3), f.bit 10, f.bit 9, f.ring⟩
def ringMod (r : Option GReg) : BitVec 6 :=
  match r with
  | some g => 1#1 ++ g ++ 0#1
  | none => 0#6
def CmdFlags.mod (hi : BitVec 3) (c : CmdFlags) : BitVec 17 :=
  hi ++ c.scope.code ++ bitB c.acq ++ bitB c.rel ++ 0#3 ++ ringMod c.ring

/-- ASYNC, ENG 5. -/
def decodeAsync (f : Fields) : Except DecErr Instr :=
  let h := f.h
  let n := h.noTok && f.tagR
  match f.opc.toNat with
  | 0x00 =>
      let o? (d a b c : SReg) : Option CpyOp := do
        return ⟨d, a, b, c, ← CpyKind.ofCode (f.bits 14 3), ← Scope.ofCode (f.bits 11 3), f.bit 10, f.bit 9, f.bit 8,
          f.bit 7, f.bit 6, f.ring⟩
      mk (n && f.ringOk && !f.bit 0 && (match o? 0 0 0 0 with | some o => o.wf | none => false))
        (do Instr.cpy h <$> o? (← sReg? f.dst) (← sReg? f.sa) (← sReg? f.sb) (← sReg? f.sc))
  | 0x01 => mk (n && f.bits 6 11 == 0 && f.ringOk && !f.bit 0)
      (do return .cpyf h ⟨← sReg? f.dst, ← sReg? f.sa, ← sReg? f.sb, ← sReg? f.sc, f.ring⟩)
  | 0x02 => mk (n && f.bz && f.cz && f.mz) ((rr? f).map (.cpyq h))
  | 0x03 => mk (n && f.flagsOk && (CredKind.ofCode (f.bits 14 3)).isSome)
      (do return .cred h ⟨← sReg? f.dst, ← sReg? f.sa, ← sReg? f.sb, ← sReg? f.sc, ← CredKind.ofCode (f.bits 14 3),
        ← flags? f⟩)
  | 0x04 => mk (n && f.flagsOk && f.bits 14 3 == 0)
      (do return .cmc h ⟨← sReg? f.dst, ← sReg? f.sa, ← sReg? f.sb, ← sReg? f.sc, ← flags? f⟩)
  | 0x05 => mk (n && f.flagsOk && f.bits 14 3 == 0 && f.bz && f.cz)
      (do return .cbar h ⟨← sReg? f.dst, ← sReg? f.sa, ← flags? f⟩)
  | 0x06 => mk (n && f.flagsOk && f.bits 14 3 == 0 && f.bz && f.cz)
      (do return .unv h ⟨← sReg? f.dst, ← sReg? f.sa, ← flags? f⟩)
  | 0x07 => mk (n && f.flagsOk && f.bits 14 3 == 0 && f.cz)
      (do return .patclr h ⟨← sReg? f.dst, ← sReg? f.sa, ← sReg? f.sb, ← flags? f⟩)
  | _ => .error .opcode

/-- CODE, ENG 6. -/
def decodeCode (f : Fields) : Except DecErr Instr :=
  let h := f.h
  let nt := h.noTag
  match f.opc.toNat with
  | 0x00 => mk (f.tagR && f.bz && f.cz && f.bits 1 16 == 0) (do return .cbld h ⟨← cbReg? f.dst, ← sReg? f.sa, f.bit 0⟩)
  | 0x01 => mk (nt && f.bz && f.cz && f.bits 1 16 == 0) (do return .cbst h ⟨← cbReg? f.dst, ← sReg? f.sa, f.bit 0⟩)
  | 0x02 => mk (nt && f.bz && f.cz && f.bits 2 15 == 0) (do return .cbget h ⟨← vDst? f.dst, ← cbReg? f.sa, f.bits 0 2⟩)
  | 0x03 => mk (nt && f.bz && f.cz && f.bits 2 15 == 0) (do return .cbput h ⟨← cbReg? f.dst, ← vSrc? f.sa, f.bits 0 2⟩)
  | 0x04 =>
      match (f.bits 0 2).toNat with
      | 0 => mk (nt && f.bz && f.cz && f.bits 4 13 == 0)
          (do return .cbcnt h (.set (← cbReg? f.dst) (← sReg? f.sa) (CbTy.ofCode (f.bits 2 2))))
      | 1 => mk (f.tagSP && f.bz && f.cz && f.bits 2 15 == 0) (do return .cbcnt h (.rd (← sReg? f.dst) (← cbReg? f.sa)))
      | 2 => mk (f.tagSP && f.cz && f.bits 2 15 == 0)
          (do return .cbcnt h (.rt (← sReg? f.dst) (← cbReg? f.sa) (← sReg? f.sb)))
      | _ => .error .reserved
  | 0x05 => mk (nt && f.az && f.bz && f.cz && f.mz) ((cbReg? f.dst).map (.cbdedup h))
  | 0x06 => mk (f.tagSP && f.cz && f.bits 1 16 == 0)
      (do return .ixremap h ⟨← sReg? f.dst, ← cbReg? f.sa, ← sReg? f.sb, f.bit 0⟩)
  | 0x07 => mk (f.tagSP && f.mz) (do return .cbenc h ⟨← sReg? f.dst, ← vSrc? f.sa, ← sReg? f.sb, ← sReg? f.sc⟩)
  | 0x08 => mk (nt && f.cz && f.mz) (do return .cbdec h ⟨← vDst? f.dst, ← sReg? f.sa, ← sReg? f.sb⟩)
  | 0x09 => mk (f.tagSP && f.cz && f.mz) ((rrr? f).map (.ixmov h))
  | 0x0A => mk (nt && f.dz && f.cz && f.bits 13 4 == 0 && f.bits 3 7 == 0 && (PairKind.ofCode (f.bits 0 3)).isSome)
      (do return .cbpair h ⟨← cbReg? f.sa, ← cbReg? f.sb, f.rnd, f.sat, ← PairKind.ofCode (f.bits 0 3)⟩)
  | 0x0B => mk (f.tagSP && f.mz) (do return .ixpair h ⟨← sReg? f.dst, ← sReg? f.sa, ← sReg? f.sb, ← sReg? f.sc⟩)
  | 0x0C => mk (f.tagR && f.bz && f.cz && f.mz) ((rr? f).map (.ixhist h))
  | 0x0D => mk (f.tagR && f.bits 9 8 == 0 && 2 ≤ (f.bits 0 9).toNat && (f.bits 0 9).toNat ≤ 256)
      (do return .reclust h ⟨← cbReg? f.dst, ← sReg? f.sa, ← sReg? f.sb, ← sReg? f.sc, f.bits 0 9⟩)
  | 0x0E =>
      let z := f.bz && f.cz && f.bits 3 14 == 0
      match (f.bits 0 3).toNat with
      | 0 => mk (nt && z) (do return .bsget h (.e (← vDst? f.dst) (← sReg? f.sa)))
      | 1 => mk (nt && z) (do return .bsget h (.h (← vDst? f.dst) (← sReg? f.sa)))
      | 2 => mk (nt && z) (do return .bsget h (.r (← vDst? f.dst) (← sReg? f.sa)))
      | 3 => mk (f.tagSP && z && f.az) ((sReg? f.dst).map fun d => .bsget h (.st d))
      | 4 => mk (f.tagSP && z && f.az) ((sReg? f.dst).map fun d => .bsget h (.cst d))
      | _ => .error .reserved
  | _ => .error .opcode

/-- The entry number of a replay-queue word (R303). -/
def Fields.rqOk (f : Fields) : Bool :=
  f.bits 6 11 == 0 && f.bz && (if f.bit 5 then f.bits 0 5 == 0 else f.az)
def rqSel? (f : Fields) : Option RqSel := if f.bit 5 then (sReg? f.sa).map .s else some (.imm (f.bits 0 5))
def RqSel.num : RqSel → BitVec 8
  | .imm _ => 0
  | .s a => sNum a
def RqSel.mod : RqSel → BitVec 17
  | .imm n => 0#12 ++ n
  | .s _ => 0x20#17

/-- SYS, ENG 7. -/
def decodeSys (f : Fields) : Except DecErr Instr :=
  let h := f.h
  let x := h.isX
  match f.opc.toNat with
  | 0x00 => mk (x && f.rest) (some (.trap h (f.bit 16) (f.bits 0 16)))
  | 0x01 => mk (x && f.rest && f.mz) (some (.tret h))
  | 0x02 => mk (x && f.az && f.bz && f.cz && f.bits 9 8 == 0 && (SysReg.ofCode (f.bits 0 8)).isSome)
      (do return .mfs h ⟨← sReg? f.dst, ← SysReg.ofCode (f.bits 0 8), f.bit 8⟩)
  | 0x03 => mk (x && f.dz && f.bz && f.cz && f.bits 8 9 == 0 && (SysReg.ofCode (f.bits 0 8)).isSome)
      (do return .mts h ⟨← SysReg.ofCode (f.bits 0 8), ← sReg? f.sa⟩)
  | 0x04 => mk (x && f.rqOk) (do return .rqrd h ⟨← sReg? f.dst, ← sReg? f.sc, ← rqSel? f⟩)
  | 0x05 => mk (x && f.rqOk && f.dz && f.cz) ((rqSel? f).map (.rqrel h))
  | 0x06 => mk (x && f.rqOk && f.dz && f.cz) ((rqSel? f).map (.rqdrop h))
  | 0x07 => mk (h.isMulti && f.dz && f.bz && f.cz && f.mz) ((sReg? f.sa).map (.phase h))
  | 0x08 => mk (x && f.dz && f.cz && f.mz) (do return .icflush h (← sReg? f.sa) (← sReg? f.sb))
  | 0x09 => mk (x && f.rest && f.mz) (some (.halt h))
  | _ => .error .opcode

/-- The decoder: total on any word, refusing by cause class (R72). -/
def decodeFields (f : Fields) : Except DecErr Instr :=
  match f.eng.toNat with
  | 0 => decodeCtrl f
  | 1 => decodeLoad f
  | 2 => decodeVec f
  | 3 => decodeMat f
  | 4 => decodeStore f
  | 5 => decodeAsync f
  | 6 => decodeCode f
  | _ => decodeSys f

/-- The instruction of a word. -/
def decode (w : IWord) : Except DecErr Instr := decodeFields (Fields.ofWord w)

/-! ## The encoder -/

def mkF (eng : BitVec 3) (opc : BitVec 8) (h : Hdr) (dst sa sb sc : BitVec 8) (mod : BitVec 17) : Fields :=
  ⟨eng, opc, h, dst, sa, sb, sc, mod⟩
def encRRR (e : BitVec 3) (op : BitVec 8) (h : Hdr) (o : RRR) : Fields :=
  mkF e op h (sNum o.d) (sNum o.a) (sNum o.b) 0 0
def encRRI (op : BitVec 8) (h : Hdr) (o : RRI) : Fields := mkF 0 op h (sNum o.d) (sNum o.a) 0 0 o.imm
def encRRS (op : BitVec 8) (h : Hdr) (o : RRS) : Fields := mkF 0 op h (sNum o.d) (sNum o.a) 0 0 (0#11 ++ o.sh)
def encRR (e : BitVec 3) (op : BitVec 8) (h : Hdr) (o : RR) : Fields := mkF e op h (sNum o.d) (sNum o.a) 0 0 0
def encBf (op : BitVec 8) (h : Hdr) (o : BfOp) : Fields :=
  mkF 0 op h (sNum o.d) (sNum o.a) 0 0 (bitB o.sx ++ 0#3 ++ o.len ++ o.pos)
def encSLd (op : BitVec 8) (k : BitVec 2) (h : Hdr) (o : SLdOp) : Fields :=
  mkF 1 op h (sNum o.d) o.addr.num o.addr.sbNum 0 (mMod (bitB o.sx ++ k) o.addr.am o.addr.imm)
def encSSt (op : BitVec 8) (k : BitVec 3) (h : Hdr) (o : SStOp) : Fields :=
  mkF 4 op h (sNum o.d) o.addr.num o.addr.sbNum 0 (mMod k o.addr.am o.addr.imm)
def encV (e : BitVec 3) (op : BitVec 8) (h : Hdr) (d : BitVec 8) (ew : BitVec 2) (a : GAddr) (sb : BitVec 8) : Fields :=
  mkF e op h d a.num sb 0 (mMod (0#1 ++ ew) a.am a.imm)
def encB (e : BitVec 3) (op : BitVec 8) (h : Hdr) (d : BitVec 8) (ew : BitVec 2) (a : SpAddr) (sb : BitVec 8) : Fields :=
  mkF e op h d a.num sb 0 (mMod (0#1 ++ ew) 2 a.imm)
def encMx (e : BitVec 3) (op : BitVec 8) (h : Hdr) (o : MxOp) : Fields :=
  mkF e op h (vNum o.d) o.addr.num (sNum o.scale) 0 (o.fmt.sizeCode ++ o.addr.am ++ o.n ++ o.addr.imm)
def encTile (e : BitVec 3) (op : BitVec 8) (h : Hdr) (o : TileOp) : Fields :=
  mkF e op h (vNum o.d) o.addr.num (sNum o.shape) 0 (mMod o.scope.code o.addr.am o.addr.imm)
def encFBin (op : BitVec 8) (h : Hdr) (o : FBin) : Fields :=
  mkF 2 op h o.d.num o.a.num o.b.num 0 (vMod o.ty o.rnd o.sat o.b.sbi 0)
def encFTern (op : BitVec 8) (h : Hdr) (o : FTern) : Fields :=
  mkF 2 op h o.d.num o.a.num o.b.num o.c.num (vMod o.ty o.rnd o.sat o.b.sbi 0)
def encFUn (op : BitVec 8) (h : Hdr) (o : FUn) : Fields :=
  mkF 2 op h o.d.num o.a.num 0 0 (vMod o.ty o.rnd o.sat false 0)
def encVBin (op : BitVec 8) (h : Hdr) (o : VBin) : Fields :=
  mkF 2 op h o.d.num o.a.num o.b.num 0 (vMod o.ty .rne false o.b.sbi 0)
def encVBinSat (op : BitVec 8) (h : Hdr) (o : VBinSat) : Fields :=
  mkF 2 op h o.d.num o.a.num o.b.num 0 (vMod o.ty .rne o.sat o.b.sbi 0)
def encVUn (op : BitVec 8) (h : Hdr) (o : VUn) : Fields := mkF 2 op h o.d.num o.a.num 0 0 (vMod o.ty .rne false false 0)
def encCvt (op : BitVec 8) (h : Hdr) (o : CvtOp) : Fields :=
  mkF 2 op h o.d.num o.a.num 0 0 (vMod o.ty o.rnd o.sat false (o.sty.code ++ o.h ++ 0#3))
def encRd (op : BitVec 8) (h : Hdr) (o : RdOp) : Fields :=
  mkF 2 op h o.d.num o.a.num 0 0 (vMod o.ty o.rnd o.sat false 0)
def encPBin (op : BitVec 8) (h : Hdr) (o : PBinOp) : Fields := mkF 2 op h (pNum o.d) (pNum o.a) (pNum o.b) 0 0
def encMma (op : BitVec 8) (h : Hdr) (d : BitVec 8) (o : MmaOp) : Fields :=
  mkF 3 op h d (sNum o.a) (sNum o.b) (match o.cb with | some c => sNum c | none => 0)
    (bitB o.cb.isSome ++ o.wa.code ++ o.wb.code ++ o.ks ++ bitB o.za ++ o.acc)

/-- The fields of an instruction; the machine's own steps have none. -/
def Instr.fields? : Instr → Option Fields
  | .nop h => some (mkF 0 0x00 h 0 0 0 0 0)
  | .br h i => some (mkF 0 0x01 h 0 0 0 0 i)
  | .brc h o => some (mkF 0 0x02 h o.cond.code (sNum o.a) (sNum o.b) 0 o.imm)
  | .brp h o => some (mkF 0 0x03 h o.cond.code (pNum o.p) 0 0 o.imm)
  | .bri h a l => some (mkF 0 0x04 h 0 (sNum a) 0 0 (0#16 ++ bitB l))
  | .call h i => some (mkF 0 0x05 h 0 0 0 0 i)
  | .ret h => some (mkF 0 0x06 h 0 0 0 0 0)
  | .movi h d i => some (mkF 0 0x07 h (sNum d) 0 0 (i.extractLsb' 17 8) (i.extractLsb' 0 17))
  | .movhi h (.mid d i) => some (mkF 0 0x08 h (sNum d) 0 1 (i.extractLsb' 17 8) (i.extractLsb' 0 17))
  | .movhi h (.top d i) => some (mkF 0 0x08 h (sNum d) 0 2 0 (0#3 ++ i))
  | .add h o => some (encRRR 0 0x10 h o) | .sub h o => some (encRRR 0 0x11 h o) | .addi h o => some (encRRI 0x12 h o)
  | .mul h o => some (encRRR 0 0x13 h o) | .mulh h o => some (encRRR 0 0x14 h o) | .mulhn h o => some (encRRR 0 0x15 h o)
  | .div h o => some (encRRR 0 0x16 h o) | .divn h o => some (encRRR 0 0x17 h o) | .rem h o => some (encRRR 0 0x18 h o)
  | .remn h o => some (encRRR 0 0x19 h o) | .and h o => some (encRRR 0 0x1A h o) | .or h o => some (encRRR 0 0x1B h o)
  | .xor h o => some (encRRR 0 0x1C h o) | .andi h o => some (encRRI 0x1D h o) | .ori h o => some (encRRI 0x1E h o)
  | .xori h o => some (encRRI 0x1F h o) | .shl h o => some (encRRR 0 0x20 h o) | .shr h o => some (encRRR 0 0x21 h o)
  | .sar h o => some (encRRR 0 0x22 h o) | .shli h o => some (encRRS 0x23 h o) | .shri h o => some (encRRS 0x24 h o)
  | .sari h o => some (encRRS 0x25 h o) | .min h o => some (encRRR 0 0x26 h o) | .max h o => some (encRRR 0 0x27 h o)
  | .minn h o => some (encRRR 0 0x28 h o) | .maxn h o => some (encRRR 0 0x29 h o) | .clz h o => some (encRR 0 0x2A h o)
  | .popc h o => some (encRR 0 0x2B h o) | .bfx h o => some (encBf 0x2C h o) | .bfi h o => some (encBf 0x2D h o)
  | .seq h o => some (encRRR 0 0x2E h o) | .slt h o => some (encRRR 0 0x2F h o) | .sltn h o => some (encRRR 0 0x30 h o)
  | .lset h o => some (mkF 0 0x38 h 0 (sNum o.n) (0#5 ++ bitB o.i ++ o.e) 0 o.imm)
  | .loopb h i => some (mkF 0 0x39 h 0 0 0 0 i)
  | .lexit h => some (mkF 0 0x3A h 0 0 0 0 0)
  | .movs h d r => some (mkF 0 0x3B h (sNum d) 0 0 0 (0#9 ++ r.code))
  | .amode h o => some (mkF 0 0x3C h (aNum o.d) (sNum o.base) (sNum o.stride) (sNum o.modulus) (o.mode.code ++ 0#15))
  | .amov h (.toS d a) => some (mkF 0 0x3D h (sNum d) (aNum a) 0 0 0)
  | .amov h (.toA d a) => some (mkF 0 0x3D h (aNum d) (sNum a) 0 0 0)
  | .waitt h a => some (mkF 0 0x40 h 0 (sNum a) 0 0 0)
  | .waits h m => some (mkF 0 0x41 h 0 0 0 0 (0#10 ++ m))
  | .waita h d a t => some (mkF 0 0x42 h (sNum d) (sNum a) 0 0 (0#16 ++ bitB t))
  | .rwaite h d g => some (mkF 0 0x43 h (sNum d) (gNum g) 0 0 0)
  | .rwaitf h d g => some (mkF 0 0x44 h (sNum d) (gNum g) 0 0 0)
  | .mon h a => some (mkF 0 0x45 h 0 (sNum a) 0 0 0)
  | .moncl h => some (mkF 0 0x46 h 0 0 0 0 0)
  | .bar h l i => some (mkF 0 0x47 h 0 0 0 0 (0#11 ++ l.code ++ i))
  | .rinit h d a b => some (mkF 0 0x48 h (gNum d) (sNum a) (sNum b) 0 0)
  | .ldb h o => some (encSLd 0x00 0 h o) | .ldh h o => some (encSLd 0x01 1 h o) | .ldw h o => some (encSLd 0x02 2 h o)
  | .ldd h o => some (mkF 1 0x03 h o.d.num o.addr.num o.addr.sbNum 0 (mMod 3 o.addr.am o.addr.imm))
  | .ldv h o => some (encV 1 0x04 h o.d.num o.ew o.addr 0)
  | .ldvs h o => some (encV 1 0x05 h o.d.num o.ew o.addr (sNum o.stride))
  | .ldg h o => some (mkF 1 0x06 h o.d.num (sNum o.base) (vNum o.idx) 0 (mMod 2 3 (idxImm o.sp o.sgn o.sc)))
  | .lds h o => some (encB 1 0x07 h o.d.num o.ew o.addr 0)
  | .ldss h o => some (encB 1 0x08 h o.d.num o.ew o.addr (sNum o.stride))
  | .ldmx h o => some (encMx 1 0x09 h o) | .ldt h o => some (encTile 1 0x0A h o) | .kvlook h o => some (encRRR 1 0x0B h o)
  | .ixld h o => some (mkF 1 0x0C h (sNum o.d) o.addr.num (sNum o.desc) 0 (mMod 0 o.addr.am o.addr.imm))
  | .pref h o => some (mkF 1 0x0D h 0 o.addr.num 0 0 (mMod (0#1 ++ o.lines) o.addr.am o.addr.imm))
  | .rfree h g => some (mkF 1 0x0E h 0 (gNum g) 0 0 0)
  | .mark h s => some (mkF 1 0x0F h 0 0 0 0 (0#14 ++ s.code))
  | .markS h s => some (mkF 4 0x11 h 0 0 0 0 (0#14 ++ s.code))
  | .fadd h o => some (encFBin 0x00 h o) | .fsub h o => some (encFBin 0x01 h o) | .fmul h o => some (encFBin 0x02 h o)
  | .fma h o => some (encFTern 0x03 h o) | .fms h o => some (encFTern 0x04 h o) | .fnma h o => some (encFTern 0x05 h o)
  | .fmin h o => some (encVBin 0x06 h o) | .fmax h o => some (encVBin 0x07 h o) | .fabs h o => some (encVUn 0x08 h o)
  | .fneg h o => some (encVUn 0x09 h o) | .fcpys h o => some (encVBin 0x0A h o) | .fdiv h o => some (encFBin 0x0B h o)
  | .fsqrt h o => some (encFUn 0x0C h o) | .frcp h o => some (encFUn 0x0D h o) | .frsq h o => some (encFUn 0x0E h o)
  | .fexp2 h o => some (encFUn 0x0F h o) | .flog2 h o => some (encFUn 0x10 h o)
  | .fcmp h o => some (mkF 2 0x11 h (pNum o.d) o.a.num o.b.num 0 (vMod o.ty .rne false o.b.sbi (0#4 ++ o.sel ++ o.cond.code)))
  | .fclass h o => some (encVUn 0x12 h o) | .fcvt h o => some (encCvt 0x13 h o) | .fscalb h o => some (encFBin 0x14 h o)
  | .icvt h o => some (encCvt 0x15 h o)
  | .iadd h o => some (encVBinSat 0x20 h o) | .isub h o => some (encVBinSat 0x21 h o) | .imul h o => some (encVBinSat 0x22 h o)
  | .imulh h o => some (encVBin 0x23 h o)
  | .imad h o => some (mkF 2 0x24 h o.d.num o.a.num o.b.num o.c.num (vMod o.ty .rne o.sat o.b.sbi 0))
  | .imin h o => some (encVBin 0x25 h o) | .imax h o => some (encVBin 0x26 h o)
  | .iabs h o => some (mkF 2 0x27 h o.d.num o.a.num 0 0 (vMod o.ty .rne o.sat false 0))
  | .iand h o => some (encVBin 0x28 h o) | .ior h o => some (encVBin 0x29 h o) | .ixor h o => some (encVBin 0x2A h o)
  | .inot h o => some (encVUn 0x2B h o) | .ishl h o => some (encVBin 0x2C h o) | .ishr h o => some (encVBin 0x2D h o)
  | .isar h o => some (encVBin 0x2E h o)
  | .icmp h o => some (mkF 2 0x2F h (pNum o.d) o.a.num o.b.num 0 (vMod o.ty .rne false o.b.sbi (0#4 ++ o.sel ++ o.cond.code)))
  | .sel h o => some (mkF 2 0x40 h o.d.num o.a.num o.b.num (pNum o.p) 0)
  | .movv h o => some (mkF 2 0x41 h o.d.num o.a.num 0 0 0)
  | .bcast h ⟨d, .s a, t⟩ => some (mkF 2 0x42 h d.num (sNum a) 0 0 (vMod t .rne false false 0))
  | .bcast h ⟨d, .imm i, t⟩ => some (mkF 2 0x42 h d.num 0 i 0 (vMod t .rne false true 0))
  | .extr h o => some (mkF 2 0x43 h (sNum o.d) o.a.num o.i.num 0 (vMod o.ty .rne false o.i.sbi 0))
  | .iota h o => some (mkF 2 0x44 h o.d.num (sNum o.a) o.step.num 0 (vMod o.ty .rne o.sat o.step.sbi 0))
  | .perm h o => some (mkF 2 0x45 h o.d.num o.a.num o.b.num o.c.num 0)
  | .shfl h o => some (mkF 2 0x46 h o.d.num o.a.num o.cnt.num 0 (vMod .f32 .rne false o.cnt.sbi (0#6 ++ o.kind.code)))
  | .rdadd h o => some (encRd 0x50 h o) | .rdmax h o => some (encRd 0x51 h o) | .rdmin h o => some (encRd 0x52 h o)
  | .scan h o => some (mkF 2 0x53 h o.d.num o.a.num 0 0 (vMod o.ty o.rnd o.sat false (0#7 ++ o.op.code)))
  | .topk h o => some (mkF 2 0x54 h (vNum o.d) o.a.num o.k.num (vNum o.c) (vMod o.ty .rne false o.k.sbi 0))
  | .vhist h o => some (mkF 2 0x55 h (vNum o.d) o.a.num o.g.num 0 (vMod o.ty .rne false o.g.sbi (0#8 ++ bitB o.acc)))
  | .okey h o => some (encVUn 0x56 h o) | .okeyi h o => some (encVUn 0x57 h o)
  | .digit h o => some (mkF 2 0x58 h o.d.num o.a.num o.pre.num 0 (vMod o.ty .rne false o.pre.sbi (o.pos ++ o.len)))
  | .pcnt h o => some (mkF 2 0x60 h (sNum o.d) (pNum o.a) 0 0 0)
  | .pand h o => some (encPBin 0x61 h o) | .por h o => some (encPBin 0x62 h o) | .pxor h o => some (encPBin 0x63 h o)
  | .pnot h o => some (mkF 2 0x64 h (pNum o.d) (pNum o.a) 0 0 0)
  | .mma h o => some (encMma 0x00 h 0 o) | .mmaw h o => some (encMma 0x01 h (sNum o.d) o.m)
  | .aclr h m => some (mkF 3 0x02 h 0 0 0 0 (0#1 ++ m))
  | .ard h o => some (mkF 3 0x03 h o.d.num 0 0 (sNum o.c) (0#6 ++ bitB o.col ++ o.idx ++ o.acc))
  | .awr h o => some (mkF 3 0x04 h 0 o.a.num 0 0 (0#6 ++ bitB o.col ++ o.idx ++ o.acc))
  | .adrn h o => some (mkF 3 0x05 h 0 (sNum o.a) 0 0
      (0#6 ++ bitB o.za ++ bitB o.sat ++ o.rnd.code ++ o.fmt.code ++ o.acc))
  | .mstat h o => some (mkF 3 0x06 h (sNum o.d) 0 0 0 (0#16 ++ bitB o.clr))
  | .stb h o => some (encSSt 0x00 0 h o) | .sth h o => some (encSSt 0x01 1 h o) | .stw h o => some (encSSt 0x02 2 h o)
  | .std h o => some (mkF 4 0x03 h o.d.num o.addr.num o.addr.sbNum 0 (mMod 3 o.addr.am o.addr.imm))
  | .stv h o => some (encV 4 0x04 h o.d.num o.ew o.addr 0)
  | .stvs h o => some (encV 4 0x05 h o.d.num o.ew o.addr (sNum o.stride))
  | .stg h o => some (mkF 4 0x06 h o.d.num (sNum o.base) (vNum o.idx) 0 (mMod 2 3 (idxImm o.sp o.sgn o.sc)))
  | .sts h o => some (encB 4 0x07 h o.d.num o.ew o.addr 0)
  | .stss h o => some (encB 4 0x08 h o.d.num o.ew o.addr (sNum o.stride))
  | .stmx h o => some (encMx 4 0x09 h o) | .stt h o => some (encTile 4 0x0A h o)
  | .ixst h o => some (mkF 4 0x0B h (sNum o.desc) o.addr.num 0 0 (mMod 0 o.addr.am o.addr.imm))
  | .atom h o => some (mkF 4 0x0C h (sNum o.d) (sNum o.a) (sNum o.b) 0 (aMod o.w64 o.op.code o.ord o.scope))
  | .acas h o => some (mkF 4 0x0D h (sNum o.d) (sNum o.a) (sNum o.b) (sNum o.c) (aMod o.w64 0 o.ord o.scope))
  | .red h o => some (mkF 4 0x0E h o.d.num (sNum o.a) 0 0 (aMod o.w64 o.op.code o.ord o.scope))
  | .rpub h g => some (mkF 4 0x0F h 0 (gNum g) 0 0 0)
  | .fence h s => some (mkF 4 0x10 h 0 0 0 0 (0#14 ++ s.code))
  | .cpy h o => some (mkF 5 0x00 h (sNum o.d) (sNum o.a) (sNum o.b) (sNum o.c)
      (o.kind.code ++ o.scope.code ++ bitB o.acq ++ bitB o.rel ++ bitB o.ip ++ bitB o.ssp ++ bitB o.dsp ++ ringMod o.ring))
  | .cpyf h o => some (mkF 5 0x01 h (sNum o.d) (sNum o.a) (sNum o.b) (sNum o.c) (0#11 ++ ringMod o.ring))
  | .cpyq h o => some (encRR 5 0x02 h o)
  | .cred h o => some (mkF 5 0x03 h (sNum o.d) (sNum o.a) (sNum o.b) (sNum o.c) (o.fl.mod o.op.code))
  | .cmc h o => some (mkF 5 0x04 h (sNum o.d) (sNum o.a) (sNum o.b) (sNum o.c) (o.fl.mod 0))
  | .cbar h o => some (mkF 5 0x05 h (sNum o.d) (sNum o.a) 0 0 (o.fl.mod 0))
  | .unv h o => some (mkF 5 0x06 h (sNum o.d) (sNum o.a) 0 0 (o.fl.mod 0))
  | .patclr h o => some (mkF 5 0x07 h (sNum o.d) (sNum o.a) (sNum o.b) 0 (o.fl.mod 0))
  | .cbld h o => some (mkF 6 0x00 h (cbNum o.d) (sNum o.a) 0 0 (0#16 ++ bitB o.sp))
  | .cbst h o => some (mkF 6 0x01 h (cbNum o.d) (sNum o.a) 0 0 (0#16 ++ bitB o.sp))
  | .cbget h o => some (mkF 6 0x02 h o.d.num (cbNum o.a) 0 0 (0#15 ++ o.q))
  | .cbput h o => some (mkF 6 0x03 h (cbNum o.d) o.a.num 0 0 (0#15 ++ o.q))
  | .cbcnt h (.set d a t) => some (mkF 6 0x04 h (cbNum d) (sNum a) 0 0 (0#13 ++ t.code ++ 0#2))
  | .cbcnt h (.rd d a) => some (mkF 6 0x04 h (sNum d) (cbNum a) 0 0 1)
  | .cbcnt h (.rt d a b) => some (mkF 6 0x04 h (sNum d) (cbNum a) (sNum b) 0 2)
  | .cbdedup h c => some (mkF 6 0x05 h (cbNum c) 0 0 0 0)
  | .ixremap h o => some (mkF 6 0x06 h (sNum o.d) (cbNum o.a) (sNum o.b) 0 (0#16 ++ bitB o.n))
  | .cbenc h o => some (mkF 6 0x07 h (sNum o.d) o.a.num (sNum o.b) (sNum o.c) 0)
  | .cbdec h o => some (mkF 6 0x08 h o.d.num (sNum o.a) (sNum o.b) 0 0)
  | .ixmov h o => some (encRRR 6 0x09 h o)
  | .cbpair h o => some (mkF 6 0x0A h 0 (cbNum o.a) (cbNum o.b) 0 (0#4 ++ o.rnd.code ++ bitB o.sat ++ 0#7 ++ o.op.code))
  | .ixpair h o => some (mkF 6 0x0B h (sNum o.d) (sNum o.a) (sNum o.b) (sNum o.c) 0)
  | .ixhist h o => some (encRR 6 0x0C h o)
  | .reclust h o => some (mkF 6 0x0D h (cbNum o.d) (sNum o.a) (sNum o.b) (sNum o.c) (0#8 ++ o.k))
  | .bsget h (.e d a) => some (mkF 6 0x0E h d.num (sNum a) 0 0 0)
  | .bsget h (.h d a) => some (mkF 6 0x0E h d.num (sNum a) 0 0 1)
  | .bsget h (.r d a) => some (mkF 6 0x0E h d.num (sNum a) 0 0 2)
  | .bsget h (.st d) => some (mkF 6 0x0E h (sNum d) 0 0 0 3)
  | .bsget h (.cst d) => some (mkF 6 0x0E h (sNum d) 0 0 0 4)
  | .trap h b i => some (mkF 7 0x00 h 0 0 0 0 (bitB b ++ i))
  | .tret h => some (mkF 7 0x01 h 0 0 0 0 0)
  | .mfs h o => some (mkF 7 0x02 h (sNum o.d) 0 0 0 (0#8 ++ bitB o.drain ++ o.reg.code))
  | .mts h o => some (mkF 7 0x03 h 0 (sNum o.a) 0 0 (0#9 ++ o.reg.code))
  | .rqrd h o => some (mkF 7 0x04 h (sNum o.d) o.n.num 0 (sNum o.c) o.n.mod)
  | .rqrel h n => some (mkF 7 0x05 h 0 n.num 0 0 n.mod)
  | .rqdrop h n => some (mkF 7 0x06 h 0 n.num 0 0 n.mod)
  | .phase h a => some (mkF 7 0x07 h 0 (sNum a) 0 0 0)
  | .icflush h a b => some (mkF 7 0x08 h 0 (sNum a) (sNum b) 0 0)
  | .halt h => some (mkF 7 0x09 h 0 0 0 0 0)
  | .resultWrite | .accessPerform _ _ _ _ | .accessResponse _ | .atomicStep _ _ _ | .tileOperationPerform _ _ _
  | .watchWake | .tokenDeadlock | .trapEntry | .handlerFault | .trapReturn | .snapshotWrite | .waittWake
  | .waitaDeadline | .monitorRegistrationAck | .barrierArrival _ | .barrierRelease _ | .ringRegistrationAnswer
  | .ringClaimGrant | .promiseWrite | .commandStart _ | .commandAcquire _ | .commandAccess _ _ _
  | .commandCompletion _ | .cpyfLineFill | .readCountExpiry _ | .unveilStateBlockRead | .unveilRound
  | .patclrClear | .contributionArrival _ | .matrixCommandStart | .kStepCompletion | .matrixCommandCompletion
  | .ardSnapshot | .phaseProceed | .phaseCommit | .phaseCancellation | .strikeReport | .pageTableWalk _
  | .compressedBlockRecovery _ _ | .strandRetirement | .preemption | .csctlGo | .ccommit _ _ _
  | .strandStart _ _ | .launchRecord _ _ | .launchQueueSignal _ _ | .completionRecord _ _ | .heartbeatPeriod
  | .heartbeat _ _ _ | .vote _ _ | .fenceNotice _ _ | .selfTestCompletion _ | .appeal _ _ _ | .readmitVote _ _
  | .readmit | .force | .orphcntRead _ | .bclostRead _ | .bstatWrite _ _ _ | .membercfgWrite _
  | .queuePairEnable _ _ _ | .tinvcGo _ _ | .invalidationComplete _ | .fwctlGo | .enrolKey _ _ _
  | .revokeSlot _ _ | .raiseSvnFloor _ _ | .setVlock _ | .attestationRequest _ | .bar2Access _ _
  | .remoteRequest _ _ _ _ | .clockReferenceLoss | .thermalStop _ | .powerUp | .registerWrite _ _ | .wordSplit
  | .variableLatencyCompletion _ | .lineEviction _ | .ownerAcknowledgement | .monclAcknowledgement
  | .contextImageDone | .firmwareLoadCompletion | .brodnisPortTraining _ _ _ | .timeBeacon _ | .sealRequest _ => none

/-- The word of an instruction (R45). -/
def encode (i : Instr) : Option IWord := i.fields?.map Fields.toWord

/-- The instruction my decoder reads from a table row's bits: one 80-bit word, bit 0 the least significant bit of its
first byte (R45); bits above nbits are zero. -/
def decodeTableWord (nbits w : Nat) : Option Instr :=
  match decode (BitVec.ofNat 80 (w % 2 ^ nbits)) with
  | .ok i => some i
  | .error _ => none

end Sys2Proof
end

