-- ==== Sys2Proof/Machine/TileState.lean ====
section
/-! DEFINITION. What one tile holds: the strand's registers, its two banked frames, its queues and FIFOs, its engines'
commands and its buffers. Plain data; every register has one home. -/

namespace Sys2Proof.Machine

/-- Memory as (address, byte) pairs in one canonical form: addresses strictly rising, no byte equal to what an unlisted
address reads as (`Config.ramByte`). -/
abbrev Memory := List Host.Cell

/-- The canonical form. -/
def Memory.wf : Memory → Bool
  | [] => true
  | [(_, b)] => b != Config.ramByte
  | (a, b) :: (a', b') :: r => b != Config.ramByte && decide (a < a') && Memory.wf ((a', b') :: r)

/-! ## Registers (R58, R88, R157, R178, R297) -/

/-- An address register (R88) with its queue binding (R91). -/
structure ARegS where
  addr : BitVec 48
  base : BitVec 48
  stride : BitVec 32
  modulus : BitVec 33
  mode : AMode
  bind : Option Fifo
deriving DecidableEq, Repr

/-- All zero at bind (R88). -/
def ARegS.zero : ARegS := ⟨0, 0, 0, 0, .lin, none⟩

/-- A codebook register (R157): 256 entries of 32 bits, the side table of 256 bytes. -/
structure Codebook where
  entry : BitVec 8192
  count : BitVec 9
  ty : CbTy
  tag : BitVec 8
  remap : BitVec 2048
  rlen : BitVec 9
  rfrom : BitVec 8
  rto : BitVec 8
deriving DecidableEq, Repr

/-- Zero at bind (R157). -/
def Codebook.zero : Codebook := ⟨0, 0, .f32, 0, 0, 0, 0, 0⟩

/-- The basin (R178). -/
structure Basin where
  entry : BitVec 131072
  count : BitVec 13
  m : BitVec 9
  nb : BitVec 9
  ty : CbTy
  tag : BitVec 8
  acb : BitVec 4
  atag : BitVec 8
  bcb : BitVec 4
  btag : BitVec 8
  hist : BitVec 131072
  hb : Bool
  htag : BitVec 8
  bremap : BitVec 32768
  rcnt : BitVec 9
deriving DecidableEq, Repr

/-- Zero at bind (R178). -/
def Basin.zero : Basin := ⟨0, 0, 0, 0, .f32, 0, 0, 0, 0, 0, 0, false, 0, 0, 0⟩

/-- A ring register (R270): base, geometry, and the sequence numbers it has claimed, oldest first (R271). -/
structure RingReg where
  conf : Bool
  base : Word
  geom : Word
  prod : List Nat
  cons : List Nat
deriving DecidableEq, Repr

/-- Unconfigured (R271). -/
def RingReg.zero : RingReg := ⟨false, 0, 0, [], []⟩

/-- The register files that both modes share (R289). -/
structure Regs where
  v : Vector VWord (2 ^ 6)
  s : Vector Word (2 ^ 5)
  a : Vector ARegS (2 ^ 3)
  p : Vector Word (2 ^ 3)
  g : Vector RingReg (2 ^ 4)
  cb : Vector Codebook (2 ^ 4)
  basin : Basin
  vrb : BitVec 5
deriving DecidableEq, Repr

/-- The values at bind (R59, R88, R157, R178, R271, R330). -/
def Regs.zero : Regs where
  v := Vector.replicate _ 0
  s := Vector.replicate _ 0
  a := Vector.replicate _ .zero
  p := Vector.replicate _ 0
  g := Vector.replicate _ .zero
  cb := Vector.replicate _ .zero
  basin := .zero
  vrb := 0

/-- The system registers (R297), and MFLAGS (R206). RQSTAT is read from the replay queue. -/
structure SysRegs where
  vflags : BitVec 5
  vtrapen : BitVec 5
  cst : Word
  uet : Bool
  phcfg : Word
  tcause : Word
  tpc : Word
  tepc : Word
  tval : Word
  tvec : Word
  tscr0 : Word
  tscr1 : Word
  tvrb : BitVec 5
  troot : Word
  mflags : BitVec 5
deriving DecidableEq, Repr

/-- The reset values of R297. -/
def SysRegs.zero : SysRegs := ⟨0, 0, 0, false, 0, 0, 0, 0, 0, 0, 0, 0, 0, 0, 0⟩

/-- What bind gives a strand beside its scalars (R21, R87). -/
structure Bound where
  iter0 : Word
  iter1 : Word
  iter2 : Word
  iter3 : Word
  iter4 : Word
  iter5 : Word
  launch : BitVec 32
  wave : BitVec 32
deriving DecidableEq, Repr

def Bound.zero : Bound := ⟨0, 0, 0, 0, 0, 0, 0, 0⟩

/-! ## Words in the queues (R47, R12) -/

/-- What the splitter found in a word: an instruction, or the decode check it fails (R72). -/
inductive Parsed where
  | ok (i : Instr) | bad (e : DecErr)
deriving DecidableEq, Repr

/-- A word in a queue: its place in program order, the clk of its split (R333), what the splitter read, its PC, the rotation base and the stage
predicates in force at its split (R47, R59, R60), the tag producers it waits for (R55), its subnormal mode (R86), and whether its
split read a failing stage predicate as zeros (R337). -/
structure QWord where
  id : Nat
  born : Nat
  raw : IWord
  what : Parsed
  pc : Nat
  vrb : BitVec 5
  p4 : Word
  p5 : Word
  p6 : Word
  p7 : Word
  waits : List (BitVec 3 × Nat)
  imode : Bool
  ue : Bool
deriving DecidableEq, Repr

/-- The six token counts (R13), 0 to 15 each. -/
structure Tokens where
  lc : BitVec 4
  cs : BitVec 4
  sl : BitVec 4
  cl : BitVec 4
  sc : BitVec 4
  ls : BitVec 4
deriving DecidableEq, Repr

def Tokens.zero : Tokens := ⟨0, 0, 0, 0, 0, 0⟩

/-- An entry of a queue register (R61): reserved by the word `id`, filled or not. -/
structure QEntry where
  id : Nat
  filled : Bool
  val : VWord
deriving DecidableEq, Repr

/-- A loop frame (R82). -/
structure LoopFrame where
  start : Nat
  stop : Nat
  left : Word
  drain : BitVec 2
  i : Bool
  p4 : Word
  p5 : Word
  p6 : Word
  p7 : Word
deriving DecidableEq, Repr

/-! ## Results on their way to registers -/

/-- One register write, with the bits it writes; a promise with the command that it binds its register to (R93); for a codebook register and for the basin, the 64-bit words that it writes whole. -/
inductive RegWrite where
  | s (n : SReg) (x : Word)
  | promise (n : SReg) (x : Word) (cmd : Option Nat)
  | v (n : VReg) (mask x : VWord)
  | p (n : PReg) (mask x : Word)
  | qi (n : QReg) (id : Nat) (x : VWord)
  | qo (n : QReg) (id : Nat) (x : VWord)
  | cb (n : CReg) (x : Codebook) (ws : List Nat)
  | basin (x : Basin) (ws : List Nat)
  | cst (mask x : Word)
deriving DecidableEq, Repr

/-- A held or raised cause (R291, R382): code, PC of the word (TEPC), TVAL, the replay entry it parked, and whether an X
word raised it (XW). -/
structure Cause where
  code : BitVec 8
  pc : Nat
  tval : Word
  rq : Option (BitVec 5)
  xw : Bool
  id : Nat
deriving DecidableEq, Repr

/-- A result in flight: the clk at which it is due, the registers it writes, the flags it ORs into VFLAGS (R154), the tag it
then writes, the causes it raises once it has written, class 19 for zeros it consumed (R338) and one of its own (R54, R186, R233), and
whether a trap takes it to the snapshot (R292: a C word of fixed latency that is no code word with effects of its own). For a
variable-latency result due is the issue clk. -/
structure Result where
  id : Nat
  frame : FrameSel
  pc : Nat
  due : Nat
  writes : List RegWrite
  flags : BitVec 5
  tag : BitVec 3
  ue : Option Cause
  cause : Option Cause
  snap : Bool
deriving DecidableEq, Repr

/-! ## Accesses (R109, R110) -/

/-- The four tile buffers (R14). -/
inductive Buf where
  | wb | ab | xb | lb
deriving DecidableEq, Repr

/-- Classes of access (R110): global, own WB, AB and LB, peer; rpub and rfree each have a class of their own (R273, R275);
marks and fences have none. -/
inductive AClass where
  | g | wb | ab | lb | peer | ring | order
deriving DecidableEq, Repr

/-- Where an element lies: a global virtual address as its 64-bit sum, or a byte of a tile's buffer. -/
inductive Place where
  | glob (va : Word)
  | buf (tile : TileId) (b : Buf) (off : Nat)
deriving DecidableEq, Repr

/-- State of a unit of an access (R110, R118, R121, R122): waiting, parked in a replay entry, stopped for want of an entry,
performed, answered
FENCED or absent without being performed, or dropped by rqdrop. -/
inductive UState where
  | todo | parked (n : BitVec 5) | stopped | done | refused | dropped
deriving DecidableEq, Repr

/-- A piece of an access: `n` bytes at a place, from or to byte `at_` of the register. -/
structure Piece where
  at_ : Nat
  place : Place
  n : Nat
deriving DecidableEq, Repr

/-- A unit that is checked, parks and is released as one (R33, R118). `left` are the pieces of a unit that has passed its checks which
are still to be performed, with their physical places: those that lie in one line go together (R107). -/
structure MUnit where
  no : Nat
  pieces : List Piece
  left : List (Piece × List (Nat × Nat))
  st : UState
deriving DecidableEq, Repr

/-- An issued access: its word, class, units, captured store data and scalar operands, the bytes delivered so far, its
progress within a lookup or a tensor (R171, R238), what an uncorrectable datum it consumed names (R338), the address of its
first refused unit (R54), the physical lines whose read counts it has taken (R123), and the bytes of its data in a phase's log
(R311). -/
structure Access where
  w : QWord
  cls : AClass
  units : List MUnit
  data : List Byte
  args : List Word
  got : List Byte
  ue : Option Word
  refused : Option Word
  counted : List Nat
  fill : Nat
deriving DecidableEq, Repr

/-- What a word that holds the splitter waits for (R92, R94, R262, R272, R274, R266, R309, R260, R263, R270), a halt that has
stopped it (R301), or the command that refills the input of a cancelled phase (R312). -/
inductive Wait where
  | time (deadline : Word) (cmd : Option Nat)
  | tags (ps : List (BitVec 3 × Nat))
  | alarm (d : SReg) (deadline : Word) (trap : Bool)
  | ringE (d : SReg) (g : GReg)
  | ringF (d : SReg) (g : GReg)
  | ringGot (d : SReg) (addr : Word)
  | mon (line : Nat)
  | moncl
  | rinit (g : GReg) (base geom : Word)
  | bar (lvl : BarLevel) (id : BitVec 4) (gen : Nat) (arrived : Bool)
  | phase (input : Word)
  | halted
  | refill (cmd : Nat)
deriving DecidableEq, Repr

/-- The word that holds the splitter, with its PC and its place in program order (R296), and whether it raises class 19 once it has
ended (R338). -/
structure HeldWord where
  id : Nat
  pc : Nat
  raw : IWord
  wait : Wait
  ue : Bool
deriving DecidableEq, Repr

/-- What a mode banks (R289), with the issue clocks of its queues and ports (R50, R108, R131), what an issue decision of one
clk still sees: the token counts and the queue-register pops of that clk, the registers that its issues have read (R333), and the floating words of interlocked mode that
have issued: their types, and whether an operand was subnormal (R131). -/
structure Frame where
  l : List QWord
  c : List QWord
  s : List QWord
  a : List QWord
  tok : Tokens
  tokClk : Nat
  tokSeen : Tokens
  popClk : Nat
  pops : List RegRef
  readClk : Nat
  reads : List RegRef
  qi : Vector (List QEntry) (2 ^ 2)
  qo : Vector (List QEntry) (2 ^ 2)
  tags : Vector (Option Nat) (2 ^ 3)
  loops : List LoopFrame
  lf : List Access
  sf : List Access
  ans : List Access
  wait : Option HeldWord
  free : Nat
  nextL : Nat
  nextC : Nat
  nextS : Nat
  nextA : Nat
  portL : Nat
  portS : Nat
  busyV : Nat
  busyK : Nat
  fps : List (Nat × Ty × Bool)
deriving DecidableEq, Repr

/-- An empty frame whose splitter is free at a clk. -/
def Frame.empty (free : Nat) : Frame where
  l := []
  c := []
  s := []
  a := []
  tok := .zero
  tokClk := 0
  tokSeen := .zero
  popClk := 0
  pops := []
  readClk := 0
  reads := []
  qi := Vector.replicate _ []
  qo := Vector.replicate _ []
  tags := Vector.replicate _ none
  loops := []
  lf := []
  sf := []
  ans := []
  wait := none
  free := free
  nextL := 0
  nextC := 0
  nextS := 0
  nextA := 0
  portL := 0
  portS := 0
  busyV := 0
  busyK := 0
  fps := []

/-! ## The replay queue (R118, R303) -/

/-- Who owns a replay entry: a unit of an access of the word `id`, in the L or the S FIFO of the user frame, or a command of
the copy channel or the Unveil FIFO. -/
inductive Owner where
  | access (q : Fifo) (id no : Nat)
  | command (eng : CmdEng) (id : Nat)
deriving DecidableEq, Repr

/-- A valid replay entry (R303). -/
structure RqEntry where
  cls : BitVec 5
  eng : BitVec 3
  queue : BitVec 2
  rel : Bool
  opc : BitVec 8
  strm : BitVec 2
  sub : BitVec 8
  elem : BitVec 24
  addr : Word
  dlv : Bool
  pc : Nat
  owner : Owner
deriving DecidableEq, Repr

/-! ## The matrix engine (R195–R206) -/

/-- A command of the matrix engine: the words whose accesses were in the FIFOs when it issued (R199), its captured operands, the
latched codebook of a coded B, its progress. -/
structure MatCmd where
  w : QWord
  older : List Nat
  frame : FrameSel
  a : Word
  b : Word
  c : Word
  latched : Option Codebook
  val : VWord
  mask : Word
  started : Bool
  done : Nat
  fl : BitVec 5
  ue : Option Word
deriving DecidableEq, Repr

/-- An ard that waits for its snapshot (R203): the youngest older command that writes its tile, and the first zeroed unit it has
consumed. -/
structure ArdReq where
  w : QWord
  frame : FrameSel
  mask : Word
  after : Option Nat
  ue : Option Word
deriving DecidableEq, Repr

/-- The matrix engine: its queue, oldest first, the waiting ard words, the step report of the last completed writer of each
accumulator tile. -/
structure Matrix where
  queue : List MatCmd
  ards : List ArdReq
  report : Vector Word (2 ^ 4)
deriving DecidableEq, Repr

def Matrix.idle : Matrix := ⟨[], [], Vector.replicate _ 0⟩

/-! ## Commands of the copy channel and the Unveil FIFO (R216, R227, R247, R277) -/

/-- How far a command has come (R227). -/
inductive CmdState where
  | queued | started | acquired
deriving DecidableEq, Repr

/-- How an output reaches its place: written, or bits of a 64-bit word set or cleared in one step (R248). -/
inductive OutKind where
  | put | set | clr
deriving DecidableEq, Repr

/-- One output of a command: where it goes, its bytes or its mask, and the stream and number that a fault on it reports (R233). -/
structure OutOp where
  place : Place
  kind : OutKind
  data : List Byte
  strm : BitVec 2
  elem : Nat
deriving DecidableEq, Repr

/-- A command: the frame that issued it, its captured operands, the ring it captured, its state, whether the strand that issued it has left
the tile (R234, R350), which of its source parts and of its outputs have been performed, the physical lines whose read counts it has
taken (R123), the bytes it has read, the outputs that its rounds or its instance gave it and whether they are
known, the access at which it is parked or stopped and the replay entry that holds it, whether rqdrop has ended it, whether its
contribution has been sent, its collective instance, the first zeroed unit it consumed, its issue clk, its start clk. -/
structure Cmd where
  id : Nat
  frame : FrameSel
  pc : Nat
  ins : Instr
  src : Word
  dst : Word
  res : Word
  shape : Word
  ring : Option (GReg × RingReg)
  st : CmdState
  orphan : Bool
  rdone : List Nat
  wdone : List Nat
  counted : List Nat
  buf : List Byte
  out : List OutOp
  ready : Bool
  at_ : Option (Bool × Nat)
  parked : Option (BitVec 5)
  dropped : Bool
  sent : Bool
  inst : Option Nat
  ue : Option Word
  issued : Nat
  since : Nat
deriving DecidableEq, Repr

/-- A write that a completed command has sent: its physical spans, or its place in a buffer, and its bytes (R230); the command's
number, frame, PC and source address, whether its strand has left the tile, and the first zeroed unit it has consumed (R233). -/
structure SentWrite where
  spans : List (Nat × Nat)
  op : OutOp
  id : Nat
  frame : FrameSel
  pc : Nat
  src : Word
  orphan : Bool
  ue : Option Word
deriving DecidableEq, Repr

/-- A promise on its way to its register (R217), with the class that its word raises once it has written (R338). -/
structure Promise where
  due : Nat
  frame : FrameSel
  wid : Nat
  d : SReg
  value : Word
  cmd : Option Nat
  tag : BitVec 3
  cause : Option Cause
deriving DecidableEq, Repr

/-- A command FIFO: commands oldest first, writes sent by completed commands and not yet performed (R230), whether the
firmware has disabled it (R221, R251), the last promise, and one more than the last running time of a completed unv,
0 when there is none. -/
structure Engine where
  fifo : List Cmd
  late : List SentWrite
  unacked : Nat
  disabled : Bool
  lastPromise : Nat
  lastRun : Nat
deriving DecidableEq, Repr

def Engine.idle : Engine := ⟨[], [], 0, false, 0, 0⟩

/-! ## Rings (R270, R271) -/

inductive SlotState where
  | empty | pclaim | full | cclaim
deriving DecidableEq, Repr

/-- A ring as its owner keeps it. -/
structure Ring where
  buf : Buf
  off : Nat
  geom : Word
  ph : Nat
  ch : Nat
  slots : List SlotState
deriving DecidableEq, Repr

/-! ## Guarded phases (R309–R313) -/

/-- An active guarded phase: its place in program order, the checkpoint, the clk of the last result, the log of stores that the commit will perform and its
bytes, a cancellation asked for. -/
structure PhaseState where
  since : Nat
  s : Vector Word (2 ^ 5)
  a : Vector ARegS (2 ^ 3)
  vrb : BitVec 5
  p4 : Word
  p5 : Word
  p6 : Word
  p7 : Word
  loops : List LoopFrame
  input : Word
  resume : Nat
  last : Nat
  log : List Access
  fill : Nat
  cancel : Bool
deriving DecidableEq, Repr

/-! ## Fencing (R346–R355) -/

/-- What a tile holds about the neighbour at one of its ports (R347, R348, R354, R355): valid heartbeats of the last three
periods and of this one; heartbeats, flits and malformed flits of this period and of the last; the last SEQ; the latest fence
and readmit votes about it by the direction, seen from it, that they came from; whether the port is closed; the consecutive
periods with one valid appeal, and the appeals of this period. -/
structure Neighbour where
  ok1 : Nat
  ok2 : Nat
  ok3 : Nat
  okNow : Nat
  hbNow : Nat
  hbLast : Nat
  flNow : Nat
  flLast : Nat
  badNow : Bool
  badLast : Bool
  seq : Option (BitVec 16)
  votes : Vector (Option Nat) (2 ^ 2)
  rvotes : Vector (Option Nat) (2 ^ 2)
  closed : Bool
  appeals : Nat
  apNow : Nat
deriving DecidableEq, Repr

/-- Before the first period: nothing is suspected until three periods have passed. -/
def Neighbour.fresh : Neighbour where
  ok1 := 1
  ok2 := 1
  ok3 := 1
  okNow := 0
  hbNow := 0
  hbLast := 0
  flNow := 0
  flLast := 0
  badNow := false
  badLast := false
  seq := none
  votes := Vector.replicate _ none
  rvotes := Vector.replicate _ none
  closed := false
  appeals := 0
  apNow := 0

/-- FSTAT's own bits (R351), the self-test (R354), the tile's view of its neighbours, the last period it has begun, and how many
periods had begun when it last sent its flits (R346, R354). -/
structure Fence where
  fenced : Bool
  cause : BitVec 2
  bin : BitVec 2
  test : Bool
  testing : Bool
  ready : Bool
  n : Neighbour
  e : Neighbour
  s : Neighbour
  w : Neighbour
  period : Nat
  sent : Nat
deriving DecidableEq, Repr

def Fence.fresh : Fence := ⟨false, 0, 0, false, false, false, .fresh, .fresh, .fresh, .fresh, 0, 0⟩

/-- The context-save registers (R359). -/
structure CtxSave where
  addr : Word
  busy : Bool
  done : Bool
  len : BitVec 32
deriving DecidableEq, Repr

/-- A unit of a tile's SRAM that has become uncorrectable (R336, R337): a 64-bit word of a buffer, of a register, of a codebook
register or of the basin, a ring register, a 64-bit word of an entry of a queue register of a frame, named by the word that has reserved it,
a system register, a 64-bit word of a replay entry (its fault address, its entry word, its captured data
from word 2 on), or a line of the instruction cache. -/
inductive SramUnit where
  | buf (b : Buf) (word : Nat)
  | v (n : VReg) (word : BitVec 5)
  | s (n : SReg)
  | p (n : PReg)
  | a (n : AReg)
  | g (n : GReg)
  | qi (k : FrameSel) (n : QReg) (id : Nat) (word : BitVec 5)
  | qo (k : FrameSel) (n : QReg) (id : Nat) (word : BitVec 5)
  | cb (n : CReg) (word : Nat)
  | basin (word : Nat)
  | sys (r : SysReg)
  | rq (n : BitVec 5) (word : Nat)
  | iline (line : Nat)
deriving DecidableEq, Repr

/-! ## The tile -/

inductive Mode where
  | user | handler
deriving DecidableEq, Repr

/-- What the tile's strand is doing (R288, R290, R301, R305, R329). -/
inductive Strand where
  | absent
  | running
  | halting
  | ended (cause : BitVec 8) (pc : Nat)
  | retired
  | preempting
  | preempted
deriving DecidableEq, Repr

/-- The typed buffers (R14); a byte never written reads as bind left it, zero (R330). -/
structure Buffers where
  wb : Memory
  ab : Memory
  xb : Memory
  lb : Memory
deriving DecidableEq, Repr

/-- A trap that a clk has raised and that is taken as the clk ends (R292): the cause, where TPC points (none: at the next word that the splitter
would split), and the wait word that raised it of itself, which is held over if an older cause of the clk is raised instead
(R293, R296). -/
structure Trap where
  cause : Cause
  tpc : Option Nat
  wait : Option HeldWord
deriving DecidableEq, Repr

/-- One tile. `team` is the number of the strand's team, 0 for none; `trap` the trap that this clk has raised, and `freezing` a
pre-emption asked for, both taken as the clk ends; `te` is the clk of the last freeze by a trap, `tf` that of the
last pre-emption, `quiet` is the clk of the last split, issue or completion (R66), `landed` the results that have written in clk
`landClk` (R130), `unacked` counts the strand's stores to other members that their owners have not acknowledged (R125), `coll` the
collective commands issued on each group (R277), `ueNote` the failing words of registers that a write of part of them has found, not
yet recorded in the tile's bank (R337). -/
structure Tile where
  st : Strand
  team : Nat
  mode : Mode
  pc : Nat
  regs : Regs
  sys : SysRegs
  bound : Bound
  user : Frame
  hand : Frame
  trap : Option Trap
  freezing : Bool
  te : Nat
  tf : Nat
  pipe : List Result
  vpend : List Result
  landClk : Nat
  landed : List Result
  promises : List Promise
  snap : List Result
  replay : Vector (Option RqEntry) (2 ^ 5)
  held : List Cause
  watch : List Nat
  wake : Bool
  binds : Vector (Option Nat) (2 ^ 5)
  mat : Matrix
  chan : Engine
  unv : Engine
  bufs : Buffers
  rings : List Ring
  icache : List (Nat × BitVec 1024)
  phase : Option PhaseState
  fence : Fence
  quiet : Nat
  unacked : Nat
  cs : CtxSave
  coll : Vector Nat (2 ^ 4)
  sramUe : List SramUnit
  ueNote : List SramUnit
deriving DecidableEq, Repr

/-- A tile to which no strand has been bound: bind values throughout (log entry 4). -/
def Tile.fresh : Tile where
  st := .absent
  team := 0
  mode := .user
  pc := 0
  regs := .zero
  sys := .zero
  bound := .zero
  user := .empty 0
  hand := .empty 0
  trap := none
  freezing := false
  te := 0
  tf := 0
  pipe := []
  vpend := []
  landClk := 0
  landed := []
  promises := []
  snap := []
  replay := Vector.replicate _ none
  held := []
  watch := []
  wake := false
  binds := Vector.replicate _ none
  mat := .idle
  chan := .idle
  unv := .idle
  bufs := ⟨[], [], [], []⟩
  rings := []
  icache := []
  phase := none
  fence := .fresh
  quiet := 0
  unacked := 0
  cs := ⟨0, false, false, 0⟩
  coll := Vector.replicate _ 0
  sramUe := []
  ueNote := []

end Sys2Proof.Machine
end

