-- ==== Sys2Proof/Machine/DieState.lean ====
section
/-! DEFINITION. What a die holds beside its tiles, and what the clusters, the teams, the package and the domain hold. -/

namespace Sys2Proof.Machine

/-- A cached translation (R314, R315): the ASID unless the entry is global, the page's virtual base, its level, its leaf
entry. -/
structure Tlb where
  asid : Option (BitVec 12)
  base : Nat
  level : Nat
  pte : Word
deriving DecidableEq, Repr

/-- An error bank (R340): BSTAT, BADDR, BINFO. -/
structure Bank where
  v : Bool
  ue : Bool
  ovf : Bool
  kind : BitVec 4
  count : BitVec 32
  addr : BitVec 56
  synd : BitVec 8
  tnum : BitVec 8
  code : BitVec 8
deriving DecidableEq, Repr

def Bank.zero : Bank := ⟨false, false, false, 0, 0, 0, 0, 0, 0⟩

/-- A bind record (R327): 32 words. -/
abbrev BindRec := Vector Word (2 ^ 5)

/-- An accepted commit whose strands have not started (R329): the cluster, the ranks, the bank, the number of its team, that of the commit, a copy of
each bind record, and the context images read for those with RST set. -/
structure Dispatch where
  cluster : BitVec 4
  mask : BitVec 8
  bank : Bool
  team : Nat
  seq : Nat
  recs : List (BitVec 3 × BindRec)
  images : List (BitVec 3 × List Byte)
deriving DecidableEq, Repr

/-- A queue pair (R363); PIDX as the firmware last read it, and the records below it as they were then (R320). -/
structure QPair where
  lqbase : BitVec 49
  en : Bool
  q : BitVec 5
  iid : BitVec 11
  cqbase : BitVec 60
  cqlog : BitVec 5
  vec : BitVec 11
  cqtail : Word
  cqhead : Word
  pidx : Word
  seen : List (List Byte)
deriving DecidableEq, Repr

def QPair.zero : QPair := ⟨0, false, 0, 0, 0, 0, 0, 0, 0, 0, []⟩

/-- An invalidation (R364). -/
structure Inval where
  va : BitVec 32
  pages : BitVec 32
  glb : Bool
  all : Bool
  asid : BitVec 12
deriving DecidableEq, Repr

/-- The firmware's interrupts to a hart, beside those of its IMSIC identities (R342, R348, R355, R331, R290, R305). -/
inductive Irq where
  | ueRecord | fence | ready | halted | ended | frozen
deriving DecidableEq, Repr

/-- One instance of a die's barrier (R267, R268): the level of its first team's arrival, the teams arrived, whether the die has
sent its arrival to the package. -/
structure DieInst where
  level : Option BarLevel
  arrived : List Nat
  sent : Bool
deriving DecidableEq, Repr

/-- The barrier state of a launch on a die (R267, R325): its teams of wave 0, those that have ended whole, whether the launch is
multi-wave there, and how many teams wave 0 has. -/
structure LaunchBar where
  launch : BitVec 32
  teams : List Nat
  gone : List Nat
  multi : Bool
  expect : Nat
  inst : Vector DieInst (2 ^ 4)
deriving DecidableEq, Repr

/-- What a die holds. -/
structure Die where
  tlb : List Tlb
  slots : Vector BindRec (2 ^ 8)
  dispatch : List Dispatch
  launches : List LaunchBar
  banks : List (Nat × Bank)
  rtbase : BitVec 53
  rtfirst : BitVec 40
  rtcount : BitVec 32
  bcbase : BitVec 53
  bclog : BitVec 5
  bchead : Word
  bctail : Word
  bclost : BitVec 32
  rthr : BitVec 16
  orphcnt : BitVec 32
  tinva : BitVec 32
  tinvl : BitVec 32
  glb : Bool
  all : Bool
  asid : BitVec 12
  inval : Option Inval
  waiting : List Inval
  pairs : Vector QPair (2 ^ 3)
  msix : Vector Word (2 ^ 7)
  pba : Word
  ports : BitVec 9
  domain : BitVec 256
deriving DecidableEq, Repr

/-- The state after reset (R327, R339, R340, R345, R351, R363, R364, R371); the MSI-X table is that of the PCIe family: every
vector masked, all else zero (log entry 13). -/
def Die.reset : Die where
  tlb := []
  slots := Vector.replicate _ (Vector.replicate _ 0)
  dispatch := []
  launches := []
  banks := []
  rtbase := 0
  rtfirst := 0
  rtcount := 0
  bcbase := 0
  bclog := 0
  bchead := 0
  bctail := 0
  bclost := 0
  rthr := 0x1000
  orphcnt := 0
  tinva := 0
  tinvl := 0
  glb := false
  all := false
  asid := 0
  inval := none
  waiting := []
  pairs := Vector.replicate _ .zero
  msix := Vector.ofFn fun i => if i.val % 2 = 1 then 0x100000000 else 0
  pba := 0
  ports := 0
  domain := 0

/-- One instance of a team's barrier (R267): its generation, the level of its first arrival, the ranks arrived, whether the team
has sent its arrival to the die. -/
structure TeamInst where
  gen : Nat
  level : Option BarLevel
  arrived : BitVec 8
  sent : Bool
deriving DecidableEq, Repr

/-- ATT and ERR of a cluster's CSTAT (R328). -/
structure Cluster where
  att : BitVec 8
  err : BitVec 8
deriving DecidableEq, Repr

/-- A team, from its commit until its strands are over (R267, R325): its number in the model, its launch, the ranks committed, those
departed, its barrier state; the number of its last commit, and whether it has lost a member (R334, R335). -/
structure Team where
  no : Nat
  launch : BitVec 32
  mask : BitVec 8
  gone : BitVec 8
  inst : Vector TeamInst (2 ^ 4)
  seq : Nat
  lost : Bool
deriving DecidableEq, Repr

/-- A team as it is committed; number 0 is no team. -/
def Team.start (no : Nat) (launch : BitVec 32) (mask : BitVec 8) : Team :=
  ⟨no, launch, mask, 0, Vector.replicate _ ⟨0, none, 0, false⟩, no, false⟩
def Team.none : Team := .start 0 0 0

/-- What the policy of record holds of a launch on a die (R324, R325): the teams of the launch committed there, the grant rounds it has
had there, and whether the round in progress has committed one. -/
structure Grants where
  teams : Nat
  rounds : Nat
  hit : Bool
deriving DecidableEq, Repr

/-- A launch that the firmware has taken (R320–R325, R380, R383): its number, the record's word 0, the queue pair it came from, or
none when another module forwarded it; the sizes of its C and D spaces and whether it has D levels; this module's place in the
module list; the other modules still to report; its strands on this module, those committed, those over, those ended; CAUSE and
STATUS of its completion; whether it has been aborted; its record, its levels (KIND and count, outermost first), its module list;
what has been granted on each die, its commits in the turn under way (R334), the teams to be bound again (D and team index); whether
a thermal stop has cut it short (R379). -/
structure Launch where
  num : BitVec 32
  word0 : Word
  src : Option (Bool × BitVec 3)
  cIters : Nat
  dIters : Nat
  hasD : Bool
  place : Option Nat
  modules : Nat
  strands : Nat
  begun : Nat
  past : Nat
  ended : Nat
  cause : Option (BitVec 8)
  status : BitVec 8
  aborted : Bool
  record : List Word
  levels : List (Nat × Nat)
  mods : List (BitVec 8)
  on0 : Grants
  on1 : Grants
  used : Nat
  again : List (Nat × Nat)
  cut : Bool
deriving DecidableEq, Repr

/-- A member of a collective group (R277, R381): its module, its tile once it is bound on this module, the number of commands it has
issued on the group, whether it has halted. -/
structure Member where
  module : BitVec 8
  tile : Option TileId
  issued : Nat
  halted : Bool
deriving DecidableEq, Repr

/-- A collective group (R277): the launch, the number, the members in order. -/
structure Group where
  launch : BitVec 32
  grp : BitVec 4
  members : List Member
deriving DecidableEq, Repr

/-- An instance of a group at the combining point (R277, R279, R284): the members whose contributions have arrived, what the
first gave, the running result, whether the instance has failed. -/
structure Coll where
  launch : BitVec 32
  grp : BitVec 4
  inst : Nat
  arrived : List Nat
  kind : BitVec 2
  op : BitVec 3
  count : Nat
  root : Nat
  data : List (BitVec 32)
  failed : Bool
deriving DecidableEq, Repr

/-- An owner slot in fuses (R369). -/
inductive KeySlot where
  | empty | enrolled (hash : BitVec 512) | revoked (hash : BitVec 512)
deriving DecidableEq, Repr

/-- The firmware and security block: FWADDR, FWSTAT (R368), the running image (R370), the fuses (R369), whether the last mailbox request was
accepted, and where each hart was started (R368). -/
structure Firm where
  fwaddr : BitVec 44
  err : BitVec 8
  st : BitVec 8
  svn : BitVec 32
  slot : BitVec 8
  hash : BitVec 512
  region : Option (Nat × Nat)
  vlock : Bool
  floor : BitVec 32
  keys : Vector KeySlot (2 ^ 2)
  accepted : Bool
  harts : Vector (Option (BitVec 56)) (2 ^ 3)
deriving DecidableEq, Repr

/-- After reset: the fuses hold nothing enrolled (log entry 5). -/
def Firm.reset : Firm where
  fwaddr := 0
  err := 0
  st := 0
  svn := 0
  slot := 0
  hash := 0
  region := none
  vlock := false
  floor := 0
  keys := Vector.replicate _ .empty
  accepted := false
  harts := Vector.replicate _ none

end Sys2Proof.Machine
end

