-- ==== Sys2Proof/Machine/State.lean ====
section
/-! DEFINITION. The state of one KX8 module, the reasons a step can stop, and the state after reset. -/

namespace Sys2Proof.Machine

/-! ## The agenda: which agent moves next (log entry 1) -/

/-- What a turn does: the splitter takes the next word; it does so and, one clk later, a queue word tries to issue; a queue tries to
issue its head; or one of the machine's own steps. -/
inductive Act where
  | fetch | run | issue (q : Queue) | event (i : Instr)
deriving DecidableEq, Repr

/-- Happenings outside the rules' control that no row of the table names (log entry 1): a line, a compressed block or a unit of
SRAM becomes uncorrectable, or a correctable error is corrected (R336, R337, R344); a cached instruction line, translation or
read-count line drops out (R64, R315, R235); an engine's own state fails (R221, R251); another member of the domain writes
memory (R111); the firmware makes a pass of its policy of record (R324–R326, R334, R335); another module's firmware forwards a launch
record or reports the end of its part (R380), or a member of a group there halts or is lost (R284, R381); host memory changes; the host or a hart
reads a register of the map, or writes a granule of a tile window whole (R359). -/
inductive Env where
  | memUe (line : Nat)
  | blockUe (block : Nat)
  | sramUe (tile : TileId) (u : SramUnit)
  | corrected (die : Bool) (bank : BitVec 11) (kind : BitVec 4) (addr : BitVec 56) (requester : TileId)
  | icacheDrop (tile : TileId) (line : Nat)
  | tlbDrop (die : Bool) (n : Nat)
  | countDrop (line : Nat)
  | chanFail (tile : TileId)
  | unveilFail (die : Bool)
  | remoteWrite (pa : BitVec 56) (data : List Byte)
  | policy
  | member (launch : BitVec 32) (index : Nat) (lost : Bool)
  | forward (num : BitVec 32) (record : List Byte)
  | report (num : BitVec 32) (ended : Nat) (cause status : BitVec 8)
  | host (addr : Nat) (data : List Byte)
  | read (off : BitVec 32)
  | granule (off : BitVec 32) (data : List Byte)
deriving DecidableEq, Repr

/-- A turn: the clk that pass first, the tile it concerns, the happenings, the act. -/
structure Turn where
  ticks : Nat
  tile : TileId
  env : List Env
  act : Act
deriving DecidableEq, Repr

/-! ## The module -/

/-- A saved context (R305–R307): the tile it was saved from, where its image was written, the image's bytes, and the frozen tile,
which holds what the layout of R307 leaves out (log entry 21). -/
structure Saved where
  home : TileId
  addr : BitVec 56
  bytes : List Byte
  tile : Tile
deriving DecidableEq, Repr

/-- Who requests a line (R344): the firmware; of a tile its fetch, the X word at its split, a walk for no word; or a word or a command. -/
inductive Waiter where
  | firmware
  | fetch (n : TileId)
  | split (n : TileId)
  | walker (n : TileId)
  | word (n : TileId) (id : Nat)
deriving DecidableEq, Repr

/-- The requesting tile; 0 for the firmware. -/
def Waiter.tile : Waiter → TileId
  | .firmware => 0
  | .fetch n | .split n | .walker n | .word n _ => n

/-- Everything the module holds but the clock and the agenda. `mem` holds HBM by physical offset, and the memory of another
member m at (m + 1)·2^48 + offset; `counts`, `filter`, `dirty` are the LLC's read counts (R123), watch filters (R261) and dirty
lines; `saved` are the strands that wait to resume, `resumed` those that have resumed from their
images; `ueLines`, `ueBlocks`, `blockWait`, `blockLost` what has failed ECC and who waits for its recovery: the line, the request, the cause code that zeros raise (R337, R340, R344);
`compressed` the pages that entries have been found to mark compressed: first byte and bytes (R124); `imsic`, `irqs`, `host`, `msixSent`, `answer` what harts and host have been given, the last the answer to the
host's last read or request; `flits` the flits of the heartbeat protocol on their way: receiver and flit (R346). -/
structure Chip where
  focus : TileId
  freeCnt : Nat
  nextId : Nat
  tiles : Vector Tile (2 ^ 8)
  mem : Memory
  counts : List (Nat × Nat)
  filter : List (Nat × BitVec 256)
  dirty : List Nat
  ueLines : List Nat
  ueBlocks : List Nat
  blockWait : List (Nat × Waiter × BitVec 8)
  blockLost : List (Nat × Waiter)
  compressed : List (Nat × Nat)
  flits : List (TileId × Word)
  modnum : BitVec 19
  member : BitVec 8
  lock : Bool
  joined : Bool
  refLost : Bool
  stopped : Bool
  clusters : Vector Cluster (2 ^ 5)
  teams : List Team
  teamCnt : Nat
  saved : List Saved
  resumed : List Saved
  launches : List Launch
  launchCnt : Nat
  groups : List Group
  colls : List Coll
  firm : Firm
  imsic : List (BitVec 3 × BitVec 11)
  irqs : List (BitVec 3 × Irq)
  host : Memory
  msixSent : List (Bool × BitVec 11)
  answer : List Byte
  die0 : Die
  die1 : Die
deriving DecidableEq, Repr

/-- The whole state: CYC (R19), the turns that outside choices have fixed so far, and the module. -/
structure State where
  clk : Nat
  agenda : List Turn
  chip : Chip
deriving DecidableEq, Repr

/-- Why the machine stops. -/
inductive Fault where
  /-- Raised by launchRecord when a launch record is rewritten before CIDX has passed it: R320 gives that no defined effect.
  Safe: the model stops where a module goes on. -/
  | launchRewritten
  /-- Raised by registerWrite and bar2Access when they rewrite a bind record with V set whose tile is being dispatched: R331 gives
  that no defined effect. Safe: the model stops where a module goes on. -/
  | bindRewritten
deriving DecidableEq, Repr

/-- Why an instruction has no meaning here. -/
inductive Refusal where
  /-- Raised by the dispatch for an instruction that has not been modelled. Safe: no claim covers it. -/
  | notModelled (mnemonic : String)
deriving DecidableEq, Repr

/-- The module after reset. -/
def Chip.reset : Chip where
  focus := 0
  freeCnt := 0
  nextId := 1
  tiles := Vector.replicate _ .fresh
  mem := []
  counts := []
  filter := []
  dirty := []
  ueLines := []
  ueBlocks := []
  blockWait := []
  blockLost := []
  compressed := []
  flits := []
  modnum := 0
  member := 0
  lock := false
  joined := false
  refLost := false
  stopped := false
  clusters := Vector.replicate _ ⟨0, 0⟩
  teams := []
  teamCnt := 0
  saved := []
  resumed := []
  launches := []
  launchCnt := 0
  groups := []
  colls := []
  firm := .reset
  imsic := []
  irqs := []
  host := []
  msixSent := []
  answer := []
  die0 := .reset
  die1 := .reset

/-- The machine right after reset. -/
def State.reset : State where
  clk := Config.resetClk
  agenda := []
  chip := .reset

end Sys2Proof.Machine
end

