-- ==== Sys2Proof/Machine/Ops.lean ====
section
/-! DEFINITION. The named operations over memory, registers, frames and results; taking an exception and returning from
one. -/

namespace Sys2Proof.Machine

/-- What a step answers. -/
abbrev Out := Host.Outcome State Fault Refusal

/-- A step that changes the module alone: the clock and the agenda stand. -/
def State.lift (f : Nat → Chip → Chip) (s : State) : Out := .next { s with chip := f s.clk s.chip }

/-! ## Memory -/

/-- The byte at an address. -/
def Memory.get : Memory → Nat → Byte
  | [], _ => Config.ramByte
  | (k, b) :: r, a => if k = a then b else if a < k then Config.ramByte else Memory.get r a

/-- The memory with one byte written, in canonical form. -/
def Memory.set : Memory → Nat → Byte → Memory
  | [], a, b => if b = Config.ramByte then [] else [(a, b)]
  | (k, x) :: r, a, b =>
    if a < k then (if b = Config.ramByte then (k, x) :: r else (a, b) :: (k, x) :: r)
    else if a = k then (if b = Config.ramByte then r else (a, b) :: r)
    else (k, x) :: Memory.set r a b

/-- n bytes from an address. -/
def Memory.read (m : Memory) (a n : Nat) : List Byte := (List.range n).map fun i => m.get (a + i)

/-- Bytes written from an address up. -/
def Memory.write : Memory → Nat → List Byte → Memory
  | m, _, [] => m
  | m, a, b :: r => Memory.write (m.set a b) (a + 1) r

/-- A buffer's bytes. -/
def Buffers.get (b : Buffers) : Buf → Memory
  | .wb => b.wb
  | .ab => b.ab
  | .xb => b.xb
  | .lb => b.lb

def Buffers.set (b : Buffers) (k : Buf) (m : Memory) : Buffers :=
  match k with
  | .wb => { b with wb := m }
  | .ab => { b with ab := m }
  | .xb => { b with xb := m }
  | .lb => { b with lb := m }

/-- Buffer sizes (R14). -/
def Buf.size : Buf → Nat
  | .wb => 1048576
  | .ab => 524288
  | .xb => 262144
  | .lb => 131072

/-- BUF of a scratchpad address (R99). -/
def Buf.ofCode (c : BitVec 2) : Buf :=
  match c.toNat with
  | 0 => .wb
  | 1 => .ab
  | 2 => .xb
  | _ => .lb

def Buf.code : Buf → BitVec 2
  | .wb => 0
  | .ab => 1
  | .xb => 2
  | .lb => 3

/-! ## Tiles -/

def Chip.tileAt (c : Chip) (n : TileId) : Tile := vget c.tiles n
def Chip.setTileAt (c : Chip) (n : TileId) (t : Tile) : Chip := { c with tiles := vset c.tiles n t }
/-- The tile the turn concerns. -/
def Chip.tile (c : Chip) : Tile := c.tileAt c.focus
def Chip.setTile (c : Chip) (t : Tile) : Chip := c.setTileAt c.focus t
def Chip.upd (c : Chip) (f : Tile → Tile) : Chip := c.setTile (f c.tile)
def Chip.updAt (c : Chip) (n : TileId) (f : Tile → Tile) : Chip := c.setTileAt n (f (c.tileAt n))

/-- A buffer of a tile written. -/
def Tile.writeBuf (t : Tile) (b : Buf) (off : Nat) (bs : List Byte) : Tile :=
  { t with bufs := t.bufs.set b ((t.bufs.get b).write off bs) }
def Tile.readBuf (t : Tile) (b : Buf) (off n : Nat) : List Byte := (t.bufs.get b).read off n

/-- Column, row, die, cluster and rank of a tile (R10). -/
def tileCol (n : TileId) : Nat := n.toNat % 16
def tileRow (n : TileId) : Nat := n.toNat / 16 % 8
def tileDie (n : TileId) : Bool := n.getLsbD 7
def tileCluster (n : TileId) : BitVec 5 :=
  BitVec.ofNat 5 ((if tileDie n then 16 else 0) + tileRow n / 4 * 8 + tileCol n / 2)
def tileRank (n : TileId) : BitVec 3 := BitVec.ofNat 3 (tileRow n % 4 * 2 + tileCol n % 2)
/-- The tile at a rank of a cluster (R10). -/
def tileOfRank (cl : BitVec 5) (r : BitVec 3) : TileId :=
  let k := cl.toNat % 16
  BitVec.ofNat 8 (cl.toNat / 16 * 128 + (k / 8 * 4 + r.toNat / 2) * 16 + (k % 8 * 2 + r.toNat % 2))

/-- The frame of a mode, and the frame in force. -/
def Tile.frameOf (t : Tile) : FrameSel → Frame
  | .user => t.user
  | .handler => t.hand
def Tile.setFrameOf (t : Tile) (k : FrameSel) (f : Frame) : Tile :=
  match k with
  | .user => { t with user := f }
  | .handler => { t with hand := f }
def Tile.cur (t : Tile) : FrameSel :=
  match t.mode with
  | .user => .user
  | .handler => .handler
def Tile.frame (t : Tile) : Frame := t.frameOf t.cur
def Tile.setFrame (t : Tile) (f : Frame) : Tile := t.setFrameOf t.cur f
def Tile.updFrame (t : Tile) (f : Frame → Frame) : Tile := t.setFrame (f t.frame)
def Tile.updFrameOf (t : Tile) (k : FrameSel) (f : Frame → Frame) : Tile := t.setFrameOf k (f (t.frameOf k))

/-! ## Registers -/

/-- s[n]; s0 reads zero (R58). -/
def Tile.getS (t : Tile) (n : SReg) : Word := if n = 0 then 0 else vget t.regs.s n
/-- s[n] written; a write to s0 is discarded (R58); any write ends the register's promise binding (R93), and gives a failing word
valid ECC (R337). -/
def Tile.setS (t : Tile) (n : SReg) (x : Word) : Tile :=
  if n = 0 then t
  else { t with regs := { t.regs with s := vset t.regs.s n x }, binds := vset t.binds n none, sramUe := t.sramUe.filter fun u => u != .s n }
/-- p[n]; p0 reads all ones (R58). -/
def Tile.getP (t : Tile) (n : PReg) : Word := if n = 0 then BitVec.allOnes 64 else vget t.regs.p n
def Tile.setP (t : Tile) (n : PReg) (x : Word) : Tile :=
  if n = 0 then t else { t with regs := { t.regs with p := vset t.regs.p n x }, sramUe := t.sramUe.filter fun u => u != .p n }
def Tile.getV (t : Tile) (n : VReg) : VWord := vget t.regs.v n
def Tile.setV (t : Tile) (n : VReg) (x : VWord) : Tile := { t with regs := { t.regs with v := vset t.regs.v n x } }
def Tile.getA (t : Tile) (n : AReg) : ARegS := vget t.regs.a n
def Tile.setA (t : Tile) (n : AReg) (x : ARegS) : Tile :=
  { t with regs := { t.regs with a := vset t.regs.a n x }, sramUe := t.sramUe.filter fun u => u != .a n }
def Tile.getG (t : Tile) (n : GReg) : RingReg := vget t.regs.g n
def Tile.setG (t : Tile) (n : GReg) (x : RingReg) : Tile :=
  { t with regs := { t.regs with g := vset t.regs.g n x }, sramUe := t.sramUe.filter fun u => u != .g n }
def Tile.getCb (t : Tile) (n : CReg) : Codebook := vget t.regs.cb n
def Tile.setCb (t : Tile) (n : CReg) (x : Codebook) : Tile := { t with regs := { t.regs with cb := vset t.regs.cb n x } }
def Tile.setBasin (t : Tile) (x : Basin) : Tile := { t with regs := { t.regs with basin := x } }
def Tile.setVrb (t : Tile) (x : BitVec 5) : Tile := { t with regs := { t.regs with vrb := x } }

/-- n bits from bit `lo` of a value set to zero. -/
def clearBits {k : Nat} (x : BitVec k) (lo n : Nat) : BitVec k := x &&& ~~~(((BitVec.allOnes n).setWidth k) <<< lo)

/-- A codebook register with one 64-bit word zeroed: 128 words of entries, 32 of the side table, then the head. -/
def Codebook.zeroWord (x : Codebook) (w : Nat) : Codebook :=
  if w < 128 then { x with entry := clearBits x.entry (64 * w) 64 }
  else if w < 160 then { x with remap := clearBits x.remap (64 * (w - 128)) 64 }
  else { Codebook.zero with entry := x.entry, remap := x.remap }

/-- The basin with one 64-bit word zeroed: 2,048 words of entries, 2,048 of the histogram, 512 of the side table, then the
head. -/
def Basin.zeroWord (x : Basin) (w : Nat) : Basin :=
  if w < 2048 then { x with entry := clearBits x.entry (64 * w) 64 }
  else if w < 4096 then { x with hist := clearBits x.hist (64 * (w - 2048)) 64 }
  else if w < 4608 then { x with bremap := clearBits x.bremap (64 * (w - 4096)) 64 }
  else { Basin.zero with entry := x.entry, hist := x.hist, bremap := x.bremap }

/-- A system register zeroed; RQSTAT and VRB's copy in TVRB follow what they show. -/
def Tile.zeroSys (t : Tile) (r : SysReg) : Tile :=
  let y := t.sys
  { t with sys := match r with
    | .vflags => { y with vflags := 0 }
    | .vtrapen => { y with vtrapen := 0 }
    | .cst => { y with cst := 0 }
    | .epol => { y with uet := false }
    | .phcfg => { y with phcfg := 0 }
    | .tcause => { y with tcause := 0 }
    | .tpc => { y with tpc := 0 }
    | .tepc => { y with tepc := 0 }
    | .tval => { y with tval := 0 }
    | .tvec => { y with tvec := 0 }
    | .tscr0 => { y with tscr0 := 0 }
    | .tscr1 => { y with tscr1 := 0 }
    | .tvrb => { y with tvrb := 0 }
    | .troot => { y with troot := 0 }
    | .rqstat => y }

/-- Eight bytes of captured data zeroed in an access: bytes 8k on of its pieces, in their order. -/
def zeroData (data : List Byte) (k : Nat) (ps : List Piece) : List Byte :=
  let at_ := ps.flatMap fun p => (List.range p.n).map (p.at_ + ·)
  ((at_.drop (8 * k)).take 8).foldl (fun d j => setAt d j 0) data

/-- A word of a replay entry zeroed: its fault address, its entry word, or eight bytes of its captured data; the entry stays with its
owner (log entry 58). -/
def Tile.zeroEntry (t : Tile) (n : BitVec 5) (w : Nat) : Tile :=
  match vget t.replay n with
  | none => t
  | some e =>
    match w with
    | 0 => { t with replay := vset t.replay n (some { e with addr := 0 }) }
    | 1 => { t with replay := vset t.replay n (some { e with cls := 0, eng := 0, queue := 0, rel := false, opc := 0, strm := 0, sub := 0, elem := 0 }) }
    | k + 2 =>
      let fix (l : List Access) : List Access := l.map fun a =>
        match a.units.find? fun u => u.st == .parked n with
        | some u => { a with data := zeroData a.data k u.pieces }
        | none => a
      { t with user := { t.user with lf := fix t.user.lf, sf := fix t.user.sf } }

/-- Eight bytes of a queue register's entry zeroed. -/
def zeroQ (id : Nat) (w : BitVec 5) (l : List QEntry) : List QEntry :=
  l.map fun e => if e.id = id then { e with val := clearBits e.val (64 * w.toNat) 64 } else e

/-- A failing unit of a register replaced by zeros with valid ECC; an address register or a ring register goes whole. -/
def Tile.zeroUnit (t : Tile) (u : SramUnit) : Tile :=
  let t := { t with sramUe := t.sramUe.filter fun x => x != u }
  match u with
  | .v n w => t.setV n (clearBits (t.getV n) (64 * w.toNat) 64)
  | .s n => { t with regs := { t.regs with s := vset t.regs.s n 0 } }
  | .p n => { t with regs := { t.regs with p := vset t.regs.p n 0 } }
  | .a n => t.setA n .zero
  | .g n => t.setG n .zero
  | .qi k n id w => t.updFrameOf k fun f => { f with qi := vset f.qi n (zeroQ id w (vget f.qi n)) }
  | .qo k n id w => t.updFrameOf k fun f => { f with qo := vset f.qo n (zeroQ id w (vget f.qo n)) }
  | .cb n w => t.setCb n ((t.getCb n).zeroWord w)
  | .basin w => t.setBasin (t.regs.basin.zeroWord w)
  | .buf b w => t.writeBuf b (w * 8) (List.replicate 8 0)
  | .sys r => t.zeroSys r
  | .rq n w => t.zeroEntry n w
  | .iline _ => t

/-- Failing units that a write meets: what the write does not cover of them is zeros, and one covered in part is noted for the tile's
bank (R337). -/
def Tile.meetWrite (t : Tile) (whole part : SramUnit → Bool) : Tile :=
  let t := (t.sramUe.filter part).foldl (fun t u => { t.zeroUnit u with ueNote := t.ueNote ++ [u] }) t
  { t with sramUe := t.sramUe.filter fun u => !whole u }

/-- The failing unit is the word w of a buffer, and p holds of its first byte and of the one after its last. -/
def SramUnit.inBuf (b : Buf) (p : Nat → Nat → Bool) : SramUnit → Bool
  | .buf b' w => b' == b && p (8 * w) (8 * w + 8)
  | _ => false

/-- Bytes written to a buffer over the failing words that they meet (R337). -/
def Tile.putBuf (t : Tile) (b : Buf) (off : Nat) (bs : List Byte) : Tile :=
  let whole : SramUnit → Bool := SramUnit.inBuf b fun lo hi => decide (off ≤ lo ∧ hi ≤ off + bs.length)
  let met : SramUnit → Bool := SramUnit.inBuf b fun lo hi => decide (off < hi ∧ lo < off + bs.length)
  (t.meetWrite whole fun u => met u && !whole u).writeBuf b off bs

/-- The physical register of a vector operand under a rotation base (R59). -/
def physV (vrb : BitVec 5) (n : VReg) : VReg :=
  if n.getLsbD 5 then 1#1 ++ (n.extractLsb' 0 5 + vrb) else n

/-- A queue register's entry filled by the word that reserved it (R61). -/
def fillEntry (id : Nat) (x : VWord) : List QEntry → List QEntry
  | [] => []
  | e :: r => if e.id = id && !e.filled then ⟨id, true, x⟩ :: r else e :: fillEntry id x r

/-- The tag written: no longer pending, if this word is its pending producer (R54). -/
def Frame.writeTag (f : Frame) (tag : BitVec 3) (id : Nat) : Frame :=
  if vget f.tags tag = some id then { f with tags := vset f.tags tag none } else f

/-- One register write of a result of a frame's word. -/
def Tile.applyWrite (k : FrameSel) (t : Tile) : RegWrite → Tile
  | .s n x => t.setS n x
  | .promise n x cmd => let t := t.setS n x; if n = 0 then t else { t with binds := vset t.binds n cmd }
  | .v n mask x =>
    let lanes (u : SramUnit) : Word := match u with
      | .v m w => if m = n then mask.extractLsb' (64 * w.toNat) 64 else 0
      | _ => 0
    let t := t.meetWrite (fun u => lanes u == BitVec.allOnes 64) fun u => lanes u != 0 && lanes u != BitVec.allOnes 64
    t.setV n (blend mask x (t.getV n))
  | .p n mask x =>
    let t := t.meetWrite (fun _ => false) fun u => u == .p n && mask != BitVec.allOnes 64 && mask != 0
    if mask = 0 then t else t.setP n (blend mask x (t.getP n))
  | .qi n id x =>
    let t := t.meetWrite (fun u => match u with | .qi l m i _ => l == k && m == n && i == id | _ => false) fun _ => false
    t.updFrameOf k fun f => { f with qi := vset f.qi n (fillEntry id x (vget f.qi n)) }
  | .qo n id x =>
    let t := t.meetWrite (fun u => match u with | .qo l m i _ => l == k && m == n && i == id | _ => false) fun _ => false
    t.updFrameOf k fun f => { f with qo := vset f.qo n (fillEntry id x (vget f.qo n)) }
  | .cb n x ws => (t.meetWrite (fun u => match u with | .cb m k => m == n && ws.contains k | _ => false) fun _ => false).setCb n x
  | .basin x ws => (t.meetWrite (fun u => match u with | .basin k => ws.contains k | _ => false) fun _ => false).setBasin x
  | .cst mask x =>
    let t := t.meetWrite (fun _ => false) fun u => mask != 0 && u == .sys .cst
    { t with sys := { t.sys with cst := blend mask x t.sys.cst } }

/-- Two writes go to one register. -/
def RegWrite.same : RegWrite → RegWrite → Bool
  | .s n _, .s m _ | .s n _, .promise m _ _ | .promise n _ _, .s m _ | .promise n _ _, .promise m _ _ => n == m
  | .v n _ _, .v m _ _ => n == m
  | .p n _ _, .p m _ _ => n == m
  | .cb n _ _, .cb m _ _ => n == m
  | .basin _ _, .basin _ _ => true
  | .cst _ _, .cst _ _ => true
  | _, _ => false

/-- The clk counts as the active phase's last result (R309). -/
def Tile.phaseResult (t : Tile) (clk : Nat) : Tile :=
  match t.phase with
  | some p => { t with phase := some { p with last := clk } }
  | none => t

/-- A result put among others in program order. -/
def insertById (r : Result) : List Result → List Result
  | [] => [r]
  | x :: l => if r.id < x.id then r :: x :: l else x :: insertById r l

/-- A result's registers are written; what younger words have written to one of them in the same clk stands over it, the youngest last
(R130). -/
def Tile.landWrites (t : Tile) (clk : Nat) (r : Result) : Tile :=
  let prev := if t.landClk = clk then t.landed else []
  let t := r.writes.foldl (Tile.applyWrite r.frame) t
  let t := (prev.filter fun x => decide (r.id < x.id)).foldl (fun t x =>
    (x.writes.filter fun y => r.writes.any y.same).foldl (Tile.applyWrite x.frame) t) t
  { t with landClk := clk, landed := insertById r prev }

/-- A result lands: its registers, then its flags and its tag, in one clk (R54, R130, R154); a tag producer is outstanding until then (R66). -/
def Tile.land (t : Tile) (clk : Nat) (r : Result) : Tile :=
  let t := t.landWrites clk r
  let t := { t with sys := { t.sys with vflags := t.sys.vflags ||| r.flags } }
  { t.updFrameOf r.frame (fun f => f.writeTag r.tag r.id) with quiet := if r.tag = 0 then t.quiet else clk }.phaseResult clk

/-- A result inserted behind every result due no later. -/
def insertResult (r : Result) : List Result → List Result
  | [] => [r]
  | x :: l => if r.due < x.due then r :: x :: l else x :: insertResult r l

def Tile.addResult (t : Tile) (r : Result) : Tile := { t with pipe := insertResult r t.pipe }

/-! ## Taking an exception (R288–R295, R382) -/

/-- The strand ends with a cause; both frames stop (R288, R290). -/
def Tile.endStrand (t : Tile) (c : Cause) : Tile := { t with st := .ended c.code c.pc }

/-- TCAUSE of a cause (R297). -/
def causeWord (c : Cause) : Word :=
  let rq : BitVec 6 := match c.rq with
    | some n => 1#1 ++ n
    | none => 0
  (0#41 ++ BitVec.ofBool c.xw ++ rq ++ 0#8 ++ c.code : BitVec 64)

/-- Where the splitter stands: its PC, which a word that holds it has already moved on (R293). -/
def Tile.nextPc (t : Tile) : Nat := t.pc

/-- The strand's words run: it is neither over nor under a pre-emption (R290, R301, R305). -/
def Tile.active (t : Tile) : Bool := t.st == .running || t.st == .halting

/-- A valid entry marked delivered (R295). -/
def Tile.delivered (t : Tile) : Option (BitVec 5) → Tile
  | none => t
  | some n =>
    match vget t.replay n with
    | some e => { t with replay := vset t.replay n (some { e with dlv := true }) }
    | none => t

/-- Registers that taking a trap and a freeze write whole: a failing word of one has valid ECC again (R337). -/
def Tile.freshSys (t : Tile) (l : List SysReg) : Tile :=
  { t with sramUe := t.sramUe.filter fun u => match u with | .sys r => !l.contains r | _ => true }

/-- Trap entry from user mode, the freeze at te (R292): results in flight go to the snapshot with the clk they still need;
TCAUSE, TEPC, TPC, TVAL and TVRB are written; the handler frame is empty; the splitter goes to TVEC, typically four clk
later. -/
def Tile.enterTrap (t : Tile) (te : Nat) (c : Cause) (tpc : Nat) : Tile :=
  let t := (t.delivered c.rq).freshSys [.tcause, .tepc, .tpc, .tval, .tvrb]
  { t with
    snap := t.snap ++ (t.pipe.filter (·.snap)).map fun r => { r with due := r.due - te }
    pipe := t.pipe.filter fun r => !r.snap
    sys := { t.sys with
      tcause := causeWord c
      tepc := BitVec.ofNat 64 c.pc
      tpc := BitVec.ofNat 64 tpc
      tval := c.tval
      tvrb := t.regs.vrb }
    mode := .handler
    hand := .empty (te + 4)
    te := te
    pc := t.sys.tvec.toNat }

/-- mon, moncl and rinit of the frame in force finish their exchange before a freeze takes effect (R296). -/
def Tile.exchanging (t : Tile) : Bool :=
  match t.frame.wait.map HeldWord.wait with
  | some (.mon _) | some .moncl | some (.rinit ..) => true
  | _ => false

/-- A word of a guarded phase that is being cancelled (R312). -/
def Tile.cancels (t : Tile) (id : Nat) : Bool :=
  t.mode == .user && (match t.phase with | some p => p.cancel && decide (p.since ≤ id) | none => false)

/-- A cause that finds no trap to take is held, up to 256 of them, unless a replay entry keeps it (R295, R382). -/
def Tile.hold (t : Tile) (c : Cause) : Tile :=
  if c.rq.isNone && decide (t.held.length < 256) then { t with held := t.held ++ [c] } else t

/-- Causes of the words that are executed again after the trap, and raise them again: class 13 of a waitt, class 23 of a waita (R293). -/
def Cause.again (c : Cause) : Bool := c.code == 104 || c.code == 184

/-- A cause gives way to an older one of its clk (R293): a wait word that failed is held over and fails again (R296); any other cause
is held, and the word that raised it stands where its TPC says. -/
def Tile.giveWay (t : Tile) (c : Cause) (tpc : Option Nat) : Option HeldWord → Tile
  | some w => { t with user := { t.user with wait := some w } }
  | none => { (if c.again then t else t.hold c) with pc := tpc.getD t.pc }

/-- A cause of user mode: of those of the clk the oldest in program order is the one raised (R293). -/
def Tile.pend (t : Tile) (c : Cause) (tpc : Option Nat) (w : Option HeldWord) : Tile :=
  match t.trap with
  | none => { t with trap := some ⟨c, tpc, w⟩ }
  | some x =>
    if c.id < x.cause.id then { t.giveWay x.cause x.tpc x.wait with trap := some ⟨c, tpc, w⟩ } else t.giveWay c tpc w

/-- A cause arises from a word or command of frame k (R288, R290, R292, R382), of its own from a wait word w: in user mode it
is raised, and its trap taken as the clk ends; a cause of the handler frame is a handler fault; a user cause in handler mode or under a
pre-emption is held; so is one of a phase that is being cancelled, which goes with it (R312). -/
def Tile.raiseBy (t : Tile) (k : FrameSel) (c : Cause) (tpc : Option Nat) (w : Option HeldWord) : Tile :=
  match t.st with
  | .absent | .ended _ _ | .retired => t
  | .running | .halting =>
    match t.mode, k with
    | .user, _ => if t.exchanging || t.cancels c.id then t.hold c else t.pend c tpc w
    | .handler, .handler => t.endStrand c
    | .handler, .user => t.hold c
  | .preempting | .preempted =>
    match t.mode, k with
    | .handler, .handler => t.endStrand c
    | _, _ => t.hold c

/-- A cause that is not a wait word's own. -/
def Tile.raise (t : Tile) (k : FrameSel) (c : Cause) (tpc : Option Nat) : Tile := t.raiseBy k c tpc none

/-- The trap that a clk has raised is taken (R292): the user frame freezes at te, the clk after it; a strand with no handler ends (R288); an
exchange with a home slice is finished first (R296); a cause of a phase that has been asked to cancel goes with it (R312). -/
def Tile.takeTrap (t : Tile) (te : Nat) : Tile :=
  match t.trap with
  | none => t
  | some x =>
    let t := { t with trap := none }
    if !t.active then t
    else if t.exchanging || t.cancels x.cause.id then t.hold x.cause
    else if t.sys.tvec = 0 then t.endStrand x.cause
    else t.enterTrap te x.cause (x.tpc.getD t.nextPc)

/-- A cause code (R291). -/
def causeCode (cls eng : Nat) : BitVec 8 := BitVec.ofNat 8 (cls * 8 + eng)

/-- Engine number of an engine (R45). -/
def engNum : Eng → Nat
  | .ctrl => 0
  | .load => 1
  | .vec => 2
  | .mat => 3
  | .store => 4
  | .async => 5
  | .code => 6
  | .sys => 7

/-- Engine number of an instruction. -/
def instrEng (i : Instr) : Nat :=
  match i.eng with
  | some e => engNum e
  | none => 7

/-- The oldest undelivered cause: a held one, or a valid entry whose cause has not been raised (R295). -/
def entryCause (n : Nat) (e : RqEntry) : Cause :=
  { code := e.cls ++ e.eng, pc := e.pc, tval := e.addr, rq := some (BitVec.ofNat 5 n), xw := false
    id := match e.owner with | .access _ id _ | .command _ id => id }

def Tile.undelivered (t : Tile) : List Cause :=
  ((t.replay.toList.zipIdx).filterMap fun (e, n) =>
    match e with
    | some e => if e.dlv then none else some (entryCause n e)
    | none => none) ++ t.held

def oldest : List Cause → Option Cause
  | [] => none
  | c :: r =>
    match oldest r with
    | some d => if d.id < c.id then some d else some c
    | none => some c

def dropCause (c : Cause) : List Cause → List Cause
  | [] => []
  | d :: r => if d = c then r else d :: dropCause c r

/-- After a return, the oldest undelivered cause is raised (R295, R382). -/
def Tile.deliver (t : Tile) : Tile :=
  match t.mode, t.st with
  | .user, .running | .user, .halting =>
    if t.exchanging || t.trap.isSome then t else
    match oldest (t.undelivered.filter fun c => !t.cancels c.id) with
    | some c => ({ t with held := dropCause c t.held }).raise .user c none
    | none => t
  | _, _ => t

/-! ## A guarded phase asked to cancel (R312, R313) -/

/-- The unissued words of a frame and its held word discarded, with the tags that those words would have written (R54). -/
def Frame.dropUnissued (f : Frame) : Frame :=
  let gone := (f.l ++ f.c ++ f.s ++ f.a).map QWord.id
  { f with l := [], c := [], s := [], a := [], wait := none
           tags := f.tags.map fun x => match x with
             | some id => if gone.contains id then none else some id
             | none => none }

/-- A consumed uncorrectable error or a strike report meets an active phase: in user mode the unissued words go at once, and
phaseCancellation follows when the issued ones have finished; in handler mode the cancellation is held until tret. -/
def Tile.askCancel (t : Tile) : Tile :=
  match t.phase with
  | none => t
  | some p =>
    let t := { t with phase := some { p with cancel := true } }
    match t.mode with
    | .user => { t with user := t.user.dropUnissued }
    | .handler => t

/-- A cancelled phase holds the user frame's splitter. -/
def Tile.cancelling (t : Tile) : Bool :=
  t.mode == .user && (match t.phase with | some p => p.cancel | none => false)

/-! ## Results that fall due (R129, R130, R154) -/

/-- The flags of a result that trap (R154). -/
def Result.traps (en : BitVec 5) (r : Result) : Bool := r.flags &&& en != 0

def Result.fpCause (r : Result) : Cause :=
  { code := causeCode 17 2, pc := r.pc, tval := 0, rq := none, xw := false, id := r.id }

/-- The causes of a result that has written: the zeros it consumed, its own cause, then its trapping flags. -/
def Result.causes (en : BitVec 5) (r : Result) : List (FrameSel × Cause) :=
  (r.ue.toList ++ r.cause.toList ++ (if r.traps en then [r.fpCause] else [])).map fun c => (r.frame, c)

/-- Causes in program order. -/
def insertCause (x : FrameSel × Cause) : List (FrameSel × Cause) → List (FrameSel × Cause)
  | [] => [x]
  | y :: l => if x.2.id < y.2.id then x :: y :: l else y :: insertCause x l

/-- Causes that arise in one clk: the oldest is raised, and the others find the strand in handler mode (R293, R382). -/
def Tile.raiseAll (t : Tile) (l : List (FrameSel × Cause)) : Tile :=
  (l.foldl (fun a x => insertCause x a) []).foldl (fun t x => t.raise x.1 x.2 none) t

/-- Every result due by `now` lands, clk by clk, and the causes of each clk are raised; the trap of a clk that has passed is taken, and takes the
rest to the snapshot. -/
def Tile.landDue : (fuel : Nat) → Tile → Nat → Tile
  | 0, t, _ => t
  | fuel + 1, t, now =>
    match t.pipe with
    | [] => t
    | r :: _ =>
      if r.due ≤ now then
        let group := t.pipe.takeWhile fun x => x.due == r.due
        let t := { t with pipe := t.pipe.drop group.length }
        let t := group.foldl (fun t x => t.land x.due x) t
        let t := t.raiseAll (group.flatMap (Result.causes t.sys.vtrapen))
        Tile.landDue fuel (if r.due < now then t.takeTrap (r.due + 1) else t) now
      else t

/-- A promise as a result: its register with the binding, its tag (R217, R226), and the class of a word that consumed zeros (R338). -/
def Promise.result (p : Promise) : Result :=
  { id := p.wid, frame := p.frame, pc := 0, due := p.due, writes := [.promise p.d p.value p.cmd], flags := 0, tag := p.tag, ue := p.cause
    cause := none, snap := false }

/-- The promises due by `now` among the results. -/
def Tile.joinPromises (t : Tile) (now : Nat) : Tile :=
  let due := t.promises.filter fun p => p.due ≤ now
  { t with promises := t.promises.filter (fun p => !(p.due ≤ now)), pipe := due.foldl (fun l p => insertResult p.result l) t.pipe }

/-- What is due by `now` lands. -/
def Tile.landAll (t : Tile) (now : Nat) : Tile :=
  let t := t.joinPromises now
  Tile.landDue (t.pipe.length + 1) t now

/-- The class 19 of a word that held the splitter and has consumed zeros (R338). -/
def HeldWord.ueCause (w : HeldWord) : Cause :=
  { code := causeCode 19 (w.raw.extractLsb' 77 3).toNat, pc := w.pc, tval := 0, rq := none, xw := true, id := w.id }

/-- The word that holds the splitter lets it go at a clk, and then raises what it consumed (R338). -/
def Tile.endWait (t : Tile) (free : Nat) : Tile :=
  match t.frame.wait with
  | none => t
  | some w =>
    let k := t.cur
    let t := t.updFrame fun f => { f with wait := none, free := Nat.max free f.free }
    if w.ue then t.raise k w.ueCause none else t

/-- What the failing of a wait word leaves to be held over, if another word's trap is taken (R293, R296). -/
def HeldWord.heldOver (w : HeldWord) (c : Cause) : Option HeldWord := if c.again then some { w with ue := false } else none

/-- The word that holds the splitter ends with a cause of its own; what it consumed comes after (R293, R338). -/
def Tile.failWait (t : Tile) (now : Nat) (c : HeldWord → Cause) (tpc : HeldWord → Nat) : Tile :=
  match t.frame.wait with
  | none => t
  | some w =>
    let k := t.cur
    let t := (t.updFrame fun f => { f with wait := none, free := Nat.max (now + 1) f.free }).raiseBy k (c w) (some (tpc w)) (w.heldOver (c w))
    if w.ue then t.raise k w.ueCause none else t

/-- A waits that all its producers have satisfied lets the splitter go on (R94). -/
def Frame.pending (f : Frame) (ps : List (BitVec 3 × Nat)) : Bool := ps.any fun (t, id) => vget f.tags t == some id

def Tile.wakeWaits (t : Tile) (now : Nat) : Tile :=
  match t.frame.wait with
  | some ⟨_, _, _, .tags ps, _⟩ => if t.frame.pending ps then t else t.endWait now
  | _ => t

/-- What the clk bring to a tile with no further choice. -/
def Tile.settle (t : Tile) (now : Nat) : Tile :=
  (t.landAll now).deliver.wakeWaits now

/-! ## Return from a trap (R294) -/

/-- The words of the handler frame have all issued and completed, and its accesses have been performed. -/
def Tile.handlerDrained (t : Tile) : Bool :=
  t.hand.l.isEmpty && t.hand.c.isEmpty && t.hand.s.isEmpty && t.hand.a.isEmpty && t.hand.lf.isEmpty && t.hand.sf.isEmpty &&
    t.hand.ans.isEmpty && t.pipe.all (fun r => r.frame != .handler) && t.vpend.all (fun r => r.frame != .handler) &&
    t.promises.all (fun p => p.frame != .handler) && t.mat.queue.all (fun m => m.frame != .handler) &&
    t.mat.ards.all (fun r => r.frame != .handler)

/-- The clocks of a frame moved on by the clk that were not counted (R294). -/
def Frame.shift (f : Frame) (d : Nat) : Frame :=
  { f with free := f.free + d, nextL := f.nextL + d, nextC := f.nextC + d, nextS := f.nextS + d, nextA := f.nextA + d
           portL := f.portL + d, portS := f.portS + d, busyV := f.busyV + d, busyK := f.busyK + d }

/-- The user frame resumes at tr (R294). -/
def Tile.resume (t : Tile) (tr : Nat) : Tile :=
  { t with
    mode := .user
    regs := { t.regs with vrb := t.sys.tvrb }
    pc := t.sys.tpc.toNat
    pipe := (t.snap.map fun r => { r with due := r.due + tr }).foldl (fun l r => insertResult r l) t.pipe
    snap := []
    user := t.user.shift (tr - t.te)
    hand := .empty 0 }

/-! ## The predicate and operands of a word -/

/-- The predicate registers as a queued word sees them: p4–p7 as its split captured them, p0–p3 at issue (R60). -/
def Tile.predOf (t : Tile) (w : QWord) (n : PReg) : Word :=
  match n.toNat with
  | 4 => w.p4
  | 5 => w.p5
  | 6 => w.p6
  | 7 => w.p7
  | _ => t.getP n

/-- The effective predicate of a queued word (R57). -/
def Tile.effPred (t : Tile) (w : QWord) (h : Hdr) : Word :=
  let p := t.predOf w h.preg
  if h.neg then ~~~p else p

/-- The effective predicate of an X word, at its split. -/
def Tile.effPredX (t : Tile) (h : Hdr) : Word :=
  let p := t.getP h.preg
  if h.neg then ~~~p else p

/-- A tag the splitter finds pending when it reads a word that names it (R55). -/
def Frame.tagPending (f : Frame) (t : BitVec 3) : Bool := t != 0 && (vget f.tags t).isSome

def Frame.waitsFor (f : Frame) (h : Hdr) : List (BitVec 3 × Nat) :=
  let one (t : BitVec 3) : List (BitVec 3 × Nat) :=
    if t = 0 then [] else match vget f.tags t with
      | some id => [(t, id)]
      | none => []
  one h.sbc0 ++ (if h.sbc1 = h.sbc0 then [] else one h.sbc1)

/-- The words of a queue. -/
def Frame.queue (f : Frame) : Queue → List QWord
  | .x => []
  | .l => f.l
  | .c => f.c
  | .s => f.s
  | .a => f.a
def Frame.setQueue (f : Frame) (q : Queue) (ws : List QWord) : Frame :=
  match q with
  | .x => f
  | .l => { f with l := ws }
  | .c => { f with c := ws }
  | .s => { f with s := ws }
  | .a => { f with a := ws }

/-- The clk after the last issue of a queue (R50). -/
def Frame.nextOf (f : Frame) : Queue → Nat
  | .x => f.free
  | .l => f.nextL
  | .c => f.nextC
  | .s => f.nextS
  | .a => f.nextA
def Frame.setNext (f : Frame) (q : Queue) (n : Nat) : Frame :=
  match q with
  | .x => f
  | .l => { f with nextL := n }
  | .c => { f with nextC := n }
  | .s => { f with nextS := n }
  | .a => { f with nextA := n }

end Sys2Proof.Machine
end

