-- ==== Sys2Proof/Machine/Operands.lean ====
section
/-! DEFINITION. The operand forms: which queue a word goes to, which registers it reads and writes, the address forms of
R98–R101, the values of vector and scalar operands. -/

namespace Sys2Proof.Machine

/-- The queues that receive a part of a word, beside X (R12, R48). -/
def queuesOf (i : Instr) : List Queue :=
  match i with
  | .mark _ _ | .markS _ _ | .bar _ _ _ => [.l, .s]
  | .phase _ _ => [.l, .c, .s, .a]
  | i =>
    match i.eng with
    | some .load => [.l]
    | some .vec | some .mat | some .code => [.c]
    | some .store => [.s]
    | some .async => [.a]
    | _ => []

/-- The word is executed by the splitter (R12). -/
def isX (i : Instr) : Bool :=
  match i.eng with
  | some .ctrl | some .sys => true
  | _ => false

def vSrcRef : VSrc → RegRef
  | .v n => .v n
  | .qi n => .qi n
def vDstRef : VDst → RegRef
  | .v n => .v n
  | .qo n => .qo n
def bSrcRef : BSrc → List RegRef
  | .src a => [vSrcRef a]
  | .imm _ => []
def sSrcRef : SSrc → List RegRef
  | .s n => [.s n]
  | .imm _ => []
def rDstRef : RDst → RegRef
  | .s n => .s n
  | .v n => .v n
  | .qo n => .qo n
def ldDstRef : LdDst → RegRef
  | .s n => .s n
  | .p n => .p n
def vLdDstRef : VLdDst → RegRef
  | .v n => .v n
  | .qi n => .qi n
def vStSrcRef : VStSrc → RegRef
  | .v n => .v n
  | .qo n => .qo n
def gAddrRef : GAddr → List RegRef
  | .off s _ => [.s s]
  | .post a => [.a a]
def spAddrRef : SpAddr → List RegRef
  | .off s _ => [.s s]
  | .post a => [.a a]
def addrRef : Addr → List RegRef
  | .off s _ => [.s s]
  | .post a => [.a a]
  | .sp s _ => [.s s]
  | .spPost a => [.a a]
  | .idx s i _ _ => [.s s, .s i]
def mxAddrRef : MxAddr → List RegRef
  | .off s _ => [.s s]
  | .post a => [.a a]
/-- The address register that a word names for post-increment (R91, R101). -/
def gAddrPost : GAddr → Option AReg
  | .off .. => none
  | .post a => some a
def spAddrPost : SpAddr → Option AReg
  | .off .. => none
  | .post a => some a
def addrPost : Addr → Option AReg
  | .post a | .spPost a => some a
  | .off .. | .sp .. | .idx .. => none
def mxAddrPost : MxAddr → Option AReg
  | .off .. => none
  | .post a => some a

def postReg : Instr → Option AReg
  | .ldb _ o | .ldh _ o | .ldw _ o => addrPost o.addr
  | .ldd _ o => addrPost o.addr
  | .stb _ o | .sth _ o | .stw _ o => addrPost o.addr
  | .std _ o => addrPost o.addr
  | .ldv _ o => gAddrPost o.addr
  | .ldvs _ o => gAddrPost o.addr
  | .stv _ o => gAddrPost o.addr
  | .stvs _ o => gAddrPost o.addr
  | .lds _ o => spAddrPost o.addr
  | .ldss _ o => spAddrPost o.addr
  | .sts _ o => spAddrPost o.addr
  | .stss _ o => spAddrPost o.addr
  | .ldmx _ o | .stmx _ o => mxAddrPost o.addr
  | .ldt _ o | .stt _ o => gAddrPost o.addr
  | .ixld _ o => gAddrPost o.addr
  | .ixst _ o => gAddrPost o.addr
  | .pref _ o => gAddrPost o.addr
  | _ => none

/-- Element bits of a conversion's two types differ with the destination narrower: DST is read (R138). -/
def cvtNarrows (o : CvtOp) : Bool := tyWidth o.ty < tyWidth o.sty

/-- Registers a queue word reads at issue, its predicate register apart (R56, R73). -/
def readsOf : Instr → List RegRef
  | .ldb _ o | .ldh _ o | .ldw _ o => addrRef o.addr
  | .ldd _ o => addrRef o.addr
  | .stb _ o | .sth _ o | .stw _ o => .s o.d :: addrRef o.addr
  | .std _ o => ldDstRef o.d :: addrRef o.addr
  | .ldv _ o => gAddrRef o.addr
  | .ldvs _ o => .s o.stride :: gAddrRef o.addr
  | .ldg _ o => [.s o.base, .v o.idx]
  | .lds _ o => spAddrRef o.addr
  | .ldss _ o => .s o.stride :: spAddrRef o.addr
  | .stv _ o => vStSrcRef o.d :: gAddrRef o.addr
  | .stvs _ o => vStSrcRef o.d :: .s o.stride :: gAddrRef o.addr
  | .stg _ o => [vStSrcRef o.d, .s o.base, .v o.idx]
  | .sts _ o => vStSrcRef o.d :: spAddrRef o.addr
  | .stss _ o => vStSrcRef o.d :: .s o.stride :: spAddrRef o.addr
  | .ldmx _ o => mxAddrRef o.addr
  | .stmx _ o => .v o.d :: .s o.scale :: mxAddrRef o.addr
  | .ldt _ o => .s o.shape :: gAddrRef o.addr
  | .stt _ o => .v o.d :: .s o.shape :: gAddrRef o.addr
  | .kvlook _ o => [.s o.a, .s o.b]
  | .ixld _ o => .s o.desc :: gAddrRef o.addr
  | .ixst _ o => .s o.desc :: gAddrRef o.addr
  | .pref _ o => gAddrRef o.addr
  | .atom _ o => [.s o.a, .s o.b]
  | .acas _ o => [.s o.a, .s o.b, .s o.c]
  | .red _ o => [match o.d with | .s n => .s n | .v n => .v n, .s o.a]
  | .fadd _ o | .fsub _ o | .fmul _ o | .fdiv _ o | .fscalb _ o => vSrcRef o.a :: bSrcRef o.b
  | .fma _ o | .fms _ o | .fnma _ o => vSrcRef o.a :: vSrcRef o.c :: bSrcRef o.b
  | .fmin _ o | .fmax _ o | .fcpys _ o | .imulh _ o | .imin _ o | .imax _ o | .iand _ o | .ior _ o | .ixor _ o
  | .ishl _ o | .ishr _ o | .isar _ o => vSrcRef o.a :: bSrcRef o.b
  | .fabs _ o | .fneg _ o | .fclass _ o | .inot _ o | .okey _ o | .okeyi _ o => [vSrcRef o.a]
  | .fsqrt _ o | .frcp _ o | .frsq _ o | .fexp2 _ o | .flog2 _ o => [vSrcRef o.a]
  | .fcmp _ o => vSrcRef o.a :: bSrcRef o.b
  | .icmp _ o => vSrcRef o.a :: bSrcRef o.b
  | .fcvt _ o | .icvt _ o => vSrcRef o.a :: (match cvtNarrows o, o.d with | true, .v n => [.v n] | _, _ => [])
  | .iadd _ o | .isub _ o | .imul _ o => vSrcRef o.a :: bSrcRef o.b
  | .imad _ o => vSrcRef o.a :: vSrcRef o.c :: bSrcRef o.b
  | .iabs _ o => [vSrcRef o.a]
  | .sel _ o => [vSrcRef o.a, vSrcRef o.b, .p o.p]
  | .movv _ o => [vSrcRef o.a]
  | .bcast _ o => sSrcRef o.a
  | .extr _ o => vSrcRef o.a :: sSrcRef o.i
  | .iota _ o => .s o.a :: sSrcRef o.step
  | .perm _ o => [vSrcRef o.a, vSrcRef o.b, vSrcRef o.c]
  | .shfl _ o => vSrcRef o.a :: sSrcRef o.cnt
  | .rdadd _ o | .rdmax _ o | .rdmin _ o => [vSrcRef o.a]
  | .scan _ o => [vSrcRef o.a]
  | .topk _ o => vSrcRef o.a :: sSrcRef o.k
  | .vhist _ o => vSrcRef o.a :: sSrcRef o.g ++ (if o.acc then [.v o.d] else [])
  | .digit _ o => vSrcRef o.a :: sSrcRef o.pre
  | .pcnt _ o => [.p o.a]
  | .pand _ o | .por _ o | .pxor _ o => [.p o.a, .p o.b]
  | .pnot _ o => [.p o.a]
  | .mma _ o => [.s o.a, .s o.b] ++ (match o.cb with | some c => [.s c] | none => [])
  | .mmaw _ o => [.s o.m.a, .s o.m.b] ++ (match o.m.cb with | some c => [.s c] | none => [])
  | .awr _ o => [vSrcRef o.a]
  | .adrn _ o => [.s o.a]
  | .cpy _ o => [.s o.a, .s o.b, .s o.c] ++ (if o.kind = .ef then [.s o.d] else [])
  | .cpyf _ o => [.s o.a, .s o.b, .s o.c]
  | .cpyq _ o => [.s o.a]
  | .cred _ o => [.s o.a, .s o.b, .s o.c]
  | .cmc _ o => [.s o.a, .s o.b, .s o.c]
  | .cbar _ o => [.s o.a]
  | .unv _ o => [.s o.a]
  | .patclr _ o => [.s o.a, .s o.b]
  | .cbld _ o => [.s o.a]
  | .cbst _ o => [.s o.a, .cb o.d]
  | .cbget _ o => [.cb o.a]
  | .cbput _ o => [vSrcRef o.a, .cb o.d]
  | .cbcnt _ (.set d a _) => [.s a, .cb d]
  | .cbcnt _ (.rd _ a) => [.cb a]
  | .cbcnt _ (.rt _ a b) => [.cb a, .s b]
  | .cbdedup _ c => [.cb c]
  | .ixremap _ o => [.cb o.a, .s o.b]
  | .cbenc _ o => [vSrcRef o.a, .s o.b, .s o.c]
  | .cbdec _ o => [.s o.a, .s o.b]
  | .ixmov _ o => [.s o.a, .s o.b]
  | .cbpair _ o => [.cb o.a, .cb o.b]
  | .ixpair _ o => [.s o.a, .s o.b, .s o.c]
  | .ixhist _ o => [.s o.a]
  | .reclust _ o => [.s o.a, .s o.b]
  | .bsget _ (.e _ a) | .bsget _ (.h _ a) | .bsget _ (.r _ a) => [.s a]
  | _ => []

/-- Registers a queue word writes (R53, R73); an address register named for post-increment is written too (R101). -/
def destsOf : Instr → List RegRef
  | .ldb _ o | .ldh _ o | .ldw _ o => [.s o.d]
  | .ldd _ o => [ldDstRef o.d]
  | .ldv _ o => [vLdDstRef o.d]
  | .ldvs _ o => [vLdDstRef o.d]
  | .ldg _ o => [vLdDstRef o.d]
  | .lds _ o => [vLdDstRef o.d]
  | .ldss _ o => [vLdDstRef o.d]
  | .ldmx _ o => [.v o.d, .s o.scale]
  | .ldt _ o => [.v o.d]
  | .kvlook _ o => [.s o.d]
  | .ixld _ o => [.s o.d]
  | .atom _ o => [.s o.d]
  | .acas _ o => [.s o.d]
  | .fadd _ o | .fsub _ o | .fmul _ o | .fdiv _ o | .fscalb _ o => [vDstRef o.d]
  | .fma _ o | .fms _ o | .fnma _ o => [vDstRef o.d]
  | .fmin _ o | .fmax _ o | .fcpys _ o | .imulh _ o | .imin _ o | .imax _ o | .iand _ o | .ior _ o | .ixor _ o
  | .ishl _ o | .ishr _ o | .isar _ o => [vDstRef o.d]
  | .fabs _ o | .fneg _ o | .fclass _ o | .inot _ o | .okey _ o | .okeyi _ o => [vDstRef o.d]
  | .fsqrt _ o | .frcp _ o | .frsq _ o | .fexp2 _ o | .flog2 _ o => [vDstRef o.d]
  | .fcmp _ o => [.p o.d]
  | .icmp _ o => [.p o.d]
  | .fcvt _ o | .icvt _ o => [vDstRef o.d]
  | .iadd _ o | .isub _ o | .imul _ o => [vDstRef o.d]
  | .imad _ o => [vDstRef o.d]
  | .iabs _ o => [vDstRef o.d]
  | .sel _ o => [vDstRef o.d]
  | .movv _ o => [vDstRef o.d]
  | .bcast _ o => [vDstRef o.d]
  | .extr _ o => [.s o.d]
  | .iota _ o => [vDstRef o.d]
  | .perm _ o => [vDstRef o.d]
  | .shfl _ o => [vDstRef o.d]
  | .rdadd _ o | .rdmax _ o | .rdmin _ o => [rDstRef o.d]
  | .scan _ o => [vDstRef o.d]
  | .topk _ o => [.v o.d, .v o.c]
  | .vhist _ o => [.v o.d]
  | .digit _ o => [vDstRef o.d]
  | .pcnt _ o => [.s o.d]
  | .pand _ o | .por _ o | .pxor _ o => [.p o.d]
  | .pnot _ o => [.p o.d]
  | .mmaw _ o => [.s o.d]
  | .ard _ o => [vDstRef o.d, .s o.c]
  | .mstat _ o => [.s o.d]
  | .cpy _ o => [.s o.d]
  | .cpyf _ o => [.s o.d]
  | .cpyq _ o => [.s o.d]
  | .cred _ o => [.s o.d]
  | .cmc _ o => [.s o.d]
  | .cbar _ o => [.s o.d]
  | .unv _ o => [.s o.d]
  | .patclr _ o => [.s o.d]
  | .cbld _ o => [.cb o.d]
  | .cbget _ o => [vDstRef o.d]
  | .cbput _ o => [.cb o.d]
  | .cbcnt _ (.set d _ _) => [.cb d]
  | .cbcnt _ (.rd d _) => [.s d]
  | .cbcnt _ (.rt d _ _) => [.s d]
  | .cbdedup _ c => [.cb c]
  | .ixremap _ o => [.s o.d]
  | .cbenc _ o => [.s o.d]
  | .cbdec _ o => [vDstRef o.d]
  | .ixmov _ o => [.s o.d]
  | .ixpair _ o => [.s o.d]
  | .ixhist _ o => [.s o.d]
  | .reclust _ o => [.cb o.d, .s o.c]
  | .bsget _ (.e d _) | .bsget _ (.h d _) | .bsget _ (.r d _) => [vDstRef d]
  | .bsget _ (.st d) | .bsget _ (.cst d) => [.s d]
  | _ => []

/-- A register reference with its vector number mapped (R59). -/
def mapRef (vrb : BitVec 5) : RegRef → RegRef
  | .v n => .v (physV vrb n)
  | r => r

/-- The instruction of a queued word. -/
def QWord.ins (w : QWord) : Instr :=
  match w.what with
  | .ok i => i
  | .bad _ => .nop .zero

/-- A load: what reads memory or a buffer for the strand, a mark, an rfree and a prefetch apart (R66). -/
def isLoad : Instr → Bool
  | .mark .. | .rfree .. | .pref .. => false
  | .cbld .. => true
  | i => queuesOf i == [.l]

/-- What an unissued word of a queue reads and writes. -/
def wordReads (w : QWord) : List RegRef :=
  match w.what with
  | .ok i => (readsOf i).map (mapRef w.vrb)
  | .bad _ => []
/-- A stage predicate (R60). -/
def isStage (r : RegRef) : Bool :=
  match r with
  | .p n => decide (4 ≤ n.toNat)
  | _ => false
/-- The stage predicates that a word of a queue reads at its split (R60). -/
def stageReads (i : Instr) : List RegRef := (readsOf i ++ [RegRef.p i.hdr.preg]).filter isStage
/-- The registers that a word's result writes; those and the address register that it advances at its issue (R101). -/
def resultDests (w : QWord) : List RegRef :=
  match w.what with
  | .ok i => (destsOf i).map (mapRef w.vrb)
  | .bad _ => []
def wordDests (w : QWord) : List RegRef :=
  match w.what with
  | .ok i => resultDests w ++ (match postReg i with | some a => [.a a] | none => [])
  | .bad _ => []
/-- The predicate register that a word reads at its issue. -/
def predRead (h : Hdr) : List RegRef := if h.preg = 0 || isStage (.p h.preg) then [] else [.p h.preg]

/-- The registers that a result still has to write. -/
def writeRef : RegWrite → RegRef
  | .s n _ | .promise n _ _ => .s n
  | .v n _ _ => .v n
  | .p n _ _ => .p n
  | .qi n _ _ => .qi n
  | .qo n _ _ => .qo n
  | .cb n _ _ => .cb n
  | .basin _ _ => .cb 0
  | .cst _ _ => .s 0
def resultRefs (r : Result) : List RegRef := r.writes.map writeRef

/-- Registers that words of frame k which have issued have still to write (R73): loads and atomics, results in flight, matrix
words, promises. -/
def Tile.unwritten (t : Tile) (k : FrameSel) : List RegRef :=
  let f := t.frameOf k
  ((f.lf ++ f.sf ++ f.ans).flatMap fun a => resultDests a.w) ++
    ((t.pipe ++ t.vpend).filter (fun r => r.frame == k)).flatMap resultRefs ++
    ((t.mat.queue.filter fun m => m.frame == k).flatMap fun m => resultDests m.w) ++
    ((t.mat.ards.filter fun r => r.frame == k).flatMap fun r => resultDests r.w) ++
    (t.promises.filter (fun p => p.frame == k)).map fun p => .s p.d

/-- Registers that words of the C queue which have issued have still to write (R30, R131): results in flight, matrix words, images that
cbld reads. -/
def Tile.pendingC (t : Tile) : List RegRef :=
  let images (f : Frame) : List RegRef := ((f.lf ++ f.ans).filter fun a => match a.w.ins with | .cbld .. => true | _ => false).flatMap fun a =>
    resultDests a.w
  (t.pipe ++ t.vpend).flatMap resultRefs ++ (t.mat.queue.flatMap fun m => resultDests m.w) ++ (t.mat.ards.flatMap fun r => resultDests r.w) ++
    images t.user ++ images t.hand

/-- The type and the vector sources of a floating word of the vector unit, the type that its result has first (R131). -/
def fpSrcs (i : Instr) : Option (Ty × Ty × List VSrc) :=
  let b (x : BSrc) : List VSrc := match x with | .src a => [a] | .imm _ => []
  let same (ty : Ty) (l : List VSrc) : Option (Ty × Ty × List VSrc) := if tyFloat ty then some (ty, ty, l) else none
  match i with
  | .fadd _ o | .fsub _ o | .fmul _ o | .fdiv _ o => same o.ty (o.a :: b o.b)
  | .fscalb _ o => same o.ty [o.a]
  | .fma _ o | .fms _ o | .fnma _ o => same o.ty (o.a :: o.c :: b o.b)
  | .fsqrt _ o | .frcp _ o | .frsq _ o | .fexp2 _ o | .flog2 _ o => same o.ty [o.a]
  | .fmin _ o | .fmax _ o | .fcpys _ o => same o.ty (o.a :: b o.b)
  | .fabs _ o | .fneg _ o | .fclass _ o => same o.ty [o.a]
  | .fcmp _ o => same o.ty (o.a :: b o.b)
  | .fcvt _ o => if tyFloat o.sty || tyFloat o.ty then some (o.ty, o.sty, [o.a]) else none
  | .rdadd _ o | .rdmax _ o | .rdmin _ o => same o.ty [o.a]
  | .scan _ o => same o.ty [o.a]
  | _ => none

/-- A pattern of a floating type is subnormal. -/
def subPattern (ty : Ty) (x : Nat) : Bool :=
  let go (m e : Nat) : Bool := x % 2 ^ m != 0 && x / 2 ^ m % 2 ^ e == 0
  match ty with
  | .f32 => go 23 8
  | .f16 => go 10 5
  | .bf16 => go 7 8
  | _ => false

/-- Some element of a value is subnormal. -/
def anySub (ty : Ty) (p : Word) (x : VWord) : Bool :=
  (List.range (tyCount ty)).any fun e => p.getLsbD (laneOf (tyWidth ty) e) && subPattern ty (x.extractLsb' (tyWidth ty * e) (tyWidth ty)).toNat

/-- A result writes a subnormal element of a type. -/
def Result.sub (ty : Ty) (r : Result) : Bool := r.writes.any fun w => match w with
  | .v _ m x => anySub ty (BitVec.allOnes 64) (m &&& x)
  | .qo _ _ x => anySub ty (BitVec.allOnes 64) x
  | .s _ x => subPattern ty (x.toNat % 2 ^ tyWidth ty)
  | _ => false

/-- Words of the current frame that have not issued. -/
def Frame.unissued (f : Frame) : List QWord := f.l ++ f.c ++ f.s ++ f.a

/-- The registers that words issued in a clk have read: what is written in that clk, their issue would have seen (R333). -/
def Frame.readAt (f : Frame) (now : Nat) : List RegRef := if f.readClk = now then f.reads else []

/-- The hold of R73 on an X word that writes the registers ws and reads the address registers rs: only words of the
splitter's own frame count, and s0 never does. A word that has issued in this clk has not issued before it. -/
def Tile.held73 (t : Tile) (now : Nat) (ws rs : List RegRef) : Bool :=
  let f := t.frame
  let real := ws.filter fun r => r != .s 0
  real.any (f.readAt now).contains || real.any (fun r => f.unissued.any fun w => (wordReads w).contains r || (wordDests w).contains r) ||
    real.any (fun r => (t.unwritten t.cur).contains r) ||
    rs.any (fun r => (f.l ++ f.s).any fun w => (wordReads w).contains r)

/-! ## Values of operands at issue -/

/-- A vector source: a register, mapped, or the head entry of a queue register (R61). -/
def Tile.vsrc (t : Tile) (w : QWord) : VSrc → VWord
  | .v n => t.getV (physV w.vrb n)
  | .qi n => match vget t.frame.qi n with
    | e :: _ => e.val
    | [] => 0

/-- The immediate of SBI as an element (R127); the floating conversion is exact. -/
def immInt (ty : Ty) (i : BitVec 8) : Int := if tySigned ty || tyFloat ty then i.toInt else (i.toNat : Int)

/-- A scalar count, index or step: the register, or the immediate read unsigned. -/
def Tile.ssrc (t : Tile) : SSrc → Word
  | .s n => t.getS n
  | .imm i => i.setWidth 64

/-! ## Addresses (R98, R101) -/

/-- The next address of an address register (R101). -/
def postInc (a : ARegS) : BitVec 48 :=
  match a.mode with
  | .lin => a.addr + (a.stride.signExtend 48)
  | .circ =>
    let d : Int := (a.addr.toNat : Int) - a.base.toNat + a.stride.toInt
    a.base + BitVec.ofInt 48 (d % (a.modulus.toNat : Int))
  | .brev =>
    let st := a.stride.toNat
    let n := bitLen 33 (a.modulus.toNat / st) - 1
    let c := (a.addr - a.base).toNat / st
    a.base + BitVec.ofNat 48 (st * revBits n ((revBits n c + 1) % 2 ^ n))

/-- The tile with an address register advanced (R101). -/
def Tile.advance (t : Tile) (n : AReg) : Tile :=
  let a := t.getA n
  t.setA n { a with addr := postInc a }

/-- A scratchpad address whose OFFSET is formed exactly: the fields above it, and the offset as an integer (R98, R99). -/
structure SpPlace where
  hi : BitVec 44
  off : Int
deriving DecidableEq, Repr

def spPlace (x : Word) (d : Int) : SpPlace := ⟨x.extractLsb' 20 44, (x.extractLsb' 0 20).toNat + d⟩

/-- The base of an access before its element offsets: a global sum, or a scratchpad place (R98). -/
inductive Base where
  | glob (va : Word) | sp (p : SpPlace)
deriving DecidableEq, Repr

def Tile.gBase (t : Tile) : GAddr → Base
  | .off s i => .glob (t.getS s + i.signExtend 64)
  | .post a => .glob ((t.getA a).addr.setWidth 64)

def Tile.spBase (t : Tile) : SpAddr → Base
  | .off s i => .sp (spPlace (t.getS s) i.toInt)
  | .post a => .sp (spPlace ((t.getA a).addr.setWidth 64) 0)

def Tile.addrBase (t : Tile) : Addr → Base
  | .off s i => .glob (t.getS s + i.signExtend 64)
  | .post a => .glob ((t.getA a).addr.setWidth 64)
  | .sp s i => .sp (spPlace (t.getS s) i.toInt)
  | .spPost a => .sp (spPlace ((t.getA a).addr.setWidth 64) 0)
  | .idx s i sp sc =>
    if sp then .sp (spPlace (t.getS s) ((t.getS i).toInt * 2 ^ sc.toNat))
    else .glob (t.getS s + (t.getS i <<< sc.toNat))

def Tile.mxBase (t : Tile) : MxAddr → Base
  | .off s i => .glob (t.getS s + i.signExtend 64)
  | .post a => .glob ((t.getA a).addr.setWidth 64)

/-- The base displaced by an exact number of bytes (R103): OFFSET alone of a scratchpad address (R98). -/
def Base.add (b : Base) (d : Int) : Base :=
  match b with
  | .glob va => .glob (va + BitVec.ofInt 64 d)
  | .sp p => .sp { p with off := p.off + d }

end Sys2Proof.Machine
end

