-- ==== Sys2Proof/Machine/Descriptors.lean ====
section
/-! DEFINITION. Descriptors of coded tensors and of matrix operands, and what they make a word wait for: the index planes a code
word reads and writes, and the reservations of the matrix engine (R31, R159, R160, R193, R199). -/

namespace Sys2Proof.Machine

/-- Width of an MX format (R31). -/
def mxWidth : Mx → Nat
  | .w4 => 4
  | .w6 => 6
  | .w8 => 8

/-- A coded-tensor descriptor (R159). -/
structure Desc where
  resv : Bool
  prow : Nat
  n : Nat
  w : Nat
  cbid : BitVec 4
  etag : BitVec 8
deriving DecidableEq, Repr

def descOf (x : Word) : Desc where
  resv := bits x 52 12 != 0 || x.getLsbD 39
  prow := (bits x 40 12).toNat
  n := (bits x 16 23).toNat
  w := (bits x 12 4).toNat
  cbid := bits x 8 4
  etag := bits x 0 8

/-- The word of a descriptor. -/
def Desc.word (d : Desc) : Word :=
  0#12 ++ BitVec.ofNat 12 d.prow ++ 0#1 ++ BitVec.ofNat 23 d.n ++ BitVec.ofNat 4 d.w ++ d.cbid ++ d.etag

/-- Rows of one plane (R39). -/
def Desc.rows (d : Desc) : Nat := (d.n + 1023) / 1024
/-- Steps 1 and 2 of R160. -/
def Desc.fate (d : Desc) : Option Nat :=
  if d.resv || d.n == 0 || decide (4194304 < d.n) || d.w == 0 || decide (12 < d.w) then some 2
  else if 524288 < d.prow * 128 + d.w * d.rows * 128 then some 9
  else none
/-- Bytes of the planes. -/
def Desc.bytes (d : Desc) : Nat := d.w * d.rows * 128

/-! ## Matrix operands (R193) -/

/-- A matrix operand descriptor (R193). -/
structure MDesc where
  resv : Bool
  k0 : Nat
  kt : Nat
  poff : Nat
  soff : Nat
deriving DecidableEq, Repr

def mdescOf (x : Word) : MDesc where
  resv := bits x 40 10 != 0
  k0 := (bits x 57 7).toNat
  kt := (bits x 50 7).toNat
  poff := (bits x 20 20).toNat
  soff := (bits x 0 20).toNat

/-- Blocks stored. -/
def MDesc.bt (d : MDesc) : Nat := 64 * (d.kt + 1)
/-- The planes and the strip of an operand of width w. -/
def MDesc.spans (d : MDesc) (w : Nat) : List (Nat × Nat) := [(d.poff, 8 * d.bt * (w / 2)), (d.soff, d.bt)]

/-- Bytes of an element, or the width of a block, that a drain writes (R205). -/
def drainSize : DrainFmt → Nat
  | .f32 => 4
  | .f16 | .bf16 => 2
  | .mx8 => 8
  | .mx6 => 6
  | .mx4 => 4
def drainMx : DrainFmt → Bool
  | .mx8 | .mx6 | .mx4 => true
  | .f32 | .f16 | .bf16 => false

/-- The bytes of AB that a drain writes (R205): its elements, or the slices and scales of 128 blocks. -/
def drainSpans (d : MDesc) (f : DrainFmt) : List (Nat × Nat) :=
  if drainMx f then
    (d.soff + 64 * d.k0, 128) :: (List.range (drainSize f / 2)).map fun k => (d.poff + 8 * d.bt * k + 512 * d.k0, 1024)
  else [(d.poff, 4096 * drainSize f)]

/-! ## Reservations (R199), held until the command completes (log entry 17) -/

def mmaReads (o : MmaOp) (a b c : Word) : List (Buf × Nat × Nat) :=
  let on (x : Buf) (l : List (Nat × Nat)) := l.map fun s => (x, s.1, s.2)
  on .ab ((mdescOf a).spans (mxWidth o.wa)) ++
    match o.cb with
    | none => on .wb ((mdescOf b).spans (mxWidth o.wb))
    | some _ => (.ab, (descOf c).prow * 128, (descOf c).bytes) :: on .wb [((mdescOf b).soff, (mdescOf b).bt)]

/-- What a matrix command has read-reserved. -/
def MatCmd.reads (m : MatCmd) : List (Buf × Nat × Nat) :=
  match m.w.what with
  | .ok (.mma _ o) => mmaReads o m.a m.b m.c
  | .ok (.mmaw _ o) => mmaReads o.m m.a m.b m.c
  | _ => []
/-- What it has write-reserved. -/
def MatCmd.writes (m : MatCmd) : List (Buf × Nat × Nat) :=
  match m.w.what with
  | .ok (.adrn _ o) => (drainSpans (mdescOf m.a) o.fmt).map fun s => (.ab, s.1, s.2)
  | _ => []

/-- Two byte ranges share a byte. -/
def rangesMeet (p n q m : Nat) : Bool := decide (p < q + m) && decide (q < p + n)

/-- The hold of R199 on a word's access to own bytes: a command has them reserved that issued before the word. A word of the L and S
FIFOs that issued before the command is among those that the command has noted. -/
def Tile.held199 (t : Tile) (id : Nat) (write : Bool) (b : Buf) (off n : Nat) : Bool :=
  t.mat.queue.any fun m => !m.older.contains id &&
    ((write && m.reads.any fun r => r.1 == b && rangesMeet off n r.2.1 r.2.2) ||
      m.writes.any fun r => r.1 == b && rangesMeet off n r.2.1 r.2.2)

/-! ## Index planes of code words -/

def planeSpan (x : Word) : Nat × Nat := ((descOf x).prow * 128, (descOf x).bytes)

/-- The planes that a word reads at its issue (R168–R172, R182, R183, R186). -/
def Tile.planeReads (t : Tile) : Instr → List (Nat × Nat)
  | .cbdec _ o => [planeSpan (t.getS o.a)]
  | .ixremap _ o => [planeSpan (t.getS o.b)]
  | .ixmov _ o => [planeSpan (t.getS o.a)]
  | .ixpair _ o => [planeSpan (t.getS o.a), planeSpan (t.getS o.b)]
  | .ixhist _ o => [planeSpan (t.getS o.a)]
  | .reclust _ o => [planeSpan (t.getS o.a)]
  | .ixst _ o => [planeSpan (t.getS o.desc)]
  | _ => []
/-- The planes that a code word writes; those of a pair and of a reclust as the widest. -/
def Tile.planeWrites (t : Tile) : Instr → List (Nat × Nat)
  | .cbenc _ o => [planeSpan (t.getS o.b)]
  | .ixremap _ o => [planeSpan (t.getS o.b)]
  | .ixmov _ o => [((descOf (t.getS o.b)).prow * 128, (descOf (t.getS o.b)).w * (descOf (t.getS o.a)).rows * 128)]
  | .ixpair _ o => [((descOf (t.getS o.c)).prow * 128, 12 * (descOf (t.getS o.a)).rows * 128)]
  | .reclust _ o => [((descOf (t.getS o.a)).prow * 128, 8 * (descOf (t.getS o.a)).rows * 128)]
  | _ => []

/-- A code word waits for the reservations its planes meet (R199). -/
def Tile.planesHeld (t : Tile) (id : Nat) (i : Instr) : Bool :=
  (t.planeReads i).any (fun s => t.held199 id false .ab s.1 s.2) || (t.planeWrites i).any fun s => t.held199 id true .ab s.1 s.2

end Sys2Proof.Machine
end

