-- ==== Sys2Proof/Machine/Memory.lean ====
section
/-! DEFINITION. Physical memory and its home slices, watch filters, read counts, error banks, translation, and the tile buffers
as other units read them (R15–R17, R111, R123, R261, R314–R316, R336–R342). -/

namespace Sys2Proof.Machine

/-! ## Dies, harts, interrupts -/

def Chip.die (c : Chip) (d : Bool) : Die := if d then c.die1 else c.die0
def Chip.updDie (c : Chip) (d : Bool) (f : Die → Die) : Chip :=
  if d then { c with die1 := f c.die1 } else { c with die0 := f c.die0 }
/-- The die's first hart (R342). -/
def firstHart (d : Bool) : BitVec 3 := if d then 4 else 0
/-- An identity set pending in a hart's IMSIC file; identity 0 is none. -/
def Chip.setPending (c : Chip) (hart : BitVec 3) (iid : BitVec 11) : Chip :=
  { c with imsic := if iid = 0 ∨ c.imsic.contains (hart, iid) then c.imsic else c.imsic ++ [(hart, iid)] }
/-- Number of a kind of interrupt, for the identity its MSI sets. -/
def Irq.code : Irq → Nat
  | .ueRecord => 0
  | .fence => 1
  | .ready => 2
  | .halted => 3
  | .ended => 4
  | .frozen => 5
/-- A hart interrupted: an MSI to its IMSIC, and a note of what it is told. -/
def Chip.irqHart (c : Chip) (hart : BitVec 3) (q : Irq) : Chip :=
  { c with irqs := c.irqs ++ [(hart, q)] }.setPending hart (Config.irqIid q.code)
/-- The die's first hart interrupted. -/
def Chip.irq (c : Chip) (d : Bool) (q : Irq) : Chip := c.irqHart (firstHart d) q
/-- Every hart of the die interrupted. -/
def Chip.irqAll (c : Chip) (d : Bool) (q : Irq) : Chip := [0, 1, 2, 3].foldl (fun (c : Chip) k => c.irqHart (firstHart d + k) q) c
/-- A fresh free-value index. -/
def Chip.tickFree (c : Chip) : Chip := { c with freeCnt := c.freeCnt + 1 }

/-! ## Error banks (R339–R342) -/

/-- An event in a bank, and whether it interrupts (R341, R342). -/
def Bank.event (b : Bank) (ue : Bool) (kind : BitVec 4) (addr : BitVec 56) (synd tnum code : BitVec 8) : Bank × Bool :=
  let count : BitVec 32 := if b.count = BitVec.allOnes 32 then b.count else b.count + 1
  let new : Bank := ⟨true, ue, b.ovf, kind, count, addr, synd, tnum, code⟩
  if b.v && b.ue then ({ b with count := count, ovf := b.ovf || ue }, ue && !b.ovf) else (new, ue)

def getBank (l : List (Nat × Bank)) (n : Nat) : Bank := ((l.find? fun x => x.1 == n).map Prod.snd).getD .zero
def setBank (l : List (Nat × Bank)) (n : Nat) (b : Bank) : List (Nat × Bank) := (n, b) :: l.filter fun x => x.1 != n

/-- An event with its syndrome recorded in bank n of a die. -/
def Chip.recordSynd (c : Chip) (d : Bool) (n : Nat) (ue : Bool) (kind : BitVec 4) (addr : BitVec 56) (synd tnum code : BitVec 8) : Chip :=
  let (b, i) := (getBank (c.die d).banks n).event ue kind addr synd tnum code
  let c := c.updDie d fun x => { x with banks := setBank x.banks n b }
  if i then c.irq d .ueRecord else c

/-- An event recorded in bank n of a die, its syndrome a free value. -/
def Chip.record (c : Chip) (d : Bool) (n : Nat) (ue : Bool) (kind : BitVec 4) (addr : BitVec 56) (tnum code : BitVec 8) : Chip :=
  c.tickFree.recordSynd d n ue kind addr (Config.syndrome c.freeCnt) tnum code

/-- Bank of a tile within its die (R339). -/
def tileBank (n : TileId) : Nat := n.toNat % 128

/-- An uncorrectable datum consumed by a strand: counted in its tile's bank; an active phase is cancelled (R338). -/
def Chip.countConsumed (c : Chip) (n : TileId) (addr : BitVec 56) (kind : BitVec 4) (code : BitVec 8) : Chip :=
  (c.record (tileDie n) (tileBank n) true kind addr n code).updAt n Tile.askCancel

/-! ## Physical addresses (R15–R17, R365) -/

/-- The home slice of a physical address (R15). -/
def homeSlice (pa : Nat) : Nat :=
  let x := pa / 128
  Nat.xor (Nat.xor (Nat.xor (Nat.xor (x % 512) (x / 2 ^ 9 % 512)) (x / 2 ^ 18 % 512)) (x / 2 ^ 27 % 512)) (x / 2 ^ 36 % 32)

/-- The HBM channel of a physical address (R16). -/
def hbmChannel (pa : Nat) : Nat :=
  Nat.xor (Nat.xor (Nat.xor (pa / 2 ^ 10 % 256) (pa / 2 ^ 18 % 256)) (pa / 2 ^ 26 % 256)) (pa / 2 ^ 34 % 64)

/-- Where the model keeps the byte at a physical address: `mem`'s key. -/
def Chip.key (c : Chip) (pa : BitVec 56) : Nat :=
  let off := (pa.extractLsb' 0 48).toNat
  if pa.extractLsb' 48 8 = c.member then off else ((pa.extractLsb' 48 8).toNat + 1) * 2 ^ 48 + off

/-- The class that an address's region raises (R17), if any. -/
def regionFate (pa : BitVec 56) : Option Nat :=
  let off := (pa.extractLsb' 0 48).toNat
  if off < Config.hbmBytes then none
  else if 0xFF0000000000 ≤ off ∧ off < 0xFF0100000000 then some 3
  else some 7

/-- Port p of the eighteen is trained: those of die 0 come first (log entry 73). -/
def Chip.portUp (c : Chip) (p : Nat) : Bool := if p < 9 then c.die0.ports.getLsbD p else c.die1.ports.getLsbD (p - 9)

/-- The plane on which a request to another member goes: that of its home slice, or the next whose port is trained, wrapping round
(R365). -/
def Chip.planeOf (c : Chip) (pa : BitVec 56) : Option Nat :=
  ((List.range 18).map fun k => (homeSlice pa.toNat % 18 + k) % 18).find? c.portUp

/-- A member's memory can be reached from a die, by its domain table and a trained port (R365). -/
def Chip.reaches (c : Chip) (die : Bool) (pa : BitVec 56) : Bool :=
  let m := pa.extractLsb' 48 8
  m = c.member || (!c.refLost && (c.die die).domain.getLsbD m.toNat && (c.planeOf pa).isSome)

/-- A key names another member's memory. -/
def keyRemote (k : Nat) : Bool := decide (2 ^ 48 ≤ k)

/-! ## The watch filters (R261) -/

/-- The two filter buckets of a line, numbered through the slices. -/
def buckets (line : Nat) : Nat × Nat :=
  let s := homeSlice (line * 128) * 1024
  let x := line
  (s + x % 1024, s + Nat.xor (Nat.xor (Nat.xor (x / 2 ^ 10 % 1024) (x / 2 ^ 20 % 1024)) (x / 2 ^ 30 % 1024)) (x / 2 ^ 40 % 2))

def getFilter (l : List (Nat × BitVec 256)) (n : Nat) : BitVec 256 := ((l.find? fun x => x.1 == n).map Prod.snd).getD 0
def setFilter (l : List (Nat × BitVec 256)) (n : Nat) (x : BitVec 256) : List (Nat × BitVec 256) :=
  let r := l.filter fun y => y.1 != n
  if x = 0 then r else (n, x) :: r

/-- A tile's bits set or cleared in both buckets of a line (R261, R263). -/
def Chip.watchBits (c : Chip) (n : TileId) (line : Nat) (on : Bool) : Chip :=
  let m : BitVec 256 := 1#256 <<< n.toNat
  let f (l : List (Nat × BitVec 256)) (b : Nat) := setFilter l b (if on then getFilter l b ||| m else getFilter l b &&& ~~~m)
  { c with filter := f (f c.filter (buckets line).1) (buckets line).2 }

/-- The wakes of a write to a line; those for a fenced tile are discarded (R261, R350). -/
def Chip.wakeLine (c : Chip) (line : Nat) : Chip :=
  let m := getFilter c.filter (buckets line).1 &&& getFilter c.filter (buckets line).2
  if m = 0 then c
  else (List.range 256).foldl (fun c k =>
    if m.getLsbD k && !(c.tileAt (BitVec.ofNat 8 k)).fence.fenced then
      c.updAt (BitVec.ofNat 8 k) fun t => { t with wake := true } else c) c

/-! ## Lines: writes, reads, uncorrectable units -/

/-- What every write performed at a home slice does beside its bytes: the watchers wake, a read count is cancelled, the line is
dirty and holds no zeros of a lost block (R123, R261, R344). -/
def Chip.lineWritten (c : Chip) (line : Nat) : Chip :=
  if keyRemote (line * 128) then c
  else
    let c := c.wakeLine line
    { c with counts := c.counts.filter (fun x => x.1 != line), blockLost := c.blockLost.filter (fun x => x.1 != line), dirty := if c.dirty.contains line then c.dirty else line :: c.dirty }

/-- An uncorrectable line found at its slice: zeros with valid ECC take its place, the slice records it (R337). -/
def Chip.zeroLine (c : Chip) (line : Nat) (tnum code : BitVec 8) : Chip :=
  let s := homeSlice (line * 128)
  let c := c.record (decide (256 ≤ s)) (128 + s % 256) true 0 (c.member ++ BitVec.ofNat 48 (line * 128)) tnum code
  let c := { c with mem := c.mem.write (line * 128) (List.replicate 128 0), ueLines := c.ueLines.filter fun x => x != line }
  c.lineWritten line

/-- The lines that bytes k to k + n − 1 touch. -/
def linesOf (k n : Nat) : List Nat := if n = 0 then [] else (List.range ((k + n - 1) / 128 - k / 128 + 1)).map fun i => k / 128 + i

/-- Bytes written at their home slices in one step: a failing line is replaced by zeros with the bytes merged in (R111, R337). -/
def Chip.writeMem (c : Chip) (req : TileId) (k : Nat) (bs : List Byte) : Chip :=
  let ls := linesOf k bs.length
  let c := ls.foldl (fun c l => if c.ueLines.contains l then c.zeroLine l req 0 else c) c
  let c := { c with mem := c.mem.write k bs }
  ls.foldl Chip.lineWritten c

/-- TVAL of a zeroed line (R338). -/
def lineTval (c : Chip) (line : Nat) : Word := 1#1 ++ 0#7 ++ c.member ++ BitVec.ofNat 48 (line * 128)

/-- A request for a line shared the recovery of a lost block (R344), and has had its zeros. -/
def Chip.lostFor (c : Chip) (who : Waiter) (line : Nat) : Bool := c.blockLost.contains (line, who)
def Chip.tookLost (c : Chip) (who : Waiter) (line : Nat) : Chip := { c with blockLost := c.blockLost.filter (· != (line, who)) }

/-- A request that reads lines, of the cause class that zeros of each would raise, waits for the recovery of their blocks (R344). -/
def Chip.awaitBlocks (c : Chip) (who : Waiter) (eng : Nat) (ls : List (Nat × Nat)) : Chip :=
  ls.foldl (fun (c : Chip) l =>
    let x := (l.1, who, causeCode l.2 eng)
    if c.blockWait.contains x then c else { c with blockWait := c.blockWait ++ [x] }) c

/-- Of lines awaited, those of page tables: what a write waits for. -/
def tableLines (ls : List (Nat × Nat)) : List (Nat × Nat) := ls.filter fun l => l.2 == 8

/-- Bytes read at their home slices, and the first unit that reached the reader as zeros (R111, R337, R344). -/
def Chip.readMem (c : Chip) (who : Waiter) (code : BitVec 8) (k n : Nat) : Chip × List Byte × Option Word :=
  let (c, ue) := (linesOf k n).foldl (fun (x : Chip × Option Word) l =>
    let (c, ue) := x
    if c.ueLines.contains l then
      let c := c.zeroLine l who.tile code
      ((c.countConsumed who.tile (c.member ++ BitVec.ofNat 48 (l * 128)) 0 code), ue <|> some (lineTval c l))
    else if c.lostFor who l then
      let c := c.tookLost who l
      ((c.countConsumed who.tile (c.member ++ BitVec.ofNat 48 (l / 8 * 1024)) 3 code), ue <|> some (lineTval c (l / 8 * 8)))
    else (c, ue)) (c, none)
  (c, c.mem.read k n, ue)

/-- A read count taken by an access to a line (R123); one that has reached zero waits for its line to invalidate itself. -/
def Chip.takeCount (c : Chip) (line : Nat) : Chip :=
  match c.counts.find? fun x => x.1 == line with
  | none => c
  | some (_, n) => { c with counts := (line, n - 1) :: c.counts.filter fun x => x.1 != line }

/-! ## Translation (R314–R316) -/

def pteBit (p : Word) (k : Nat) : Bool := p.getLsbD k

/-- An entry that is an absent mapping (R314). -/
def pteAbsent (level : Nat) (p : Word) : Bool :=
  let leaf := pteBit p 1
  !pteBit p 0 || bits p 56 8 != 0 || bits p 8 4 != 0 || pteBit p 5 || (pteBit p 6 && !leaf) || (leaf && level == 0) ||
    (!leaf && decide (3 ≤ level)) ||
    (leaf && (match level with | 1 => bits p 12 22 != 0 | 2 => bits p 12 13 != 0 | _ => bits p 12 4 != 0))

/-- Index of a virtual address at a level, and the page size of a leaf there. -/
def levelIndex (level va : Nat) : Nat :=
  match level with
  | 0 => va / 2 ^ 43 % 32
  | 1 => va / 2 ^ 34 % 512
  | 2 => va / 2 ^ 25 % 512
  | _ => va / 2 ^ 16 % 512
def pageBytes (level : Nat) : Nat :=
  match level with
  | 1 => 2 ^ 34
  | 2 => 2 ^ 25
  | _ => 2 ^ 16

/-- The physical address that an entry's PPN names. -/
def pteBase (p : Word) : BitVec 56 := p.extractLsb' 12 44 ++ 0#12

/-- An uncorrectable page-table line, recorded once while its record stands (R316). -/
def Chip.walkerRecord (c : Chip) (die : Bool) (pa : BitVec 56) (tnum code : BitVec 8) : Chip :=
  if (c.die0.banks ++ c.die1.banks).any fun x => decide (512 ≤ x.1) && decide (x.1 < 1536) && x.2.v && x.2.kind == 2 && x.2.addr == pa then c
  else
    let w := 512 + (Config.walker c.freeCnt).toNat
    c.record die w true 2 pa tnum code

/-- Whether an entry marks its page compressed, noted of the page (log entry 36). -/
def Chip.notePage (c : Chip) (level : Nat) (p : Word) : Chip :=
  let pg := (c.key (pteBase p), pageBytes level)
  let l := c.compressed.filter fun x => x != pg
  { c with compressed := if pteBit p 6 then pg :: l else l }

/-- Why a walk gives no entry: a class, or the recovery of a compressed block that holds its node (R344). -/
inductive WalkErr where
  | cls (n : Nat) | busy (line : Nat)
deriving DecidableEq, Repr

/-- A walk from a node (R314): the leaf entry, or what fails it. -/
def Chip.walk (c : Chip) (die : Bool) (who : Waiter) (code : BitVec 8) (va : Nat) : (fuel level : Nat) → (node : BitVec 56) → Chip × Except WalkErr (Nat × Word)
  | 0, _, _ => (c, .error (.cls 6))
  | fuel + 1, level, node =>
    if node.extractLsb' 48 8 ≠ c.member ∨ Config.hbmBytes ≤ (node.extractLsb' 0 48).toNat then (c, .error (.cls 7))
    else
      let a := (node.extractLsb' 0 48).toNat + 8 * levelIndex level va
      if c.ueBlocks.contains (a / 1024) then (c, .error (.busy (a / 128)))
      else if c.ueLines.contains (a / 128) || c.lostFor who (a / 128) then
        ((c.tookLost who (a / 128)).walkerRecord die (c.member ++ BitVec.ofNat 48 (a / 128 * 128)) who.tile code, .error (.cls 8))
      else
        let p : Word := ofBytes 64 (c.mem.read a 8)
        if pteAbsent level p then (c, .error (.cls 6))
        else if pteBit p 1 then
          if pteBit p 6 ∧ (pteBase p).extractLsb' 48 8 ≠ c.member then (c, .error (.cls 7)) else (c.notePage level p, .ok (level, p))
        else c.walk die who code va fuel (level + 1) (pteBase p)

/-- A cached translation serves an address of an address space. -/
def Tlb.hits (e : Tlb) (asid : BitVec 12) (va : Nat) : Bool :=
  (e.asid == none || e.asid == some asid) && va / pageBytes e.level == e.base / pageBytes e.level

/-- The translation of an address for a tile: a cached entry, or a walk, whose entry is then cached (R314, R315). -/
def Chip.translate (c : Chip) (who : Waiter) (code : BitVec 8) (va : Nat) : Chip × Except WalkErr (Nat × Word) :=
  let die := tileDie who.tile
  let root := (c.tileAt who.tile).sys.troot
  let asid : BitVec 12 := bits root 48 12
  match (c.die die).tlb.find? fun e => e.hits asid va with
  | some e => (c, .ok (e.level, e.pte))
  | none =>
    let (c, r) := c.walk die who code va 4 0 (root.extractLsb' 0 44 ++ 0#12)
    match r with
    | .error e => (c, .error e)
    | .ok (level, p) =>
      let e : Tlb := ⟨if pteBit p 7 then none else some asid, va / pageBytes level * pageBytes level, level, p⟩
      (c.updDie die fun d => { d with tlb := e :: d.tlb }, .ok (level, p))

/-- Permissions (R314). -/
def permits (k : AccKind) (p : Word) : Bool :=
  match k with
  | .read => pteBit p 2
  | .write => pteBit p 3
  | .atomic => pteBit p 2 && pteBit p 3
  | .fetch => pteBit p 4

/-- What the checks of R117 answer: the pieces of physical memory; a class, with the first byte in the faulting page; an absent
member (R365); or the lines of compressed blocks whose recovery is awaited, with the class that their zeros
would raise (R344). -/
inductive Res where
  | ok (spans : List (Nat × Nat))
  | bad (cls : Nat) (va : Nat)
  | absent
  | busy (lines : List (Nat × Nat))
deriving DecidableEq, Repr

/-- The answers of two parts of one element, the lower first: a fault comes before an absent member, and that before a wait (R33; the
fault of the lower part is the one reported, log entry 59). -/
def Res.and : Res → Res → Res
  | .bad k v, _ => .bad k v
  | _, .bad m w => .bad m w
  | .absent, _ | _, .absent => .absent
  | .busy a, .busy b => .busy (a ++ b)
  | .busy a, .ok _ | .ok _, .busy a => .busy a
  | .ok a, .ok b => .ok (a ++ b)

/-- The checks of R117 on the bytes from va that lie in one 64 KiB page; a part of an element that lies at or above 2^48 meets class 7
there (log entry 59). -/
def Chip.checkPage (c : Chip) (who : Waiter) (eng : Nat) (kind : AccKind) (va len : Nat) : Chip × Res :=
  if 2 ^ 48 ≤ va then (c, .bad 7 va)
  else
    let (c, r) := c.translate who (causeCode 8 eng) va
    match r with
    | .error (.cls e) => (c, .bad e va)
    | .error (.busy l) => (c, .busy [(l, 8)])
    | .ok (level, p) =>
      let pa : BitVec 56 := pteBase p + BitVec.ofNat 56 (va % pageBytes level)
      match regionFate pa with
      | some cls => (c, .bad cls va)
      | none =>
        if !permits kind p then (c, .bad 7 va)
        else if !c.reaches (tileDie who.tile) pa then (c, .absent)
        else
          let k := c.key pa
          let stuck := (linesOf k len).filter fun l => c.ueBlocks.contains (l / 8)
          if stuck.isEmpty then (c, .ok [(k, len)]) else (c, .busy (stuck.map fun l => (l, 19)))

/-- The checks of R117 on len bytes from va, page by page. -/
def Chip.resolve (who : Waiter) (eng : Nat) (kind : AccKind) : (fuel : Nat) → Chip → (va len : Nat) → Chip × Res
  | 0, c, _, _ => (c, .ok [])
  | fuel + 1, c, va, len =>
    if len = 0 then (c, .ok [])
    else
      let here := Nat.min len (65536 - va % 65536)
      let (c, r) := c.checkPage who eng kind va here
      match r with
      | .bad k v => (c, .bad k v)
      | r =>
        let (c, x) := Chip.resolve who eng kind fuel c (va + here) (len - here)
        (c, r.and x)

/-- Enough pages for len bytes. -/
def pagesOf (len : Nat) : Nat := len / 65536 + 2

def Chip.checkSpan (c : Chip) (who : Waiter) (eng : Nat) (kind : AccKind) (va len : Nat) : Chip × Res :=
  Chip.resolve who eng kind (pagesOf len) c va len

/-- The bytes of the pieces, in order. -/
def Chip.readSpans (c : Chip) (who : Waiter) (code : BitVec 8) (spans : List (Nat × Nat)) : Chip × List Byte × Option Word :=
  spans.foldl (fun (x : Chip × List Byte × Option Word) s =>
    let (c, bs, ue) := x
    let (c, b, u) := c.readMem who code s.1 s.2
    (c, bs ++ b, ue <|> u)) (c, [], none)

/-- Bytes written over the pieces, in order; stores to another member await its acknowledgement (R125). -/
def Chip.writeSpans (c : Chip) (req : TileId) : List (Nat × Nat) → List Byte → Chip
  | [], _ => c
  | (k, n) :: r, bs => Chip.writeSpans (c.writeMem req k (bs.take n)) req r (bs.drop n)

/-! ## Tile buffers as units read and write them (R336–R338) -/

/-- TVAL of a zeroed buffer word, as the reading strand names it (R338, R99). -/
def bufTval (reader owner : TileId) (peer : Bool) (b : Buf) (word : Nat) : Word :=
  let sp : BitVec 26 := (if peer then 1#1 ++ tileRank owner else 0#4) ++ b.code ++ BitVec.ofNat 20 (word * 8)
  if reader = owner || peer then 0#1 ++ 1#1 ++ 0#36 ++ sp else 0

/-- Offset of a buffer in its tile's window (R359). -/
def windowBase : Buf → Nat
  | .wb => 0
  | .ab => 0x100000
  | .xb => 0x180000
  | .lb => 0x1C0000

/-- Physical address of a buffer word: its place in the tile's window of the management map (R358, R359). -/
def bufPa (c : Chip) (n : TileId) (b : Buf) (word : Nat) : BitVec 56 :=
  c.member ++ BitVec.ofNat 48 (0xFF0000000000 + (if tileDie n then 0x80000000 else 0) + 0x10000000 + tileBank n * 0x200000 +
    windowBase b + word * 8)

/-- Uncorrectable words of a buffer within a range. -/
def Tile.badWords (t : Tile) (b : Buf) (off n : Nat) : List Nat :=
  t.sramUe.filterMap fun u => match u with
    | .buf b' w => if b' = b && decide (off < w * 8 + 8) && decide (w * 8 < off + n) then some w else none
    | _ => none

/-- Words of a buffer replaced by zeros with valid ECC. -/
def Tile.zeroWords (t : Tile) (b : Buf) (ws : List Nat) : Tile :=
  ws.foldl (fun t w => { t.writeBuf b (w * 8) (List.replicate 8 0) with sramUe := t.sramUe.filter fun u => u != .buf b w }) t

/-- A buffer of a tile read for a strand: a failing word reads as zeros, is rewritten, recorded by its tile and counted as
consumed (R337, R338). -/
def Chip.readTileBuf (c : Chip) (reader owner : TileId) (peer : Bool) (b : Buf) (off n : Nat) (code : BitVec 8) :
    Chip × List Byte × Option Word :=
  let bad := (c.tileAt owner).badWords b off n
  match bad with
  | [] => (c, (c.tileAt owner).readBuf b off n, none)
  | w :: _ =>
    let c := c.updAt owner fun t => t.zeroWords b bad
    let c := if reader = owner then c
      else bad.foldl (fun c w => c.record (tileDie owner) (tileBank owner) true 0 (bufPa c owner b w) reader code) c
    let c := bad.foldl (fun c w => c.countConsumed reader (bufPa c owner b w) 0 code) c
    (c, (c.tileAt owner).readBuf b off n, some (bufTval reader owner peer b w))

/-- A buffer of a tile written for another unit or strand: what is left of a failing word is zeros, and a word written in part is
recorded (R337). -/
def Chip.writeTileBuf (c : Chip) (req owner : TileId) (b : Buf) (off : Nat) (bs : List Byte) : Chip :=
  let bad := (c.tileAt owner).badWords b off bs.length
  let part := bad.filter fun k => decide (k * 8 < off) || decide (off + bs.length < k * 8 + 8)
  let c := part.foldl (fun c k => c.record (tileDie owner) (tileBank owner) true 0 (bufPa c owner b k) req 0) c
  c.updAt owner fun t => (t.zeroWords b bad).writeBuf b off bs

end Sys2Proof.Machine
end

