-- ==== Sys2Proof/Machine/Issue.lean ====
section
/-! DEFINITION. How a word runs: at split for an X word (R47, R49, R73, R75), at issue for a queue word (R50–R57). Every
meaning of an instruction word is one of these two around its own effect. -/

namespace Sys2Proof.Machine

/-! ## Registers read as zeros (R337, R338) -/

/-- A failing unit lies in a register; what a word reads of a codebook register it reads word by word. -/
def SramUnit.inReg (u : SramUnit) (r : RegRef) : Bool :=
  match u, r with
  | .v n _, .v m => n == m
  | .s n, .s m => n == m
  | .p n, .p m => n == m
  | .a n, .a m => n == m
  | .g n, .g m => n == m
  | .qi _ n _ _, .qi m => n == m
  | .qo _ n _ _, .qo m => n == m
  | _, _ => false

/-- A failing entry of a queue register stands at its head in the frame in force, where a word reads it (R61). -/
def Tile.readable (t : Tile) (u : SramUnit) : Bool :=
  match u with
  | .qi k n id _ => k == t.cur && (vget t.frame.qi n).head?.map QEntry.id == some id
  | .qo k n id _ => k == t.cur && (vget t.frame.qo n).head?.map QEntry.id == some id
  | _ => true

/-- The failing units that a word reads are zeroed and counted as consumed; what TVAL names the first of them. -/
def Chip.scrubRegs (c : Chip) (p : SramUnit → Bool) (code : BitVec 8) : Chip × Option Word :=
  let bad := c.tile.sramUe.filter p
  let addr (u : SramUnit) : BitVec 56 × Word := match u with
    | .buf b k => (bufPa c c.focus b k, bufTval c.focus c.focus false b k)
    | _ => (0, 0)
  (bad.foldl (fun c u => (c.upd fun t => t.zeroUnit u).countConsumed c.focus (addr u).1 0 code) c, bad.head?.map fun u => (addr u).2)

/-- A write meets failing units: those that it covers whole have valid ECC again; those that it covers in part are zeroed first and
recorded, and nothing consumes them (R337). -/
def Chip.scrubWrites (c : Chip) (whole part : SramUnit → Bool) : Chip :=
  let addr (u : SramUnit) : BitVec 56 := match u with
    | .buf b k => bufPa c c.focus b k
    | _ => 0
  let c := (c.tile.sramUe.filter part).foldl (fun c u =>
    (c.upd fun t => t.zeroUnit u).record (tileDie c.focus) (tileBank c.focus) true 0 (addr u) c.focus 0) c
  c.upd fun t => { t with sramUe := t.sramUe.filter fun u => !whole u }

/-- What a unit of the tile reads of its registers and buffers while a word runs: failing units become zeros; `ue` names the first that
the word has consumed. -/
def Chip.unitReads (c : Chip) (eng : Nat) (ue : Option Word) (p : SramUnit → Bool) : Chip × Option Word :=
  let (d, u) := c.scrubRegs p (causeCode 19 eng)
  (d, ue <|> u)

/-- Class 19 traps at consumption: EPOL asks, and no phase is active (R338). -/
def Tile.trapsUe (t : Tile) : Bool := t.sys.uet && t.phase.isNone

/-! ## X words -/

/-- What an X word does at its split: goes on at a PC and takes the splitter for some clk; raises a class, with TVAL and
where TPC points; is held at its split, not yet executed, and may await the recovery of a block there (R344); or holds the splitter as a wait word. -/
inductive XDone where
  | go (c : Chip) (pc : Nat) (clk : Nat)
  | trap (c : Chip) (cls : Nat) (tval : Word) (tpc : Option Nat)
  | hold
  | await (f : Chip → Chip)
  | wait (c : Chip) (w : Wait)

/-- The splitter can split a word (R47, R296, R301, R305). -/
def Tile.splitting (t : Tile) : Bool := t.active && t.frame.wait.isNone && !t.cancelling

/-- The splitter's own clocks, tags and holds let this word go (R50, R54, R55, R73). -/
def Tile.readyX (t : Tile) (now : Nat) (h : Hdr) (ws rs : List RegRef) : Bool :=
  t.splitting && decide (t.frame.free + h.pdist.toNat ≤ now) && !t.frame.tagPending h.sbc0 && !t.frame.tagPending h.sbc1 &&
    !t.held73 now ws rs

/-- An X word done: the PC, the splitter's next free clk, its place in program order; its result counts for the phase (R309). -/
def Chip.splitDone (c : Chip) (now pc clk : Nat) : Chip :=
  let c := { c with nextId := c.nextId + 1 }
  c.upd fun t =>
    let t : Tile := { t.updFrame (fun f => { f with free := Nat.max f.free (now + clk) }) with pc := pc, quiet := now }
    if t.mode = .user then t.phaseResult now else t

/-- A word that faults at its split has taken the splitter's clk. -/
def Tile.stops (t : Tile) (now : Nat) : Tile := { t.updFrame (fun f => { f with free := Nat.max f.free (now + 1) }) with quiet := now }

/-- The cause of an X word (R293, R297). -/
def xCause (c : Chip) (eng cls : Nat) (tval : Word) : Cause :=
  { code := causeCode cls eng, pc := c.tile.pc, tval := tval, rq := none, xw := true, id := c.nextId }

/-- The word at a PC, as the instruction cache holds it. -/
def Tile.wordAt (t : Tile) (pc : Nat) : IWord :=
  match t.icache.find? fun x => x.1 == pc / 12 with
  | some (_, l) => l.extractLsb' (80 * (pc % 12)) 80
  | none => 0

/-- An X word at its split: `us` the units it reads, in the module at its split, `ws` the scalar and address registers it writes, `rs` the address
registers it reads. One read as zeros raises class 19 once the word has executed, has let the splitter go, or has raised its own class
(R338); zeros that cancel a phase take the word with them (R312). A word that its predicate disables takes the splitter for one clk (log
entry 6). -/
def runReading (eng : Nat) (h : Hdr) (us : Chip → SramUnit → Bool) (ws rs : List RegRef) (body : Nat → Chip → XDone) (now : Nat) (c : Chip) :
    Chip :=
  if !c.tile.readyX now h ws rs then c
  else
    let (e, up) := c.scrubRegs (·.inReg (.p h.preg)) (causeCode 19 eng)
    let k := c.tile.cur
    let also (b : Bool) (tpc : Option Nat) (c' : Chip) : Chip := if b then c'.upd fun u => u.raise k (xCause c eng 19 0) tpc else c'
    if e.tile.cancelling then e
    else if !(e.tile.effPredX h).getLsbD 0 then
      also (up.isSome && e.tile.trapsUe) (some (e.tile.pc + 1)) (e.splitDone now (e.tile.pc + 1) 1)
    else
      let (d, ur) := e.scrubRegs (us e) (causeCode 19 eng)
      let t := d.tile
      let ue := (up <|> ur).isSome && t.trapsUe
      if t.cancelling then d
      else
        match body now d with
        | .go c' pc clk => also ue (some pc) (c'.splitDone now pc clk)
        | .trap c' cls tval tpc =>
          let cause := { xCause c' eng cls tval with pc := t.pc }
          let c' := { c' with nextId := c.nextId + 1 }
          also ue none (c'.upd fun u => (u.stops now).raise t.cur cause (some (tpc.getD t.pc)))
        | .hold => c
        | .await f => f c
        | .wait c' w =>
          let hw : HeldWord := ⟨c.nextId, t.pc, t.wordAt t.pc, w, ue⟩
          let c' := { c' with nextId := c'.nextId + 1 }
          c'.upd fun u => { u.updFrame (fun f => { f with wait := some hw, free := now + 1 }) with pc := t.pc + 1, quiet := now }

/-- An X word that reads registers alone. -/
def runX (eng : Nat) (h : Hdr) (us ws rs : List RegRef) : (body : Nat → Chip → XDone) → (now : Nat) → Chip → Chip :=
  runReading eng h (fun _ u => us.any u.inReg) ws rs

/-- A meaning of an X word. -/
def xword (eng : Nat) (h : Hdr) (us ws rs : List RegRef) (body : Nat → Chip → XDone) (s : State) : Out :=
  s.lift (runX eng h us ws rs body)

/-- The common X word: it changes the tile and falls through. -/
def xstep (clk : Nat) (f : Tile → Tile) (_ : Nat) (c : Chip) : XDone := .go (c.upd f) (c.tile.pc + 1) clk

/-! ## Queue words -/

/-- The token count a word of a queue takes from or gives to (R51). -/
structure TokUse where
  takeF : Tokens → BitVec 4
  takeB : Tokens → BitVec 4
  giveF : Tokens → BitVec 4
  giveB : Tokens → BitVec 4

def tokUse : Queue → TokUse
  | .l => ⟨(·.sl), (·.cl), (·.lc), (·.ls)⟩
  | .c => ⟨(·.lc), (·.sc), (·.cs), (·.cl)⟩
  | .s => ⟨(·.cs), (·.ls), (·.sl), (·.sc)⟩
  | _ => ⟨fun _ => 0, fun _ => 0, fun _ => 0, fun _ => 0⟩

/-- Every queue a word takes from holds a token, and every one it gives to holds fewer than 15 (R50). -/
def tokReady (q : Queue) (h : Hdr) (k : Tokens) : Bool :=
  let u := tokUse q
  (!h.takeF || u.takeF k != 0) && (!h.takeB || u.takeB k != 0) && (!h.giveF || u.giveF k != 15) && (!h.giveB || u.giveB k != 15)

/-- The takes and gives of a word at its issue (R51, R52). -/
def tokMove (q : Queue) (h : Hdr) (k : Tokens) : Tokens :=
  let up (b : Bool) (x : BitVec 4) : BitVec 4 := if b then x + 1 else x
  let dn (b : Bool) (x : BitVec 4) : BitVec 4 := if b then x - 1 else x
  match q with
  | .l => { k with sl := dn h.takeF k.sl, cl := dn h.takeB k.cl, lc := up h.giveF k.lc, ls := up h.giveB k.ls }
  | .c => { k with lc := dn h.takeF k.lc, sc := dn h.takeB k.sc, cs := up h.giveF k.cs, cl := up h.giveB k.cl }
  | .s => { k with cs := dn h.takeF k.cs, ls := dn h.takeB k.ls, sl := up h.giveF k.sl, sc := up h.giveB k.sc }
  | _ => k

def qiHeadOk (f : Frame) (n : QReg) : Bool :=
  match vget f.qi n with
  | e :: _ => e.filled
  | [] => false
def qoHeadOk (f : Frame) (n : QReg) : Bool :=
  match vget f.qo n with
  | e :: _ => e.filled
  | [] => false

/-- Pops of a queue register in a clk, whose room is seen from the next (R333). -/
def Frame.popped (f : Frame) (now : Nat) (r : RegRef) : Nat := if f.popClk = now then f.pops.count r else 0

/-- The token counts that an issue decision of a clk sees (R333). -/
def Frame.tokAt (f : Frame) (now : Nat) : Tokens := if f.tokClk = now then f.tokSeen else f.tok

/-- The queue registers of a word are ready: sources filled, destinations with room (R50, R61, R333). -/
def qregsReady (now : Nat) (f : Frame) (i : Instr) : Bool :=
  (readsOf i).all (fun r => match r with | .qi n => qiHeadOk f n | .qo n => qoHeadOk f n | _ => true) &&
    (destsOf i).all fun r => match r with
      | .qi n => decide ((vget f.qi n).length + f.popped now (.qi n) < 8)
      | .qo n => decide ((vget f.qo n).length + f.popped now (.qo n) < 8)
      | _ => true

/-- Entries of the queue registers a word reads are popped, each register once (R61). -/
def popRegs (now : Nat) (f : Frame) (rs : List RegRef) : Frame :=
  let f := { f with popClk := now, pops := (if f.popClk = now then f.pops else []) ++ rs.eraseDups }
  rs.eraseDups.foldl (fun f r => match r with
    | .qi n => { f with qi := vset f.qi n (vget f.qi n).tail }
    | .qo n => { f with qo := vset f.qo n (vget f.qo n).tail }
    | _ => f) f

/-- Entries of the queue registers a word writes are reserved (R61). -/
def reserveRegs (f : Frame) (id : Nat) (rs : List RegRef) : Frame :=
  rs.foldl (fun f r => match r with
    | .qi n => { f with qi := vset f.qi n (vget f.qi n ++ [⟨id, false, 0⟩]) }
    | .qo n => { f with qo := vset f.qo n (vget f.qo n ++ [⟨id, false, 0⟩]) }
    | _ => f) f

/-- A floating word of interlocked mode in flight has a subnormal operand or result (R131). -/
def Tile.subnormals (t : Tile) : Bool := t.pipe.any fun r => match t.frame.fps.find? fun x => x.1 == r.id with
  | some (_, ty, sub) => sub || r.sub ty
  | none => false

/-- Interlocked mode (R30, R131): an older C result not yet written holds a word that reads or writes its register, as operand or as
predicate, and a floating word with subnormal operands or results holds every one. -/
def Tile.interlocked (t : Tile) (w : QWord) : Bool :=
  let rs := wordReads w ++ wordDests w ++ predRead w.ins.hdr
  w.imode && (t.pendingC.any rs.contains || t.subnormals)

/-- The floating words of interlocked mode in flight, with a word that issues (R131). -/
def Tile.notedFps (t : Tile) (w : QWord) : List (Nat × Ty × Bool) :=
  let l := t.frame.fps.filter fun x => (t.pipe ++ t.snap).any fun r => r.id == x.1
  match fpSrcs w.ins with
  | some (ty, sty, srcs) => if w.imode then (w.id, ty, srcs.any fun a => anySub sty (t.effPred w w.ins.hdr) (t.vsrc w a)) :: l else l
  | none => l

/-- A unit that found every replay entry taken stops its queue (R121). -/
def stopsQueue (l : List Access) : Bool := l.any fun a => a.units.any fun u => u.st == .stopped

/-- The ports and the FIFOs of L and S hold up every word of their queue: a port still taken, a FIFO full, a queue stopped for want of a
replay entry (R108, R119, R121). -/
def Frame.portOpen (f : Frame) (now : Nat) : Queue → Bool
  | .l => decide (f.portL ≤ now) && decide (f.lf.length < 32) && !stopsQueue f.lf
  | .s => decide (f.portS ≤ now) && decide (f.sf.length < 32) && !stopsQueue f.sf
  | .x | .c | .a => true

/-- A word of a queue that could issue in a clk, its queue's clock and its own split permitting. -/
def Frame.headDue (f : Frame) (now : Nat) (q : Queue) : Bool :=
  match f.queue q with
  | [] => false
  | w :: _ => decide (w.born < now) && decide (f.nextOf q ≤ now)

def allQueues : List Queue := [.l, .c, .s, .a]

/-- The conditions of R50 that do not depend on the predicate. -/
def Tile.readyQ (t : Tile) (now : Nat) (q : Queue) (w : QWord) (h : Hdr) : Bool :=
  let f := t.frame
  t.active && decide (f.nextOf q + h.pdist.toNat ≤ now) && decide (w.born < now) && !f.pending w.waits &&
    tokReady q h (f.tokAt now) && f.portOpen now q && !(q == .c && t.interlocked w)

/-- The word leaves its queue: its tokens move, its queue's clock starts (R50, R52). -/
def Tile.issue (t : Tile) (now : Nat) (q : Queue) (rest : List QWord) (h : Hdr) : Tile :=
  let fps := match t.frame.queue q with
    | w :: _ => t.notedFps w
    | [] => t.frame.fps
  let reads := match t.frame.queue q with
    | w :: _ => wordReads w ++ predRead h
    | [] => []
  let t := t.updFrame fun f => ({ f with fps := fps, readClk := now, reads := f.readAt now ++ reads, tok := tokMove q h f.tok, tokClk := now, tokSeen := f.tokAt now }.setQueue q rest).setNext q (now + 1)
  { t with quiet := now }

/-- A register that a completion would write has been read by an issue of this clk, which would have seen it: the completion comes in a later
clk (R333). -/
def Tile.lateFor (t : Tile) (now : Nat) (rs : List RegRef) : Bool := rs.any (t.frame.readAt now).contains

/-- How the predicate governs a queue word (R57, R145). -/
inductive Pred where
  | lanes | bit0 | always
deriving DecidableEq, Repr

/-- How its predicate governs a word that names queue registers. -/
def predKind (i : Instr) : Pred :=
  match i with
  | .mark .. | .markS .. | .bar .. | .phase .. | .rdadd .. | .rdmax .. | .rdmin .. | .scan .. | .topk .. | .vhist .. | .pcnt .. => .always
  | .extr .. => .bit0
  | .ldv .. | .ldvs .. | .ldg .. | .lds .. | .ldss .. | .stv .. | .stvs .. | .stg .. | .sts .. | .stss .. | .awr .. | .ard .. | .cbget .. |
    .cbput .. | .cbenc .. | .cbdec .. | .bsget .. => .lanes
  | i => if i.eng == some .vec then .lanes else .bit0

def predOn (k : Pred) (p : Word) : Bool :=
  match k with
  | .lanes => p != 0
  | .bit0 => p.getLsbD 0
  | .always => true

/-- A queue word of frame k that consumed zeros raises class 19 when its result, its data or its command completes (R338); one that has
none of them raises it at once. -/
def Chip.attachUe (c : Chip) (k : FrameSel) (w : QWord) (eng : Nat) (tval : Word) : Chip :=
  if !c.tile.trapsUe then c
  else
    let t := c.tile
    let cause : Cause := { code := causeCode 19 eng, pc := w.pc, tval := tval, rq := none, xw := false, id := w.id }
    let onR (l : List Result) := l.map fun r => if r.id = w.id then { r with ue := some cause } else r
    let onA (l : List Access) := l.map fun a => if a.w.id = w.id then { a with ue := some (a.ue.getD tval) } else a
    let onC (e : Engine) := { e with fifo := e.fifo.map fun x => if x.id = w.id then { x with ue := some (x.ue.getD tval) } else x }
    let onP (l : List Promise) := l.map fun p => if p.wid = w.id then { p with cause := some cause } else p
    let command := (t.chan.fifo ++ t.unv.fifo).any fun x => x.id == w.id
    let f := t.frameOf k
    let carried := t.pipe.any (fun r => r.id == w.id) || t.vpend.any (fun r => r.id == w.id) ||
      (f.lf ++ f.sf ++ f.ans).any (fun a => a.w.id == w.id) || t.mat.queue.any (fun m => m.w.id == w.id) ||
      t.mat.ards.any (fun r => r.w.id == w.id) || command || t.promises.any (fun p => p.wid == w.id)
    if carried then
      c.upd fun t =>
        { t.updFrameOf k (fun f => { f with lf := onA f.lf, sf := onA f.sf, ans := onA f.ans }) with
          pipe := onR t.pipe, vpend := onR t.vpend, chan := onC t.chan, unv := onC t.unv
          promises := if command then t.promises else onP t.promises
          mat := { t.mat with
            queue := t.mat.queue.map fun m => if m.w.id = w.id then { m with ue := some (m.ue.getD tval) } else m
            ards := t.mat.ards.map fun r => if r.w.id = w.id then { r with ue := some tval } else r } }
    else c.upd fun t => t.raise k cause none

/-- A queue word that is the head of queue q issues if it can: `res` is its unit's condition, `body` its effect, which reads
operands in the tile as it stood before the issue, and says what else it has consumed. A word that its predicate disables moves its
tokens and writes its tag (R52, R54, R57). A predicate register that fails is read as zeros first (R337), and raises class 19 of a word
that it disables too (log entry 33). Zeros that cancel a phase take the words behind this one (R312). -/
def runQ (q : Queue) (i : Instr) (k : Pred) (res : Nat → QWord → Chip → Bool)
    (body : Nat → QWord → Tile → Chip → Chip × Option Word) (now : Nat) (c : Chip) : Chip :=
  let h := i.hdr
  match c.tile.frame.queue q with
  | [] => c
  | w :: rest =>
    if w.what != .ok i || !c.tile.readyQ now q w h then c
    else
      let k0 := c.tile.cur
      let (e, up) := c.scrubRegs (fun u => !isStage (.p h.preg) && u.inReg (.p h.preg)) (causeCode 19 (instrEng i))
      if predOn k (e.tile.effPred w h) then
        if qregsReady now c.tile.frame i && !c.tile.planesHeld w.id i && res now w c then
          let (d, ur) := e.scrubRegs (fun u => e.tile.readable u && ((wordReads w).filter fun r => !isStage r).any u.inReg) (causeCode 19 (instrEng i))
          let rest := if d.tile.cancelling then [] else rest
          let (d', ub) := body now w d.tile (d.upd fun t => (t.issue now q rest h).updFrame fun f => popRegs now f (readsOf i))
          match (if w.ue then some 0 else none) <|> up <|> ur <|> ub with
          | some tval => d'.attachUe k0 w (instrEng i) tval
          | none => d'
        else c
      else
        let rest := if e.tile.cancelling then [] else rest
        let d := e.upd fun t => (t.issue now q rest h).updFrame fun f => f.writeTag h.sba w.id
        match (if w.ue then some 0 else none) <|> up with
        | some tval => d.attachUe k0 w (instrEng i) tval
        | none => d

/-- A meaning of a queue word whose unit reads more than its operands: its effect says what it has consumed. -/
def unitWord (q : Queue) (i : Instr) (k : Pred) (res : Nat → QWord → Chip → Bool)
    (body : Nat → QWord → Tile → Chip → Chip × Option Word) (s : State) : Out :=
  s.lift (runQ q i k res body)

/-- A meaning of a queue word. -/
def qword (q : Queue) (i : Instr) (k : Pred) (res : Nat → QWord → Chip → Bool)
    (body : Nat → QWord → Tile → Chip → Chip) (s : State) : Out :=
  unitWord q i k res (fun now w t c => (body now w t c, none)) s

/-- No unit to wait for. -/
def anyRes (_ : Nat) (_ : QWord) (_ : Chip) : Bool := true
/-- The vector unit accepts a word (R131). -/
def vecRes (now : Nat) (_ : QWord) (c : Chip) : Bool := decide (c.tile.frame.busyV ≤ now)

/-- A queue word that fails a check at issue: it performs nothing, writes its tag, and raises its class (R54, R293). -/
def Chip.issueFault (c : Chip) (w : QWord) (sba : BitVec 3) (cls eng : Nat) (tval : Word) : Chip :=
  c.upd fun t =>
    (t.updFrame fun f => f.writeTag sba w.id).raise t.cur
      { code := causeCode cls eng, pc := w.pc, tval := tval, rq := none, xw := false, id := w.id } none

/-- A fixed-latency result issued in clk `now` (R129). -/
def Chip.result (c : Chip) (now lat : Nat) (w : QWord) (sba : BitVec 3) (writes : List RegWrite) (flags : BitVec 5) : Chip :=
  c.upd fun t =>
    (t.updFrame fun f => reserveRegs f w.id (writes.map writeRef)).addResult
      { id := w.id, frame := t.cur, pc := w.pc, due := now + lat, writes := writes, flags := flags, tag := sba, ue := none, cause := none, snap := true }

/-- The result of a code word that a trap lets finish (R175). -/
def Chip.codeResult (c : Chip) (now lat : Nat) (w : QWord) (sba : BitVec 3) (writes : List RegWrite) (flags : BitVec 5) : Chip :=
  c.upd fun t =>
    (t.updFrame fun f => reserveRegs f w.id (writes.map writeRef)).addResult
      { id := w.id, frame := t.cur, pc := w.pc, due := now + lat, writes := writes, flags := flags, tag := sba, ue := none, cause := none,
        snap := false }

/-- A variable-latency result: it lands when its unit says (R131). -/
def Chip.later (c : Chip) (now : Nat) (w : QWord) (sba : BitVec 3) (writes : List RegWrite) (cause : Option Cause) : Chip :=
  c.upd fun t =>
    let t := t.updFrame fun f => reserveRegs f w.id (writes.map writeRef)
    { t with vpend := t.vpend ++ [{ id := w.id, frame := t.cur, pc := w.pc, due := now, writes := writes, flags := 0,
                                    tag := sba, ue := none, cause := cause, snap := false }] }

/-- The vector unit is taken for some clk. -/
def Chip.takeV (c : Chip) (now occ : Nat) : Chip := c.upd fun t => t.updFrame fun f => { f with busyV := now + occ }

end Sys2Proof.Machine
end

