-- ==== Sys2Proof/Machine/Planes.lean ====
section
/-! DEFINITION. MX blocks, coded lines, index planes and descriptors: the formats that several units read and write
(R31–R39, R159–R161). -/

namespace Sys2Proof.Machine

/-! ## MX blocks (R31–R34) -/

/-- Packed bytes of a block: 32 codes and the scale (R32). -/
def mxBytes (w : Nat) : Nat := 4 * w + 1

/-- A packed block's codes as one stream of 32·w bits. -/
def mxStream (bs : List Byte) : BitVec 256 := ofBytes 256 bs

/-- Code j of a stream, w bits. -/
def mxCode (w : Nat) (x : BitVec 256) (j : Nat) : Nat := (x >>> (w * j)).toNat % 2 ^ w

/-- Plane k of a block: the bit pairs 2k + 1 : 2k of its codes (R34). -/
def mxPlane (w : Nat) (x : BitVec 256) (k : Nat) : Word :=
  buildElems 64 2 32 fun j => BitVec.ofNat 2 (mxCode w x j / 4 ^ k)

/-- The stream of a block's planes. -/
def mxOfPlanes (w : Nat) (plane : Nat → Word) : BitVec 256 :=
  (List.range 32).foldl (fun acc j =>
    let c := (List.range (w / 2)).foldl (fun a k => a + (elem 2 (plane k) j).toNat * 4 ^ k) 0
    acc ||| (BitVec.ofNat 256 c <<< (w * j))) 0

/-! ## Coded lines (R36–R38) -/

/-- Widths a coded line may have (R36). -/
def lineWidth (w : Nat) : Bool := [1, 2, 3, 4, 5, 6, 8].contains w
/-- Slots of a line (R37). -/
def lineCap (w : Nat) : Nat := 960 / w

/-- CRC-8 of bytes, polynomial 0x07 (R38). -/
def crc8 (bs : List Byte) : Byte :=
  bs.foldl (fun c b => (List.range 8).foldl (fun (c : Byte) _ => if c.getLsbD 7 then (c <<< 1) ^^^ 0x07 else c <<< 1) (c ^^^ b)) 0

/-- The fate of a coded line (R38): class 2, class 14, zeros for a CRC failure, or its indices. -/
inductive LineFate where
  | bad (cls : Nat) | zeros | good
deriving DecidableEq, Repr

/-- The checks of R38 on line l of a tensor of n elements in lines of width w. -/
def lineFate (bs : List Byte) (l n w cbid tag : Nat) : LineFate :=
  let h : Word := ofBytes 64 (bs.take 8)
  let cap := lineCap w
  let lines := (n + cap - 1) / cap
  let last := l + 1 == lines
  let count := (bits h 16 10).toNat
  let want := if last then n - (lines - 1) * cap else cap
  if bits h 40 24 != 0 || bits h 28 4 != 0 || (bits h 12 4).toNat != w || count != want ||
      h.getLsbD 26 != last || h.getLsbD 27 != (l == 0) then .bad 2
  else if bits h 32 8 != crc8 (bs.drop 8) then .zeros
  else if (bits h 8 4).toNat != cbid || (bits h 0 8).toNat != tag then .bad 14
  else .good

/-- Slot i of a line's payload. -/
def lineSlot (bs : List Byte) (w i : Nat) : Nat := ((ofBytes 960 (bs.drop 8) : BitVec 960) >>> (w * i)).toNat % 2 ^ w

/-- A coded line: header, slots, zeros beyond COUNT, CRC (R36–R38). -/
def codedLine (l n w cbid tag : Nat) (idx : Nat → Nat) : List Byte :=
  let cap := lineCap w
  let lines := (n + cap - 1) / cap
  let last := l + 1 == lines
  let count := if last then n - (lines - 1) * cap else cap
  let body : BitVec 960 := (List.range count).foldl (fun a i => a ||| (BitVec.ofNat 960 (idx (l * cap + i) % 2 ^ w) <<< (w * i))) 0
  let payload := toBytes 120 body
  let h : Word := 0#24 ++ crc8 payload ++ 0#4 ++ BitVec.ofBool (l == 0) ++ BitVec.ofBool last ++ BitVec.ofNat 10 count ++
    BitVec.ofNat 4 w ++ BitVec.ofNat 4 cbid ++ BitVec.ofNat 8 tag
  toBytes 8 h ++ payload

/-! ## Descriptors and index planes (R39, R159, R160) -/

/-- Index e of planes held as bytes. -/
def planeIndex (bs : Nat → Byte) (rows w e : Nat) : Nat :=
  (List.range w).foldl (fun a p =>
    if (bs ((p * rows + e / 1024) * 128 + e % 1024 / 8)).getLsbD (e % 8) then a + 2 ^ p else a) 0

/-- Index e of a tensor's planes in a tile's AB. -/
def Tile.index (t : Tile) (d : Desc) (e : Nat) : Nat := planeIndex (fun k => t.bufs.ab.get (d.prow * 128 + k)) d.rows d.w e

/-- The bytes of w planes of n indices; zeros at and beyond n (R39). -/
def planeBytes (n w : Nat) (f : Nat → Nat) : List Byte :=
  let rows := (n + 1023) / 1024
  (List.range (w * rows * 128)).map fun k =>
    let p := k / (rows * 128)
    let e0 := k % (rows * 128) * 8
    BitVec.ofNat 8 ((List.range 8).foldl (fun a j => if e0 + j < n ∧ (f (e0 + j)).testBit p then a + 2 ^ j else a) 0)

/-- A tensor's planes written from a row on. -/
def Tile.writePlanes (t : Tile) (prow n w : Nat) (f : Nat → Nat) : Tile := t.writeBuf .ab (prow * 128) (planeBytes n w f)

/-! ## Failing words that code words meet (R336, R337) -/

/-- The indices whose bits a 64-bit word of AB holds, where w planes of n indices begin at a row (R39). -/
def planeElems (prow n w x : Nat) : List Nat :=
  let words := 16 * ((n + 1023) / 1024)
  let y := x - 16 * prow
  if 16 * prow ≤ x ∧ y < w * words then (List.range 64).map (64 * (y % words) + ·) else []

/-- A word of AB holds a bit of one of the indices that satisfy f. -/
def planeHas (prow n w : Nat) (f : Nat → Bool) : SramUnit → Bool
  | .buf .ab x => (planeElems prow n w x).any fun e => decide (e < n) && f e
  | _ => false

/-- A word of AB holds nothing but bits of those indices, and bits beyond the tensor. -/
def planeFull (prow n w : Nat) (f : Nat → Bool) : SramUnit → Bool
  | .buf .ab x => let l := planeElems prow n w x; !l.isEmpty && l.all fun e => decide (n ≤ e) || f e
  | _ => false

/-- Planes of a tile are written at the indices that satisfy f: the failing words that they meet are noted for its bank (R337). -/
def Tile.meetPlanes (t : Tile) (prow n w : Nat) (f : Nat → Bool) : Tile :=
  t.meetWrite (planeFull prow n w f) fun u => planeHas prow n w f u && !planeFull prow n w f u

/-- Planes are written at the indices that satisfy f: the failing words that they meet (R337). -/
def Chip.meetPlanes (c : Chip) (prow n w : Nat) (f : Nat → Bool) : Chip :=
  c.scrubWrites (planeFull prow n w f) fun u => planeHas prow n w f u && !planeFull prow n w f u

/-- Words of a codebook register: its head, entries that satisfy f, entries of its side table that do. -/
def cbHead (n : CReg) (u : SramUnit) : Bool := u == .cb n 160
def cbEnts (n : CReg) (f : Nat → Bool) : SramUnit → Bool
  | .cb m k => m == n && decide (k < 128) && (f (2 * k) || f (2 * k + 1))
  | _ => false
def cbMaps (n : CReg) (f : Nat → Bool) : SramUnit → Bool
  | .cb m k => m == n && decide (128 ≤ k) && decide (k < 160) && (List.range 8).any fun j => f (8 * (k - 128) + j)
  | _ => false
/-- All words of a codebook register. -/
def cbAll : List Nat := List.range 161

/-- Words of the basin: its head, its entries, its histogram, its side table. -/
def bsHead (u : SramUnit) : Bool := u == .basin 4608
def bsEnts (f : Nat → Bool) : SramUnit → Bool
  | .basin k => decide (k < 2048) && (f (2 * k) || f (2 * k + 1))
  | _ => false
def bsHists (f : Nat → Bool) : SramUnit → Bool
  | .basin k => decide (2048 ≤ k) && decide (k < 4096) && (f (2 * (k - 2048)) || f (2 * (k - 2048) + 1))
  | _ => false
def bsMaps (f : Nat → Bool) : SramUnit → Bool
  | .basin k => decide (4096 ≤ k) && decide (k < 4608) && (List.range 8).any fun j => f (8 * (k - 4096) + j)
  | _ => false

/-! ## Codebook images (R161) -/

/-- Entry size of a codebook type. -/
def cbSize : CbTy → Nat
  | .f32 | .i32 => 4
  | .f16 | .bf16 => 2
def cbTyOf (c : BitVec 2) : CbTy :=
  match c.toNat with
  | 0 => .f32
  | 1 => .f16
  | 2 => .bf16
  | _ => .i32
def cbTyCode : CbTy → BitVec 2
  | .f32 => 0
  | .f16 => 1
  | .bf16 => 2
  | .i32 => 3

/-- An image of a codebook register (R161). -/
def cbImage (c : Codebook) : List Byte :=
  let h : Word := 0#53 ++ cbTyCode c.ty ++ c.count
  toBytes 8 h ++ (List.range c.count.toNat).flatMap fun i => toBytes (cbSize c.ty) (elem 32 c.entry i)

end Sys2Proof.Machine
end

