-- ==== Sys2Proof/Machine/LoadStore.lean ====
section
/-! DEFINITION. Loads and stores at issue (R96–R108, R122): their elements, the checks of scratchpad addresses, the access that
enters a FIFO; marks and fences (R114, R115). -/

namespace Sys2Proof.Machine

/-! ## Elements (R98, R103, R104) -/

/-- An element of a word: its number, its address, its bytes from `at_` of the register. -/
structure Elem where
  no : Nat
  base : Base
  at_ : Nat
  n : Nat
deriving DecidableEq, Repr

/-- The enabled elements of sz bytes of a vector word; element e lies at `f e` (R103). -/
def memElems (p : Word) (sz : Nat) (f : Nat → Base) : List Elem :=
  (List.range (256 / sz)).filterMap fun e => if p.getLsbD (laneOf (8 * sz) e) then some ⟨e, f e, e * sz, sz⟩ else none

/-- Strided elements (R103). -/
def stridedElems (p : Word) (sz : Nat) (b : Base) (stride : Int) : List Elem := memElems p sz fun e => b.add (e * stride)

/-- The base of a gather or scatter, and lane i of its index vector (R98, R104). -/
def gatherBase (t : Tile) (base : SReg) (sp : Bool) : Base := if sp then .sp (spPlace (t.getS base) 0) else .glob (t.getS base)
def gatherIndex (x : VWord) (sgn : Bool) (sc : BitVec 2) (i : Nat) : Int :=
  toZ sgn (elem 32 x i) * 2 ^ sc.toNat

/-! ## Scratchpad checks (R14, R99, R100) -/

def SpPlace.peer (p : SpPlace) : Bool := p.hi.getLsbD 5
def SpPlace.rank (p : SpPlace) : BitVec 3 := p.hi.extractLsb' 2 3
def SpPlace.buf (p : SpPlace) : Buf := Buf.ofCode (p.hi.extractLsb' 0 2)
/-- The address as a word, for TVAL. -/
def SpPlace.word (p : SpPlace) : Word := (p.hi ++ 0#20 : BitVec 64) + BitVec.ofInt 64 p.off

/-- A rank holds a strand of the tile's own team (R100, R326). -/
def Chip.inTeam (c : Chip) (n : TileId) (r : BitVec 3) : Bool :=
  (c.tileAt n).team != 0 && (c.tileAt (tileOfRank (tileCluster n) r)).team == (c.tileAt n).team

/-- The tile that a scratchpad place names. -/
def SpPlace.tile (n : TileId) (p : SpPlace) : TileId := if p.peer then tileOfRank (tileCluster n) p.rank else n

/-- The check of R100 that n bytes at a place fail first: its order and class; `allow` is R14's permission. -/
def spFail (c : Chip) (own : TileId) (allow : Buf → Bool → Bool) (p : SpPlace) (n : Nat) (align : Nat) : Option (Nat × Nat) :=
  if p.hi.extractLsb' 6 38 ≠ 0 ∨ (!p.peer ∧ p.rank ≠ 0) then some (1, 9)
  else if !allow p.buf p.peer then some (2, 9)
  else if p.off < 0 ∨ p.buf.size < p.off + n then some (3, 9)
  else if p.off % align ≠ 0 then some (4, 5)
  else if p.peer ∧ !c.inTeam own p.rank then some (5, 10)
  else none

/-- LOAD and STORE never touch XB, and never a peer's WB (R14). -/
def lsAllow (b : Buf) (peer : Bool) : Bool := b != .xb && !(peer && b == .wb)

/-- The failure of lowest order among the elements, at the lowest-numbered element that meets it (R100): class and address. -/
def worstFail (c : Chip) (own : TileId) (els : List Elem) : Option (Nat × Word) :=
  let fs := els.filterMap fun e => match e.base with
    | .sp p => (spFail c own lsAllow p e.n e.n).map fun f => (f.1, f.2, p.word)
    | .glob _ => none
  let m := fs.foldl (fun m f => Nat.min m f.1) 6
  (fs.find? fun f => f.1 == m).map fun f => f.2

/-- Where an element lies. -/
def elemPlace (own : TileId) (b : Base) : Place :=
  match b with
  | .glob va => .glob va
  | .sp p => .buf (p.tile own) p.buf p.off.toNat

/-- The class of a word's accesses (R109): its address form fixes it. -/
def accessClass (els : List Elem) : AClass :=
  match els with
  | [] => .g
  | e :: _ =>
    match e.base with
    | .glob _ => .g
    | .sp p => if p.peer then .peer else
      match p.buf with
      | .wb => .wb
      | .ab => .ab
      | .xb | .lb => .lb

/-! ## Units (R107, R118) -/

/-- The pieces of an element, cut where a line of global memory ends (R107). -/
def cutPiece (p : Piece) : List Piece :=
  match p.place with
  | .buf .. => [p]
  | .glob va =>
    let a := va.toNat % 128
    (List.range ((a + p.n + 127) / 128)).map fun i =>
      let lo := 128 * i - a
      ⟨p.at_ + lo, .glob (va + BitVec.ofNat 64 lo), Nat.min p.n (128 * (i + 1) - a) - lo⟩

/-- A unit of one element. -/
def oneUnit (no : Nat) (p : Piece) : MUnit := ⟨no, cutPiece p, [], .todo⟩

/-- One unit for each element. -/
def elemUnits (own : TileId) (els : List Elem) : List MUnit :=
  els.map fun e => oneUnit e.no ⟨e.at_, elemPlace own e.base, e.n⟩

/-- The line of a piece of global memory. -/
def Piece.line (p : Piece) : Option Nat :=
  match p.place with
  | .glob va => some (va.toNat / 128)
  | .buf .. => none

/-- The line of the first byte of a unit. -/
def unitLine (u : MUnit) : Option Nat :=
  match u.pieces with
  | ⟨_, .glob va, _⟩ :: _ => some (va.toNat / 128)
  | _ => none

/-- Line parts of a contiguous global access: the elements whose first bytes share a line (R118). -/
def joinLines : List MUnit → List MUnit
  | [] => []
  | u :: r =>
    match joinLines r with
    | [] => [u]
    | v :: r' =>
      if (unitLine u).isSome && unitLine u == unitLine v then ⟨u.no, u.pieces ++ v.pieces, [], .todo⟩ :: r' else u :: v :: r'

/-! ## Entering a FIFO (R109, R119) -/

def Frame.fifo (f : Frame) : Fifo → List Access
  | .l => f.lf
  | .s => f.sf
def Frame.setFifo (f : Frame) (q : Fifo) (l : List Access) : Frame :=
  match q with
  | .l => { f with lf := l }
  | .s => { f with sf := l }

/-- The port and the FIFO of a queue have room (R50, R108, R119). -/
def portRes (q : Fifo) (now : Nat) (_ : QWord) (c : Chip) : Bool :=
  c.tile.frame.portOpen now (match q with | .l => .l | .s => .s)

/-- Clk a word holds its port (R108). -/
def portClk (cls : AClass) (contig : Bool) (us : List MUnit) : Nat :=
  let bytes := (us.flatMap MUnit.pieces).foldl (fun a p => a + p.n) 0
  let up (a b : Nat) := Nat.max 1 ((a + b - 1) / b)
  match cls with
  | .g => up ((us.flatMap MUnit.pieces).filterMap Piece.line).eraseDups.length 4
  | .wb => if contig then up bytes 512 else up us.length 16
  | .ab => if contig then up bytes 1024 else up us.length 16
  | .lb => if contig then up bytes 256 else up us.length 16
  | .peer => up bytes 64
  | .ring | .order => 1

def Tile.takePort (t : Tile) (q : Fifo) (upto : Nat) : Tile :=
  t.updFrame fun f => match q with
    | .l => { f with portL := upto }
    | .s => { f with portS := upto }

/-- Marks and fences at the head of what they order are complete (R114, R115); at .x the owners have acknowledged (R125). -/
def Frame.clearOrders (unacked : Nat) : (fuel : Nat) → Frame → Frame
  | 0, f => f
  | fuel + 1, f =>
    let done (w : QWord) : Bool := match w.what with
      | .ok (.mark _ .x) | .ok (.markS _ .x) | .ok (.fence _ .x) => unacked == 0
      | _ => true
    match f.sf with
    | [] => f
    | s :: sr =>
      if s.cls != .order || !done s.w then f
      else
        match s.w.what with
        | .ok (.fence _ _) => Frame.clearOrders unacked fuel { f with sf := sr }
        | _ =>
          match f.lf with
          | [] => f
          | l :: lr => if l.cls == .order && l.w.id == s.w.id then Frame.clearOrders unacked fuel { f with sf := sr, lf := lr } else f

def Tile.clearOrders (t : Tile) (k : FrameSel) : Tile :=
  t.updFrameOf k fun f => f.clearOrders t.unacked f.sf.length

/-- A fresh access of a word. -/
def newAccess (w : QWord) (cls : AClass) (us : List MUnit) (data : List Byte) (args : List Word) (regBytes fill : Nat) : Access where
  w := w
  cls := cls
  units := us
  data := data
  args := args
  got := List.replicate regBytes 0
  ue := none
  refused := none
  counted := []
  fill := fill

/-- An issued word's access enters its FIFO; one with no unit has been performed. -/
def Chip.pushAccess (c : Chip) (q : Fifo) (a : Access) : Chip :=
  c.upd fun t => (t.updFrame fun f =>
    if a.units.isEmpty && a.cls != .order && a.cls != .ring then
      (match q with | .l => { f with ans := f.ans ++ [a] } | .s => f)
    else f.setFifo q (f.fifo q ++ [a])).clearOrders t.cur

/-- The strand's words run inside a guarded phase (R311, R313). -/
def Tile.inPhase (t : Tile) : Bool := t.mode == .user && t.phase.isSome

/-- Bytes of a log record (R311). -/
def logBytes (fill : Nat) (tile : Bool) : Nat := 8 + (fill + 7) / 8 * 8 + (if tile then 8 else 0)

/-- Bytes the phase's log holds (R308, R311). -/
def logRoom (t : Tile) : Nat := (bits t.sys.phcfg 0 12).toNat * 128

/-- A record appended to the phase's log: the store is kept with its data, and the record takes its bytes of the log's rows (R308, R311), whose
layout is open: they hold free values (log entry 26). -/
def Tile.logRecord (t : Tile) (free : Nat) (p : PhaseState) (rec : Nat) (a : Access) : Tile :=
  { t.putBuf .ab ((bits t.sys.phcfg 12 12).toNat * 128 + p.fill) ((List.range rec).map (Config.logByte free)) with
    phase := some { p with log := p.log ++ [a], fill := p.fill + rec } }

/-- A global store of a guarded phase is appended to the log; a full log raises class 21 (R311). -/
def Chip.logStore (c : Chip) (w : QWord) (eng : Nat) (rec : Nat) (a : Access) : Chip :=
  match c.tile.phase with
  | none => c
  | some p =>
    if logRoom c.tile < p.fill + rec then c.issueFault w 0 21 eng 0
    else (c.upd fun t => t.logRecord c.freeCnt p rec a).tickFree

/-- The issue of a load or store with its elements: the scratchpad checks, then the access (R100, R102). `adv` is the address
register it advances (R101). -/
def Chip.issueMem (c : Chip) (now : Nat) (w : QWord) (q : Fifo) (h : Hdr) (eng : Nat) (adv : Option AReg) (contig : Bool)
    (els : List Elem) (us : List MUnit) (data : List Byte) (regBytes fill : Nat) (resv : List RegRef) : Chip :=
  let c := c.upd fun t => match adv with
    | some a => t.advance a
    | none => t
  match worstFail c c.focus els with
  | some (cls, tval) => c.issueFault w h.sba cls eng tval
  | none =>
    let cls := accessClass els
    let a := newAccess w cls us data [] regBytes fill
    let c := c.upd fun t => t.takePort q (now + portClk cls contig us)
    if q = .s ∧ c.tile.inPhase ∧ cls = .g then c.logStore w eng (logBytes fill false) a
    else if q = .s ∧ c.tile.inPhase ∧ cls = .peer then c.issueFault w 0 21 eng 0
    else (c.upd fun t => t.updFrame fun f => reserveRegs f w.id resv).pushAccess q a

/-! ## Loads -/

/-- A scalar load (R96, R102). -/
def scalarLoad (i : Instr) (addr : Addr) (sz : Nat) : State → Out :=
  qword .l i .bit0 (portRes .l) fun now w t c =>
    let els : List Elem := [⟨0, t.addrBase addr, 0, sz⟩]
    c.issueMem now w .l i.hdr 1 (addrPost addr) true els (elemUnits c.focus els) [] 8 0 []

/-- ldb (R96). -/
def execLdb (h : Hdr) (o : SLdOp) (s : State) : Out := scalarLoad (.ldb h o) o.addr 1 s
/-- ldh (R96). -/
def execLdh (h : Hdr) (o : SLdOp) (s : State) : Out := scalarLoad (.ldh h o) o.addr 2 s
/-- ldw (R96). -/
def execLdw (h : Hdr) (o : SLdOp) (s : State) : Out := scalarLoad (.ldw h o) o.addr 4 s
/-- ldd (R96). -/
def execLdd (h : Hdr) (o : DLdOp) (s : State) : Out := scalarLoad (.ldd h o) o.addr 8 s

/-- The queue register a vector load reserves (R61). -/
def vldResv : VLdDst → List RegRef
  | .v _ => []
  | .qi n => [.qi n]

/-- A vector load: its elements under the lane predicate; contiguous global ones in line parts (R103, R118). -/
def vectorLoad (i : Instr) (d : VLdDst) (adv : Option AReg) (contig : Bool) (els : Tile → QWord → List Elem) : State → Out :=
  qword .l i .lanes (portRes .l) fun now w t c =>
    let es := els t w
    let us := elemUnits c.focus es
    c.issueMem now w .l i.hdr 1 adv contig es (if contig then joinLines us else us) [] 256 0 (vldResv d)

/-- ldv (R103). -/
def execLdv (h : Hdr) (o : VLdOp) (s : State) : Out :=
  vectorLoad (.ldv h o) o.d (gAddrPost o.addr) true
    (fun t w => stridedElems (t.effPred w h) (2 ^ o.ew.toNat) (t.gBase o.addr) (2 ^ o.ew.toNat)) s
/-- ldvs (R103). -/
def execLdvs (h : Hdr) (o : VLdSOp) (s : State) : Out :=
  vectorLoad (.ldvs h o) o.d (gAddrPost o.addr) false
    (fun t w => stridedElems (t.effPred w h) (2 ^ o.ew.toNat) (t.gBase o.addr) (t.getS o.stride).toInt) s
/-- ldg (R104). -/
def execLdg (h : Hdr) (o : GLdOp) (s : State) : Out :=
  vectorLoad (.ldg h o) o.d none false
    (fun t w => memElems (t.effPred w h) 4 fun e =>
      (gatherBase t o.base o.sp).add (gatherIndex (t.getV (physV w.vrb o.idx)) o.sgn o.sc e)) s
/-- lds (R103). -/
def execLds (h : Hdr) (o : BLdOp) (s : State) : Out :=
  vectorLoad (.lds h o) o.d (spAddrPost o.addr) true
    (fun t w => stridedElems (t.effPred w h) (2 ^ o.ew.toNat) (t.spBase o.addr) (2 ^ o.ew.toNat)) s
/-- ldss (R103). -/
def execLdss (h : Hdr) (o : BLdSOp) (s : State) : Out :=
  vectorLoad (.ldss h o) o.d (spAddrPost o.addr) false
    (fun t w => stridedElems (t.effPred w h) (2 ^ o.ew.toNat) (t.spBase o.addr) (t.getS o.stride).toInt) s

/-- The packed blocks of ldmx and stmx, one unit each (R105). -/
def mxElems (t : Tile) (o : MxOp) : List Elem :=
  let sz := mxBytes (mxWidth o.fmt)
  (List.range (o.n.toNat + 1)).map fun b => ⟨b, (t.mxBase o.addr).add (b * sz), b * sz, sz⟩

/-- ldmx (R105). -/
def execLdmx (h : Hdr) (o : MxOp) (s : State) : Out :=
  qword .l (.ldmx h o) .bit0 (portRes .l) (fun now w t c =>
    let es := mxElems t o
    c.issueMem now w .l h 1 (mxAddrPost o.addr) true es (elemUnits c.focus es) [] 264 0 []) s

/-- pref (R106): it writes no register and performs no access; what the LLC then holds is no value a program reads. -/
def execPref (h : Hdr) (o : PrefOp) (s : State) : Out :=
  qword .l (.pref h o) .bit0 (portRes .l) (fun now _ _ c =>
    c.upd fun t =>
      let t := match gAddrPost o.addr with
        | some a => t.advance a
        | none => t
      t.takePort .l (now + 1)) s

/-! ## Stores -/

/-- A scalar store of the low bytes of a register (R96, R102). -/
def scalarStore (i : Instr) (addr : Addr) (sz : Nat) (x : Tile → QWord → Word) : State → Out :=
  qword .s i .bit0 (portRes .s) fun now w t c =>
    let els : List Elem := [⟨0, t.addrBase addr, 0, sz⟩]
    c.issueMem now w .s i.hdr 4 (addrPost addr) true els (elemUnits c.focus els) (toBytes sz (x t w)) 0 sz []

/-- stb (R96). -/
def execStb (h : Hdr) (o : SStOp) (s : State) : Out := scalarStore (.stb h o) o.addr 1 (fun t _ => t.getS o.d) s
/-- sth (R96). -/
def execSth (h : Hdr) (o : SStOp) (s : State) : Out := scalarStore (.sth h o) o.addr 2 (fun t _ => t.getS o.d) s
/-- stw (R96). -/
def execStw (h : Hdr) (o : SStOp) (s : State) : Out := scalarStore (.stw h o) o.addr 4 (fun t _ => t.getS o.d) s
/-- std (R96). -/
def execStd (h : Hdr) (o : DStOp) (s : State) : Out :=
  scalarStore (.std h o) o.addr 8 (fun t w => match o.d with | .s n => t.getS n | .p n => t.predOf w n) s

/-- The data of a vector store: a register, mapped, or the popped head of a queue register (R61). -/
def Tile.vstSrc (t : Tile) (w : QWord) : VStSrc → VWord
  | .v n => t.getV (physV w.vrb n)
  | .qo n => match vget t.frame.qo n with
    | e :: _ => e.val
    | [] => 0

/-- A vector store (R103). -/
def vectorStore (i : Instr) (d : VStSrc) (adv : Option AReg) (contig : Bool) (els : Tile → QWord → List Elem) : State → Out :=
  qword .s i .lanes (portRes .s) fun now w t c =>
    let es := els t w
    let us := elemUnits c.focus es
    c.issueMem now w .s i.hdr 4 adv contig es (if contig then joinLines us else us) (toBytes 256 (t.vstSrc w d)) 0 256 []

/-- stv (R103). -/
def execStv (h : Hdr) (o : VStOp) (s : State) : Out :=
  vectorStore (.stv h o) o.d (gAddrPost o.addr) true
    (fun t w => stridedElems (t.effPred w h) (2 ^ o.ew.toNat) (t.gBase o.addr) (2 ^ o.ew.toNat)) s
/-- stvs (R103). -/
def execStvs (h : Hdr) (o : VStSOp) (s : State) : Out :=
  vectorStore (.stvs h o) o.d (gAddrPost o.addr) false
    (fun t w => stridedElems (t.effPred w h) (2 ^ o.ew.toNat) (t.gBase o.addr) (t.getS o.stride).toInt) s
/-- stg (R104). -/
def execStg (h : Hdr) (o : GStOp) (s : State) : Out :=
  vectorStore (.stg h o) o.d none false
    (fun t w => memElems (t.effPred w h) 4 fun e =>
      (gatherBase t o.base o.sp).add (gatherIndex (t.getV (physV w.vrb o.idx)) o.sgn o.sc e)) s
/-- sts (R103). -/
def execSts (h : Hdr) (o : BStOp) (s : State) : Out :=
  vectorStore (.sts h o) o.d (spAddrPost o.addr) true
    (fun t w => stridedElems (t.effPred w h) (2 ^ o.ew.toNat) (t.spBase o.addr) (2 ^ o.ew.toNat)) s
/-- stss (R103). -/
def execStss (h : Hdr) (o : BStSOp) (s : State) : Out :=
  vectorStore (.stss h o) o.d (spAddrPost o.addr) false
    (fun t w => stridedElems (t.effPred w h) (2 ^ o.ew.toNat) (t.spBase o.addr) (t.getS o.stride).toInt) s

/-- Block b of a register's planes and scales, packed (R32, R105). -/
def mxPack (fmt : Mx) (v : VWord) (scales : Word) (b : Nat) : List Byte :=
  let w := mxWidth fmt
  toBytes (4 * w) (mxOfPlanes w fun k => v.extractLsb' (8 * (64 * k + 8 * b)) 64) ++ [elem 8 scales b]

/-- stmx (R105). -/
def execStmx (h : Hdr) (o : MxOp) (s : State) : Out :=
  qword .s (.stmx h o) .bit0 (portRes .s) (fun now w t c =>
    let es := mxElems t o
    let data := (List.range (o.n.toNat + 1)).flatMap (mxPack o.fmt (t.getV (physV w.vrb o.d)) (t.getS o.scale))
    c.issueMem now w .s h 4 (mxAddrPost o.addr) true es (elemUnits c.focus es) data 0 data.length []) s

/-! ## Marks and fences (R114–R116): they keep their order at every scope (log entry 15) -/

/-- The part of a mark at the head of one queue enters its FIFO. -/
def markPart (i : Instr) (q : Queue) (f : Fifo) : Nat → Chip → Chip :=
  runQ q i .always (portRes f) fun _ w _ c => (c.pushAccess f (newAccess w .order [] [] [] 0 0), none)

/-- Both parts of a mark, each if it can. -/
def markWord (i : Instr) (s : State) : Out := s.lift fun now c => markPart i .s .s now (markPart i .l .l now c)

/-- mark (R114). -/
def execMark (h : Hdr) (sc : Scope) (s : State) : Out := markWord (.mark h sc) s
/-- mark in its STORE encoding (R48). -/
def execMarkS (h : Hdr) (sc : Scope) (s : State) : Out := markWord (.markS h sc) s
/-- fence (R115). -/
def execFence (h : Hdr) (sc : Scope) (s : State) : Out :=
  qword .s (.fence h sc) .bit0 (portRes .s) (fun _ w _ c => c.pushAccess .s (newAccess w .order [] [] [] 0 0)) s

end Sys2Proof.Machine
end

