-- ==== Sys2Proof/Machine/TileOps.lean ====
section
/-! DEFINITION. Tile loads and stores at issue (R208–R211), and KV lookup at issue (R238). -/

namespace Sys2Proof.Machine

/-! ## Shapes and footprints (R209, R210) -/

/-- A tile's shape (R209). -/
structure TileShape where
  rows : Nat
  rb : Nat
  stride : Int
deriving DecidableEq, Repr

def tileShape (x : Word) : Option TileShape :=
  let rows := (bits x 43 9).toNat
  let rb := (bits x 32 11).toNat
  if bits x 52 12 = 0 ∧ 1 ≤ rows ∧ rows ≤ 256 ∧ 1 ≤ rb ∧ rb ≤ 1024 then some ⟨rows, rb, (bits x 0 32).toInt⟩ else none

/-- Address of row r. -/
def TileShape.row (s : TileShape) (base : Word) (r : Nat) : Word := base + BitVec.ofInt 64 (r * s.stride)

/-- The aligned blocks of a size that any row touches, each once. -/
def TileShape.blocks (s : TileShape) (base : Word) (size : Nat) : List Nat :=
  ((List.range s.rows).flatMap fun r =>
    let a := (s.row base r).toNat
    (List.range ((a + s.rb - 1) / size - a / size + 1)).map fun i => a / size + i).eraseDups

/-- The footprint passes R210 step 2. -/
def TileShape.fits (s : TileShape) (base : Word) : Bool :=
  decide ((s.blocks base 128).length ≤ 128) && decide ((s.blocks base 65536).length ≤ 4) && decide (s.rows * s.rb ≤ 4096)

/-- Registers of the group (R210 step 3). -/
def TileShape.regs (s : TileShape) : Nat := (s.rows * s.rb + 255) / 256

/-- The group lies within one half of the register file. -/
def groupOk (d : VReg) (n : Nat) : Bool := d.toNat % 32 + n ≤ 32

/-- Register j of the group, mapped (R59). -/
def groupReg (vrb : BitVec 5) (d : VReg) (j : Nat) : VReg := physV vrb (d + BitVec.ofNat 6 j)

/-- The members whose memory holds the pages of a footprint, of the pages whose entries are found (log entry 19). -/
def Chip.footMembers (c : Chip) (eng : Nat) (pages : List Nat) : Chip × List (BitVec 8) :=
  pages.foldl (fun (x : Chip × List (BitVec 8)) g =>
    if 2 ^ 32 ≤ g then x
    else
      let (c, r) := x.1.translate (.walker x.1.focus) (causeCode 8 eng) (g * 65536)
      match r with
      | .ok (_, p) => let m := (pteBase p).extractLsb' 48 8; (c, if x.2.contains m then x.2 else m :: x.2)
      | .error _ => (c, x.2)) (c, [])

/-- The checks of R210 at issue: a class, or the shape. -/
def tileCheck (o : TileOp) (eng : Nat) (t : Tile) (c : Chip) : Chip × Except Nat (TileShape × Word) :=
  match tileShape (t.getS o.shape) with
  | none => (c, .error 2)
  | some s =>
    let base := match t.gBase o.addr with
      | .glob va => va
      | .sp p => p.word
    if !s.fits base then (c, .error 11)
    else
      let (c, ms) := c.footMembers eng (s.blocks base 65536)
      (c, if 1 < ms.length then .error 11 else if !groupOk o.d s.regs then .error 2 else .ok (s, base))

/-- The one unit of a tile operation: its rows (R212). -/
def tileUnit (s : TileShape) (base : Word) : MUnit :=
  ⟨0, (List.range s.rows).map fun r => ⟨r * s.rb, .glob (s.row base r), s.rb⟩, [], .todo⟩

/-- The address register of a tile operation advanced. -/
def Chip.advanceG (c : Chip) (a : GAddr) : Chip :=
  c.upd fun t => match gAddrPost a with
    | some r => t.advance r
    | none => t

/-- ldt (R208–R211). -/
def execLdt (h : Hdr) (o : TileOp) (s : State) : Out :=
  qword .l (.ldt h o) .bit0 (portRes .l) (fun now w t c =>
    let c := c.advanceG o.addr
    match tileCheck o 1 t c with
    | (c, .error cls) => c.issueFault w h.sba cls 1 0
    | (c, .ok (sh, base)) =>
      let us := [tileUnit sh base]
      (c.upd fun t => t.takePort .l (now + portClk .g true us)).pushAccess .l (newAccess w .g us [] [] (sh.regs * 256) 0)) s

/-- stt (R208–R211): every register of its group is read at its issue (R337, R338). -/
def execStt (h : Hdr) (o : TileOp) (s : State) : Out :=
  unitWord .s (.stt h o) .bit0 (portRes .s) (fun now w t c =>
    let c := c.advanceG o.addr
    match tileCheck o 4 t c with
    | (c, .error cls) => (c.issueFault w h.sba cls 4 0, none)
    | (c, .ok (sh, base)) =>
      let us := [tileUnit sh base]
      let group := (List.range sh.regs).map (groupReg w.vrb o.d)
      let (c, ue) := c.unitReads 4 none fun u => group.any fun n => u.inReg (.v n)
      let c := c.upd fun t => t.updFrame fun f => { f with reads := f.reads ++ group.map .v }
      let data := group.flatMap fun n => toBytes 256 (c.tile.getV n)
      let a := newAccess w .g us data [] 0 (sh.rows * sh.rb)
      let c := c.upd fun t => t.takePort .s (now + portClk .g true us)
      (if c.tile.inPhase then c.logStore w 4 (logBytes a.fill true) a else c.pushAccess .s a, ue)) s

/-- kvlook at issue (R238): address bits 63:48 are checked here (R240); args hold the table in hand, the level, the SLOTLOG of the first
table, the position, the parent, the page count, and whether its header has been read, and the first table. -/
def execKvlook (h : Hdr) (o : RRR) (s : State) : Out :=
  qword .l (.kvlook h o) .bit0 (portRes .l) (fun now w t c =>
    if (t.getS o.a).extractLsb' 48 16 ≠ 0 then c.issueFault w h.sba 7 1 (t.getS o.a)
    else
      let us : List MUnit := [⟨0, [⟨0, .glob (t.getS o.a), 16⟩], [], .todo⟩]
      (c.upd fun t => t.takePort .l (now + 1)).pushAccess .l
        (newAccess w .g us [] [t.getS o.a, 1, 0, t.getS o.b, 0, 0, 0, t.getS o.a] 8 0)) s

end Sys2Proof.Machine
end

