-- ==== Sys2Proof/Machine/Flags.lean ====
section
/-! DEFINITION. What vector words compute per element, with the flags of each (R24–R30, R41–R44, R127, R132–R139), as bit
patterns of the element's width. -/

namespace Sys2Proof.Machine

/-- Element e of width w, as a number. -/
def elemN (w : Nat) (x : VWord) (e : Nat) : Nat := (x.extractLsb' (w * e) w).toNat

/-- The flat value of a list of elements of width w, element 0 first. -/
def packN (w : Nat) (l : List Nat) : VWord := BitVec.ofNat 2048 (l.foldr (fun v acc => v % 2 ^ w + acc * 2 ^ w) 0)

/-- The integer of a pattern in a type's signedness. -/
def intOf (ty : Ty) (x : Nat) : Int := toZ (tySigned ty) (BitVec.ofNat (tyWidth ty) x)

/-- The pattern of an integer, reduced once (R24). -/
def intBits (ty : Ty) (sat : Bool) (z : Int) : Nat := (intFinish (tySigned ty) (tyWidth ty) sat z).toNat

/-- The immediate of R127 as an element's pattern. -/
def immBits (ty : Ty) (i : BitVec 8) : Nat :=
  if tyFloat ty then ((fmtOf ty).ofInt fRNE i.toInt).bits else (BitVec.ofInt (tyWidth ty) (immInt ty i)).toNat

/-- Element e of operand B (R127). -/
def Tile.bElem (t : Tile) (w : QWord) (ty : Ty) (b : BSrc) (e : Nat) : Nat :=
  match b with
  | .imm i => immBits ty i
  | .src a => elemN (tyWidth ty) (t.vsrc w a) e

/-! ## Floating words (R132–R137) -/

def FMode.of (rnd : Rnd) (sat : Bool) (w : QWord) : FMode := ⟨rnd, sat, !w.imode⟩

/-- A function of two or three values on patterns: exposed mode reads subnormals as zeros (R30). -/
def fop1 (ty : Ty) (md : FMode) (f : Fmt → FMode → FVal → FRes) (a : Nat) : FRes :=
  f (fmtOf ty) md ((fmtOf ty).val md.flush a)
def fop2 (ty : Ty) (md : FMode) (f : Fmt → FMode → FVal → FVal → FRes) (a b : Nat) : FRes :=
  f (fmtOf ty) md ((fmtOf ty).val md.flush a) ((fmtOf ty).val md.flush b)
def fop3 (ty : Ty) (md : FMode) (f : Fmt → FMode → FVal → FVal → FVal → FRes) (a b c : Nat) : FRes :=
  f (fmtOf ty) md ((fmtOf ty).val md.flush a) ((fmtOf ty).val md.flush b) ((fmtOf ty).val md.flush c)

/-- a − b. -/
def fSub (f : Fmt) (md : FMode) (a b : FVal) : FRes := f.add md a b.negate
/-- a × b − c. -/
def fMs (f : Fmt) (md : FMode) (a b c : FVal) : FRes := f.fma md a b c.negate
/-- c − a × b. -/
def fNma (f : Fmt) (md : FMode) (a b c : FVal) : FRes := f.fma md a.negate b c

/-- fabs, fneg and fcpys edit the sign bit (R134). -/
def fabsBits (ty : Ty) (a : Nat) : Nat := a % 2 ^ (tyWidth ty - 1)
def fnegBits (ty : Ty) (a : Nat) : Nat := a ^^^ 2 ^ (tyWidth ty - 1)
def fcpysBits (ty : Ty) (a b : Nat) : Nat := a % 2 ^ (tyWidth ty - 1) + b / 2 ^ (tyWidth ty - 1) * 2 ^ (tyWidth ty - 1)

/-- fcmp of two patterns: the bit, and invalid for a signalling NaN (R136). -/
def fcmpBits (ty : Ty) (flush : Bool) (k : FCond) (a b : Nat) : Bool × FFlags :=
  let x := (fmtOf ty).val flush a
  let y := (fmtOf ty).val flush b
  (fcmpHolds k x y, flIf (x.isSnan || y.isSnan) flNV)

def icmpBits (ty : Ty) (k : ICond) (a b : Nat) : Bool :=
  let x := intOf ty a
  let y := intOf ty b
  match k with
  | .eq => x == y
  | .ne => x != y
  | .lt => decide (x < y)
  | .le => decide (x ≤ y)
  | .gt => decide (y < x)
  | .ge => decide (y ≤ x)

/-- A conversion from a floating type (R138). -/
def fcvtBits (src dst : Ty) (md : FMode) (a : Nat) : FRes :=
  let v := (fmtOf src).val md.flush a
  if tyFloat dst then (fmtOf dst).finish md v
  else
    let r := floatToInt (tySigned dst) (tyWidth dst) md.rnd v
    ⟨r.1.toNat, r.2⟩
/-- A conversion from an integer type (R138). -/
def icvtBits (src dst : Ty) (md : FMode) (a : Nat) : FRes := (fmtOf dst).ofInt md (intOf src a)

/-! ## Integer words (R139) -/

def imulhBits (ty : Ty) (a b : Nat) : Nat := (BitVec.ofInt (tyWidth ty) (intOf ty a * intOf ty b / 2 ^ tyWidth ty)).toNat
def iminBits (ty : Ty) (a b : Nat) : Nat := if intOf ty b < intOf ty a then b else a
def imaxBits (ty : Ty) (a b : Nat) : Nat := if intOf ty a < intOf ty b then b else a
def iabsBits (ty : Ty) (sat : Bool) (a : Nat) : Nat := intBits ty sat (intOf ty a).natAbs
def inotBits (ty : Ty) (a : Nat) : Nat := 2 ^ tyWidth ty - 1 - a
/-- A shift of the whole element amount: the width or more clears or fills (R139). -/
def ishlBits (ty : Ty) (a k : Nat) : Nat := if tyWidth ty ≤ k then 0 else a * 2 ^ k % 2 ^ tyWidth ty
def ishrBits (ty : Ty) (a k : Nat) : Nat := if tyWidth ty ≤ k then 0 else a / 2 ^ k
def isarBits (ty : Ty) (a k : Nat) : Nat :=
  let z := (BitVec.ofNat (tyWidth ty) a).toInt
  (BitVec.ofInt (tyWidth ty) (if tyWidth ty ≤ k then (if z < 0 then -1 else 0) else z / 2 ^ k)).toNat

/-! ## Order keys (R43, R44) -/

def okeyBits (ty : Ty) (x : Nat) : Nat :=
  let w := tyWidth ty
  if tyFloat ty then
    if ((fmtOf ty).val false x).isNan then 0
    else if x.testBit (w - 1) then 2 ^ w - 1 - x else x ^^^ 2 ^ (w - 1)
  else if tySigned ty then x ^^^ 2 ^ (w - 1) else x

def okeyiBits (ty : Ty) (k : Nat) : Nat :=
  let w := tyWidth ty
  if tyFloat ty then
    let x := if k.testBit (w - 1) then k ^^^ 2 ^ (w - 1) else 2 ^ w - 1 - k
    if ((fmtOf ty).val false x).isNan then (fmtOf ty).nan else x
  else if tySigned ty then k ^^^ 2 ^ (w - 1) else k

/-! ## Reductions and scans (R41, R42) -/

/-- One level of the tree: t[i] with t[i + h], absent terms taking no part. -/
def zipComb (comb : Nat → Nat → FRes) : List (Option Nat) → List (Option Nat) → List (Option Nat) × FFlags
  | a :: as, b :: bs =>
    let (r, f) : Option Nat × FFlags := match a, b with
      | some x, some y => let q := comb x y; (some q.bits, q.fl)
      | none, some y => (some y, 0)
      | x, none => (x, 0)
    let (rs, fs) := zipComb comb as bs
    (r :: rs, f ||| fs)
  | _, _ => ([], 0)

/-- TreeReduce (R41); fuel bounds the levels. -/
def treeReduce (comb : Nat → Nat → FRes) : (fuel : Nat) → List (Option Nat) → Option Nat × FFlags
  | 0, l => (l.headD none, 0)
  | fuel + 1, l =>
    let h := l.length / 2
    if h = 0 then (l.headD none, 0)
    else
      let (r, f) := zipComb comb (l.take h) (l.drop h)
      let (x, g) := treeReduce comb fuel r
      (x, f ||| g)

/-- A term combined with nothing (R42): taken as it is; a subnormal is flushed in exposed mode, a NaN is made canonical. -/
def loneTerm (ty : Ty) (flush : Bool) (x : Nat) : FRes :=
  if tyFloat ty then
    let v := (fmtOf ty).val false x
    if v.isNan then ⟨(fmtOf ty).nan, flIf v.isSnan flNV⟩ else ⟨(fmtOf ty).flushed flush x, 0⟩
  else ⟨x, 0⟩

/-- Kinds of reduction and scan. -/
inductive RedK where
  | add | max | min
deriving DecidableEq, Repr

/-- SAT at a step of an extremal scan: an infinite result becomes the largest finite of its sign (R28, R147). -/
def satInf (ty : Ty) (md : FMode) (r : FRes) : FRes :=
  let f := fmtOf ty
  if r.bits = f.inf false then ⟨f.mkInf md false, r.fl⟩ else if r.bits = f.inf true then ⟨f.mkInf md true, r.fl⟩ else r

/-- One combination (R42). Integer sums are not combined here. -/
def combine (ty : Ty) (k : RedK) (md : FMode) (x y : Nat) : FRes :=
  match k with
  | .add => if tyFloat ty then fop2 ty md Fmt.add x y else ⟨intBits ty false (intOf ty x + intOf ty y), 0⟩
  | .max => if tyFloat ty then satInf ty md ((fmtOf ty).minMax true md.flush x y) else ⟨imaxBits ty x y, 0⟩
  | .min => if tyFloat ty then satInf ty md ((fmtOf ty).minMax false md.flush x y) else ⟨iminBits ty x y, 0⟩

/-- The empty result (R42). -/
def emptyResult (ty : Ty) (k : RedK) : Nat :=
  match k with
  | .add => 0
  | .max => if tyFloat ty then (fmtOf ty).inf true else (BitVec.ofInt (tyWidth ty) (intMin (tySigned ty) (tyWidth ty))).toNat
  | .min => if tyFloat ty then (fmtOf ty).inf false else (BitVec.ofInt (tyWidth ty) (intMax (tySigned ty) (tyWidth ty))).toNat

/-- A reduction of the present terms (R42, R146). -/
def reduceTerms (ty : Ty) (k : RedK) (md : FMode) (l : List (Option Nat)) : FRes :=
  match l.filterMap id with
  | [] => ⟨emptyResult ty k, 0⟩
  | [x] => if k == .add && !tyFloat ty then ⟨intBits ty md.sat (intOf ty x), 0⟩ else loneTerm ty md.flush x
  | xs =>
    if k == .add && !tyFloat ty then ⟨intBits ty md.sat (xs.foldl (fun a x => a + intOf ty x) 0), 0⟩
    else
      let (r, f) := treeReduce (combine ty k md) 9 l
      ⟨r.getD (emptyResult ty k), f⟩

/-- Inclusive prefixes of a floating or extremal scan, with the flags of each step (R42, R147). -/
def scanTerms (ty : Ty) (k : RedK) (md : FMode) : (prev : Option Nat) → List (Option Nat) → List Nat × FFlags
  | _, [] => ([], 0)
  | prev, none :: r =>
    let (l, f) := scanTerms ty k md prev r
    (prev.getD (emptyResult ty k) :: l, f)
  | none, some x :: r =>
    let q := loneTerm ty md.flush x
    let (l, f) := scanTerms ty k md (some q.bits) r
    (q.bits :: l, q.fl ||| f)
  | some p, some x :: r =>
    let q := combine ty k md x p
    let (l, f) := scanTerms ty k md (some q.bits) r
    (q.bits :: l, q.fl ||| f)

/-- Exact integer prefix sums, each reduced once (R42). -/
def scanInts (ty : Ty) (sat : Bool) : (sum : Int) → List (Option Nat) → List Nat
  | _, [] => []
  | sum, x :: r =>
    let s := match x with
      | some y => sum + intOf ty y
      | none => sum
    intBits ty sat s :: scanInts ty sat s r

/-! ## topk, vhist, digit (R148, R150, R151) -/

/-- (key, element) pairs of the present elements, NaN elements left out. -/
def topkPairs (ty : Ty) (l : List (Option Nat)) : List (Nat × Nat) :=
  l.zipIdx.filterMap fun (x, e) => match x with
    | none => none
    | some y => if tyFloat ty && ((fmtOf ty).val false y).isNan then none else some (okeyBits ty y, e)

/-- The pair behind every pair of a key no smaller and an earlier element. -/
def insertTop (x : Nat × Nat) : List (Nat × Nat) → List (Nat × Nat)
  | [] => [x]
  | y :: r => if y.1 < x.1 || (y.1 == x.1 && x.2 < y.2) then x :: y :: r else y :: insertTop x r

def sortTop (l : List (Nat × Nat)) : List (Nat × Nat) := l.foldl (fun acc x => insertTop x acc) []

/-- Lanes of topk's two destinations (R148). -/
def topkLanes (k : Nat) (m : List (Nat × Nat)) : List Nat × List Nat :=
  ((List.range 64).map fun j => match m[j]? with
      | some p => if j < k then p.2 else 0xFFFFFFFF
      | none => 0xFFFFFFFF,
   (List.range 64).map fun j => match m[j]? with
      | some p => if j < k then p.1 else 0
      | none => 0)

/-- Lanes of vhist (R151). -/
def vhistLanes (g : Nat) (old : List Nat) (xs : List Nat) : List Nat :=
  xs.foldl (fun h x => if x ≤ 255 && x / 64 == g then setAt h (x % 64) ((h.getD (x % 64) 0 + 1) % 2 ^ 32) else h) old

/-- One element of digit (R150). -/
def digitBits (w pos len pre x : Nat) : Nat :=
  let h := pos + len
  if h = w || x / 2 ^ h == pre % 2 ^ (w - h) then x / 2 ^ pos % 2 ^ len else 0x100

end Sys2Proof.Machine
end

