-- ==== Sys2Proof/Machine/Vector.lean ====
section
/-! DEFINITION. Element-wise vector words: floating arithmetic, compares, conversions, integer arithmetic (R126–R139). -/

namespace Sys2Proof.Machine

/-- The enabled elements of an element-wise word: the bits it writes, their values, their flags (R128). -/
structure Elems where
  mask : VWord
  val : VWord
  fl : FFlags

def elemsOf (ty : Ty) (p : Word) (f : Nat → FRes) : Elems :=
  let w := tyWidth ty
  let n := tyCount ty
  let rs := (List.range n).map fun e => if p.getLsbD (laneOf w e) then f e else ⟨0, 0⟩
  ⟨elemMask w n p, packN w (rs.map (·.bits)), rs.foldl (fun a r => a ||| r.fl) 0⟩

/-- A vector destination's write: enabled bits of a register, or a whole entry whose disabled elements are zero (R128). -/
def dstWrite (d : VDst) (w : QWord) (mask val : VWord) : RegWrite :=
  match d with
  | .v n => .v (physV w.vrb n) mask val
  | .qo n => .qo n w.id val

/-- An element-wise word on elements of a type, of latency `lat` and occupancy `occ` (R128, R129). -/
def elemWord (i : Instr) (d : VDst) (ty : Ty) (lat occ : Nat) (f : Tile → QWord → Nat → FRes) : State → Out :=
  qword .c i .lanes vecRes fun now w t c =>
    let r := elemsOf ty (t.effPred w i.hdr) (f t w)
    (c.takeV now occ).result now lat w i.hdr.sba [dstWrite d w r.mask r.val] r.fl

def fBinWord (i : Instr) (o : FBin) (lat occ : Nat) (f : Fmt → FMode → FVal → FVal → FRes) : State → Out :=
  elemWord i o.d o.ty lat occ fun t w e =>
    fop2 o.ty (.of o.rnd o.sat w) f (elemN (tyWidth o.ty) (t.vsrc w o.a) e) (t.bElem w o.ty o.b e)
def fTernWord (i : Instr) (o : FTern) (f : Fmt → FMode → FVal → FVal → FVal → FRes) : State → Out :=
  elemWord i o.d o.ty 4 1 fun t w e =>
    fop3 o.ty (.of o.rnd o.sat w) f (elemN (tyWidth o.ty) (t.vsrc w o.a) e) (t.bElem w o.ty o.b e)
      (elemN (tyWidth o.ty) (t.vsrc w o.c) e)
def fUnWord (i : Instr) (o : FUn) (lat occ : Nat) (f : Fmt → FMode → FVal → FRes) : State → Out :=
  elemWord i o.d o.ty lat occ fun t w e => fop1 o.ty (.of o.rnd o.sat w) f (elemN (tyWidth o.ty) (t.vsrc w o.a) e)
/-- Two-operand words on patterns. -/
def vBinWord (i : Instr) (o : VBin) (lat : Nat) (f : Bool → Nat → Nat → FRes) : State → Out :=
  elemWord i o.d o.ty lat 1 fun t w e => f (!w.imode) (elemN (tyWidth o.ty) (t.vsrc w o.a) e) (t.bElem w o.ty o.b e)
def vUnWord (i : Instr) (o : VUn) (lat : Nat) (f : Nat → Nat) : State → Out :=
  elemWord i o.d o.ty lat 1 fun t w e => ⟨f (elemN (tyWidth o.ty) (t.vsrc w o.a) e), 0⟩
/-- Latency of the integer words that take 1 clk, 2 on 64-bit types (R131). -/
def ilat (ty : Ty) : Nat := if tyWidth ty = 64 then 2 else 1
def iBinSatWord (i : Instr) (o : VBinSat) (lat : Nat) (f : Int → Int → Int) : State → Out :=
  elemWord i o.d o.ty lat 1 fun t w e =>
    ⟨intBits o.ty o.sat (f (intOf o.ty (elemN (tyWidth o.ty) (t.vsrc w o.a) e)) (intOf o.ty (t.bElem w o.ty o.b e))), 0⟩
def iBinWord (i : Instr) (o : VBin) (lat : Nat) (f : Nat → Nat → Nat) : State → Out :=
  vBinWord i o lat fun _ a b => ⟨f a b, 0⟩

/-- A shift amount: the whole element, or the immediate zero-extended (R139). -/
def shiftAmt (t : Tile) (w : QWord) (ty : Ty) (b : BSrc) (e : Nat) : Nat :=
  match b with
  | .imm i => i.toNat
  | .src a => elemN (tyWidth ty) (t.vsrc w a) e
def shiftVWord (i : Instr) (o : VBin) (f : Nat → Nat → Nat) : State → Out :=
  elemWord i o.d o.ty (ilat o.ty) 1 fun t w e =>
    ⟨f (elemN (tyWidth o.ty) (t.vsrc w o.a) e) (shiftAmt t w o.ty o.b e), 0⟩

/-! ## Floating arithmetic (R132–R135) -/

/-- fadd (R132). -/
def execFadd (h : Hdr) (o : FBin) (s : State) : Out := fBinWord (.fadd h o) o 4 1 Fmt.add s
/-- fsub (R132). -/
def execFsub (h : Hdr) (o : FBin) (s : State) : Out := fBinWord (.fsub h o) o 4 1 fSub s
/-- fmul (R132). -/
def execFmul (h : Hdr) (o : FBin) (s : State) : Out := fBinWord (.fmul h o) o 4 1 Fmt.mul s
/-- fdiv (R132). -/
def execFdiv (h : Hdr) (o : FBin) (s : State) : Out := fBinWord (.fdiv h o) o 14 4 Fmt.div s
/-- fma (R132). -/
def execFma (h : Hdr) (o : FTern) (s : State) : Out := fTernWord (.fma h o) o Fmt.fma s
/-- fms (R132). -/
def execFms (h : Hdr) (o : FTern) (s : State) : Out := fTernWord (.fms h o) o fMs s
/-- fnma (R132). -/
def execFnma (h : Hdr) (o : FTern) (s : State) : Out := fTernWord (.fnma h o) o fNma s
/-- The exponent of fscalb: a signed element, or the sign-extended immediate (R132). -/
def scalbAmt (t : Tile) (w : QWord) (ty : Ty) (b : BSrc) (e : Nat) : Int :=
  match b with
  | .imm i => i.toInt
  | .src a => (BitVec.ofNat (tyWidth ty) (elemN (tyWidth ty) (t.vsrc w a) e)).toInt
/-- fscalb (R132). -/
def execFscalb (h : Hdr) (o : FBin) (s : State) : Out :=
  elemWord (.fscalb h o) o.d o.ty 4 1 (fun t w e =>
    fop1 o.ty (.of o.rnd o.sat w) (fun f md a => f.scalb md a (scalbAmt t w o.ty o.b e))
      (elemN (tyWidth o.ty) (t.vsrc w o.a) e)) s
/-- fsqrt (R135). -/
def execFsqrt (h : Hdr) (o : FUn) (s : State) : Out := fUnWord (.fsqrt h o) o 14 4 Fmt.sqrt s
/-- frcp (R135). -/
def execFrcp (h : Hdr) (o : FUn) (s : State) : Out := fUnWord (.frcp h o) o 8 2 Fmt.rcp s
/-- frsq (R135). -/
def execFrsq (h : Hdr) (o : FUn) (s : State) : Out := fUnWord (.frsq h o) o 8 2 Fmt.rsq s
/-- fexp2 (R135). -/
def execFexp2 (h : Hdr) (o : FUn) (s : State) : Out := fUnWord (.fexp2 h o) o 10 2 Fmt.exp2 s
/-- flog2 (R135). -/
def execFlog2 (h : Hdr) (o : FUn) (s : State) : Out := fUnWord (.flog2 h o) o 10 2 Fmt.log2 s
/-- fmin (R133). -/
def execFmin (h : Hdr) (o : VBin) (s : State) : Out :=
  vBinWord (.fmin h o) o 2 (fun fl a b => (fmtOf o.ty).minMax false fl a b) s
/-- fmax (R133). -/
def execFmax (h : Hdr) (o : VBin) (s : State) : Out :=
  vBinWord (.fmax h o) o 2 (fun fl a b => (fmtOf o.ty).minMax true fl a b) s
/-- fcpys (R134). -/
def execFcpys (h : Hdr) (o : VBin) (s : State) : Out := vBinWord (.fcpys h o) o 2 (fun _ a b => ⟨fcpysBits o.ty a b, 0⟩) s
/-- fabs (R134). -/
def execFabs (h : Hdr) (o : VUn) (s : State) : Out := vUnWord (.fabs h o) o 2 (fabsBits o.ty) s
/-- fneg (R134). -/
def execFneg (h : Hdr) (o : VUn) (s : State) : Out := vUnWord (.fneg h o) o 2 (fnegBits o.ty) s
/-- fclass (R137). -/
def execFclass (h : Hdr) (o : VUn) (s : State) : Out := vUnWord (.fclass h o) o 2 (fun a => 2 ^ (fmtOf o.ty).classBit a) s

/-! ## Compares (R136) -/

/-- The element that lane i compares. -/
def cmpElem (ty : Ty) (sel : BitVec 2) (i : Nat) : Nat :=
  if tyWidth ty = 64 then i / 2 else i * (32 / tyWidth ty) + sel.toNat

/-- A compare: a bit per enabled lane; a 64-bit element's two lanes are judged each by its own predicate bit (log entry 75). -/
def cmpWord (i : Instr) (d : PReg) (a : VSrc) (b : BSrc) (ty : Ty) (sel : BitVec 2) (lat : Nat)
    (f : Bool → Nat → Nat → Bool × FFlags) : State → Out :=
  qword .c i .lanes vecRes fun now w t c =>
    let p := t.effPred w i.hdr
    let rs := (List.range 64).map fun k =>
      if p.getLsbD k then f (!w.imode) (elemN (tyWidth ty) (t.vsrc w a) (cmpElem ty sel k)) (t.bElem w ty b (cmpElem ty sel k))
      else (false, 0)
    let x := BitVec.ofNat 64 (rs.foldr (fun r acc => (if r.1 then 1 else 0) + 2 * acc) 0)
    (c.takeV now 1).result now lat w i.hdr.sba [.p d p x] (rs.foldl (fun a r => a ||| r.2) 0)

/-- fcmp (R136). -/
def execFcmp (h : Hdr) (o : FCmpOp) (s : State) : Out :=
  cmpWord (.fcmp h o) o.d o.a o.b o.ty o.sel 2 (fun fl x y => fcmpBits o.ty fl o.cond x y) s
/-- icmp (R136). -/
def execIcmp (h : Hdr) (o : ICmpOp) (s : State) : Out :=
  cmpWord (.icmp h o) o.d o.a o.b o.ty o.sel (ilat o.ty) (fun _ x y => (icmpBits o.ty o.cond x y, 0)) s

/-! ## Conversions (R138) -/

/-- A conversion pairs wide element j with narrow element j·ratio + H; narrow elements of an enabled lane that are not of
that form are kept as read at issue. -/
def cvtWord (i : Instr) (o : CvtOp) (f : FMode → Nat → FRes) : State → Out :=
  qword .c i .lanes vecRes fun now w t c =>
    let p := t.effPred w i.hdr
    let ws := tyWidth o.sty
    let wd := tyWidth o.ty
    let wide := Nat.max ws wd
    let ratio := wide / Nat.min ws wd
    let k := o.h.toNat
    let md := FMode.of o.rnd o.sat w
    let x := t.vsrc w o.a
    let old : VWord := match o.d with
      | .v n => t.getV (physV w.vrb n)
      | .qo _ => 0
    let rs := (List.range (2048 / wide)).map fun j =>
      if p.getLsbD (laneOf wide j) then
        let r := f md (elemN ws x (if ws < wd then j * ratio + k else j))
        if wd < ws then
          -- the wide element's place, with narrow element H replaced
          let keep := elemN wide old j
          let lo := keep % 2 ^ (wd * k)
          let hi := keep / 2 ^ (wd * (k + 1))
          (⟨lo + r.bits % 2 ^ wd * 2 ^ (wd * k) + hi * 2 ^ (wd * (k + 1)), r.fl⟩ : FRes)
        else r
      else ⟨0, 0⟩
    (c.takeV now 1).result now 3 w i.hdr.sba
      [dstWrite o.d w (elemMask wide (2048 / wide) p) (packN wide (rs.map (·.bits)))] (rs.foldl (fun a r => a ||| r.fl) 0)

/-- fcvt (R138). -/
def execFcvt (h : Hdr) (o : CvtOp) (s : State) : Out := cvtWord (.fcvt h o) o (fun md a => fcvtBits o.sty o.ty md a) s
/-- icvt (R138). -/
def execIcvt (h : Hdr) (o : CvtOp) (s : State) : Out := cvtWord (.icvt h o) o (fun md a => icvtBits o.sty o.ty md a) s

/-! ## Integer arithmetic (R139) -/

/-- iadd (R139). -/
def execIadd (h : Hdr) (o : VBinSat) (s : State) : Out := iBinSatWord (.iadd h o) o (ilat o.ty) (· + ·) s
/-- isub (R139). -/
def execIsub (h : Hdr) (o : VBinSat) (s : State) : Out := iBinSatWord (.isub h o) o (ilat o.ty) (· - ·) s
/-- imul (R139). -/
def execImul (h : Hdr) (o : VBinSat) (s : State) : Out := iBinSatWord (.imul h o) o 3 (· * ·) s
/-- imad (R139). -/
def execImad (h : Hdr) (o : VTernSat) (s : State) : Out :=
  elemWord (.imad h o) o.d o.ty 3 1 (fun t w e =>
    ⟨intBits o.ty o.sat (intOf o.ty (elemN (tyWidth o.ty) (t.vsrc w o.a) e) * intOf o.ty (t.bElem w o.ty o.b e) +
      intOf o.ty (elemN (tyWidth o.ty) (t.vsrc w o.c) e)), 0⟩) s
/-- imulh (R139). -/
def execImulh (h : Hdr) (o : VBin) (s : State) : Out := iBinWord (.imulh h o) o 3 (imulhBits o.ty) s
/-- iabs (R139). -/
def execIabs (h : Hdr) (o : VUnSat) (s : State) : Out :=
  elemWord (.iabs h o) o.d o.ty (ilat o.ty) 1 (fun t w e => ⟨iabsBits o.ty o.sat (elemN (tyWidth o.ty) (t.vsrc w o.a) e), 0⟩) s
/-- imin (R139). -/
def execImin (h : Hdr) (o : VBin) (s : State) : Out := iBinWord (.imin h o) o (ilat o.ty) (iminBits o.ty) s
/-- imax (R139). -/
def execImax (h : Hdr) (o : VBin) (s : State) : Out := iBinWord (.imax h o) o (ilat o.ty) (imaxBits o.ty) s
/-- iand (R139). -/
def execIand (h : Hdr) (o : VBin) (s : State) : Out := iBinWord (.iand h o) o (ilat o.ty) ((· &&& ·)) s
/-- ior (R139). -/
def execIor (h : Hdr) (o : VBin) (s : State) : Out := iBinWord (.ior h o) o (ilat o.ty) ((· ||| ·)) s
/-- ixor (R139). -/
def execIxor (h : Hdr) (o : VBin) (s : State) : Out := iBinWord (.ixor h o) o (ilat o.ty) ((· ^^^ ·)) s
/-- inot (R139). -/
def execInot (h : Hdr) (o : VUn) (s : State) : Out := vUnWord (.inot h o) o (ilat o.ty) (inotBits o.ty) s
/-- ishl (R139). -/
def execIshl (h : Hdr) (o : VBin) (s : State) : Out := shiftVWord (.ishl h o) o (ishlBits o.ty) s
/-- ishr (R139). -/
def execIshr (h : Hdr) (o : VBin) (s : State) : Out := shiftVWord (.ishr h o) o (ishrBits o.ty) s
/-- isar (R139). -/
def execIsar (h : Hdr) (o : VBin) (s : State) : Out := shiftVWord (.isar h o) o (isarBits o.ty) s

end Sys2Proof.Machine
end

