-- ==== Sys2Proof/Machine/Code.lean ====
section
/-! DEFINITION. Codebook and index words at issue (R157–R177). The code unit reads and writes index planes in the clk of the
word's issue (log entry 16). -/

namespace Sys2Proof.Machine

/-! ## The code unit and its interlock (R158, R176) -/

/-- A codebook register that an issued word has still to write. -/
def Tile.cbPending (t : Tile) (n : CReg) : Bool :=
  (t.pipe ++ t.vpend).any (fun r => r.writes.any fun x => match x with | .cb m _ _ => m == n | _ => false) ||
    (t.user.lf ++ t.user.ans ++ t.hand.lf ++ t.hand.ans).any fun a => match a.w.what with
      | .ok (.cbld _ o) => o.d == n
      | _ => false

/-- The basin has a write in flight. -/
def Tile.basinPending (t : Tile) : Bool :=
  (t.pipe ++ t.vpend).any fun r => r.writes.any fun x => match x with | .basin _ _ => true | _ => false

/-- The code unit is free, and the codebook registers that a word names, or its descriptors name, have no write in flight. -/
def codeRes (regs : Tile → List CReg) (now : Nat) (_ : QWord) (c : Chip) : Bool :=
  decide (c.tile.frame.busyK ≤ now) && (regs c.tile).all fun n => !c.tile.cbPending n

/-- As codeRes, for a word that touches the basin. -/
def basinRes (regs : Tile → List CReg) (now : Nat) (w : QWord) (c : Chip) : Bool := codeRes regs now w c && !c.tile.basinPending

def Chip.takeK (c : Chip) (now occ : Nat) : Chip := c.upd fun t => t.updFrame fun f => { f with busyK := now + occ }

/-- The registers that a descriptor in a scalar register names: none where it names the basin (R179). -/
def descReg (s : SReg) (t : Tile) : List CReg := if 8 < (descOf (t.getS s)).w then [] else [(descOf (t.getS s)).cbid]

/-! ## Values of entries (R157, R166, R168) -/

/-- Vector type of a codebook type. -/
def cbElemTy : CbTy → Ty
  | .f32 => .f32
  | .f16 => .f16
  | .bf16 => .bf16
  | .i32 => .i32

/-- An entry, or a dense value, as a value. -/
inductive CVal where
  | nan | inf (neg : Bool) | num (z e : Int)
deriving DecidableEq, Repr

def cbVal (ty : CbTy) (x : Nat) : CVal :=
  match ty with
  | .i32 => .num (BitVec.ofNat 32 x).toInt 0
  | ty =>
    let f := fmtOf (cbElemTy ty)
    match f.val false x with
    | .fin neg m e => .num (if neg then -(m : Int) else m) e
    | v => if v.isInf then .inf v.neg else .nan

/-- z1·2^e1 < z2·2^e2. -/
def numLt (z1 e1 z2 e2 : Int) : Bool :=
  let e := min e1 e2
  decide (z1 * 2 ^ (e1 - e).toNat < z2 * 2 ^ (e2 - e).toNat)

/-- Order of values, the infinities at the ends. -/
def CVal.lt : CVal → CVal → Bool
  | .nan, _ | _, .nan => false
  | .inf n, .inf m => n && !m
  | .inf n, .num _ _ => n
  | .num _ _, .inf m => !m
  | .num z e, .num y d => numLt z e y d

/-- Same of R166. -/
def sameEntry (ty : CbTy) (a b : Nat) : Bool :=
  match ty with
  | .i32 => a == b
  | _ =>
    match cbVal ty a, cbVal ty b with
    | .nan, .nan => true
    | .nan, _ | _, .nan => false
    | x, y => !x.lt y && !y.lt x

/-- |x − v|: none is an infinite distance. -/
def cvDist (z e : Int) : CVal → Option (Int × Int)
  | .num y d =>
    let m := min e d
    some (((z * 2 ^ (e - m).toNat - y * 2 ^ (d - m).toNat).natAbs : Int), m)
  | _ => none

def distLt : Option (Int × Int) → Option (Int × Int) → Bool
  | some (a, d), some (b, k) => numLt a d b k
  | some _, none => true
  | none, _ => false

/-- The least position among those that satisfy `ok`, no other of them being better. -/
def leastBest {α : Type} (ok : α → Bool) (better : α → α → Bool) (l : List α) : Option Nat :=
  (l.zipIdx.foldl (fun (acc : Option (α × Nat)) (x : α × Nat) =>
    if !ok x.1 then acc
    else match acc with
      | none => some x
      | some y => if better x.1 y.1 then some x else acc) none).map Prod.snd

def CVal.isNan : CVal → Bool
  | .nan => true
  | _ => false

/-- Nearest (R168). -/
def nearest (vals : List CVal) (x : CVal) : Nat :=
  match x with
  | .nan => (leastBest CVal.isNan (fun _ _ => false) vals).getD 0
  | .inf n =>
    match leastBest (fun v => v == .inf n) (fun _ _ => false) vals with
    | some i => i
    | none => (leastBest (fun v => !v.isNan) (fun a b => if n then a.lt b else b.lt a) vals).getD 0
  | .num z e => (leastBest (fun v => !v.isNan) (fun a b => distLt (cvDist z e a) (cvDist z e b)) vals).getD 0

/-- The entries in use. -/
def Codebook.entries (c : Codebook) : List Nat := (List.range c.count.toNat).map fun i => (elem 32 c.entry i).toNat

/-- Entries packed from 0 up; zeros beyond. -/
def packEntries (l : List Nat) : BitVec 8192 := BitVec.ofNat 8192 (l.foldr (fun v a => v % 2 ^ 32 + a * 2 ^ 32) 0)
def packRemap (l : List Nat) : BitVec 2048 := BitVec.ofNat 2048 (l.foldr (fun v a => v % 2 ^ 8 + a * 2 ^ 8) 0)

/-- An entry in a type: a 16-bit type clears bits 31:16. -/
def trimEntry (ty : CbTy) (x : Nat) : Nat := if cbSize ty = 2 then x % 65536 else x

/-! ## cbld and cbst (R161, R162, R173) -/

/-- The base of a codebook image. -/
def cbBase (t : Tile) (o : CbMemOp) : Base := if o.sp then .sp (spPlace (t.getS o.a) 0) else .glob (t.getS o.a)

/-- Own AB alone may hold an image (R162). -/
def abAllow (b : Buf) (peer : Bool) : Bool := b == .ab && !peer

/-- The scratchpad check of an image's extent (R100, R162), with no alignment. -/
def cbSpFail (c : Chip) (b : Base) (n : Nat) : Option (Nat × Word) :=
  match b with
  | .sp p => (spFail c c.focus abAllow p n 1).map fun f => (f.2, p.word)
  | .glob _ => none

def cbClass (b : Base) : AClass :=
  match b with
  | .glob _ => .g
  | .sp _ => .ab

/-- cbld at issue (R162): the header's extent is checked; the read enters the L FIFO. -/
def execCbld (h : Hdr) (o : CbMemOp) (s : State) : Out :=
  qword .c (.cbld h o) .bit0 (fun now w c => codeRes (fun _ => [o.d]) now w c && decide (c.tile.frame.lf.length < 32))
    (fun now w t c =>
      let b := cbBase t o
      match cbSpFail c b 8 with
      | some (cls, tval) => c.issueFault w h.sba cls 6 tval
      | none =>
        (c.takeK now 1).pushAccess .l
          (newAccess w (cbClass b) [⟨0, [⟨0, elemPlace c.focus b, 8⟩], [], .todo⟩] [] [] 1032 0)) s

/-- cbst at issue (R162): the image is captured; its write enters the S FIFO, or the log of a guarded phase (R311). -/
def execCbst (h : Hdr) (o : CbMemOp) (s : State) : Out :=
  unitWord .c (.cbst h o) .bit0 (fun now w c => codeRes (fun _ => [o.d]) now w c && decide (c.tile.frame.sf.length < 32))
    (fun now w t c =>
      let b := cbBase t o
      let (c, ue) := c.unitReads 6 none (cbHead o.d)
      let r := c.tile.getCb o.d
      if r.count = 0 then (c.issueFault w h.sba 2 6 0, ue)
      else
        match cbSpFail c b (cbImage r).length with
        | some (cls, tval) => (c.issueFault w h.sba cls 6 tval, ue)
        | none =>
          let (c, ue) := c.unitReads 6 ue (cbEnts o.d fun e => decide (e < r.count.toNat))
          let img := cbImage (c.tile.getCb o.d)
          let a := newAccess w (cbClass b) [oneUnit 0 ⟨0, elemPlace c.focus b, img.length⟩] img [] 0 img.length
          let c := c.takeK now 1
          (if c.tile.inPhase ∧ cbClass b = .g then c.logStore w 6 (logBytes img.length false) a else c.pushAccess .s a, ue)) s

/-- The register that an image gives (R162). -/
def cbOfImage (old : Codebook) (bs : List Byte) : Codebook :=
  let h : Word := ofBytes 64 (bs.take 8)
  let ty := cbTyOf (bits h 9 2)
  let n := (bits h 0 9).toNat
  { entry := packEntries ((List.range n).map fun i => (ofBytes 32 ((bs.drop (8 + i * cbSize ty)).take (cbSize ty)) : BitVec 32).toNat)
    count := BitVec.ofNat 9 n
    ty := ty
    tag := old.tag + 1
    remap := 0
    rlen := 0
    rfrom := old.rfrom
    rto := old.rto }

/-! ## Entries (R163–R165) -/

/-- cbget (R163). -/
def execCbget (h : Hdr) (o : CbGetOp) (s : State) : Out :=
  unitWord .c (.cbget h o) .lanes (codeRes fun _ => [o.a]) (fun now w t c =>
    let p := t.effPred w h
    let m := elemMask 32 64 p
    let (c, ue) := c.unitReads 6 none (cbEnts o.a fun e => e / 64 == o.q.toNat && p.getLsbD (e % 64))
    let x : VWord := (c.tile.getCb o.a).entry.extractLsb' (2048 * o.q.toNat) 2048
    ((c.takeK now 1).result now 2 w h.sba [dstWrite o.d w m (x &&& m)] 0, ue)) s

/-- The entries that cbput writes (R164). -/
def cbputOn (c : Codebook) (q : Nat) (p : Word) (e : Nat) : Bool := e / 64 == q && p.getLsbD (e % 64) && decide (e < c.count.toNat)

/-- cbput's register (R164). -/
def cbputVal (c : Codebook) (q : Nat) (p : Word) (x : VWord) : Codebook :=
  { c with
    entry := (List.range 64).foldl (fun e j =>
      if p.getLsbD j ∧ 64 * q + j < c.count.toNat then
        putElem 32 e (64 * q + j) (BitVec.ofNat 32 (trimEntry c.ty (elem 32 x j).toNat)) else e) c.entry
    tag := c.tag + 1 }

/-- cbput (R164). -/
def execCbput (h : Hdr) (o : CbPutOp) (s : State) : Out :=
  unitWord .c (.cbput h o) .lanes (codeRes fun _ => [o.d]) (fun now w t c =>
    let (c, ue) := c.unitReads 6 none (cbHead o.d)
    let on := cbputOn (c.tile.getCb o.d) o.q.toNat (t.effPred w h)
    let c := c.scrubWrites (fun _ => false) (cbEnts o.d fun e => on e && !on (if e % 2 = 0 then e + 1 else e - 1))
    let ws := 160 :: (List.range 128).filter fun k => on (2 * k) && on (2 * k + 1)
    ((c.takeK now 1).codeResult now 2 w h.sba
      [.cb o.d (cbputVal (c.tile.getCb o.d) o.q.toNat (t.effPred w h) (t.vsrc w o.a)) ws] 0, ue)) s

/-- cbcnt.set's register (R165). -/
def cbsetVal (c : Codebook) (n : Nat) (ty : CbTy) : Codebook :=
  { c with
    entry := packEntries ((List.range n).map fun i => trimEntry ty (elem 32 c.entry i).toNat)
    count := BitVec.ofNat 9 n
    ty := ty
    tag := c.tag + 1
    remap := 0
    rlen := 0 }

def cbcntReg : CbCntOp → CReg
  | .set d _ _ => d
  | .rd _ a => a
  | .rt _ a _ => a

/-- cbcnt (R165). -/
def execCbcnt (h : Hdr) (o : CbCntOp) (s : State) : Out :=
  unitWord .c (.cbcnt h o) .bit0 (codeRes fun _ => [cbcntReg o]) (fun now w t c =>
    match o with
    | .set d a ty =>
      let n := (t.getS a).toNat
      if n < 1 ∨ 256 < n then (c.issueFault w h.sba 2 6 0, none)
      else
        let (c, ue) := c.unitReads 6 none (cbHead d)
        let below (k : Nat) : Bool := decide (2 * k < n)
        let c := c.scrubWrites (fun _ => false) fun u => match u with
          | .cb m k => m == d && decide (k < 128) && below k && (cbSize ty == 2 || decide (n ≤ 2 * k + 1))
          | _ => false
        ((c.takeK now 1).codeResult now 1 w h.sba
          [.cb d (cbsetVal (c.tile.getCb d) n ty) (cbAll.filter fun k => decide (128 ≤ k) || !below k)] 0, ue)
    | .rd d a =>
      let (c, ue) := c.unitReads 6 none (cbHead a)
      let r := c.tile.getCb a
      ((c.takeK now 1).codeResult now 1 w h.sba [.s d (0#45 ++ cbTyCode r.ty ++ r.count ++ r.tag)] 0, ue)
    | .rt d a b =>
      let (c, ue) := c.unitReads 6 none (cbHead a)
      let x := t.getS b
      ((c.takeK now 1).codeResult now 1 w h.sba [.s d (x.extractLsb' 12 52 ++ a ++ (c.tile.getCb a).tag)] 0, ue)) s

/-! ## Merging and remapping (R166, R167) -/

/-- The merge of R166: the kept entries and the remap table. -/
def dedup (ty : CbTy) (old : List Nat) : List Nat × List Nat :=
  old.foldl (fun (a : List Nat × List Nat) x =>
    match a.1.findIdx? (fun y => sameEntry ty y x) with
    | some j => (a.1, a.2 ++ [j])
    | none => (a.1 ++ [x], a.2 ++ [a.1.length])) ([], [])

/-- cbdedup's register (R166). -/
def dedupVal (c : Codebook) : Codebook :=
  let d := dedup c.ty c.entries
  { entry := packEntries d.1
    count := BitVec.ofNat 9 d.1.length
    ty := c.ty
    tag := c.tag + 1
    remap := packRemap d.2
    rlen := c.count
    rfrom := c.tag
    rto := c.tag + 1 }

/-- cbdedup (R166). -/
def execCbdedup (h : Hdr) (r : CReg) (s : State) : Out :=
  unitWord .c (.cbdedup h r) .bit0 (codeRes fun _ => [r]) (fun now w _ c =>
    let (c, ue) := c.unitReads 6 none (cbHead r)
    let (c, ue) := c.unitReads 6 ue (cbEnts r fun e => decide (e < (c.tile.getCb r).count.toNat))
    ((c.takeK now 24).codeResult now 24 w h.sba [.cb r (dedupVal (c.tile.getCb r)) cbAll] 0, ue)) s

/-- CeilLog2, 0 for 0 and 1. -/
def ceilLog2 (n : Nat) : Nat := bitLen 64 (n - 1)

/-- Clk of a pass over n indices. -/
def passClk (n : Nat) : Nat := (n + 2047) / 2048

/-- ixremap (R167). -/
def execIxremap (h : Hdr) (o : IxRemapOp) (s : State) : Out :=
  unitWord .c (.ixremap h o) .bit0 (codeRes fun _ => [o.a]) (fun now w t c =>
    let d := descOf (t.getS o.b)
    match d.fate with
    | some cls => (c.issueFault w h.sba cls 6 0, none)
    | none =>
      if 8 < d.w then (c.issueFault w h.sba 15 6 0, none)
      else
      let (c, ue) := c.unitReads 6 none (fun u => d.cbid == o.a && cbHead o.a u)
      let r := c.tile.getCb o.a
      if d.cbid ≠ o.a ∨ r.rlen = 0 ∨ d.etag ≠ r.rfrom ∨ r.tag ≠ r.rto then (c.issueFault w h.sba 14 6 0, ue)
      else
        let (c, ue) := c.unitReads 6 ue (planeHas d.prow d.n d.w fun _ => true)
        let (c, ue) := c.unitReads 6 ue (cbMaps o.a fun x => decide (x < r.rlen.toNat) && (List.range d.n).any fun e => c.tile.index d e == x)
        let t := c.tile
        let r := t.getCb o.a
        let w2 := if o.n then Nat.min d.w (Nat.max 1 (ceilLog2 r.count.toNat)) else d.w
        let f (e : Nat) : Nat :=
          let x := t.index d e
          if x < r.rlen.toNat then (elem 8 r.remap x).toNat else 0
        let c := (((c.meetPlanes d.prow d.n w2 fun _ => true)).takeK now (passClk d.n)).upd fun u => u.writePlanes d.prow d.n w2 f
        (c.later now w h.sba [.s o.d { d with w := w2, etag := r.tag }.word] none, ue)) s

/-! ## Encoding, decoding, moving (R168–R170) -/

/-- Elements of a vector register in a codebook's type. -/
def cbLanes (ty : CbTy) : Nat := if cbSize ty = 2 then 128 else 64

/-- The checks of cbenc and cbdec on a descriptor and an element offset (R160, R168, R169): a class, or the descriptor. -/
def encCheck (t : Tile) (ds es : SReg) (cap : Bool) : Except Nat (Desc × Codebook) :=
  let d := descOf (t.getS ds)
  let r := t.getCb d.cbid
  let e0 := (t.getS es).toNat
  match d.fate with
  | some cls => .error cls
  | none =>
    if 8 < d.w then .error 15
    else if d.etag ≠ r.tag then .error 14
    else if cap ∧ 2 ^ d.w < r.count.toNat then .error 15
    else if e0 % 64 ≠ 0 then .error 5
    else if d.n ≤ e0 then .error 2
    else .ok (d, r)

/-- The head of the register that a descriptor of width 8 or less names is read when its steps 1 to 3 have passed (R160, R168). -/
def encHead (d : Desc) (u : SramUnit) : Bool := d.fate.isNone && decide (d.w ≤ 8) && cbHead d.cbid u

/-- cbenc (R168). -/
def execCbenc (h : Hdr) (o : CbEncOp) (s : State) : Out :=
  unitWord .c (.cbenc h o) .lanes (codeRes (descReg o.b)) (fun now w t c =>
    let (c, ue) := c.unitReads 6 none (encHead (descOf (t.getS o.b)))
    match encCheck c.tile o.b o.c true with
    | .error cls => (c.issueFault w h.sba cls 6 0, ue)
    | .ok (d, r) =>
      let e0 := (t.getS o.c).toNat
      let sz := 8 * cbSize r.ty
      let p := t.effPred w h
      let x := t.vsrc w o.a
      let enabled (e : Nat) : Bool := decide (e0 ≤ e ∧ e < e0 + cbLanes r.ty ∧ e < d.n) && p.getLsbD (laneOf sz (e - e0))
      let k := ((List.range (cbLanes r.ty)).filter fun j => enabled (e0 + j)).length
      let (c, ue) := c.unitReads 6 ue (cbEnts d.cbid fun i => k != 0 && decide (i < r.count.toNat))
      let vals := (c.tile.getCb d.cbid).entries.map (cbVal r.ty)
      let c := c.meetPlanes d.prow d.n d.w enabled
      let old := c.tile.index d
      let f (e : Nat) : Nat := if enabled e then nearest vals (cbVal r.ty (elemN sz x (e - e0))) else old e
      let c := (c.takeK now 2).upd fun u => u.writePlanes d.prow d.n d.w f
      (c.codeResult now 8 w h.sba [.s o.d (BitVec.ofNat 64 k)] 0, ue)) s

/-- cbdec (R169). -/
def execCbdec (h : Hdr) (o : CbDecOp) (s : State) : Out :=
  unitWord .c (.cbdec h o) .lanes (codeRes (descReg o.a)) (fun now w t c =>
    let (c, ue) := c.unitReads 6 none (encHead (descOf (t.getS o.a)))
    match encCheck c.tile o.a o.b false with
    | .error cls => (c.issueFault w h.sba cls 6 0, ue)
    | .ok (d, r) =>
      let e0 := (t.getS o.b).toNat
      let p := t.effPred w h
      let on (e : Nat) : Bool := decide (e0 ≤ e ∧ e < e0 + cbLanes r.ty) && p.getLsbD (laneOf (8 * cbSize r.ty) (e - e0))
      let (c, ue) := c.unitReads 6 ue (planeHas d.prow d.n d.w on)
      let (c, ue) := c.unitReads 6 ue (cbEnts d.cbid fun x => (List.range (cbLanes r.ty)).any fun j =>
        on (e0 + j) && decide (e0 + j < d.n) && c.tile.index d (e0 + j) == x)
      let t := c.tile
      let entry := (t.getCb d.cbid).entry
      let rs := elemsOf (cbElemTy r.ty) p fun j =>
        ⟨if e0 + j < d.n then trimEntry r.ty (elem 32 entry (t.index d (e0 + j))).toNat else 0, 0⟩
      ((c.takeK now 1).result now 6 w h.sba [dstWrite o.d w rs.mask rs.val] 0, ue)) s

/-- A codebook word's tag, or the basin's, is read for step 4 of R160 when steps 1 and 2 have passed (R179). -/
def tagHead (d : Desc) (u : SramUnit) : Bool := d.fate.isNone && (if d.w ≤ 8 then cbHead d.cbid u else bsHead u)

/-- The unit is free for a word whose descriptor names a codebook register or the basin (R158, R179, R180). -/
def tagRes (s : SReg) (now : Nat) (w : QWord) (c : Chip) : Bool :=
  if (descOf (c.tile.getS s)).w ≤ 8 then codeRes (descReg s) now w c else basinRes (descReg s) now w c

/-- ixmov (R170): a source of width 9–12 stands against the basin. The order of the checks behind steps 1 and 2, and the check of the
completed destination's footprint, are choices (log entry 55). Where PROW is the same, the planes that stand are given zeros at and beyond N
as every destination plane is (log entry 78). -/
def execIxmov (h : Hdr) (o : RRR) (s : State) : Out :=
  unitWord .c (.ixmov h o) .bit0 (tagRes o.a) (fun now w t c =>
    let sd := descOf (t.getS o.a)
    let dd : Desc := { descOf (t.getS o.b) with n := sd.n, cbid := sd.cbid, etag := sd.etag }
    match sd.fate with
    | some cls => (c.issueFault w h.sba cls 6 0, none)
    | none =>
      match (descOf (t.getS o.b)).fate with
      | some cls => (c.issueFault w h.sba cls 6 0, none)
      | none =>
        let (c, ue) := c.unitReads 6 none (tagHead sd)
        let stale := if sd.w ≤ 8 then sd.etag != (c.tile.getCb sd.cbid).tag else sd.etag != c.tile.regs.basin.tag
        if stale then (c.issueFault w h.sba 14 6 0, ue)
        else if dd.w < sd.w then (c.issueFault w h.sba 2 6 0, ue)
        else if 524288 < dd.prow * 128 + dd.bytes then (c.issueFault w h.sba 9 6 0, ue)
        else if sd.prow ≠ dd.prow ∧ sd.prow * 128 < dd.prow * 128 + dd.bytes ∧ dd.prow * 128 < sd.prow * 128 + sd.bytes then
          (c.issueFault w h.sba 12 6 0, ue)
        else
          let (c, ue) := c.unitReads 6 ue (planeHas sd.prow sd.n sd.w fun _ => true)
          let t := c.tile
          let c := ((c.meetPlanes dd.prow sd.n dd.w fun _ => true).takeK now (passClk sd.n)).upd fun u =>
            u.writePlanes dd.prow sd.n dd.w (t.index sd)
          (c.later now w h.sba [.s o.d dd.word] none, ue)) s

/-! ## Coded lines (R171, R172) -/

/-- The checks of ixld and ixst at issue: a class and its TVAL, or the descriptor, the line count and the address. -/
def ixCheck (t : Tile) (ds : SReg) (a : GAddr) : Except (Nat × Word) (Desc × Nat × Word) :=
  let d := descOf (t.getS ds)
  let va := match t.gBase a with
    | .glob va => va
    | .sp p => p.word
  let lines := (d.n + lineCap d.w - 1) / lineCap d.w
  match d.fate with
  | some cls => .error (cls, 0)
  | none =>
    if !lineWidth d.w then .error (2, 0)
    else if 4096 < lines then .error (2, 0)
    else if va.toNat % 128 ≠ 0 then .error (5, va)
    else .ok (d, lines, va)

/-- One unit for each line. -/
def lineUnits (lines : Nat) (va : Word) : List MUnit :=
  (List.range lines).map fun l => ⟨l, [⟨l * 128, .glob (va + BitVec.ofNat 64 (l * 128)), 128⟩], [], .todo⟩

/-- ixld at issue (R171): args hold the descriptor and the count of CRC failures. -/
def execIxld (h : Hdr) (o : IxLdOp) (s : State) : Out :=
  qword .l (.ixld h o) .bit0 (portRes .l) (fun now w t c =>
    let c := c.advanceG o.addr
    match ixCheck t o.desc o.addr with
    | .error (cls, tv) => c.issueFault w h.sba cls 1 tv
    | .ok (_, lines, va) =>
      let us := lineUnits lines va
      (c.upd fun t => t.takePort .l (now + portClk .g true us)).pushAccess .l (newAccess w .g us [] [t.getS o.desc, 0] 0 0)) s

/-- ixst at issue (R172): the planes are read and captured. -/
def execIxst (h : Hdr) (o : IxStOp) (s : State) : Out :=
  unitWord .s (.ixst h o) .bit0 (portRes .s) (fun now w t c =>
    let c := c.advanceG o.addr
    match ixCheck t o.desc o.addr with
    | .error (cls, tv) => (c.issueFault w h.sba cls 4 tv, none)
    | .ok (d, lines, va) =>
      let (c, ue) := c.unitReads 4 none (planeHas d.prow d.n d.w fun _ => true)
      let t := c.tile
      let us := lineUnits lines va
      let data := (List.range lines).flatMap fun l => codedLine l d.n d.w d.cbid.toNat d.etag.toNat (t.index d)
      let a := newAccess w .g us data [] 0 data.length
      let c := c.upd fun t => t.takePort .s (now + portClk .g true us)
      (if c.tile.inPhase then c.logStore w 4 (logBytes a.fill false) a else c.pushAccess .s a, ue)) s

end Sys2Proof.Machine
end

