-- ==== Sys2Proof/Machine/Pairing.lean ====
section
/-! DEFINITION. The basin: pairing, histograms, re-clustering (R178–R191). -/

namespace Sys2Proof.Machine

/-- Basin entry i, histogram count i. -/
def Basin.ent (b : Basin) (i : Nat) : Nat := (elem 32 b.entry i).toNat
def Basin.cnt (b : Basin) (i : Nat) : Nat := (elem 32 b.hist i).toNat

/-- Values packed 32 bits each, and 8 bits each. -/
def pack32 (l : List Nat) : BitVec 131072 := BitVec.ofNat 131072 (l.foldr (fun v a => v % 2 ^ 32 + a * 2 ^ 32) 0)
def pack8 (l : List Nat) : BitVec 32768 := BitVec.ofNat 32768 (l.foldr (fun v a => v % 2 ^ 8 + a * 2 ^ 8) 0)

/-! ## cbpair (R181) -/

/-- One entry of the table: exact, finished once, subnormals honoured, no flag. -/
def pairOp (ty : CbTy) (k : PairKind) (rnd : Rnd) (sat : Bool) (a b : Nat) : Nat :=
  let et := cbElemTy ty
  match ty with
  | .i32 =>
    let x := intOf et a
    let y := intOf et b
    intBits et sat (match k with
      | .add => x + y
      | .sub => x - y
      | .mul => x * y
      | .max => max x y
      | .min => min x y)
  | _ =>
    let md : FMode := ⟨rnd, sat, false⟩
    let f := fmtOf et
    match k with
    | .add => (fop2 et md Fmt.add a b).bits
    | .sub => (fop2 et md fSub a b).bits
    | .mul => (fop2 et md Fmt.mul a b).bits
    | .max => (f.finish md (f.val false (f.minMax true false a b).bits)).bits
    | .min => (f.finish md (f.val false (f.minMax false false a b).bits)).bits

/-- The basin that cbpair leaves. -/
def pairVal (old : Basin) (na nb : CReg) (a b : Codebook) (k : PairKind) (rnd : Rnd) (sat : Bool) : Basin :=
  { old with
    entry := pack32 (a.entries.flatMap fun x => b.entries.map fun y => pairOp a.ty k rnd sat x y)
    count := BitVec.ofNat 13 (a.count.toNat * b.count.toNat)
    m := a.count
    nb := b.count
    ty := a.ty
    acb := na
    atag := a.tag
    bcb := nb
    btag := b.tag
    tag := old.tag + 1 }

/-- cbpair (R181). -/
def execCbpair (h : Hdr) (o : CbPairOp) (s : State) : Out :=
  unitWord .c (.cbpair h o) .bit0 (basinRes fun _ => [o.a, o.b]) (fun now w _ c =>
    let (c, ue) := c.unitReads 6 none fun u => cbHead o.a u || cbHead o.b u
    let a := c.tile.getCb o.a
    let b := c.tile.getCb o.b
    let n := a.count.toNat * b.count.toNat
    if n = 0 ∨ a.ty ≠ b.ty then (c.issueFault w h.sba 2 6 0, ue)
    else if a.ty = .i32 ∧ o.rnd ≠ .rne then (c.issueFault w h.sba 1 6 0, ue)
    else if 4096 < n then (c.issueFault w h.sba 15 6 0, ue)
    else
      let (c, ue) := c.unitReads 6 ue fun u => bsHead u || cbEnts o.a (fun e => decide (e < a.count.toNat)) u ||
        cbEnts o.b (fun e => decide (e < b.count.toNat)) u
      let t := c.tile
      let k := (n + 63) / 64
      ((c.takeK now k).codeResult now (8 + k) w h.sba
        [.basin (pairVal t.regs.basin o.a o.b (t.getCb o.a) (t.getCb o.b) o.op o.rnd o.sat) (4608 :: List.range 2048)] 0, ue)) s

/-! ## ixpair and ixhist (R182, R183) -/

/-- ixpair (R182). -/
def execIxpair (h : Hdr) (o : IxPairOp) (s : State) : Out :=
  unitWord .c (.ixpair h o) .bit0 (basinRes fun _ => []) (fun now w t c =>
    let a := descOf (t.getS o.a)
    let b := descOf (t.getS o.b)
    match a.fate <|> b.fate with
    | some cls => (c.issueFault w h.sba cls 6 0, none)
    | none =>
      if 8 < a.w ∨ 8 < b.w ∨ a.n ≠ b.n then (c.issueFault w h.sba 2 6 0, none)
      else
      let (c, ue) := c.unitReads 6 none bsHead
      let bs := c.tile.regs.basin
      let wp := Nat.max 9 (ceilLog2 bs.count.toNat)
      let d : Desc := { descOf (t.getS o.c) with n := a.n, w := wp, cbid := 0, etag := bs.tag, resv := false }
      if 524288 < d.prow * 128 + d.bytes then (c.issueFault w h.sba 9 6 0, ue)
      else if bs.count = 0 ∨ a.cbid ≠ bs.acb ∨ a.etag ≠ bs.atag ∨ b.cbid ≠ bs.bcb ∨ b.etag ≠ bs.btag then
        (c.issueFault w h.sba 14 6 0, ue)
      else if rangesMeet (d.prow * 128) d.bytes (a.prow * 128) a.bytes || rangesMeet (d.prow * 128) d.bytes (b.prow * 128) b.bytes then
        (c.issueFault w h.sba 12 6 0, ue)
      else
        let (c, ue) := c.unitReads 6 ue fun u => planeHas a.prow a.n a.w (fun _ => true) u || planeHas b.prow b.n b.w (fun _ => true) u
        let t := c.tile
        let f (e : Nat) : Nat :=
          let i := t.index a e
          let j := t.index b e
          if i < bs.m.toNat ∧ j < bs.nb.toNat then i * bs.nb.toNat + j else 0
        let c := ((c.meetPlanes d.prow d.n wp fun _ => true).takeK now (passClk a.n)).upd fun u => u.writePlanes d.prow d.n wp f
        (c.later now w h.sba [.s o.d d.word] none, ue)) s

/-- The count of each index among n (R183). -/
def histogram (n : Nat) (f : Nat → Nat) : List Nat :=
  let l := (List.range n).map f
  (List.range 4096).map fun x => l.count x

/-- ixhist (R183). -/
def execIxhist (h : Hdr) (o : RR) (s : State) : Out :=
  unitWord .c (.ixhist h o) .bit0 (basinRes (descReg o.a)) (fun now w t c =>
    let d := descOf (t.getS o.a)
    match d.fate with
    | some cls => (c.issueFault w h.sba cls 6 0, none)
    | none =>
      let (c, ue) := c.unitReads 6 none (tagHead d)
      if (if d.w ≤ 8 then d.etag != (c.tile.getCb d.cbid).tag else d.etag != c.tile.regs.basin.tag) then (c.issueFault w h.sba 14 6 0, ue)
      else
        let (c, ue) := c.unitReads 6 ue (planeHas d.prow d.n d.w fun _ => true)
        let c := c.scrubWrites (fun _ => false) bsHead
        let t := c.tile
        let bs := t.regs.basin
        let b := { bs with
          hist := pack32 (histogram d.n (t.index d))
          hb := decide (9 ≤ d.w)
          htag := if 9 ≤ d.w then bs.tag else bs.htag }
        ((c.takeK now (passClk d.n)).later now w h.sba
          [.basin b (4608 :: (List.range 2048).map (2048 + ·)), .s o.d (BitVec.ofNat 64 d.n)] none, ue)) s

/-! ## bsget (R184) -/

/-- The status word of the basin. -/
def basinStatus (b : Basin) : Word := 0#14 ++ b.nb ++ b.m ++ b.count ++ cbTyCode b.ty ++ BitVec.ofBool b.hb ++ b.htag ++ b.tag

/-- A vector form: 64 lanes from an index. -/
def bsgetVec (i : Instr) (d : VDst) (a : SReg) (us : (Nat → Bool) → SramUnit → Bool) (f : Basin → Nat → Nat) : State → Out :=
  unitWord .c i .lanes (basinRes fun _ => []) fun now w t c =>
    let b := (t.getS a).toNat
    if 4096 ≤ b then (c.issueFault w i.hdr.sba 2 6 0, none)
    else if b % 64 ≠ 0 then (c.issueFault w i.hdr.sba 5 6 0, none)
    else
      let p := t.effPred w i.hdr
      let (c, ue) := c.unitReads 6 none (us fun e => decide (b ≤ e ∧ e < b + 64) && p.getLsbD (e - b))
      let m := elemMask 32 64 p
      let x := packN 32 ((List.range 64).map fun j => f c.tile.regs.basin (b + j))
      ((c.takeK now 1).result now 2 w i.hdr.sba [dstWrite d w m (x &&& m)] 0, ue)

/-- A scalar form: the failing units that it reads, its value. -/
def bsgetScal (i : Instr) (d : SReg) (us : SramUnit → Bool) (f : Tile → Word) : State → Out :=
  unitWord .c i .bit0 (basinRes fun _ => []) fun now w _ c =>
    let (c, ue) := c.unitReads 6 none us
    ((c.takeK now 1).result now 1 w i.hdr.sba [.s d (f c.tile)] 0, ue)

/-- bsget (R184). -/
def execBsget (h : Hdr) (o : BsGetOp) (s : State) : Out :=
  match o with
  | .e d a => bsgetVec (.bsget h o) d a bsEnts Basin.ent s
  | .h d a => bsgetVec (.bsget h o) d a bsHists Basin.cnt s
  | .r d a => bsgetVec (.bsget h o) d a bsMaps (fun b i => (elem 8 b.bremap i).toNat) s
  | .st d => bsgetScal (.bsget h o) d bsHead (fun t => basinStatus t.regs.basin) s
  | .cst d => bsgetScal (.bsget h o) d (fun u => u == .sys .cst) (fun t => t.sys.cst) s

/-! ## reclust (R185–R187) -/

/-- A live entry: its basin index, its count, its value. -/
structure Live where
  i : Nat
  c : Nat
  v : CVal
deriving DecidableEq, Repr

/-- Insertion behind every entry whose value is not greater. -/
def insertLive (x : Live) : List Live → List Live
  | [] => [x]
  | y :: l => if x.v.lt y.v then x :: y :: l else y :: insertLive x l
/-- Live entries by value, ties by index. -/
def sortLive (l : List Live) : List Live := l.foldl (fun a x => insertLive x a) []

def CVal.same (a b : CVal) : Bool := !a.lt b && !b.lt a

/-- One run for each distinct value of a sorted list. -/
def valueRuns : List Live → List (List Live)
  | [] => []
  | x :: l =>
    match valueRuns l with
    | (y :: r) :: rs => if x.v.same y.v then (x :: y :: r) :: rs else [x] :: (y :: r) :: rs
    | _ => [[x]]

/-- The position, counted from 1, at which the cumulative count first reaches a bound. -/
def cutAt (l : List Live) (bound : Nat) : Nat :=
  (l.foldl (fun (a : Nat × Nat) x => if bound ≤ a.1 then a else (a.1 + x.c, a.2 + 1)) (0, 0)).2

/-- The runs of R186 when the distinct values do not fit. -/
def cutRuns (l : List Live) (k : Nat) : List (List Live) :=
  let tn := l.foldl (fun a x => a + x.c) 0
  let cut (j : Nat) : Nat := if j = 0 then 0 else cutAt l ((j * tn + k - 1) / k)
  ((List.range k).map fun j => (l.drop (cut j)).take (cut (j + 1) - cut j)).filter fun r => !r.isEmpty

/-- The sum of count times value, as z·2^e, of finite entries. -/
def weighSum (l : List Live) : Int × Int :=
  l.foldl (fun (a : Int × Int) x =>
    match x.v with
    | .num z e =>
      let m := min a.2 e
      (a.1 * 2 ^ (a.2 - m).toNat + x.c * z * 2 ^ (e - m).toNat, m)
    | _ => a) (0, 0)

/-- z·2^e / t rounded to the nearest integer, ties to even. -/
def roundDiv (z e : Int) (t : Nat) : Int :=
  let (n, d) : Nat × Nat := if 0 ≤ e then (z.natAbs * 2 ^ e.toNat, t) else (z.natAbs, t * 2 ^ (-e).toNat)
  let q := n / d
  let r := n % d
  let q := if 2 * r > d || (2 * r == d && q % 2 == 1) then q + 1 else q
  if z < 0 then -(q : Int) else q

/-- The output of a run (R186). -/
def runOut (ty : CbTy) (bitsOf : Nat → Nat) (r : List Live) : Nat :=
  match r with
  | [] => 0
  | x :: l =>
    if l.all fun y => y.v.same x.v then bitsOf x.i
    else
      let f := fmtOf (cbElemTy ty)
      let pos := r.any fun y => y.v == .inf false
      let neg := r.any fun y => y.v == .inf true
      let t := r.foldl (fun a y => a + y.c) 0
      let (z, e) := weighSum r
      if pos && neg then f.nan
      else if pos then f.inf false
      else if neg then f.inf true
      else
        match ty with
        | .i32 => (BitVec.ofInt 32 (roundDiv z e t)).toNat
        | _ =>
          if z = 0 then 0
          else (f.div fRNE (.fin (decide (z < 0)) z.natAbs e) (.fin false t 0)).bits

/-- What reclust computes from the basin: the runs with their outputs, the NaN output, the map. -/
structure Fold where
  runs : List (List Live × Nat)
  nan : Bool
  outs : List Nat
  map : List Nat
deriving DecidableEq, Repr

def foldBasin (b : Basin) (k : Nat) : Fold :=
  let live : List Live := (List.range b.count.toNat).filterMap fun i =>
    if b.cnt i = 0 then none else some ⟨i, b.cnt i, cbVal b.ty (b.ent i)⟩
  let hasNan := live.any fun x => x.v.isNan
  let p := sortLive (live.filter fun x => !x.v.isNan)
  let kn := if hasNan then k - 1 else k
  let vr := valueRuns p
  let runs := (if vr.length ≤ kn then vr else cutRuns p kn).map fun r => (r, runOut b.ty b.ent r)
  let outs := runs.map Prod.snd ++ (if hasNan then [(fmtOf (cbElemTy b.ty)).nan] else [])
  let runOf (i : Nat) : Option Nat := runs.findIdx? fun r => r.1.any fun x => x.i == i
  let mapOf (i : Nat) : Nat :=
    if b.count.toNat ≤ i then 0
    else
      let y := cbVal b.ty (b.ent i)
      if y.isNan then (if hasNan then runs.length else 0)
      else match runOf i with
        | some r => r
        | none =>
          if runs.isEmpty then 0
          else (runs.findIdx? fun r => r.1.any fun x => !x.v.lt y).getD (runs.length - 1)
  ⟨runs, hasNan, outs, (List.range 4096).map mapOf⟩

/-- The error of a live entry in its run (R187): none is +∞. -/
def runErr (ty : CbTy) (out : Nat) (x : Live) : Option (Int × Int) :=
  match cbVal ty out, x.v with
  | .num z e, .num y d =>
    let m := min e d
    some (((z * 2 ^ (e - m).toNat - y * 2 ^ (d - m).toNat).natAbs : Int), m)
  | .inf a, .inf b => if a = b then some (0, 0) else none
  | _, _ => none

/-- Upward rounding to FP32. -/
def fRUP : FMode := ⟨.rup, false, false⟩

/-- √(z·2^e / t) rounded up to FP32, the root exact before the rounding (R187). -/
def rootUp (z : Nat) (e : Int) (t : Nat) : Nat :=
  if z = 0 then 0
  else
    let s : Int := 256 + e.natAbs + t
    let n := z * 2 ^ (e + 2 * s).toNat
    let q := n / t
    let r := isqrt q
    let exact := r * r * t == n
    (fmtF32.roundFin fRUP false (2 * r + (if exact then 0 else 1)) (-s - 1)).bits

/-- CST after a reclust (R185, R187), t the count of all live elements: CX, MAXERR, RMSERR. -/
def reclustErr (ty : CbTy) (f : Fold) (bound t : Nat) : Bool × Nat × Nat :=
  let errs : List (Nat × Option (Int × Int)) := f.runs.flatMap fun r => r.1.map fun x => (x.c, runErr ty r.2 x)
  let bv := cbVal .f32 bound
  if errs.any fun x => x.2.isNone then (bv != .inf false, fmtF32.inf false, fmtF32.inf false)
  else
    let vals := errs.filterMap fun x => x.2.map fun e => (x.1, e)
    let mx := vals.foldl (fun (a : Int × Int) x => if numLt a.1 a.2 x.2.1 x.2.2 then x.2 else a) (0, 0)
    let sq := vals.foldl (fun (a : Int × Int) x =>
      let e := 2 * x.2.2
      let m := min a.2 e
      (a.1 * 2 ^ (a.2 - m).toNat + x.1 * (x.2.1 * x.2.1) * 2 ^ (e - m).toNat, m)) (0, 0)
    (CVal.lt bv (.num mx.1 mx.2), (fmtF32.roundFin fRUP false mx.1.natAbs mx.2).bits, rootUp sq.1.natAbs sq.2 t)

/-- The count of live elements, NaN entries included (R186, R187). -/
def liveTotal (b : Basin) : Nat := (List.range b.count.toNat).foldl (fun a i => a + b.cnt i) 0

/-- reclust (R186, R187): the cause that it carries is raised if CXEN is set when it completes. -/
def execReclust (h : Hdr) (o : ReclustOp) (s : State) : Out :=
  unitWord .c (.reclust h o) .bit0 (basinRes fun _ => [o.d]) (fun now w t c =>
    let d := descOf (t.getS o.a)
    let bound := (bits (t.getS o.b) 0 32).toNat
    let bv := fmtF32.val false bound
    match d.fate with
    | some cls => (c.issueFault w h.sba cls 6 0, none)
    | none =>
      if d.w < 9 then (c.issueFault w h.sba 2 6 0, none)
      else
      let (c, ue) := c.unitReads 6 none bsHead
      let bs := c.tile.regs.basin
      if d.etag ≠ bs.tag ∨ !bs.hb ∨ bs.htag ≠ bs.tag then (c.issueFault w h.sba 14 6 0, ue)
      else if bv.isNan ∨ (bv.neg ∧ !bv.isZero) then (c.issueFault w h.sba 2 6 0, ue)
      else
      let (c, ue) := c.unitReads 6 ue (bsHists fun e => decide (e < bs.count.toNat))
      if liveTotal c.tile.regs.basin = 0 then (c.issueFault w h.sba 2 6 0, ue)
      else
        let (c, ue) := c.unitReads 6 ue fun u => bsEnts (fun e => decide (e < bs.count.toNat)) u || cbHead o.d u ||
          planeHas d.prow d.n d.w (fun _ => true) u
        let t := c.tile
        let bs := t.regs.basin
        let f := foldBasin bs o.k.toNat
        let r := t.getCb o.d
        let n := f.outs.length
        let r' : Codebook := { r with
          entry := packEntries f.outs, count := BitVec.ofNat 9 n, ty := bs.ty, rlen := 0, remap := 0, tag := r.tag + 1 }
        let w2 := Nat.max 1 (ceilLog2 n)
        let d' : Desc := { d with w := w2, cbid := o.d, etag := r'.tag }
        let bs' := { bs with bremap := pack8 f.map, rcnt := BitVec.ofNat 9 n, hb := false, tag := bs.tag + 1 }
        let (cx, mx, rms) := reclustErr bs.ty f (if bv.isZero then 0 else bound) (liveTotal bs)
        let cst : Word := BitVec.ofBool cx ++ BitVec.ofNat 31 mx ++ 0#1 ++ BitVec.ofNat 31 rms
        let mask : Word := 0xFFFFFFFF7FFFFFFF
        let cause : Option Cause :=
          if cx then some { code := causeCode 16 6, pc := w.pc, tval := 0, rq := none, xw := false, id := w.id } else none
        let m := f.map.toArray
        let c := ((c.meetPlanes d.prow d.n w2 fun _ => true).takeK now (passClk d.n)).upd fun u =>
          u.writePlanes d.prow d.n w2 fun e => m.getD (t.index d e) 0
        (c.later now w h.sba [.cb o.d r' cbAll, .basin bs' (4608 :: (List.range 512).map (4096 + ·)), .s o.c d'.word, .cst mask cst] cause,
          ue)) s

end Sys2Proof.Machine
end

