-- ==== Sys2Proof/Machine/Perform.lean ====
section
/-! DEFINITION. Performing the accesses of the L and S FIFOs: the order of R110, the checks of R117, parking (R118–R121), the
bytes read and written (R103–R107, R111, R112, R123), lookups, coded lines, codebook images, tile operations and atomics, and the
answers that write registers (R102). -/

namespace Sys2Proof.Machine

/-! ## Replay entries (R118, R303) -/

/-- A word's bits, as its encoding gives them. -/
def rawOf (i : Instr) : IWord := (encode i).getD 0

/-- QUEUE of an entry, by the engine of its word. -/
def entryQueue (eng : Nat) : BitVec 2 :=
  match eng with
  | 4 => 2
  | 5 => 3
  | 6 => 1
  | _ => 0

/-- SUB of an entry: OP of an atomic, KIND or OP of a command. -/
def entrySub : Instr → BitVec 8
  | .atom h o => (bits (rawOf (.atom h o)) 10 4).setWidth 8
  | .red h o => (bits (rawOf (.red h o)) 10 4).setWidth 8
  | .cpy h o => (bits (rawOf (.cpy h o)) 14 3).setWidth 8
  | .cred h o => (bits (rawOf (.cred h o)) 14 3).setWidth 8
  | .unv h o => (bits (rawOf (.unv h o)) 14 3).setWidth 8
  | _ => 0

/-- A fresh entry of a word. -/
def newEntry (i : Instr) (cls : Nat) (strm : BitVec 2) (elem : Nat) (addr : Word) (pc : Nat) (owner : Owner) : RqEntry where
  cls := BitVec.ofNat 5 cls
  eng := BitVec.ofNat 3 (instrEng i)
  queue := entryQueue (instrEng i)
  rel := false
  opc := bits (rawOf i) 69 8
  strm := strm
  sub := entrySub i
  elem := BitVec.ofNat 24 elem
  addr := addr
  dlv := false
  pc := pc
  owner := owner

/-- The lowest free entry. -/
def Tile.freeEntry (t : Tile) : Option (BitVec 5) := (t.replay.toList.findIdx? (·.isNone)).map fun n => BitVec.ofNat 5 n

/-- An entry taken or freed; what is written whole has valid ECC (R337). -/
def Tile.setEntry (t : Tile) (n : BitVec 5) (e : Option RqEntry) : Tile :=
  { t with replay := vset t.replay n e, sramUe := t.sramUe.filter fun u => match u with | .rq k _ => k != n | _ => true }
def Tile.freeIf (t : Tile) : Option (BitVec 5) → Tile
  | some n => t.setEntry n none
  | none => t

/-- The cause of a parked entry is raised in user mode; in handler mode it stands in RQSTAT until tret (R293, R295). -/
def Tile.raiseEntry (t : Tile) (n : BitVec 5) : Tile :=
  match t.mode, vget t.replay n with
  | .user, some e => t.raise .user (entryCause n.toNat e) none
  | _, _ => t

/-- An entry taken, or re-parked in place with its new cause (R304). -/
def Tile.park (t : Tile) (n : BitVec 5) (e : RqEntry) : Tile := (t.setEntry n (some e)).raiseEntry n

/-! ## Eligibility (R110, R114, R119, R199, R257, R273, R275) -/

/-- An atomic's ordering flags. -/
def ordOf : Instr → Sys2Proof.Ord
  | .atom _ o => o.ord
  | .acas _ o => o.ord
  | .red _ o => o.ord
  | _ => .none
def atomScope : Instr → Scope
  | .atom _ o => o.scope
  | .acas _ o => o.scope
  | .red _ o => o.scope
  | _ => .p
def ordAcq : Sys2Proof.Ord → Bool
  | .acq | .ar => true
  | .none | .rel => false
def ordRel : Sys2Proof.Ord → Bool
  | .rel | .ar => true
  | .none | .acq => false

/-- Some access of either FIFO that is older in program order has not been performed; words that have not issued count
(log entry 18). -/
def Frame.olderOpen (f : Frame) (id : Nat) : Bool :=
  (f.lf ++ f.sf).any (fun a => decide (a.w.id < id)) || (f.l ++ f.s).any (fun w => decide (w.id < id)) ||
    f.c.any fun w => decide (w.id < id) && (match w.ins with | .cbld .. | .cbst .. => true | _ => false)

/-- An older atomic with .acq has not been performed (R257). -/
def Frame.acqOpen (f : Frame) (id : Nat) : Bool :=
  f.sf.any (fun a => decide (a.w.id < id) && ordAcq (ordOf a.w.ins)) || f.s.any fun w => decide (w.id < id) && ordAcq (ordOf w.ins)

/-- The strand's accesses may be performed (R305, R349). -/
def Tile.performs (t : Tile) : Bool :=
  !t.fence.fenced && (match t.st with | .running | .halting | .preempting => true | _ => false)

/-- Access number k of a FIFO may be performed, unit by unit. -/
def Tile.canPerform (t : Tile) (fr : FrameSel) (q : Fifo) (k : Nat) (a : Access) : Bool :=
  let f := t.frameOf fr
  let older := (f.fifo q).take k
  t.performs && a.cls != .order && older.all (fun b => b.cls != a.cls && b.cls != .order) && !f.acqOpen a.w.id &&
    (!ordRel (ordOf a.w.ins) || (!f.olderOpen a.w.id && (atomScope a.w.ins != .x || t.unacked == 0))) &&
    (a.cls != .ring || older.isEmpty)

/-- Two pieces share a byte. -/
def Piece.meets (p r : Piece) : Bool :=
  match p.place, r.place with
  | .glob a, .glob b => rangesMeet a.toNat p.n b.toNat r.n
  | .buf t b o, .buf t' b' o' => t == t' && b == b' && rangesMeet o p.n o' r.n
  | _, _ => false

def UState.finished : UState → Bool
  | .done | .refused | .dropped => true
  | .todo | .parked _ | .stopped => false

/-- The planes that a line load writes are reserved (R199). -/
def Tile.ixldHeld (t : Tile) (a : Access) : Bool :=
  match a.w.ins, a.args with
  | .ixld _ _, d :: _ => t.held199 a.w.id true .ab (planeSpan d).1 (planeSpan d).2
  | _, _ => false

/-- A piece of a tile's own buffer is reserved by an older matrix command (R199). -/
def Tile.pieceHeld (t : Tile) (own : TileId) (a : Access) (q : Fifo) (p : Piece) : Bool :=
  match p.place with
  | .buf n b off => n == own && t.held199 a.w.id (q == .s) b off (if (match a.w.ins with | .cbld .. => true | _ => false) then 1032 else p.n)
  | .glob _ => false

/-- The pieces of a unit that are still to be performed. -/
def MUnit.rest (u : MUnit) : List Piece := if u.left.isEmpty then u.pieces else u.left.map Prod.fst

/-- Unit e of an access is ready: not parked unless released; writes of one word to one byte go in ascending order (R104, R258),
and lines of one tensor too (R171). Whether two lanes name one byte is judged by their virtual addresses (log entry 60). -/
def Tile.unitReady (t : Tile) (own : TileId) (q : Fifo) (a : Access) (e : Nat) (u : MUnit) : Bool :=
  let before := a.units.take e
  (match u.st with
    | .todo => true
    | .stopped => t.freeEntry.isSome
    | .parked n => (match vget t.replay n with | some x => x.rel | none => false)
    | .done | .refused | .dropped => false) &&
    (q == .l || before.all fun v => v.st.finished || v.rest.all fun r => u.pieces.all fun p => !p.meets r) &&
    (match a.w.ins with
      | .ixld .. => before.all (fun v => v.st.finished || (match v.st with | .parked _ => true | _ => false)) && !t.ixldHeld a
      | _ => true) &&
    u.pieces.all fun p => !t.pieceHeld own a q p

/-! ## Changing an access in its FIFO -/

def Tile.setAccess (t : Tile) (fr : FrameSel) (q : Fifo) (k : Nat) (a : Access) : Tile :=
  t.updFrameOf fr fun f => f.setFifo q (setAt (f.fifo q) k a)

def Access.setUnit (a : Access) (e : Nat) (u : MUnit) : Access := { a with units := setAt a.units e u }

/-- Bytes put into a register's image. -/
def putBytes (l : List Byte) (at_ : Nat) (bs : List Byte) : List Byte := l.take at_ ++ bs ++ l.drop (at_ + bs.length)

/-- An access of a word that answers: a load, or an atomic that returns its old value. -/
def answers : Instr → Bool
  | .atom .. | .acas .. => true
  | i => queuesOf i == [.l] || (match i with | .cbld .. => true | _ => false)

/-- The causes that a finished access raises: zeros it consumed, then a FENCED or absent answer (R54, R338). -/
def Access.causes (t : Tile) (fr : FrameSel) (a : Access) : List (FrameSel × Cause) :=
  let mk (cls : Nat) (tval : Word) : FrameSel × Cause :=
    (fr, { code := causeCode cls (instrEng a.w.ins), pc := a.w.pc, tval := tval, rq := none, xw := false, id := a.w.id })
  (match a.ue with | some v => if t.trapsUe then [mk 19 v] else [] | none => []) ++
    (match a.refused with | some v => [mk 10 v] | none => [])

/-- An access with every unit finished leaves its FIFO: a store has done its work and raises what it met; a load goes to wait for
its answer. -/
def Tile.leaveFifo (t : Tile) (fr : FrameSel) (q : Fifo) (k : Nat) : Tile :=
  match ((t.frameOf fr).fifo q)[k]? with
  | none => t
  | some a =>
    if a.units.all (fun u => u.st.finished) then
      let t := (t.updFrameOf fr fun f => f.setFifo q (dropAt (f.fifo q) k))
      let t := t.clearOrders fr
      if answers a.w.ins then t.updFrameOf fr fun f => { f with ans := f.ans ++ [a] }
      else t.raiseAll (a.causes t fr)
    else t

/-! ## Faults of a unit -/

/-- A lookup restarts from its first table (R238). -/
def Access.restart (a : Access) : Access :=
  match a.w.ins, a.args with
  | .kvlook .., [_, _, _, pos, _, _, _, t0] =>
    { a with args := [t0, 1, 0, pos, 0, 0, 0, t0], units := a.units.map fun u => { u with pieces := [⟨0, .glob t0, 16⟩], left := [] } }
  | _, _ => a

/-- Unit e fails a check of R117: in user mode it parks, or parks again, or finds no entry and stops its queue, which raises
class 22 once for the stop (R121); in the handler's frame the cause is a handler fault. A user access that parks after a halt in handler mode
stays parked (log entry 84). -/
def Chip.parkUnit (c : Chip) (fr : FrameSel) (q : Fifo) (k e : Nat) (a : Access) (u : MUnit) (cls va : Nat) : Chip :=
  let i := a.w.ins
  let addr := BitVec.ofNat 64 va
  match fr with
  | .handler => c.upd fun t => t.raise .handler
      { code := causeCode cls (instrEng i), pc := a.w.pc, tval := addr, rq := none, xw := false, id := a.w.id } none
  | .user => c.upd fun t =>
      let entry := newEntry i cls 0 u.no addr a.w.pc (.access q a.w.id u.no)
      let at_ (n : BitVec 5) : Tile :=
        (t.setAccess fr q k (a.setUnit e { u with st := .parked n }).restart).park n entry
      match u.st with
      | .parked n => at_ n
      | st =>
        match t.freeEntry with
        | some n => at_ n
        | none =>
          let s := t.setAccess fr q k (a.setUnit e { u with st := .stopped })
          if st = .stopped then t
          else if stopsQueue ((t.frameOf fr).fifo q) then s
          else s.raise .user
            { code := causeCode 22 (instrEng i), pc := a.w.pc, tval := addr, rq := none, xw := false, id := a.w.id } none

/-- A scratchpad address as the strand names it (R99). -/
def spWord (own n : TileId) (peer : Bool) (b : Buf) (off : Nat) : Word :=
  if peer || n != own then 0#38 ++ 1#1 ++ tileRank n ++ b.code ++ BitVec.ofNat 20 off else 0#42 ++ b.code ++ BitVec.ofNat 20 off
def Place.word (own : TileId) (peer : Bool) : Place → Word
  | .glob va => va
  | .buf n b off => spWord own n peer b off

/-- The address of a unit's first piece: the fault address (R297) of what the machine finds there. -/
def MUnit.addr (u : MUnit) (own : TileId) : Word := (u.pieces.head?.map fun p => p.place.word own false).getD 0

/-- The entry of a unit freed (R304). -/
def Tile.unpark (t : Tile) (u : MUnit) : Tile :=
  match u.st with
  | .parked n => t.setEntry n none
  | _ => t

/-- Unit e is answered FENCED or absent: it performs nothing and counts as performed (R100, R122). -/
def Chip.refuseUnit (c : Chip) (fr : FrameSel) (q : Fifo) (k e : Nat) (a : Access) (u : MUnit) : Chip :=
  let addr := (u.pieces.head?.map fun p => p.place.word c.focus (a.cls == .peer)).getD 0
  c.upd fun t =>
    ((t.unpark u).setAccess fr q k { a.setUnit e { u with st := .refused } with refused := a.refused <|> some addr }).leaveFifo fr q k

/-- The access ends without its result: it leaves its FIFO with every entry it holds, its tag is written at once, its register unchanged, and
its cause is raised (R54, R162, R171, R238). -/
def Chip.failAccess (c : Chip) (now : Nat) (fr : FrameSel) (q : Fifo) (k : Nat) (a : Access) (cls : Nat) (tval : Word) : Chip :=
  c.upd fun t =>
    let u : Tile := ((a.units.foldl Tile.unpark t).updFrameOf fr fun f => (f.setFifo q (dropAt (f.fifo q) k)).writeTag a.w.ins.hdr.sba a.w.id).clearOrders fr
    ({ u with quiet := now } : Tile).raiseAll (a.causes t fr ++
      [(fr, { code := causeCode cls (instrEng a.w.ins), pc := a.w.pc, tval := tval, rq := none, xw := false, id := a.w.id })])

/-! ## Pieces resolved, read and written -/

/-- The fate of a unit's checks: its pieces with their physical spans, a fault, an absent or FENCED target, or a wait. -/
inductive Fate where
  | ok (ps : List (Piece × List (Nat × Nat)))
  | bad (cls : Nat) (va : Nat)
  | refused
  | busy (lines : List (Nat × Nat))
deriving DecidableEq, Repr

/-- Two fates of one unit: the fault of lowest address comes first (R214), then a refusal, then a wait. -/
def Fate.and : Fate → Fate → Fate
  | .bad k v, .bad m w => if w < v then .bad m w else .bad k v
  | .bad k v, _ => .bad k v
  | _, .bad m w => .bad m w
  | .refused, _ | _, .refused => .refused
  | .busy a, .busy b => .busy (a ++ b)
  | .busy a, .ok _ | .ok _, .busy a => .busy a
  | .ok a, .ok b => .ok (a ++ b)

/-- The checks of R117 on every piece; a buffer piece was checked at issue, and its tile may have been fenced since (R100). -/
def Chip.resolvePieces (c : Chip) (who : Waiter) (eng : Nat) (kind : AccKind) : List Piece → Chip × Fate
  | [] => (c, .ok [])
  | p :: r =>
    let (c, f) := match p.place with
      | .buf n _ _ => (c, if (c.tileAt n).fence.fenced && n != c.focus then Fate.refused else .ok [(p, [])])
      | .glob va =>
        let (c, x) := c.checkSpan who eng kind va.toNat p.n
        (c, match x with
          | .ok spans => Fate.ok [(p, spans)]
          | .bad k v => .bad k v
          | .absent => .refused
          | .busy ls => .busy ls)
    let (c, g) := Chip.resolvePieces c who eng kind r
    (c, f.and g)

/-- Some piece lies in another member's memory. -/
def anyRemote (ps : List (Piece × List (Nat × Nat))) : Bool := ps.any fun p => p.2.any fun s => keyRemote s.1

/-- One piece read. -/
def Chip.readPiece (c : Chip) (who : Waiter) (peer : Bool) (code : BitVec 8) (p : Piece × List (Nat × Nat)) : Chip × List Byte × Option Word :=
  match p.1.place with
  | .buf n b off => c.readTileBuf c.focus n peer b off p.1.n code
  | .glob _ => c.readSpans who code p.2

/-- The pieces of a unit read into a register's image. -/
def Chip.readPieces (c : Chip) (who : Waiter) (peer : Bool) (code : BitVec 8) (ps : List (Piece × List (Nat × Nat))) (got : List Byte) :
    Chip × List Byte × Option Word :=
  ps.foldl (fun (x : Chip × List Byte × Option Word) p =>
    let (c, bs, ue) := x
    let (c, b, u) := c.readPiece who peer code p
    (c, putBytes bs p.1.at_ b, ue <|> u)) (c, got, none)

/-- The pieces of a unit written, in order: the last row that covers a byte stands (R211). -/
def Chip.writePieces (c : Chip) (ps : List (Piece × List (Nat × Nat))) (data : List Byte) : Chip :=
  ps.foldl (fun c p =>
    let bs := (data.drop p.1.at_).take p.1.n
    match p.1.place with
    | .buf n b off => c.writeTileBuf c.focus n b off bs
    | .glob _ => c.writeSpans c.focus p.2 bs) c

/-! ## Read counts (R123) -/

/-- Words whose reads take counts: plain loads and ldt. -/
def takesCount : Instr → Bool
  | .ldb .. | .ldh .. | .ldw .. | .ldd .. | .ldv .. | .ldvs .. | .ldg .. | .ldmx .. | .ldt .. => true
  | _ => false

/-- The counts that a read takes: each physical line once per word, whatever its elements. -/
def Chip.takeCounts (c : Chip) (a : Access) (ps : List (Piece × List (Nat × Nat))) : Chip × Access :=
  if !takesCount a.w.ins then (c, a)
  else
    let fresh := (((ps.flatMap fun p => p.2).flatMap fun s => linesOf s.1 s.2).eraseDups).filter fun l => !a.counted.contains l
    (fresh.foldl Chip.takeCount c, { a with counted := a.counted ++ fresh })

/-! ## Units performed -/

/-- Unit e has been performed: its entry is freed, and its access may leave. -/
def Chip.finishUnit (c : Chip) (fr : FrameSel) (q : Fifo) (k e : Nat) (a : Access) (u : MUnit) : Chip :=
  c.upd fun t => ((t.unpark u).setAccess fr q k (a.setUnit e { u with st := .done })).leaveFifo fr q k

/-- Stores to another member await its acknowledgement (R125). -/
def Chip.awaitAck (c : Chip) (ps : List (Piece × List (Nat × Nat))) : Chip :=
  if anyRemote ps then c.upd fun t => { t with unacked := t.unacked + 1 } else c

/-- A unit whose pieces are performed in one step. -/
def Chip.performPlain (c : Chip) (fr : FrameSel) (q : Fifo) (k e : Nat) (a : Access) (u : MUnit)
    (ps : List (Piece × List (Nat × Nat))) : Chip :=
  match q with
  | .l =>
    let (c, got, ue) := c.readPieces (.word c.focus a.w.id) (a.cls == .peer) (causeCode 19 (instrEng a.w.ins)) ps a.got
    let (c, a) := c.takeCounts a ps
    c.finishUnit fr q k e { a with got := got, ue := a.ue <|> ue } u
  | .s => ((c.writePieces ps a.data).awaitAck ps).finishUnit fr q k e a u

/-! ## kvlook (R237, R238) -/

/-- A header or an entry of a table has been read. -/
def Chip.kvStep (c : Chip) (now : Nat) (fr : FrameSel) (q : Fifo) (k e : Nat) (a : Access) (u : MUnit) (bs : List Byte) : Chip :=
  match a.args with
  | [t, level, sl, pos, parent, _, stage, t0] =>
    let next (args : List Word) (at_ : Word) (n : Nat) : Chip :=
      c.upd fun x => x.setAccess fr q k ({ a with args := args }.setUnit e { u with pieces := [⟨0, .glob at_, n⟩], left := [] })
    let answer (x : Word) : Chip := c.finishUnit fr q k e { a with got := toBytes 8 x } u
    let fail (cls : Nat) : Chip := c.failAccess now fr q k a cls t
    let g := pos >>> 4
    let inherit_ (p s : Word) : Chip := if level = 4 ∨ p = 0 then fail 27 else next [p, level + 1, s, pos, 0, 0, 0, t0] p 16
    if stage = 0 then
      let h0 : Word := ofBytes 64 (bs.take 8)
      let h1 : Word := ofBytes 64 ((bs.drop 8).take 8)
      let sl' : Word := (bits h1 32 8).setWidth 64
      let n : Word := (bits h1 0 32).setWidth 64
      if t.toNat % 16 ≠ 0 then fail 5
      else if bits h0 48 16 ≠ 0 ∨ bits h1 40 24 ≠ 0 ∨ sl' < 6 ∨ 16 < sl' ∨ (level ≠ 1 ∧ sl' ≠ sl) then fail 2
      else if g < n then next [t, level, sl', pos, h0, n, 1, t0] (t + 16 + g * 8) 8
      else inherit_ h0 sl'
    else
      let x : Word := ofBytes 64 bs
      if bits x 48 16 ≠ 0 ∨ bits x 0 7 ≠ 0 then fail 2
      else if x ≠ 0 then answer (x + ((pos &&& 15) <<< sl.toNat))
      else inherit_ parent sl
  | _ => c

/-! ## ixld (R38, R171) -/

/-- The planes of a line's indices written. -/
def Tile.writeLine (t : Tile) (d : Desc) (l : Nat) (f : Nat → Nat) : Tile :=
  let cap := lineCap d.w
  let idx (e : Nat) : Nat := if l * cap ≤ e ∧ e < (l + 1) * cap then f (e - l * cap) else t.index d e
  let last := decide (d.n ≤ (l + 1) * cap)
  let lo := l * cap / 1024
  let hi := if last then d.rows else ((l + 1) * cap - 1) / 1024 + 1
  (List.range d.w).foldl (fun t p => t.writeBuf .ab ((d.prow + p * d.rows + lo) * 128)
    ((List.range ((hi - lo) * 128)).map fun b =>
      let e0 := (lo * 128 + b) * 8
      BitVec.ofNat 8 ((List.range 8).foldl (fun a j =>
        if e0 + j < d.n ∧ (idx (e0 + j)).testBit p then a + 2 ^ j else a) 0))) t

/-- A line's indices written to their planes, over the failing words that they meet (R337). -/
def Chip.writeLine (c : Chip) (d : Desc) (l : Nat) (f : Nat → Nat) : Chip :=
  (c.meetPlanes d.prow d.n d.w fun e => e / lineCap d.w == l).upd fun t => t.writeLine d l f

/-- A line whose CRC fails is counted as a consumed uncorrectable error (R38): KIND 1, the CRC difference as its syndrome. -/
def Chip.crcEvent (c : Chip) (bs : List Byte) (spans : List (Nat × Nat)) (code : BitVec 8) : Chip :=
  let pa : BitVec 56 := match spans with
    | (k, _) :: _ => c.member ++ BitVec.ofNat 48 (k / 128 * 128)
    | [] => 0
  let h : Word := ofBytes 64 (bs.take 8)
  (c.recordSynd (tileDie c.focus) (tileBank c.focus) true 1 pa (bits h 32 8 ^^^ crc8 (bs.drop 8)) c.focus code).upd Tile.askCancel

/-- A coded line has been read. -/
def Chip.ixldStep (c : Chip) (now : Nat) (fr : FrameSel) (q : Fifo) (k e : Nat) (a : Access) (u : MUnit) (bs : List Byte)
    (spans : List (Nat × Nat)) : Chip :=
  match a.args with
  | [dw, fails] =>
    let d := descOf dw
    match lineFate bs u.no d.n d.w d.cbid.toNat d.etag.toNat with
    | .bad cls => c.failAccess now fr q k a cls (u.addr c.focus)
    | .zeros =>
      let code := causeCode 19 1
      let c := (c.crcEvent bs spans code).writeLine d u.no fun _ => 0
      let tv := (spans.head?.map fun s => lineTval c (s.1 / 128)).getD 0
      c.finishUnit fr q k e { a with args := [dw, fails + 1], ue := a.ue <|> some tv } u
    | .good => (c.writeLine d u.no (lineSlot bs d.w)).finishUnit fr q k e a u
  | _ => c

/-! ## cbld (R162) -/

/-- A codebook image read whole, as one split element: its header, then its entries' extent, then all of it. -/
def Chip.cbldStep (c : Chip) (now : Nat) (fr : FrameSel) (q : Fifo) (k e : Nat) (a : Access) (u : MUnit) (p : Piece)
    (ps : List (Piece × List (Nat × Nat))) : Chip :=
  let code := causeCode 19 6
  let (c, hd, ue) := c.readPieces (.word c.focus a.w.id) false code ps (List.replicate 8 0)
  let h : Word := ofBytes 64 hd
  let n := (bits h 0 9).toNat
  let len := 8 + n * cbSize (cbTyOf (bits h 9 2))
  let a := { a with ue := a.ue <|> ue }
  let fail (cls : Nat) (tval : Word) : Chip := c.failAccess now fr q k a cls tval
  let whole : Piece := ⟨0, p.place, len⟩
  let beyond := match p.place with
    | .buf _ b off => decide (b.size < off + len)
    | .glob _ => false
  let tv := p.place.word c.focus false
  if bits h 11 53 ≠ 0 ∨ n = 0 then fail 2 tv
  else if 256 < n then fail 15 tv
  else if beyond then fail 9 tv
  else if c.tile.pieceHeld c.focus a q whole then c
  else
    let (c, f) := c.resolvePieces (.word c.focus a.w.id) 6 .read [whole]
    match f with
    | .ok ps =>
      let (c, bs, ue) := c.readPieces (.word c.focus a.w.id) false code ps (List.replicate len 0)
      c.finishUnit fr q k e { a with got := bs, ue := a.ue <|> ue } u
    | .bad cls va => c.parkUnit fr q k e a u cls va
    | .refused => c.refuseUnit fr q k e a u
    | .busy ls => c.awaitBlocks (.word c.focus a.w.id) 6 ls

/-! ## Atomics (R255, R256) -/

/-- Operations at a home slice on w-bit values. -/
def atomOp (op : AtomOp) (w old x : Nat) : Nat :=
  let lt (a b : Nat) : Bool := decide ((BitVec.ofNat w a).toInt < (BitVec.ofNat w b).toInt)
  match op with
  | .add => (old + x) % 2 ^ w
  | .and => old &&& x
  | .or => old ||| x
  | .xor => old ^^^ x
  | .min => if lt x old then x else old
  | .max => if lt old x then x else old
  | .minn => Nat.min old x
  | .maxn => Nat.max old x
  | .swap => x
  | .fadd => (fop2 .f32 ⟨.rne, false, false⟩ Fmt.add old x).bits

def redAsAtom : RedOp → AtomOp
  | .add => .add
  | .or => .or
  | .min => .min
  | .max => .max
  | .fadd => .fadd

/-- What an atomic writes over an old value, if it writes (R255). -/
def atomNew (i : Instr) (w old x y : Nat) : Option Nat :=
  match i with
  | .atom _ o => some (atomOp o.op w old x)
  | .acas _ _ => if old = x then some y else none
  | .red _ o => some (atomOp (redAsAtom o.op) w old x)
  | _ => none

/-- An element of an atomic or reduction performed: one read and one write at H(a). -/
def Chip.performAtomic (c : Chip) (fr : FrameSel) (q : Fifo) (k e : Nat) (a : Access) (u : MUnit) (p : Piece)
    (ps : List (Piece × List (Nat × Nat))) : Chip :=
  let (c, bs, ue) := c.readPieces (.word c.focus a.w.id) false (causeCode 19 4) ps (List.replicate (p.at_ + p.n) 0)
  let num (l : List Byte) : Nat := (ofBytes 64 (l.take p.n)).toNat
  let old := num (bs.drop p.at_)
  let x := num (a.data.drop p.at_)
  let y := num (a.data.drop 8)
  let c := match atomNew a.w.ins (8 * p.n) old x y with
    | none => c
    | some v => ((c.writePieces ps (List.replicate p.at_ 0 ++ toBytes p.n (BitVec.ofNat 64 v))).awaitAck ps)
  c.finishUnit fr q k e { a with got := toBytes 8 (BitVec.ofNat 64 old), ue := a.ue <|> ue } u

/-! ## Tile operations (R212–R214) -/

/-- The member of a physical span. -/
def keyMember (k : Nat) : Nat := k / 2 ^ 48

/-- A tile operation whose pages all passed: class 11 if they lie in two modules, where an entry found since the issue says so (log entry
19), else one step, whatever SCOPE says (log entry 61). -/
def Chip.performTile (c : Chip) (now : Nat) (fr : FrameSel) (q : Fifo) (k e : Nat) (a : Access) (u : MUnit)
    (ps : List (Piece × List (Nat × Nat))) : Chip :=
  let ms := ((ps.flatMap fun p => p.2).map fun s => keyMember s.1).eraseDups
  if 1 < ms.length then c.failAccess now fr q k a 11 (u.addr c.focus)
  else c.performPlain fr q k e a u ps

/-! ## rpub and rfree (R273, R275) -/

def SlotState.code : SlotState → Nat
  | .empty => 0
  | .pclaim => 1
  | .full => 2
  | .cclaim => 3

/-- The owner of a ring register's base, its buffer and its offset. -/
def ringOwner (own : TileId) (base : Word) : TileId := (spPlace base 0).tile own
def ringBuf (base : Word) : Buf := (spPlace base 0).buf
def ringOff (base : Word) : Nat := (bits base 0 20).toNat

/-- A slot of the owner's ring set. -/
def Tile.setSlot (t : Tile) (b : Buf) (off seq : Nat) (x : SlotState) : Tile :=
  { t with rings := t.rings.map fun r => if r.buf = b ∧ r.off = off then { r with slots := setAt r.slots (seq % r.slots.length) x } else r }

/-- A claimed slot of a ring becomes FULL or EMPTY at its owner. -/
def Chip.slotRelease (c : Chip) (r : RingReg) (n : Nat) (pub : Bool) : Chip :=
  c.updAt (ringOwner c.focus r.base) fun t => t.setSlot (ringBuf r.base) (ringOff r.base) n (if pub then .full else .empty)

/-- The oldest claim of a ring register goes: the slot becomes FULL or EMPTY (R273, R275, R232). -/
def Chip.ringRelease (c : Chip) (g : GReg) (pub : Bool) : Chip :=
  let r := c.tile.getG g
  match (if pub then r.prod else r.cons) with
  | [] => c
  | n :: rest => (c.slotRelease r n pub).upd fun t => t.setG g (if pub then { r with prod := rest } else { r with cons := rest })

/-- The class that an rpub or rfree raises when it is performed (R276). -/
def Chip.claimFate (c : Chip) (r : RingReg) (pub : Bool) : Option Nat :=
  let own := ringOwner c.focus r.base
  if !r.conf || (if pub then r.prod else r.cons).isEmpty then some 25
  else if (c.tileAt own).fence.fenced && own != c.focus then some 10
  else none
def Chip.ringFate (c : Chip) (g : GReg) (pub : Bool) : Option Nat := c.claimFate (c.tile.getG g) pub

/-- rpub or rfree performed. -/
def Chip.performRing (c : Chip) (fr : FrameSel) (q : Fifo) (k : Nat) (a : Access) : Chip :=
  let gone (c : Chip) : Chip := c.upd fun t => (t.updFrameOf fr fun f => f.setFifo q (dropAt (f.fifo q) k)).clearOrders fr
  let cause (cls : Nat) : Cause := { code := causeCode cls (instrEng a.w.ins), pc := a.w.pc, tval := 0, rq := none, xw := false, id := a.w.id }
  let go (g : GReg) (pub : Bool) : Chip :=
    let (c, ue) := c.scrubRegs (·.inReg (.g g)) (causeCode 19 (instrEng a.w.ins))
    let c := match c.ringFate g pub with
      | none => gone (c.ringRelease g pub)
      | some cls => (gone c).upd fun t => t.raise fr (cause cls) none
    if ue.isSome && c.tile.trapsUe then c.upd fun t => t.raise fr (cause 19) none else c
  match a.w.ins with
  | .rpub _ g => go g true
  | .rfree _ g => go g false
  | _ => c

/-! ## One attempt at a unit -/

/-- How a word's units are performed. -/
inductive PerfKind where
  | plain | atomic | tile
deriving DecidableEq, Repr

def perfKind : Instr → PerfKind
  | .atom .. | .acas .. | .red .. => .atomic
  | .ldt .. | .stt .. => .tile
  | _ => .plain

def accKind (i : Instr) (q : Fifo) : AccKind :=
  match perfKind i, q with
  | .atomic, _ => .atomic
  | _, .l => .read
  | _, .s => .write

/-- A unit that passed its checks is performed as its word says. -/
def Chip.performUnit (c : Chip) (now : Nat) (fr : FrameSel) (q : Fifo) (k e : Nat) (a : Access) (u : MUnit)
    (ps : List (Piece × List (Nat × Nat))) : Chip :=
  let code := causeCode 19 (instrEng a.w.ins)
  match a.w.ins, ps with
  | .kvlook .., _ =>
    let (c, bs, ue) := c.readPieces (.word c.focus a.w.id) false code ps (List.replicate 16 0)
    c.kvStep now fr q k e { a with ue := a.ue <|> ue } u bs
  | .ixld .., (_, spans) :: _ =>
    let (c, bs, ue) := c.readPieces (.word c.focus a.w.id) false code (ps.map fun p => ({ p.1 with at_ := 0 }, p.2)) (List.replicate 128 0)
    c.ixldStep now fr q k e { a with ue := a.ue <|> ue } u bs spans
  | .cbld .., (p, _) :: _ => c.cbldStep now fr q k e a u p ps
  | .atom .., (p, _) :: _ => c.performAtomic fr q k e a u p ps
  | .acas .., (p, _) :: _ => c.performAtomic fr q k e a u p ps
  | .red .., (p, _) :: _ => c.performAtomic fr q k e a u p ps
  | .ldt .., _ => c.performTile now fr q k e a u ps
  | .stt .., _ => c.performTile now fr q k e a u ps
  | _, _ => c.performPlain fr q k e a u ps

/-- Words whose global accesses are contiguous: what lies in one line is performed in one step (R107, R118). -/
def joins : Instr → Bool
  | .ldv .. | .stv .. | .ldmx .. | .stmx .. => true
  | _ => false

/-- Words whose units are performed each in one step: a lookup's read, a coded line, a codebook image, an atomic, a tile operation (log
entry 23). -/
def oneStep : Instr → Bool
  | .kvlook .. | .ixld .. | .cbld .. | .atom .. | .acas .. | .red .. | .ldt .. | .stt .. => true
  | _ => false

/-- The parts of an access that are performed separately: the numbers of their units, and the line that these share; for a contiguous
word every unit that has bytes in the line, else one unit. -/
def Access.parts (a : Access) : List (List Nat × Option Nat) :=
  let us := a.units.zipIdx
  if joins a.w.ins && a.cls == .g then
    ((a.units.flatMap MUnit.pieces).map Piece.line).eraseDups.map fun l =>
      ((us.filter fun x => x.1.pieces.any fun p => p.line == l).map Prod.snd, l)
  else us.flatMap fun x => (x.1.pieces.map Piece.line).eraseDups.map fun l => ([x.2], l)

/-- A line part whose last element runs into the next line, parted: the elements before it, and that element (R118). -/
def MUnit.straddler (u : MUnit) : Option (MUnit × MUnit) :=
  match u.pieces.reverse with
  | y :: x :: p :: r => if x.line == y.line then none else some ({ u with pieces := (p :: r).reverse }, { u with pieces := [x, y], st := .refused })
  | _ => none

/-- A unit reaches an absent member or a fenced tile: it is refused; of a line part whose last element alone does, that element (R122). -/
def Chip.refusePart (c : Chip) (fr : FrameSel) (q : Fifo) (k e : Nat) (a : Access) (u : MUnit) : Chip :=
  match u.straddler with
  | none => c.refuseUnit fr q k e a u
  | some (v, x) =>
    let (d, f) := c.resolvePieces (.word c.focus a.w.id) (instrEng a.w.ins) (accKind a.w.ins q) v.pieces
    match f with
    | .refused => c.refuseUnit fr q k e a u
    | _ =>
      let b := a.setUnit e v
      d.upd fun t => t.setAccess fr q k { b with units := b.units ++ [x], refused := a.refused <|> some (x.addr c.focus) }

/-- A unit of an access is checked whole before any of it is performed (R33, R117): it passes, parks, is refused or waits; the answer
says whether it waits. -/
def Chip.checkUnit (fr : FrameSel) (q : Fifo) (k id : Nat) (x : Chip × Bool) (e : Nat) : Chip × Bool :=
  let (c, wait) := x
  match ((c.tile.frameOf fr).fifo q)[k]? with
  | none => x
  | some a =>
    match a.units[e]? with
    | none => x
    | some u =>
      if a.w.id ≠ id ∨ !u.left.isEmpty ∨ !c.tile.unitReady c.focus q a e u then x
      else
        let (d, f) := c.resolvePieces (.word c.focus a.w.id) (instrEng a.w.ins) (accKind a.w.ins q) u.pieces
        match f with
        | .busy ls => (d.awaitBlocks (.word d.focus a.w.id) (instrEng a.w.ins) (if q = .l then ls else tableLines ls), true)
        | .bad cls va => (d.parkUnit fr q k e a u cls va, wait)
        | .refused => (d.refusePart fr q k e a u, wait)
        | .ok ps =>
          let st := match u.st with | .stopped => .todo | s => s
          (d.upd fun t => t.setAccess fr q k (a.setUnit e { u with left := ps, st := st }), wait)

/-- The pieces of an access performed; a unit of which nothing is left is done, and its entry is freed. -/
def Access.took (a : Access) (us : List Nat) (l : Option Nat) : Access :=
  { a with units := a.units.zipIdx.map fun (u, i) =>
    if us.contains i && !u.left.isEmpty then
      let rest := u.left.filter fun p => p.1.line != l
      { u with left := rest, st := if rest.isEmpty then .done else u.st }
    else u }

/-- Entries of units that a step has finished are freed (R304). -/
def Tile.freeDone (t : Tile) (before after : List MUnit) : Tile :=
  (before.zip after).foldl (fun t x => if x.2.st == .done then t.unpark x.1 else t) t

/-- The captured data that released entries hold, read: failing words become zeros, which the access consumes (R336–R338). -/
def Chip.readEntries (c : Chip) (fr : FrameSel) (q : Fifo) (k eng : Nat) (us : List MUnit) : Chip :=
  let held (n : BitVec 5) : Bool := us.any fun u => u.st == .parked n
  let (d, ue) := c.scrubRegs (fun u => match u with | .rq n w => held n && decide (2 ≤ w) | _ => false) (causeCode 19 eng)
  match ue, ((d.tile.frameOf fr).fifo q)[k]? with
  | some v, some a => d.upd fun t => t.setAccess fr q k { a with ue := a.ue <|> some v }
  | _, _ => d

/-- Part e of access k of a FIFO: its units are checked, and what has passed is performed in one step (R107). -/
def Chip.attemptPart (c : Chip) (fr : FrameSel) (q : Fifo) (k e : Nat) (remote : Bool) (a : Access) : Chip :=
  match a.parts[e]? with
  | none => c
  | some (us, l) =>
    let (d, wait) := us.foldl (Chip.checkUnit fr q k a.w.id) (c, false)
    match ((d.tile.frameOf fr).fifo q)[k]? with
    | none => d
    | some b =>
      let ps := if b.w.id = a.w.id then (us.flatMap fun i => ((b.units[i]?).map MUnit.left).getD []).filter fun p => p.1.line == l else []
      if wait || ps.isEmpty || !d.tile.canPerform fr q k b then (if remote then c else d)
      else if anyRemote ps != remote then c
      else
        match q with
        | .l =>
          let (d, got, ue) := d.readPieces (.word c.focus b.w.id) (b.cls == .peer) (causeCode 19 (instrEng b.w.ins)) ps b.got
          let (d, b) := d.takeCounts b ps
          let b' := { b.took us l with got := got, ue := b.ue <|> ue }
          d.upd fun t => ((t.freeDone b.units b'.units).setAccess fr q k b').leaveFifo fr q k
        | .s =>
          let d := d.readEntries fr q k (instrEng b.w.ins) (us.filterMap fun i => b.units[i]?)
          let b := (((d.tile.frameOf fr).fifo q)[k]?).getD b
          let b' := b.took us l
          ((d.writePieces ps b.data).awaitAck ps).upd fun t => ((t.freeDone b.units b'.units).setAccess fr q k b').leaveFifo fr q k

/-- The machine tries unit or part e of access k of a FIFO: it is performed, parks, is refused, or stays as it was. `remote` says
whether the step is the one that reaches another member's memory (R125, R365). -/
def Chip.attempt (c : Chip) (now : Nat) (fr : FrameSel) (q : Fifo) (k e : Nat) (want : PerfKind) (remote : Bool) : Chip :=
  match ((c.tile.frameOf fr).fifo q)[k]? with
  | none => c
  | some a =>
    if !c.tile.canPerform fr q k a || (!remote && perfKind a.w.ins != want) then c
    else if a.cls == .ring then (if remote then c else c.performRing fr q k a)
    else if !oneStep a.w.ins then c.attemptPart fr q k e remote a
    else
      match a.units[e]? with
      | none => c
      | some u =>
        if !c.tile.unitReady c.focus q a e u then c
        else
          let (d, f) := c.resolvePieces (.word c.focus a.w.id) (instrEng a.w.ins) (accKind a.w.ins q) u.pieces
          match f with
          | .busy ls => d.awaitBlocks (.word d.focus a.w.id) (instrEng a.w.ins) ls
          | .bad cls va => d.parkUnit fr q k e a u cls va
          | .refused => d.refuseUnit fr q k e a u
          | .ok ps =>
            if anyRemote ps != remote then c
            else
              let d := d.readEntries fr q k (instrEng a.w.ins) [u]
              d.performUnit now fr q k e ((((d.tile.frameOf fr).fifo q)[k]?).getD a) u ps

/-- ACCESS_PERFORM (R110–R112). -/
def execAccessPerform (f : FrameSel) (q : Fifo) (k e : Nat) (s : State) : Out :=
  s.lift fun now c => c.attempt now f q k e .plain false
/-- ATOMIC_STEP (R255, R257). -/
def execAtomicStep (f : FrameSel) (k e : Nat) (s : State) : Out := s.lift fun now c => c.attempt now f .s k e .atomic false
/-- TILE_OPERATION_PERFORM (R212–R214). -/
def execTileOperationPerform (f : FrameSel) (q : Fifo) (k : Nat) (s : State) : Out :=
  s.lift fun now c => c.attempt now f q k 0 .tile false
/-- REMOTE_REQUEST (R125, R365): a unit in another member's memory is performed at its owner. -/
def execRemoteRequest (f : FrameSel) (q : Fifo) (k e : Nat) (s : State) : Out :=
  s.lift fun now c => c.attempt now f q k e .plain true

/-- An answer addressed to a fenced tile is discarded and counted (R350). -/
def Chip.orphan (c : Chip) : Chip := c.updDie (tileDie c.focus) fun d => { d with orphcnt := d.orphcnt + 1 }

/-- OWNER_ACKNOWLEDGEMENT (R125, R230): a store of the strand has been performed in another member, or else a write of an engine's command;
one addressed to a fenced tile is discarded and counted (R350). -/
def execOwnerAcknowledgement (s : State) : Out :=
  s.lift fun _ c =>
    let lost := c.tile.fence.fenced && c.tile.unacked != 0
    (if lost then c.orphan else c).upd fun t =>
      if t.unacked ≠ 0 then ({ t with unacked := t.unacked - 1 }.clearOrders .user).clearOrders .handler
      else if t.chan.unacked ≠ 0 then { t with chan := { t.chan with unacked := t.chan.unacked - 1 } }
      else { t with unv := { t.unv with unacked := t.unv.unacked - 1 } }

/-! ## Answers (R54, R102) -/

/-- Bytes of a register's image that have been delivered. -/
def Access.mask (a : Access) (n : Nat) : List Byte :=
  a.units.foldl (fun m u => if u.st == .done || u.st == .dropped then
    u.pieces.foldl (fun m p => putBytes m p.at_ (List.replicate p.n 0xFF)) m else m) (List.replicate n 0)

/-- Some unit was refused. -/
def Access.anyRefused (a : Access) : Bool := a.units.any fun u => u.st == .refused

/-- A scalar load's value (R96). -/
def scalarValue (sz : Nat) (sx : Bool) (bs : List Byte) : Word :=
  let x : Word := ofBytes 64 (bs.take sz)
  if sx then (match sz with
    | 1 => (x.setWidth 8).signExtend 64
    | 2 => (x.setWidth 16).signExtend 64
    | 4 => (x.setWidth 32).signExtend 64
    | _ => x) else x

/-- The writes of ldmx (R34, R105): the planes and scales of the blocks loaded; zeros elsewhere; a refused block's bits stand. -/
def mxWrites (vrb : BitVec 5) (o : MxOp) (a : Access) : List RegWrite × (Word → Word) :=
  let w := mxWidth o.fmt
  let sz := mxBytes w
  let block (b : Nat) : List Byte := (a.got.drop (b * sz)).take sz
  let kept := (a.units.filter fun u => u.st == .refused).map MUnit.no
  let live := (List.range (o.n.toNat + 1)).filter fun b => !kept.contains b
  let x : VWord := live.foldl (fun acc b => (List.range (w / 2)).foldl (fun acc k =>
    putElem 64 acc (8 * k + b) (mxPlane w (mxStream ((block b).take (4 * w))) k)) acc) 0
  let m : VWord := kept.foldl (fun m b => (List.range (w / 2)).foldl (fun m k => putElem 64 m (8 * k + b) (0 : Word)) m) (BitVec.allOnes 2048)
  let sc : Word := live.foldl (fun acc b => putElem 8 acc b (((block b).drop (4 * w)).headD 0)) 0
  let sm : Word := kept.foldl (fun m b => putElem 8 m b (0 : BitVec 8)) (BitVec.allOnes 64)
  ([.v (physV vrb o.d) m x], fun old => blend sm sc old)

/-- What an answered access writes. -/
def Access.writes (t : Tile) (a : Access) : List RegWrite :=
  let w := a.w
  let vec (d : VLdDst) : List RegWrite :=
    let m : VWord := ofBytes 2048 (a.mask 256)
    let x : VWord := ofBytes 2048 a.got
    match d with
    | .v n => [.v (physV w.vrb n) m x]
    | .qi n => [.qi n w.id (x &&& m)]
  let one (d : SReg) (x : Word) : List RegWrite := if a.anyRefused then [] else [.s d x]
  match w.ins with
  | .ldb _ o => one o.d (scalarValue 1 o.sx a.got)
  | .ldh _ o => one o.d (scalarValue 2 o.sx a.got)
  | .ldw _ o => one o.d (scalarValue 4 o.sx a.got)
  | .ldd _ o =>
    if a.anyRefused then [] else match o.d with
      | .s n => [.s n (scalarValue 8 false a.got)]
      | .p n => [.p n (BitVec.allOnes 64) (scalarValue 8 false a.got)]
  | .ldv _ o => vec o.d
  | .ldvs _ o => vec o.d
  | .ldg _ o => vec o.d
  | .lds _ o => vec o.d
  | .ldss _ o => vec o.d
  | .ldmx _ o =>
    let (v, f) := mxWrites w.vrb o a
    v ++ [.s o.scale (f (t.getS o.scale))]
  | .ldt _ o =>
    if a.anyRefused then []
    else (List.range (a.got.length / 256)).map fun j =>
      .v (groupReg w.vrb o.d j) (BitVec.allOnes 2048) (ofBytes 2048 ((a.got.drop (256 * j)).take 256))
  | .kvlook _ o => one o.d (ofBytes 64 (a.got.take 8))
  | .ixld _ o => one o.d ((a.args[1]?).getD 0)
  | .atom _ o => one o.d (ofBytes 64 (a.got.take 8))
  | .acas _ o => one o.d (ofBytes 64 (a.got.take 8))
  | .cbld _ o => if a.anyRefused then [] else [.cb o.d (cbOfImage (t.getCb o.d) a.got) cbAll]
  | _ => []

/-- The result of an answered access. -/
def Access.result (t : Tile) (fr : FrameSel) (now : Nat) (a : Access) : Result where
  id := a.w.id
  frame := fr
  pc := a.w.pc
  due := now
  writes := a.writes t
  flags := 0
  tag := a.w.ins.hdr.sba
  ue := none
  cause := none
  snap := false

/-- The answers awaited, the user frame's first. -/
def Tile.answerAt (t : Tile) (k : Nat) : Option (FrameSel × Nat × Access) :=
  match t.user.ans[k]? with
  | some a => some (.user, k, a)
  | none => (t.hand.ans[k - t.user.ans.length]?).map fun a => (.handler, k - t.user.ans.length, a)

/-- ACCESS_RESPONSE (R54, R102, R122, R338): an answer writes its registers and its tag, and then raises what it carries. -/
def execAccessResponse (k : Nat) (s : State) : Out :=
  s.lift fun now c =>
    match c.tile.answerAt k with
    | none => c
    | some (fr, j, a) =>
      let gone (t : Tile) : Tile := t.updFrameOf fr fun f => { f with ans := dropAt f.ans j }
      if c.tile.fence.fenced then (c.upd gone).orphan
      else if !c.tile.performs || c.tile.lateFor now (resultRefs (a.result c.tile fr now)) then c
      else c.upd fun t =>
        let u := { gone t with quiet := if isLoad a.w.ins then now else t.quiet }
        let u := match a.w.ins with
          | .cbld _ o => u.meetWrite (fun _ => false) (cbHead o.d)
          | _ => u
        (u.land now (a.result t fr now)).raiseAll (a.causes t fr)

/-! ## Atomics, reductions and ring words at issue (R253, R259, R273, R275) -/

/-- An atomic at issue: class 21 in a guarded phase, class 5 when misaligned, else its elements enter the S FIFO. -/
def atomIssue (i : Instr) (k : Pred) (sz : Nat) (els : Tile → QWord → List Elem) (data : Tile → QWord → List Byte) : State → Out :=
  qword .s i k (portRes .s) fun now w t c =>
    let es := els t w
    let odd := es.any fun e => match e.base with
      | .glob va => va.toNat % sz != 0
      | .sp _ => false
    let addr := match es with
      | ⟨_, .glob va, _, _⟩ :: _ => va
      | _ => 0
    if t.inPhase then c.issueFault w i.hdr.sba 21 4 0
    else if odd then c.issueFault w i.hdr.sba 5 4 addr
    else
      let us := elemUnits c.focus es
      (c.upd fun t => t.takePort .s (now + portClk .g false us)).pushAccess .s (newAccess w .g us (data t w) [] 8 0)

def atomBytes (w64 : Bool) : Nat := if w64 then 8 else 4

/-- atom (R253–R257). -/
def execAtom (h : Hdr) (o : AtomOpnd) (s : State) : Out :=
  atomIssue (.atom h o) .bit0 (atomBytes o.w64) (fun t _ => [⟨0, .glob (t.getS o.a), 0, atomBytes o.w64⟩])
    (fun t _ => toBytes 8 (t.getS o.b)) s
/-- acas (R253–R257). -/
def execAcas (h : Hdr) (o : AcasOp) (s : State) : Out :=
  atomIssue (.acas h o) .bit0 (atomBytes o.w64) (fun t _ => [⟨0, .glob (t.getS o.a), 0, atomBytes o.w64⟩])
    (fun t _ => toBytes 8 (t.getS o.b) ++ toBytes 8 (t.getS o.c)) s

def redPred : RedSrc → Pred
  | .s _ => .bit0
  | .v _ => .lanes

/-- red (R253–R258): a scalar, or every enabled lane at a + 4i. -/
def execRed (h : Hdr) (o : RedOpnd) (s : State) : Out :=
  atomIssue (.red h o) (redPred o.d) (match o.d with | .s _ => atomBytes o.w64 | .v _ => 4)
    (fun t w => match o.d with
      | .s _ => [⟨0, .glob (t.getS o.a), 0, atomBytes o.w64⟩]
      | .v _ => memElems (t.effPred w h) 4 fun e => .glob (t.getS o.a + BitVec.ofNat 64 (4 * e)))
    (fun t w => match o.d with
      | .s n => toBytes 8 (t.getS n)
      | .v n => toBytes 256 (t.getV (physV w.vrb n))) s

/-- rpub (R273, R311). -/
def execRpub (h : Hdr) (g : GReg) (s : State) : Out :=
  qword .s (.rpub h g) .bit0 (portRes .s) (fun now w t c =>
    if t.inPhase then c.issueFault w 0 21 4 0
    else (c.upd fun t => t.takePort .s (now + 1)).pushAccess .s (newAccess w .ring [] [] [] 0 0)) s
/-- rfree (R275). -/
def execRfree (h : Hdr) (g : GReg) (s : State) : Out :=
  qword .l (.rfree h g) .bit0 (portRes .l) (fun now w _ c =>
    (c.upd fun t => t.takePort .l (now + 1)).pushAccess .l (newAccess w .ring [] [] [] 0 0)) s

end Sys2Proof.Machine
end

