-- ==== Sys2Proof/Machine/Matrix.lean ====
section
/-! DEFINITION. The matrix engine: its words at issue, its command queue, K-steps, drains, snapshots (R192–R207). The engine runs
its commands one at a time (log entry 17). -/

namespace Sys2Proof.Machine

/-! ## A command's own parts -/

/-- The fields of an mma. -/
def MatCmd.mma (m : MatCmd) : Option MmaOp :=
  match m.w.ins with
  | .mma _ o => some o
  | .mmaw _ o => some o.m
  | _ => none

/-- K-steps of a command. -/
def MatCmd.total (m : MatCmd) : Nat :=
  match m.mma with
  | some o => o.ks.toNat + 1
  | none => 0

/-- Accumulator tiles that a command writes (R203). -/
def MatCmd.tiles (m : MatCmd) : List (BitVec 4) :=
  match m.w.ins with
  | .mma _ o => [o.acc]
  | .mmaw _ o => [o.m.acc]
  | .aclr _ mask => (List.range 16).filterMap fun k => if mask.getLsbD k then some (BitVec.ofNat 4 k) else none
  | .awr _ o => [o.acc]
  | .adrn _ o => if o.za then [o.acc] else []
  | _ => []

/-- The step report of an operation (R195). -/
def MatCmd.reportWord (m : MatCmd) (run : Bool) : Word :=
  (BitVec.ofBool run ++ 0#42 ++ m.fl ++ BitVec.ofNat 8 m.total ++ BitVec.ofNat 8 m.done : BitVec 64)

/-- Offset of an accumulator tile in XB (R194). -/
def accOff (t : BitVec 4) : Nat := t.toNat * 16384

/-! ## Issue (R196–R198, R202–R206) -/

/-- The queue has room, and a coded B's codebook register has no write in flight (R158, R198). -/
def matRes (cb : Option SReg) (_ : Nat) (_ : QWord) (c : Chip) : Bool :=
  decide (c.tile.mat.queue.length < 4) &&
    match cb with
    | none => true
    | some s => let d := descOf (c.tile.getS s); decide (8 < d.w) || !c.tile.cbPending d.cbid

/-- The checks of R190 on a coded B: those of its descriptor alone, and all. -/
def codedShape (d : Desc) (bt : Nat) : Option Nat :=
  match d.fate with
  | some cls => some cls
  | none => if d.n ≠ 32 * bt then some 2 else if 8 < d.w then some 15 else none
def codedFate (t : Tile) (d : Desc) (bt wb : Nat) : Option Nat :=
  let r := t.getCb d.cbid
  let lim : Int := 2 ^ (wb - 1)
  match codedShape d bt with
  | some cls => some cls
  | none =>
    if d.etag ≠ r.tag then some 14
    else if r.ty ≠ .i32 ∨ r.entries.any (fun x => decide ((BitVec.ofNat 32 x).toInt < -lim) || decide (lim ≤ (BitVec.ofNat 32 x).toInt)) then some 2
    else none

/-- The checks of R197 on the operands of the matrix: orders 1 to 3. -/
def mmaPlain (t : Tile) (o : MmaOp) : Option Nat :=
  let a := mdescOf (t.getS o.a)
  let b := mdescOf (t.getS o.b)
  let steps := o.ks.toNat + 1
  let beyond (l : List (Nat × Nat)) (size : Nat) : Bool := l.any fun s => decide (size < s.1 + s.2)
  let bSpans := if o.cb.isSome then [(b.soff, b.bt)] else b.spans (mxWidth o.wb)
  if a.resv ∨ b.resv ∨ a.kt + 1 < a.k0 + steps ∨ b.kt + 1 < b.k0 + steps ∨ (o.cb.isSome ∧ b.poff ≠ 0) then some 2
  else if a.poff % 8 ≠ 0 ∨ a.soff % 8 ≠ 0 ∨ b.poff % 8 ≠ 0 ∨ b.soff % 8 ≠ 0 then some 5
  else if beyond (a.spans (mxWidth o.wa)) 524288 ∨ beyond bSpans 1048576 then some 9
  else none

/-- The checks of R197, in their order. -/
def mmaFate (t : Tile) (o : MmaOp) : Option Nat :=
  match mmaPlain t o, o.cb with
  | some cls, _ => some cls
  | none, none => none
  | none, some s => codedFate t (descOf (t.getS s)) (mdescOf (t.getS o.b)).bt (mxWidth o.wb)

/-- The checks of a coded B reach the head of its codebook register, and its entries. -/
def mmaReach (t : Tile) (o : MmaOp) (k : Nat) : Bool :=
  match o.cb with
  | none => false
  | some s =>
    let d := descOf (t.getS s)
    let r := t.getCb d.cbid
    mmaPlain t o == none && codedShape d (mdescOf (t.getS o.b)).bt == none && (k == 1 || (d.etag == r.tag && r.ty == .i32))

/-- A command enters the queue. -/
def Chip.matPush (c : Chip) (w : QWord) (a b d : Word) (latched : Option Codebook) (val : VWord) (mask : Word) : Chip :=
  c.upd fun t => { t with mat := { t.mat with queue := t.mat.queue ++
    [{ w := w, older := (t.user.lf ++ t.user.sf ++ t.hand.lf ++ t.hand.sf).map fun a => a.w.id, frame := t.cur, a := a, b := b, c := d, latched := latched, val := val, mask := mask, started := false, done := 0,
       fl := 0, ue := none }] } }

/-- mma and mmaw at issue. -/
def mmaIssue (i : Instr) (o : MmaOp) : State → Out :=
  unitWord .c i .bit0 (matRes o.cb) fun _ w t c =>
    let d := match o.cb with | some s => t.getS s | none => 0
    let n := (descOf d).cbid
    let (c, ue) := c.unitReads 3 none fun u => o.cb.isSome && mmaReach t o 1 && cbHead n u
    let (c, ue) := c.unitReads 3 ue fun u => o.cb.isSome && mmaReach c.tile o 2 && cbEnts n (fun e => decide (e < (c.tile.getCb n).count.toNat)) u
    match mmaFate c.tile o with
    | some cls => (c.issueFault w i.hdr.sba cls 3 0, ue)
    | none => (c.matPush w (t.getS o.a) (t.getS o.b) d (o.cb.map fun _ => c.tile.getCb n) 0 0, ue)

/-- mma (R195–R197). -/
def execMma (h : Hdr) (o : MmaOp) (s : State) : Out := mmaIssue (.mma h o) o s
/-- mmaw (R195–R197). -/
def execMmaw (h : Hdr) (o : MmawOp) (s : State) : Out := mmaIssue (.mmaw h o) o.m s
/-- aclr (R202). -/
def execAclr (h : Hdr) (mask : BitVec 16) (s : State) : Out :=
  qword .c (.aclr h mask) .bit0 (matRes none) (fun _ w _ c => c.matPush w 0 0 0 none 0 0) s
/-- awr (R204). -/
def execAwr (h : Hdr) (o : AwrOp) (s : State) : Out :=
  qword .c (.awr h o) .lanes (matRes none) (fun _ w t c => c.matPush w 0 0 0 none (t.vsrc w o.a) (t.effPred w h)) s

/-- The checks of R205: the descriptor, the alignment, the region written (log entry 20). -/
def adrnFate (d : MDesc) (f : DrainFmt) : Option Nat :=
  if d.resv ∨ (if drainMx f then d.kt + 1 < d.k0 + 2 else d.k0 ≠ 0 ∨ d.kt ≠ 0 ∨ d.soff ≠ 0) then some 2
  else if d.poff % 8 ≠ 0 ∨ d.soff % 8 ≠ 0 then some 5
  else if (drainSpans d f).any fun s => decide (524288 < s.1 + s.2) then some 9
  else none

/-- adrn (R205). -/
def execAdrn (h : Hdr) (o : AdrnOp) (s : State) : Out :=
  qword .c (.adrn h o) .bit0 (matRes none) (fun _ w t c =>
    match adrnFate (mdescOf (t.getS o.a)) o.fmt with
    | some cls => c.issueFault w h.sba cls 3 0
    | none => c.matPush w (t.getS o.a) 0 0 none 0 0) s
/-- mstat (R206). -/
def execMstat (h : Hdr) (o : MstatOp) (s : State) : Out :=
  qword .c (.mstat h o) .bit0 (matRes none) (fun _ w _ c => c.matPush w 0 0 0 none 0 0) s

/-- The youngest command in the queue that writes a tile. -/
def youngestWriter (l : List MatCmd) (acc : BitVec 4) : Option Nat :=
  (l.filter fun m => m.tiles.contains acc).getLast?.map fun m => m.w.id

/-- ard at issue (R203): it waits for its snapshot. -/
def execArd (h : Hdr) (o : ArdOp) (s : State) : Out :=
  qword .c (.ard h o) .lanes anyRes (fun _ w t c =>
    c.upd fun u =>
      let u := u.updFrame fun f => reserveRegs f w.id (match o.d with | .qo n => [.qo n] | .v _ => [])
      { u with mat := { u.mat with ards := u.mat.ards ++
        [{ w := w, frame := u.cur, mask := t.effPred w h, after := youngestWriter t.mat.queue o.acc, ue := none }] } }) s

/-! ## Elements and blocks -/

/-- 32-bit values of bytes. -/
def wordsOf : List Byte → List Nat
  | a :: b :: c :: d :: r => (a.toNat + 256 * (b.toNat + 256 * (c.toNat + 256 * d.toNat))) :: wordsOf r
  | _ => []
def bytesOfWords (l : List Nat) : List Byte := l.flatMap fun x => toBytes 4 (BitVec.ofNat 32 x)

/-- The codes of 64 blocks of width w from their plane slices, 512 bytes a plane (R34). -/
def blockCodes (w : Nat) (planes : List (List Byte)) : List (List Int) :=
  (List.range 64).map fun i =>
    let slices := planes.map fun p => (ofBytes 64 ((p.drop (8 * i)).take 8) : BitVec 64)
    (List.range 32).map fun j =>
      let u := slices.zipIdx.foldl (fun a x => a + (elem 2 x.1 j).toNat * 4 ^ x.2) 0
      (BitVec.ofNat w u).toInt

/-- Spans of a buffer read for the engine, with what TVAL names the first failing word. -/
def Chip.matRead (c : Chip) (b : Buf) (spans : List (Nat × Nat)) (ue : Option Word) : Chip × List (List Byte) × Option Word :=
  spans.foldl (fun (x : Chip × List (List Byte) × Option Word) s =>
    let (c, l, ue) := x
    let (c, bs, u) := c.readTileBuf c.focus c.focus false b s.1 s.2 (causeCode 19 3)
    (c, l ++ [bs], ue <|> u)) (c, [], ue)

/-- The plane slices and the scales of K-block kb of an operand. -/
def stepSpans (d : MDesc) (w kb : Nat) : List (Nat × Nat) :=
  (List.range (w / 2)).map fun k => (d.poff + 8 * d.bt * k + 512 * kb, 512)
def stepScales (d : MDesc) (kb : Nat) : Nat × Nat := (d.soff + 64 * kb, 64)

/-- Index plane bytes of the 2,048 codes of K-block kb of a coded B. -/
def codedSpans (d : Desc) (kb : Nat) : List (Nat × Nat) :=
  (List.range d.w).map fun p => ((d.prow + p * d.rows) * 128 + 256 * kb, 256)

/-- The codes of 64 coded blocks (R196): the latched entry, or 0 at or above COUNT. -/
def codedCodes (r : Codebook) (planes : List (List Byte)) : List (List Int) :=
  let vals := planes.map fun p => (ofBytes 2048 p : BitVec 2048)
  (List.range 64).map fun i => (List.range 32).map fun j =>
    let x := vals.zipIdx.foldl (fun a y => if y.1.getLsbD (32 * i + j) then a + 2 ^ y.2 else a) 0
    if x < r.count.toNat then (elem 32 r.entry x).toInt else 0

/-- The sum of code products of two blocks. -/
def dot (a b : List Int) : Int := (a.zip b).foldl (fun s x => s + x.1 * x.2) 0

/-- One K-step of every element of a tile, row by row. -/
def stepTile (wa wb : Nat) (cs : List Nat) (as bs : List (List Int × Nat)) : List FRes :=
  (as.flatMap fun a => bs.map fun b => (a, b)).zip cs |>.map fun x =>
    blockStep x.2 (dot x.1.1.1 x.1.2.1) wa wb x.1.1.2 x.1.2.2

/-- The next K-step of an operation (R196): its operands are read in the step, all at once (log entry 61). -/
def Chip.matStep (c : Chip) (m : MatCmd) (o : MmaOp) : Chip × MatCmd :=
  let a := mdescOf m.a
  let b := mdescOf m.b
  let wa := mxWidth o.wa
  let wb := mxWidth o.wb
  let (c, ap, ue) := c.matRead .ab (stepSpans a wa (a.k0 + m.done)) m.ue
  let (c, asc, ue) := c.matRead .ab [stepScales a (a.k0 + m.done)] ue
  let (c, bcodes, ue) := match m.latched with
    | none =>
      let (c, bp, ue) := c.matRead .wb (stepSpans b wb (b.k0 + m.done)) ue
      (c, blockCodes wb bp, ue)
    | some r =>
      let (c, bp, ue) := c.matRead .ab (codedSpans (descOf m.c) (b.k0 + m.done)) ue
      (c, codedCodes r bp, ue)
  let (c, bsc, ue) := c.matRead .wb [stepScales b (b.k0 + m.done)] ue
  let (c, old, ue) := c.matRead .xb [(accOff o.acc, 16384)] ue
  let sc (l : List (List Byte)) : List Nat := l.flatten.map BitVec.toNat
  let r := stepTile wa wb (wordsOf old.flatten) ((blockCodes wa ap).zip (sc asc)) (bcodes.zip (sc bsc))
  let fl := r.foldl (fun a x => a ||| x.fl) 0
  (c.upd fun t => { t.writeBuf .xb (accOff o.acc) (bytesOfWords (r.map FRes.bits)) with sys := { t.sys with mflags := t.sys.mflags ||| fl } },
    { m with done := m.done + 1, fl := m.fl ||| fl, ue := ue })

/-- A tile set to +0. -/
def Tile.clearAcc (t : Tile) (acc : BitVec 4) : Tile :=
  (t.zeroWords .xb (t.badWords .xb (accOff acc) 16384)).writeBuf .xb (accOff acc) (List.replicate 16384 0)

/-! ## Start, steps, completion -/

/-- Some ard that must see a tile before a command writes it has not taken its snapshot. -/
def Tile.ardWaits (t : Tile) (m : MatCmd) : Bool :=
  t.mat.ards.any fun r => decide (r.w.id < m.w.id) && (match r.w.ins with | .ard _ o => m.tiles.contains o.acc | _ => false)

def Tile.setHead (t : Tile) (m : MatCmd) : Tile := { t with mat := { t.mat with queue := m :: t.mat.queue.tail } }

/-- MATRIX_COMMAND_START (R196, R198): the oldest command starts; ZA clears the tile. -/
def execMatrixCommandStart (s : State) : Out :=
  s.lift fun _ c => c.upd fun t =>
    match t.mat.queue with
    | [] => t
    | m :: _ =>
      if m.started || !t.performs || t.ardWaits m then t
      else
        let t := t.setHead { m with started := true }
        match m.mma with
        | some o => if o.za then t.clearAcc o.acc else t
        | none => t

/-- K_STEP_COMPLETION (R196): a step completes for every element in one clk. -/
def execKStepCompletion (s : State) : Out :=
  s.lift fun _ c =>
    match c.tile.mat.queue with
    | [] => c
    | m :: _ =>
      match m.mma with
      | none => c
      | some o =>
        if !m.started || !c.tile.performs || m.total ≤ m.done then c
        else
          let (c, m) := c.matStep m o
          c.upd fun t => t.setHead m

/-- The elements of a line of a tile. -/
def lineElem (col : Bool) (idx k : Nat) : Nat := if col then 64 * k + idx else 64 * idx + k

/-- The writes of an awr (R204): its enabled lanes, two neighbours of a row in one 64-bit word together. -/
def accWrites (o : AwrOp) (x : VWord) (mask : Word) : List (Nat × List Byte) :=
  let off (k : Nat) : Nat := accOff o.acc + 4 * lineElem o.col o.idx.toNat k
  let one (k : Nat) : List (Nat × List Byte) := if mask.getLsbD k then [(off k, toBytes 4 (elem 32 x k))] else []
  (List.range 32).flatMap fun j =>
    if !o.col && mask.getLsbD (2 * j) && mask.getLsbD (2 * j + 1) then [(off (2 * j), toBytes 8 (elem 64 x j))]
    else one (2 * j) ++ one (2 * j + 1)

/-- awr done (R204). -/
def Chip.writeAccLine (c : Chip) (o : AwrOp) (x : VWord) (mask : Word) : Chip :=
  (accWrites o x mask).foldl (fun c y => c.writeTileBuf c.focus c.focus .xb y.1 y.2) c

/-- A floating-point drain of a value (R205): rounded once; a NaN sets NV. -/
def drainFp (o : AdrnOp) (x : Nat) : FRes :=
  let v := fmtF32.val false x
  let f := match o.fmt with
    | .f16 => fmtF16
    | .bf16 => fmtBf16
    | _ => fmtF32
  let r := f.finish ⟨o.rnd, o.sat, false⟩ v
  ⟨r.bits, r.fl ||| flIf v.isNan flNV⟩

/-- Slice of plane k of a block's codes (R34). -/
def planeSlice (w k : Nat) (codes : List Int) : List Byte :=
  toBytes 8 (buildElems 64 2 32 fun j => (BitVec.ofInt w ((codes[j]?).getD 0)).extractLsb' (2 * k) 2)

/-- The writes of a drain: offsets in AB and bytes, and its events (R205); of an MX drain the scale strip and then the planes in ascending order, so
that planes stand where they share bytes with the strip (log entry 79). -/
def drainWrites (o : AdrnOp) (d : MDesc) (vals : List Nat) : List (Nat × List Byte) × FFlags :=
  if drainMx o.fmt then
    let w := drainSize o.fmt
    let blocks := (List.range 128).map fun b =>
      quantiseMx w (((vals.drop (64 * (b % 64) + 32 * (b / 64))).take 32).map (fmtF32.val false))
    ((d.soff + 64 * d.k0, blocks.map fun x => BitVec.ofNat 8 x.scale) ::
      (List.range (w / 2)).map fun k => (d.poff + 8 * d.bt * k + 512 * d.k0, blocks.flatMap fun x => planeSlice w k x.codes),
      blocks.foldl (fun a x => a ||| x.fl) 0)
  else
    let rs := vals.map (drainFp o)
    ([(d.poff, rs.flatMap fun r => toBytes (drainSize o.fmt) (BitVec.ofNat 32 r.bits))], rs.foldl (fun a x => a ||| x.fl) 0)

/-- adrn done: the tile read, written to AB, cleared with ZA. -/
def Chip.drain (c : Chip) (m : MatCmd) (o : AdrnOp) : Chip × MatCmd :=
  let (c, old, ue) := c.matRead .xb [(accOff o.acc, 16384)] m.ue
  let (ws, fl) := drainWrites o (mdescOf m.a) (wordsOf old.flatten)
  let c := ws.foldl (fun c x => c.writeTileBuf c.focus c.focus .ab x.1 x.2) c
  (c.upd fun t =>
    let t := { t with sys := { t.sys with mflags := t.sys.mflags ||| fl } }
    if o.za then t.clearAcc o.acc else t, { m with ue := ue, fl := fl })

/-- The effect of a command at its completion, and the register it writes. -/
def Chip.matEffect (c : Chip) (m : MatCmd) : Chip × MatCmd × List RegWrite :=
  match m.w.ins with
  | .mmaw _ o => (c, m, [.s o.d (m.reportWord false)])
  | .aclr _ _ => (c.upd fun t => m.tiles.foldl Tile.clearAcc t, m, [])
  | .awr _ o => (c.writeAccLine o m.val m.mask, m, [])
  | .adrn _ o =>
    let (c, m) := c.drain m o
    (c, m, [])
  | .mstat _ o =>
    let x : Word := c.tile.sys.mflags.setWidth 64
    (if o.clr then c.upd fun t => { t with sys := { t.sys with mflags := 0 } } else c, m, [.s o.d x])
  | _ => (c, m, [])

/-- MATRIX_COMMAND_COMPLETION (R196, R197, R206): the oldest command, started and with every step done, completes; zeros it
consumed raise class 19. -/
def execMatrixCommandCompletion (s : State) : Out :=
  s.lift fun now c =>
    match c.tile.mat.queue with
    | [] => c
    | m :: rest =>
      if !m.started || !c.tile.performs || m.done < m.total then c
      else
        let (d, m, ws) := c.matEffect m
        if c.tile.lateFor now (ws.map writeRef) then c
        else
        let rep := if m.mma.isSome then m.reportWord false else 0
        d.upd fun t =>
          let t := { t with quiet := now, mat := { t.mat with queue := rest, report := m.tiles.foldl (fun v k => vset v k rep) t.mat.report } }
          let t := t.land now { id := m.w.id, frame := m.frame, pc := m.w.pc, due := now, writes := ws, flags := 0,
                                tag := m.w.ins.hdr.sba, ue := none, cause := none, snap := false }
          match m.ue with
          | some v => if t.trapsUe then t.raise m.frame
              { code := causeCode 19 3, pc := m.w.pc, tval := v, rq := none, xw := false, id := m.w.id } none else t
          | none => t

/-! ## ard (R203) -/

/-- An ard may take its snapshot. -/
def Tile.ardReady (t : Tile) (r : ArdReq) : Bool :=
  match r.after with
  | none => true
  | some id =>
    match t.mat.queue.find? fun m => m.w.id == id with
    | none => true
    | some m => m.mma.isSome && m.started

/-- The step report that an ard receives. -/
def Tile.ardReport (t : Tile) (r : ArdReq) (acc : BitVec 4) : Word :=
  match r.after.bind fun id => t.mat.queue.find? fun m => m.w.id == id with
  | some m => m.reportWord true
  | none => vget t.mat.report acc

/-- ARD_SNAPSHOT (R203): the oldest ard that may proceed takes its tile as it stands, and its result is on its way. -/
def execArdSnapshot (s : State) : Out :=
  s.lift fun now c =>
    match c.tile.mat.ards.findIdx? fun r => c.tile.ardReady r with
    | none => c
    | some k =>
      match c.tile.mat.ards[k]? with
      | none => c
      | some r =>
        match r.w.ins with
        | .ard h o =>
          if !c.tile.performs then c
          else
            let rep := c.tile.ardReport r o.acc
            let on := (List.range 64).filter fun j => r.mask.getLsbD j
            let (c, bs, ue) := c.matRead .xb (on.map fun j => (accOff o.acc + 4 * lineElem o.col o.idx.toNat j, 4)) r.ue
            let x : VWord := (on.zip bs).foldl (fun a y => putElem 32 a y.1 (ofBytes 32 y.2)) 0
            let m := elemMask 32 64 r.mask
            let cause : Option Cause := match ue with
              | some v => if c.tile.trapsUe then
                  some { code := causeCode 19 3, pc := r.w.pc, tval := v, rq := none, xw := false, id := r.w.id } else none
              | none => none
            c.upd fun t =>
              { t with
                mat := { t.mat with ards := dropAt t.mat.ards k }
                vpend := t.vpend ++ [{ id := r.w.id, frame := r.frame, pc := r.w.pc, due := now,
                                       writes := [dstWrite o.d r.w m (x &&& m), .s o.c rep], flags := 0, tag := h.sba, ue := cause, cause := none,
                                       snap := false }] }
        | _ => c

end Sys2Proof.Machine
end

