-- ==== Sys2Proof/Machine/CmdBase.lean ====
section
/-! DEFINITION. What the commands of the copy channels and of the Unveil engines share: issue, promises, their state, their
accesses, parking, release, publishing (R216, R217, R225–R233, R247, R248). -/

namespace Sys2Proof.Machine

/-! ## Flags of a command word -/

/-- The flags that every command word has (R218, R235, R244, R278). -/
def cmdFlags : Instr → CmdFlags
  | .cpy _ o => ⟨o.scope, o.acq, o.rel, o.ring⟩
  | .cpyf _ o => ⟨.c, false, false, o.ring⟩
  | .cred _ o => o.fl
  | .cmc _ o => o.fl
  | .cbar _ o => o.fl
  | .unv _ o => o.fl
  | .patclr _ o => o.fl
  | _ => ⟨.p, false, false, none⟩

/-- The scope of a command's acknowledgements is .x. -/
def atX (i : Instr) : Bool := (cmdFlags i).scope == .x
/-- The command releases before it completes (R230); REL has no effect on a cbar (R282). -/
def releases (i : Instr) : Bool :=
  let f := cmdFlags i
  f.ring.isSome || (f.rel && (match i with | .cbar .. => false | _ => true))

def Tile.engine (t : Tile) : CmdEng → Engine
  | .chan => t.chan
  | .unveil => t.unv
def Tile.setEngine (t : Tile) (e : CmdEng) (x : Engine) : Tile :=
  match e with
  | .chan => { t with chan := x }
  | .unveil => { t with unv := x }
def Tile.updEngine (t : Tile) (e : CmdEng) (f : Engine → Engine) : Tile := t.setEngine e (f (t.engine e))
/-- The command at the head of a FIFO replaced. -/
def Tile.setCmd (t : Tile) (e : CmdEng) (x : Cmd) : Tile := t.updEngine e fun g => { g with fifo := x :: g.fifo.tail }

/-- Commands that a FIFO may hold (R216, R247). -/
def fifoLimit : CmdEng → Nat
  | .chan => 4
  | .unveil => 2

/-- The tile's faults are reported to its strand (R234, R350). -/
def Tile.reports (t : Tile) : Bool :=
  !t.fence.fenced && (match t.st with | .running | .halting | .preempting => true | _ => false)

/-! ## Issue (R216, R217) -/

/-- A command word that writes only the tile's own buffers (R311). -/
def ownOnly (c : Chip) (t : Tile) : Instr → Bool
  | .cpy _ o =>
    let own (x : Word) : Bool := (spPlace x 0).tile c.focus == c.focus
    o.dsp && own (t.getS o.b) && (o.kind != .ef || own (t.getS o.d))
  | .cpyf .. => true
  | _ => false

/-- The FIFO has room, and a guarded phase lets the word issue (R216, R247, R311). -/
def cmdRes (e : CmdEng) (_ : Nat) (w : QWord) (c : Chip) : Bool :=
  let t := c.tile
  decide ((t.engine e).fifo.length < fifoLimit e) && (!t.inPhase || ownOnly c t w.ins)

/-- A promise on its way: s[DST] and its tag two clk after issue (R217). -/
def Chip.promise (c : Chip) (now : Nat) (w : QWord) (h : Hdr) (d : SReg) (value : Word) (cmd : Option Nat) : Chip :=
  c.upd fun t => { t with promises := t.promises ++ [⟨now + 2, t.cur, w.id, d, value, cmd, h.sba, none⟩] }

/-- A command enters its FIFO, with the promise it gives. -/
def Chip.pushCmd (c : Chip) (now : Nat) (e : CmdEng) (w : QWord) (t : Tile) (d : SReg) (src dst res shape : Word) (inst : Option Nat)
    (prom : Nat) : Chip :=
  let i := w.ins
  let x : Cmd :=
    { id := w.id, frame := t.cur, pc := w.pc, ins := i, src := src, dst := dst, res := res, shape := shape
      ring := (cmdFlags i).ring.map fun g => (g, t.getG g)
      st := .queued, orphan := false, rdone := [], wdone := [], counted := [], buf := [], out := [], ready := false, at_ := none, parked := none, dropped := false
      sent := false, inst := inst, ue := none, issued := now, since := 0 }
  (c.upd fun t => t.updEngine e fun g => { g with fifo := g.fifo ++ [x], lastPromise := prom }).promise now w i.hdr d
    (BitVec.ofNat 64 prom) (some w.id)

/-- The queue model's promise for a copy channel: no earlier than the issue clk plus 4, and beyond that a free value (R225, log
entry 10). -/
def Chip.chanPromise (c : Chip) (now : Nat) : Nat := now + 4 + Config.prediction c.freeCnt

/-! ## Regions and their parts (R223, R229) -/

/-- A region of a command: global bytes, or bytes of a buffer. -/
structure Region where
  place : Place
  n : Nat
deriving DecidableEq, Repr

/-- The pieces of n bytes from a that lie in aligned units of a size: offset and length. -/
def unitParts (size a n : Nat) : List (Nat × Nat) :=
  if n = 0 then []
  else (List.range ((a + n - 1) / size - a / size + 1)).map fun i =>
    let lo := Nat.max a ((a / size + i) * size)
    (lo - a, Nat.min (a + n) ((a / size + i + 1) * size) - lo)

/-- A place moved on. -/
def Place.add (p : Place) (d : Nat) : Place :=
  match p with
  | .glob va => .glob (va + BitVec.ofNat 64 d)
  | .buf t b off => .buf t b (off + d)
/-- A place moved back. -/
def Place.back (p : Place) (d : Nat) : Place :=
  match p with
  | .glob va => .glob (va - BitVec.ofNat 64 d)
  | .buf t b off => .buf t b (off - d)

/-- The accesses of a region: within one line, or one aligned 32-byte granule (R229). -/
def Region.parts (r : Region) : List (Nat × Nat) :=
  match r.place with
  | .glob va => unitParts 128 va.toNat r.n
  | .buf _ _ off => unitParts 32 off r.n

/-- Two regions share a byte (R223). -/
def Region.meets (a b : Region) : Bool := (Piece.mk 0 a.place a.n).meets (Piece.mk 0 b.place b.n)

/-- An access to a source: its place in the source stream, its place, its length. -/
structure SrcPart where
  off : Nat
  place : Place
  n : Nat
deriving DecidableEq, Repr

/-- The parts of a source made of regions laid end to end. -/
def srcParts (base : Nat) : List Region → List SrcPart
  | [] => []
  | r :: l => (r.parts.map fun x => ⟨base + x.1, r.place.add x.1, x.2⟩) ++ srcParts (base + r.n) l

/-- An output, with the bytes of the source stream that it is computed from (R229), and how many bytes of the elements that it shares
with the parts before and after it lie there (R33). -/
structure NeedOp where
  needs : List (Nat × Nat)
  op : OutOp
  pre : Nat
  post : Nat
deriving DecidableEq, Repr

/-- The writes of bytes over a region, in parts; the region holds elements of `esz` bytes. -/
def regionWrites (p : Place) (bs : List Byte) (esz : Nat) (strm : BitVec 2) (elem : Nat → Nat) (needs : Nat → Nat → List (Nat × Nat)) :
    List NeedOp :=
  (Region.mk p bs.length).parts.map fun x =>
    ⟨needs x.1 x.2, ⟨p.add x.1, .put, (bs.drop x.1).take x.2, strm, elem x.1⟩, x.1 % esz,
      Nat.min (bs.length - (x.1 + x.2)) ((esz - (x.1 + x.2) % esz) % esz)⟩

/-- Bytes put into an image, which grows with zeros to hold them. -/
def growBytes (l : List Byte) (at_ : Nat) (bs : List Byte) : List Byte :=
  l.take at_ ++ List.replicate (at_ - l.length) 0 ++ bs ++ l.drop (at_ + bs.length)

/-! ## Faults (R233) -/

/-- A command of the Unveil engine. -/
def Cmd.ofUnveil (x : Cmd) : Bool := match x.ins with | .unv .. | .patclr .. => true | _ => false

/-- The class of an absent or FENCED answer: the Unveil engine never raises class 10 (R251); it meets an absent member as an unpopulated
address (log entry 65). -/
def Cmd.absentClass (x : Cmd) : Nat := if x.ofUnveil then 7 else 10

/-- The command at the head of a FIFO stops at a faulting access: it takes an entry, re-parks in the one it holds, or waits for one;
a fenced or ended strand's command gives up what is left of it, and so does one whose strand has left the tile. One that has parked stays in its
FIFO when a trap ends its strand, until the tile is bound anew (log entry 76). -/
def Chip.parkCmd (c : Chip) (e : CmdEng) (x : Cmd) (acc : Bool × Nat) (cls : Nat) (addr : Word) (strm : BitVec 2)
    (elem : Nat) : Chip :=
  c.upd fun t =>
    if !t.reports || x.orphan then t.setCmd e { x with dropped := true }
    else
      let at_ (n : BitVec 5) : Tile :=
        let en := newEntry x.ins cls strm elem addr x.pc (.command e x.id)
        let t := (t.setCmd e { x with parked := some n, at_ := some acc }).setEntry n (some en)
        match t.mode, x.frame with
        | .handler, .user => t
        | _, k => if t.st = .preempting then t else t.raise k (entryCause n.toNat en) none
      match x.parked with
      | some n => at_ n
      | none =>
        match t.freeEntry with
        | some n => at_ n
        | none =>
          if x.at_ = some acc then t
          else (t.setCmd e { x with at_ := some acc }).raise x.frame
            { code := causeCode 22 5, pc := x.pc, tval := addr, rq := none, xw := false, id := x.id } none

/-- The entry of a command whose parked access has been performed is freed (R304). -/
def Tile.freeCmd (t : Tile) (e : CmdEng) (x : Cmd) : Tile := (t.freeIf x.parked).setCmd e { x with parked := none, at_ := none }

/-- The command may perform an access: started, acquired if it acquires, not ended; parked or stopped at this one only, and then
released, or with an entry free (R228, R233). -/
def Cmd.runs (t : Tile) (x : Cmd) (acc : Bool × Nat) : Bool :=
  !x.dropped && (match x.st with
    | .queued => false
    | .started => !(cmdFlags x.ins).acq
    | .acquired => true) &&
    (match x.at_, x.parked with
      | none, _ => true
      | some p, none => p == acc && t.freeEntry.isSome
      | some p, some n => p == acc && (match vget t.replay n with | some en => en.rel | none => false))

/-- The first byte of the source stream not yet read (R233). -/
def Cmd.unread (x : Cmd) (ps : List SrcPart) : Nat :=
  ((ps.zipIdx.find? fun p => !x.rdone.contains p.2).map fun p => p.1.off).getD 0

/-- Two resolved accesses share a byte of physical memory or of a buffer. -/
def spansMeet (p q : Piece × List (Nat × Nat)) : Bool :=
  match p.1.place, q.1.place with
  | .glob _, .glob _ => p.2.any fun a => q.2.any fun b => rangesMeet a.1 a.2 b.1 b.2
  | _, _ => p.1.meets q.1

def OutOp.piece (op : OutOp) : Piece := ⟨0, op.place, op.data.length⟩
def SentWrite.resolved (l : SentWrite) : Piece × List (Nat × Nat) := (l.op.piece, l.spans)

/-- A sent write of an earlier command of the engine to some of these bytes has not been performed: a later access waits for it
(R231). -/
def Engine.owes (g : Engine) (ps : List (Piece × List (Nat × Nat))) : Bool := g.late.any fun l => ps.any (spansMeet l.resolved)

/-- Source part k of a command: `next` says what its bytes do; a fault parks it. `elem` numbers a byte of the stream
(R233); a copy engine's read takes a count once from each physical line (R123). -/
def Chip.cmdRead (c : Chip) (e : CmdEng) (x : Cmd) (ps : List SrcPart) (k : Nat) (elem : Nat → Nat) (counts : Bool)
    (next : Chip → Cmd → SrcPart → List Byte → List (Nat × Nat) → Chip) : Chip :=
  match ps[k]? with
  | none => c
  | some p =>
    if x.rdone.contains k then c
    else
      let (c, f) := c.resolvePieces (.word c.focus x.id) 5 .read [⟨0, p.place, p.n⟩]
      match f with
      | .busy ls => c.awaitBlocks (.word c.focus x.id) 5 ls
      | .bad cls va => c.parkCmd e x (false, k) cls (BitVec.ofNat 64 va) 0 (elem (x.unread ps))
      | .refused => c.parkCmd e x (false, k) x.absentClass (p.place.word c.focus false) 0 (elem (x.unread ps))
      | .ok rs =>
        if (c.tile.engine e).owes rs then c else
        let (c, bs, ue) := c.readPieces (.word c.focus x.id) false (causeCode 19 5) rs (List.replicate p.n 0)
        let spans := rs.flatMap fun r => r.2
        let fresh := if counts then ((spans.flatMap fun s => linesOf s.1 s.2).eraseDups).filter fun l => !x.counted.contains l else []
        next (fresh.foldl Chip.takeCount c) { x with ue := x.ue <|> ue, counted := x.counted ++ fresh } p bs spans

/-- The usual end of a read: its bytes join the source stream, and the part is done. -/
def Chip.cmdGot (c : Chip) (e : CmdEng) (k : Nat) (x : Cmd) (p : SrcPart) (bs : List Byte) : Chip :=
  c.upd fun t => t.freeCmd e { x with rdone := k :: x.rdone, buf := growBytes x.buf p.off bs }

/-- Bits set or cleared in a 64-bit word. -/
def mergeWord (k : OutKind) (old mask : List Byte) : List Byte :=
  match k with
  | .put => mask
  | .set => (old.zip mask).map fun x => x.1 ||| x.2
  | .clr => (old.zip mask).map fun x => x.1 &&& ~~~x.2

def outAccess : OutKind → AccKind
  | .put => .write
  | .set | .clr => .atomic

/-- An output performed at its resolved place; remote writes await their owner (R230). -/
def Chip.performOut (c : Chip) (e : CmdEng) (id : Nat) (op : OutOp) (ps : List (Piece × List (Nat × Nat))) : Chip × Option Word :=
  let (c, old, ue) := match op.kind with
    | .put => (c, [], none)
    | .set | .clr => c.readPieces (.word c.focus id) false (causeCode 19 5) ps (List.replicate op.data.length 0)
  let c := c.writePieces ps (mergeWord op.kind old op.data)
  (if anyRemote ps then c.upd fun t => t.updEngine e fun g => { g with unacked := g.unacked + 1 } else c, ue)

/-- What is checked before output k is performed: its bytes, and what lies beyond them of the elements it shares with parts that have not
been written (R33). -/
def NeedOp.checks (x : Cmd) (k : Nat) (o : NeedOp) : List Piece :=
  let n := o.op.data.length
  (if o.pre = 0 || (k != 0 && x.wdone.contains (k - 1)) then [] else [⟨0, o.op.place.back o.pre, o.pre⟩]) ++ [o.op.piece] ++
    (if o.post = 0 || x.wdone.contains (k + 1) then [] else [⟨0, o.op.place.add n, o.post⟩])

/-- Every byte that an output needs has been read (R229). -/
def NeedOp.canWrite (x : Cmd) (ps : List SrcPart) (o : NeedOp) : Bool :=
  ps.zipIdx.all fun p => x.rdone.contains p.2 || o.needs.all fun r => !rangesMeet p.1.off p.1.n r.1 r.2

/-- The first number of an output's stream not yet written (R233). -/
def Cmd.unwritten (x : Cmd) (ops : List NeedOp) (strm : BitVec 2) : Nat :=
  (ops.zipIdx.filterMap fun o => if x.wdone.contains o.2 || o.1.op.strm != strm then none else some o.1.op.elem).foldl Nat.min
    16777216

/-- Output k of the command written, or its fault. -/
def Chip.cmdWrite (c : Chip) (e : CmdEng) (x : Cmd) (ps : List SrcPart) (ops : List NeedOp) (k : Nat) : Chip :=
  match ops[k]? with
  | none => c
  | some o =>
    if x.wdone.contains k || !o.canWrite x ps then c
    else
      let op := o.op
      let (c, f) := c.resolvePieces (.word c.focus x.id) 5 (outAccess op.kind) (o.checks x k)
      match f with
      | .busy ls => c.awaitBlocks (.word c.focus x.id) 5 (if op.kind = .put then tableLines ls else ls)
      | .bad cls va => c.parkCmd e x (true, k) cls (BitVec.ofNat 64 va) op.strm (x.unwritten ops op.strm)
      | .refused => c.parkCmd e x (true, k) x.absentClass (op.place.word c.focus false) op.strm (x.unwritten ops op.strm)
      | .ok rs =>
        let rs := rs.filter fun r => r.1 == op.piece
        if (c.tile.engine e).owes rs then c
        else
          let (c, ue) := c.performOut e x.id op rs
          c.upd fun t => t.freeCmd e { x with wdone := k :: x.wdone, ue := x.ue <|> ue }

/-- A command that has consumed zeros raises class 19 (R233). -/
def Tile.raiseUe (t : Tile) (k : FrameSel) (pc id : Nat) : Option Word → Tile
  | some v =>
    if t.trapsUe && t.reports then t.raise k { code := causeCode 19 5, pc := pc, tval := v, rq := none, xw := false, id := id } none
    else t
  | none => t

/-- Sent write k of the completed commands performed, after every earlier one of the same bytes; one whose target has been fenced since is
answered FENCED: class 10 (R350). The last write of a command that has consumed zeros raises its class 19 (log entry 64). Nothing is
raised for a strand that has left the tile. -/
def Chip.performLate (c : Chip) (e : CmdEng) (k : Nat) : Chip :=
  let late := (c.tile.engine e).late
  match late[k]? with
  | none => c
  | some l =>
    if (late.take k).any fun m => spansMeet m.resolved l.resolved then c
    else
      let gone := match l.op.place with
        | .buf n _ _ => (c.tileAt n).fence.fenced && n != c.focus
        | .glob _ => false
      let (c, ue) := if gone then (c, none) else c.performOut e l.id l.op [l.resolved]
      let ue := l.ue <|> ue
      let rest := (dropAt late k).map fun m => if m.id = l.id then { m with ue := m.ue <|> ue } else m
      let fenced : Cause := { code := causeCode 10 5, pc := l.pc, tval := l.op.place.word c.focus false, rq := none, xw := false, id := l.id }
      c.upd fun t =>
        let t := t.updEngine e fun g => { g with late := rest }
        if l.orphan then t
        else
          let t := if gone && t.reports then t.raise l.frame fenced none else t
          if rest.any fun m => m.id == l.id then t else t.raiseUe l.frame l.pc l.id ue

/-! ## Release, publish, completion (R230, R232, R233) -/

/-- The outputs not yet written, each of which can be sent. -/
def Chip.sendRest (c : Chip) (x : Cmd) (ops : List NeedOp) : Chip × Option (List SentWrite) :=
  (ops.zipIdx.filter fun o => !x.wdone.contains o.2).foldl (fun (a : Chip × Option (List SentWrite)) o =>
    match a with
    | (c, none) => (c, none)
    | (c, some l) =>
      let op := o.1.op
      let (c, f) := c.resolvePieces (.word c.focus x.id) 5 (outAccess op.kind) [op.piece]
      match f with
      | .ok ps => (c, some (l ++ [⟨ps.flatMap fun p => p.2, op, x.id, x.frame, x.pc, x.src, x.orphan, x.ue⟩]))
      | _ => (c, none)) (c, some [])

/-- The class that stops a publish (R232, R276), for the ring that the register named at issue; an Unveil command's publish has the one
fate of class 25 (R251, log entry 65). -/
def Chip.publishFate (c : Chip) (x : Cmd) : Option Nat :=
  match x.ring with
  | none => none
  | some (g, r) =>
    let now := if x.orphan then r else c.tile.getG g
    let k := if !r.conf ∨ now.base ≠ r.base then some 25 else c.claimFate now true
    if x.ofUnveil && k.isSome then some 25 else k

/-- A slot that a command of a strand that has left has published is no claim of another such command any more. -/
def Engine.published (base : Word) (n : Nat) (e : Engine) : Engine :=
  { e with fifo := e.fifo.map fun y => match y.ring with
      | some (g, r) => if y.orphan ∧ r.base = base then { y with ring := some (g, { r with prod := r.prod.erase n }) } else y
      | none => y }

/-- The publish: from the strand's ring register, or, where the strand has left, from the claims that it left its commands (R234, R350). -/
def Chip.publish (c : Chip) (x : Cmd) : Chip :=
  match x.ring with
  | none => c
  | some (g, r) =>
    if !x.orphan then c.ringRelease g true
    else
      match r.prod with
      | [] => c
      | n :: _ => (c.slotRelease r n true).upd fun t => { t with chan := t.chan.published r.base n, unv := t.unv.published r.base n }

/-- Commands of a strand that leaves its tile run on, with the claims of its ring registers; those that have parked go (log entry 76). -/
def Engine.leave (g : Vector RingReg (2 ^ 4)) (e : Engine) : Engine :=
  { e with
    fifo := (e.fifo.filter fun x => x.at_.isNone).map fun x =>
      if x.orphan then x else { x with orphan := true, ring := x.ring.map fun r => (r.1, if (vget g r.1).base = r.2.base then vget g r.1 else { r.2 with prod := [] }) }
    late := e.late.map fun l => { l with orphan := true } }

/-- The command leaves its FIFO; zeros it consumed raise class 19 after all of its writes (R233). -/
def Chip.finishCmd (c : Chip) (now : Nat) (e : CmdEng) (x : Cmd) (late : List SentWrite) : Chip :=
  c.upd fun t =>
    let t := t.freeIf x.parked
    let run := match x.ins with | .unv .. => now - x.since + 1 | _ => (t.engine e).lastRun
    let t := { t.updEngine e fun g => { g with fifo := g.fifo.tail, late := g.late ++ late, lastRun := run } with quiet := now }
    if late.isEmpty && !x.orphan then t.raiseUe x.frame x.pc x.id x.ue else t

/-- A command's publish reads the strand's ring register: a failing one is zeros, which the command consumes (R337, R338). -/
def Chip.readsRing (c : Chip) (x : Cmd) : Chip × Cmd :=
  match x.ring with
  | some (g, _) =>
    if x.orphan then (c, x)
    else
      let (c, ue) := c.unitReads 5 x.ue (· == .g g)
      (c, { x with ue := ue })
  | none => (c, x)

/-- A command that has done its reads and whose outputs are known, or that has been dropped, releases, publishes and completes; one that
has been dropped and whose publish finds no claimed slot completes without it (log entry 62). -/
def Chip.completeCmd (c : Chip) (now : Nat) (e : CmdEng) (x : Cmd) (ops : List NeedOp) : Chip :=
  let done (c : Chip) (late : List SentWrite) : Chip :=
    let (d, x) := c.readsRing x
    if releases x.ins && atX x.ins && (c.tile.engine e).unacked != 0 then c
    else
    let c := d
    if x.dropped then
      (if (c.publishFate x).isNone then c.publish x else c).finishCmd now e x late
    else
      match c.publishFate x with
      | some cls => c.parkCmd e x (true, ops.length) cls 0 0 0
      | none => (c.publish x).finishCmd now e x late
  if x.dropped || (List.range ops.length).all x.wdone.contains then done c []
  else if releases x.ins then c
  else
    match c.sendRest x ops with
    | (c, some l) => done c l
    | (c, none) => c

end Sys2Proof.Machine
end

