-- ==== Sys2Proof/Machine/Collective.lean ====
section
/-! DEFINITION. The collective commands cred, cmc and cbar (R277–R285). -/

namespace Sys2Proof.Machine

/-! ## Combining (R279, R280) -/

/-- The exact product of two values, for a sum rounded once. -/
def exactMul (a b : FVal) : FVal :=
  match a, b with
  | .nan s, _ | _, .nan s => .nan s
  | .inf m, .inf n => .inf (m != n)
  | .inf m, .fin n k _ => if k = 0 then .nan false else .inf (m != n)
  | .fin n k _, .inf m => if k = 0 then .nan false else .inf (m != n)
  | .fin n k e, .fin m l g => .fin (n != m) (k * l) (e + g)

def fval (x : BitVec 32) : FVal := fmtF32.val false x.toNat
def fbits (x : Nat) : BitVec 32 := BitVec.ofNat 32 x

/-- Factor (R280). -/
def smxFactor (mi m : FVal) : FVal :=
  if mi.eq m then .fin false 1 0
  else if mi.isInf ∧ mi.neg then .fin false 0 0
  else fmtF32.val false (fmtF32.exp2 fRNE (fmtF32.val false (fmtF32.add fRNE mi m.negate).bits)).bits

/-- s1·f1 + s2·f2, exact and rounded once; a term whose factor is zero is omitted. -/
def smxSum (x1 f1 x2 f2 : FVal) : BitVec 32 :=
  fbits (if f2.isZero then fmtF32.mul fRNE x1 f1 else if f1.isZero then fmtF32.mul fRNE x2 f2
    else fmtF32.fma fRNE x1 f1 (exactMul x2 f2)).bits

/-- SmxCombine (R280) on triples of one length; of two zeros m keeps the first's sign (log entry 83). -/
def smxCombine (a b : List (BitVec 32)) : List (BitVec 32) :=
  match a, b with
  | m1 :: x, m2 :: y =>
    let v1 := fval m1
    let v2 := fval m2
    if v1.isNan ∨ v2.isNan then List.replicate (x.length + 1) (fbits fmtF32.nan)
    else
      let mb := if v1.lt v2 then m2 else m1
      let m := fval mb
      if m.isInf ∧ m.neg then fbits (fmtF32.inf true) :: List.replicate x.length 0
      else
        let f1 := smxFactor v1 m
        let f2 := smxFactor v2 m
        mb :: (x.zip y).map fun p => smxSum (fval p.1) f1 (fval p.2) f2
  | _, _ => a

/-- A later arrival combined into the running result. -/
def credCombine (op : BitVec 3) (a b : List (BitVec 32)) : List (BitVec 32) :=
  let each (f : BitVec 32 → BitVec 32 → BitVec 32) : List (BitVec 32) := (a.zip b).map fun p => f p.1 p.2
  match op.toNat with
  | 0 => each fun x y => fbits (fmtF32.add fRNE (fval x) (fval y)).bits
  | 1 => each (· + ·)
  | 2 => each fun x y => fbits (fmtF32.minMax true false x.toNat y.toNat).bits
  | 3 => each fun x y => fbits (fmtF32.minMax false false x.toNat y.toNat).bits
  | _ => smxCombine a b

/-! ## Shapes (R278) -/

def credOp : CredKind → BitVec 3
  | .sumF32 => 0
  | .sumI32 => 1
  | .maxF32 => 2
  | .minF32 => 3
  | .smx => 4

/-- What a collective word is: its kind, its operation. -/
def collKind : Instr → BitVec 2 × BitVec 3
  | .cred _ o => (0, credOp o.op)
  | .cmc .. => (1, 0)
  | _ => (2, 0)

def collGrp (x : Word) : BitVec 4 := bits x 52 4
def collRoot (x : Word) : Nat := (bits x 32 10).toNat

/-- A field of the shape is out of range. -/
def collBad (i : Instr) (x : Word) : Bool :=
  let n := shapeN x
  let root := match i with | .cmc .. => false | _ => collRoot x != 0
  bits x 56 8 != 0 || bits x 42 10 != 0 || root || (match i with
    | .cred _ o => n == 0 || decide ((if o.op = .smx then 1024 else 4096) < n)
    | .cmc .. => n == 0 || decide (16384 < n)
    | _ => n != 0)
where shapeN (x : Word) : Nat := (bits x 0 32).toNat

def collCount (x : Word) : Nat := (bits x 0 32).toNat
/-- Bytes of a member's contribution, and of the result. -/
def collBytes (i : Instr) (x : Word) : Nat :=
  match i with
  | .cred _ o => if o.op = .smx then 8 + 4 * collCount x else 4 * collCount x
  | .cmc .. => collCount x
  | _ => 0

/-! ## Groups and instances (R277, R284) -/

def Chip.group (c : Chip) (launch : BitVec 32) (g : BitVec 4) : Option Group := c.groups.find? fun x => x.launch == launch && x.grp == g

/-- The member index of a tile of this module. -/
def Chip.memberIndex (c : Chip) (g : Group) (n : TileId) : Option Nat :=
  g.members.findIdx? fun m => m.module == c.member && m.tile == some n

/-- The number of the tile's next command on a group: counted by member, and so kept where a member is bound anew (R277). -/
def Chip.nextInst (c : Chip) (t : Tile) (g : Option Group) (gn : BitVec 4) : Nat :=
  match g.bind fun g => (c.memberIndex g c.focus).bind fun k => g.members[k]? with
  | some m => m.issued
  | none => vget t.coll gn

/-- A command issued on a group is counted: for the member, or for a tile that is none. -/
def Chip.countInst (c : Chip) (launch : BitVec 32) (gn : BitVec 4) : Chip :=
  match (c.group launch gn).bind fun g => c.memberIndex g c.focus with
  | some k => { c with groups := c.groups.map fun g => if g.launch = launch ∧ g.grp = gn then
      { g with members := g.members.zipIdx.map fun m => if m.2 = k then { m.1 with issued := m.1.issued + 1 } else m.1 } else g }
  | none => c.upd fun t => { t with coll := vset t.coll gn (vget t.coll gn + 1) }

def Chip.coll (c : Chip) (launch : BitVec 32) (g : BitVec 4) (inst : Nat) : Option Coll :=
  c.colls.find? fun x => x.launch == launch && x.grp == g && x.inst == inst
def Chip.setColl (c : Chip) (x : Coll) : Chip :=
  { c with colls := x :: c.colls.filter fun y => !(y.launch == x.launch && y.grp == x.grp && y.inst == x.inst) }

/-- An instance that has failed before any contribution. -/
def Coll.dead (launch : BitVec 32) (g : BitVec 4) (inst : Nat) : Coll := ⟨launch, g, inst, [], 0, 0, 0, 0, [], true⟩

/-- A member is lost to its group: its tile is fenced, its module has left the domain, or this module has (R284, R366). -/
def Chip.memberLost (c : Chip) (m : Member) : Bool :=
  c.refLost || (if m.module = c.member then
      match m.tile with
      | some n => (c.tileAt n).fence.fenced && !m.halted
      | none => false
    else !(c.die (tileDie c.focus)).domain.getLsbD m.module.toNat)

/-- The instance is complete: every contribution has arrived. -/
def Coll.complete (x : Coll) (g : Group) : Bool := !x.failed && (List.range g.members.length).all x.arrived.contains

/-- An instance that is not complete fails if a member is lost, or if one that has not arrived has halted (R284, R381). -/
def Chip.checkLost (c : Chip) (g : Group) (inst : Nat) : Chip :=
  let x := c.coll g.launch g.grp inst
  let here := (x.map Coll.arrived).getD []
  if g.members.zipIdx.any fun m => c.memberLost m.1 || (m.1.halted && !here.contains m.2) then
    c.setColl { x.getD (Coll.dead g.launch g.grp inst) with failed := true }
  else c

/-- The first contribution, taken as it is; a NaN that stands alone is canonical (R42). -/
def loneData (kind : BitVec 2) (op : BitVec 3) (data : List (BitVec 32)) : List (BitVec 32) :=
  if kind = 0 ∧ op ≠ 1 then data.map fun w => if (fval w).isNan then fbits fmtF32.nan else w else data

/-- A contribution reaches the combining point (R279, R281, R284). -/
def Chip.contribute (c : Chip) (g : Group) (inst index : Nat) (kind : BitVec 2) (op : BitVec 3) (count root : Nat)
    (data : List (BitVec 32)) : Chip :=
  let bad := kind = 1 ∧ g.members.length ≤ root
  match c.coll g.launch g.grp inst with
  | none => c.setColl ⟨g.launch, g.grp, inst, [index], kind, op, count, root, loneData kind op data, decide bad⟩
  | some x =>
    if x.arrived.contains index then c
    else if x.failed ∨ x.kind ≠ kind ∨ x.op ≠ op ∨ x.count ≠ count ∨ x.root ≠ root then c.setColl { x with failed := true }
    else
      let d := if kind = 0 then credCombine op x.data data else if kind = 1 ∧ index = root then data else x.data
      c.setColl { x with arrived := index :: x.arrived, data := d }

/-! ## Issue (R277, R278) -/

/-- A collective word at issue: shape, overlap, membership and root, channel (R277, R281, R286). One refused with class 2, 12 or 28 joins no
instance (log entry 41). -/
def collIssue (i : Instr) (d : SReg) (ops : Tile → Word × Word × Word) : State → Out :=
  qword .a i .bit0 (cmdRes .chan) fun now w t c =>
    let (src, dst, shape) := ops t
    let gn := collGrp shape
    let launch := t.bound.launch
    let n := collBytes i shape
    let g := c.group launch gn
    let inst := c.nextInst t g gn
    let me := g.bind fun g => c.memberIndex g c.focus
    let reads : Bool := match i with
      | .cmc .. => me == some (collRoot shape)
      | .cred .. => true
      | _ => false
    let bump (c : Chip) : Chip := c.countInst launch gn
    if collBad i shape then c.issueFault w i.hdr.sba 2 5 0
    else if reads ∧ src ≠ dst ∧ (Region.mk (.glob src) n).meets (Region.mk (.glob dst) n) then c.issueFault w i.hdr.sba 12 5 0
    else
      let far (g : Group) : Bool := match i with | .cmc .. => decide (g.members.length ≤ collRoot shape) | _ => false
      match g, (match g with | some x => if far x then none else me | none => none) with
      | some g, none =>
        (bump (c.setColl { (c.coll g.launch g.grp inst).getD (Coll.dead g.launch g.grp inst) with failed := true })).issueFault w
          i.hdr.sba 26 5 0
      | none, _ => c.issueFault w i.hdr.sba 26 5 0
      | some _, some _ =>
        if t.chan.disabled then c.issueFault w i.hdr.sba 28 5 0
        else (bump (c.pushCmd now .chan w t d src dst 0 shape (some inst) (c.chanPromise now))).tickFree

/-- cred (R279). -/
def execCred (h : Hdr) (o : CredOp) (s : State) : Out :=
  collIssue (.cred h o) o.d (fun t => (t.getS o.a, t.getS o.b, t.getS o.c)) s
/-- cmc (R281). -/
def execCmc (h : Hdr) (o : CmcOp) (s : State) : Out := collIssue (.cmc h o) o.d (fun t => (t.getS o.a, t.getS o.b, t.getS o.c)) s
/-- cbar (R282). -/
def execCbar (h : Hdr) (o : CbarOp) (s : State) : Out := collIssue (.cbar h o) o.d (fun t => (0, 0, t.getS o.a)) s

/-! ## A member's command -/

/-- A collective command's group and instance. -/
def Chip.collOf (c : Chip) (x : Cmd) : Option (Group × Nat) :=
  match x.inst with
  | none => none
  | some n => (c.group c.tile.bound.launch (collGrp x.shape)).map fun g => (g, n)

/-- What a member reads: its contribution; of a cmc, the root's alone (R281). -/
def collSrc (c : Chip) (x : Cmd) : List Region :=
  let all : List Region := [⟨.glob x.src, collBytes x.ins x.shape⟩]
  match x.ins with
  | .cred .. => all
  | .cmc .. =>
    match c.collOf x with
    | some (g, _) => if c.memberIndex g c.focus = some (collRoot x.shape) then all else []
    | none => []
  | _ => []

/-- The result's writes at a member, once the instance is complete (R283). -/
def collOps (c : Chip) (x : Cmd) : List NeedOp :=
  match c.collOf x with
  | none => []
  | some (g, n) =>
    match c.coll g.launch g.grp n with
    | some r =>
      if r.complete g then
        regionWrites (.glob x.dst) ((r.data.flatMap fun w => toBytes 4 w).take (collBytes x.ins x.shape)) 4 1 id fun _ _ => []
      else []
    | none => []

/-- The instance of a command is complete. -/
def Chip.collDone (c : Chip) (x : Cmd) : Bool :=
  match c.collOf x with
  | none => false
  | some (g, n) => match c.coll g.launch g.grp n with
    | some r => r.complete g
    | none => false

/-- An instance that has failed parks the command whole (R284). -/
def Chip.collPark (c : Chip) (x : Cmd) : Chip :=
  match c.collOf x with
  | none => c.parkCmd .chan x (false, 0) 26 0 0 0
  | some (g, n) =>
    let c := if c.collDone x then c else c.checkLost g n
    match c.coll g.launch g.grp n with
    | some r => if r.failed then c.parkCmd .chan x (false, 0) 26 0 0 0 else c
    | none => c

/-- The words of a source stream. -/
def streamWords (buf : List Byte) (n : Nat) : List (BitVec 32) :=
  (List.range ((n + 3) / 4)).map fun k => ofBytes 32 ((buf.drop (4 * k)).take 4)

/-- The contribution of the command at the head of the tile's channel is sent, once its source has been read and, for a cbar, at the
point of an acquire. -/
def Chip.sendContribution (c : Chip) : Chip :=
  match c.tile.chan.fifo with
  | [] => c
  | x :: _ =>
    let parts := srcParts 0 (collSrc c x)
    if x.inst.isNone || x.sent || !x.runs c.tile (false, parts.length) || !(List.range parts.length).all x.rdone.contains then c
    else
      match c.collOf x with
      | none => c.collPark x
      | some (g, n) =>
        match c.memberIndex g c.focus with
        | none => c.collPark x
        | some k =>
          let (kind, op) := collKind x.ins
          let data := if parts.isEmpty then [] else streamWords x.buf (collBytes x.ins x.shape)
          ((c.upd fun t => t.setCmd .chan { x with sent := true }).checkLost g n).contribute g n k kind op (collCount x.shape) (collRoot x.shape) data

/-- CONTRIBUTION_ARRIVAL (R279, R281, R282): from the tile in focus, or from a member of another module that has not halted (R381), which
reaches nobody while the module is out of the domain (R366). -/
def execContributionArrival (src : Option Contribution) (s : State) : Out :=
  s.lift fun _ c =>
    match src with
    | none => c.sendContribution
    | some m =>
      match c.group c.tile.bound.launch m.group with
      | none => c
      | some g =>
        match g.members[m.index]? with
        | some q => if c.refLost || q.module == c.member || q.halted then c else c.contribute g m.inst m.index m.kind m.op m.count m.root m.data
        | none => c

end Sys2Proof.Machine
end

