-- ==== Sys2Proof/Machine/Control.lean ====
section
/-! DEFINITION. Branches, calls, loops, special registers, address registers, waits on time and tags (R81–R94). -/

namespace Sys2Proof.Machine

/-- One past the greatest PC (R63). -/
def pcLimit : Nat := 12 * 2 ^ 41

/-- A taken branch: an exact target, class 7 outside the PC range with no other effect (R81). -/
def jumpTo (target : Int) (f : Tile → Tile) (c : Chip) : XDone :=
  if 0 ≤ target ∧ target < pcLimit then .go (c.upd f) target.toNat 2 else .trap c 7 0 none

/-- PC + IMM17 (R64). -/
def relPc (c : Chip) (imm : BitVec 17) : Int := c.tile.pc + imm.toInt

/-- Falling through in one clk. -/
def fallThrough (c : Chip) : XDone := .go c (c.tile.pc + 1) 1

/-- s31 ← PC + 1 (R81). -/
def linkReg (t : Tile) : Tile := t.setS 31 (BitVec.ofNat 64 (t.pc + 1))

def brcHolds (k : BrcCond) (a b : Word) : Bool :=
  match k with
  | .eq => a == b
  | .ne => a != b
  | .lt => a.slt b
  | .ge => !a.slt b
  | .ltn => a.ult b
  | .gen => !a.ult b

def brpHolds (k : BrpCond) (p : Word) : Bool :=
  match k with
  | .any => p != 0
  | .all => p == BitVec.allOnes 64
  | .none => p == 0

/-- nop (R81). -/
def execNop (h : Hdr) (s : State) : Out := xword 0 h [] [] [] (xstep 1 id) s
/-- br (R81). -/
def execBr (h : Hdr) (imm : BitVec 17) (s : State) : Out := xword 0 h [] [] [] (fun _ c => jumpTo (relPc c imm) id c) s
/-- brc (R81). -/
def execBrc (h : Hdr) (o : BrcOp) (s : State) : Out :=
  xword 0 h [.s o.a, .s o.b] [] [] (fun _ c =>
    if brcHolds o.cond (c.tile.getS o.a) (c.tile.getS o.b) then jumpTo (relPc c o.imm) id c else fallThrough c) s
/-- brp (R81). -/
def execBrp (h : Hdr) (o : BrpOp) (s : State) : Out :=
  xword 0 h [.p o.p] [] [] (fun _ c => if brpHolds o.cond (c.tile.getP o.p) then jumpTo (relPc c o.imm) id c else fallThrough c) s
/-- bri (R81): the old s31 is the target of bri.l s31. -/
def execBri (h : Hdr) (a : SReg) (link : Bool) (s : State) : Out :=
  xword 0 h [.s a] (if link then [.s 31] else []) []
    (fun _ c => jumpTo (c.tile.getS a).toNat (if link then linkReg else id) c) s
/-- call (R81). -/
def execCall (h : Hdr) (imm : BitVec 17) (s : State) : Out :=
  xword 0 h [] [.s 31] [] (fun _ c => jumpTo (relPc c imm) linkReg c) s
/-- ret (R81). -/
def execRet (h : Hdr) (s : State) : Out := xword 0 h [.s 31] [] [] (fun _ c => jumpTo (c.tile.getS 31).toNat id c) s

/-! ## Loops (R82–R86) -/

def Tile.innermost (t : Tile) : Option LoopFrame := t.frame.loops.getLast?

/-- The stage predicates (R60). -/
def Tile.setStages (t : Tile) (p4 p5 p6 p7 : Word) : Tile := (((t.setP 4 p4).setP 5 p5).setP 6 p6).setP 7 p7

/-- The innermost frame replaced or popped. -/
def Tile.setInnermost (t : Tile) (f : Option LoopFrame) : Tile :=
  t.updFrame fun fr => { fr with loops := fr.loops.dropLast ++ f.toList }

/-- lset (R83). -/
def execLset (h : Hdr) (o : LSetOp) (s : State) : Out :=
  xword 0 h [.s o.n] [] [] (fun _ c =>
    let t := c.tile
    let n := t.getS o.n
    if n = 0 then jumpTo (relPc c o.imm + 1) id c
    else if t.frame.loops.length ≥ 6 then .trap c 2 0 none
    else
      let fr : LoopFrame := ⟨t.pc + 1, (relPc c o.imm).toNat, n - 1, o.e, o.i, t.getP 4, t.getP 5, t.getP 6, t.getP 7⟩
      .go (c.upd fun t => (t.updFrame fun f => { f with loops := f.loops ++ [fr] }).setStages (BitVec.allOnes 64) 0 0 0)
        (t.pc + 1) 1) s

/-- loopb (R84): a target outside the PC range raises class 7 with no other effect, the closing PC + 1 included (R81). -/
def execLoopb (h : Hdr) (imm : BitVec 17) (s : State) : Out :=
  xword 0 h [] [] [] (fun _ c =>
    let t := c.tile
    match t.innermost with
    | none => .trap c 2 0 none
    | some f =>
      if t.pc ≠ f.stop ∨ relPc c imm ≠ f.start then .trap c 2 0 none
      else
        let step (t : Tile) : Tile := t.setVrb (t.regs.vrb - 1)
        if f.left ≠ 0 then
          jumpTo f.start (fun t => ((step t).setStages (BitVec.allOnes 64) (t.getP 4) (t.getP 5) (t.getP 6)).setInnermost
            (some { f with left := f.left - 1 })) c
        else if f.drain ≠ 0 then
          jumpTo f.start (fun t => ((step t).setStages 0 (t.getP 4) (t.getP 5) (t.getP 6)).setInnermost
            (some { f with drain := f.drain - 1 })) c
        else
          if t.pc + 1 < pcLimit then .go (c.upd fun t => ((step t).setStages f.p4 f.p5 f.p6 f.p7).setInnermost none) (t.pc + 1) 1
          else .trap c 7 0 none) s

/-- lexit (R85): its PC goes to END + 1, exactly (R81). -/
def execLexit (h : Hdr) (s : State) : Out :=
  xword 0 h [] [] [] (fun _ c =>
    match c.tile.innermost with
    | none => .trap c 2 0 none
    | some f =>
      if f.stop + 1 < pcLimit then
        .go (c.upd fun t => (t.setStages f.p4 f.p5 f.p6 f.p7).setInnermost none) (f.stop + 1) 1
      else .trap c 7 0 none) s

/-! ## Special registers (R11, R87) -/

/-- TILE (R11). -/
def tileWord (c : Chip) : Word :=
  (c.modnum ++ c.member ++ 0#21 ++ tileCluster c.focus ++ tileRank c.focus ++ c.focus : BitVec 64)

/-- LOOPST (R87): I and DRAIN of the innermost frame, the number of frames. -/
def loopst (t : Tile) : Word :=
  match t.innermost with
  | none => 0
  | some f => ((BitVec.ofBool f.i ++ f.drain ++ BitVec.ofNat 3 t.frame.loops.length : BitVec 6).setWidth 64)

/-- TAGS (R87). -/
def tagsWord (t : Tile) : Word :=
  BitVec.ofNat 64 ((List.range 8).foldl (fun a k => if k ≠ 0 ∧ (vget t.frame.tags (BitVec.ofNat 3 k)).isSome then a + 2 ^ k else a) 0)

/-- A special register at a split clk (R87). -/
def specReg (now : Nat) (c : Chip) (r : SpecReg) : Word :=
  let t := c.tile
  match r with
  | .cyc => BitVec.ofNat 64 now
  | .tile => tileWord c
  | .iter0 => t.bound.iter0
  | .iter1 => t.bound.iter1
  | .iter2 => t.bound.iter2
  | .iter3 => t.bound.iter3
  | .iter4 => t.bound.iter4
  | .iter5 => t.bound.iter5
  | .vrb => t.regs.vrb.setWidth 64
  | .loopst => loopst t
  | .lleft => match t.innermost with | some f => f.left | none => 0
  | .launch => t.bound.launch.setWidth 64
  | .wave => t.bound.wave.setWidth 64
  | .tags => tagsWord t
  | .pcnow => BitVec.ofNat 64 t.pc

/-- movs (R87). -/
def execMovs (h : Hdr) (d : SReg) (r : SpecReg) (s : State) : Out :=
  xword 0 h [] [.s d] [] (fun now c => .go (c.upd fun t => t.setS d (specReg now c r)) (c.tile.pc + 1) 1) s

/-! ## Address registers (R88–R90) -/

/-- A power of two. -/
def isPow2 (n : Nat) : Bool := n != 0 && n == 2 ^ (bitLen 64 n - 1)

/-- The requirements of amode (R89). -/
def amodeOk (mode : AMode) (b st m : Word) : Bool :=
  bits b 48 16 == 0 && decide (-(2 ^ 31) ≤ st.toInt ∧ st.toInt ≤ 2 ^ 31 - 1) &&
    match mode with
    | .lin => m == 0
    | .circ => decide (1 ≤ m.toNat ∧ m.toNat ≤ 2 ^ 32) && decide (st.toInt.natAbs < m.toNat)
    | .brev => decide (2 ≤ m.toNat ∧ m.toNat ≤ 2 ^ 24) && isPow2 m.toNat && decide (0 < st.toInt) && isPow2 st.toNat &&
        decide (st.toNat < m.toNat)

/-- amode (R89): a failed requirement raises class 2 and leaves the register; the queue binding is released (R91). -/
def execAmode (h : Hdr) (o : AModeOp) (s : State) : Out :=
  xword 0 h [.s o.base, .s o.stride, .s o.modulus] [.a o.d] [] (fun _ c =>
    let t := c.tile
    let b := t.getS o.base
    let st := t.getS o.stride
    let m := t.getS o.modulus
    if amodeOk o.mode b st m then
      .go (c.upd fun t => t.setA o.d ⟨b.setWidth 48, b.setWidth 48, st.setWidth 32, m.setWidth 33, o.mode, none⟩) (t.pc + 1) 1
    else .trap c 2 0 none) s

def amovWrites : AMovOp → List RegRef
  | .toS d _ => [.s d]
  | .toA d _ => [.a d]
def amovReads : AMovOp → List RegRef
  | .toS _ a => [.a a]
  | .toA _ _ => []

def amovUses : AMovOp → List RegRef
  | .toS _ a => [.a a]
  | .toA _ a => [.s a]

/-- amov (R90). -/
def execAmov (h : Hdr) (o : AMovOp) (s : State) : Out :=
  xword 0 h (amovUses o) (amovWrites o) (amovReads o) (xstep 1 fun t =>
    match o with
    | .toS d a => t.setS d ((t.getA a).addr.setWidth 64)
    | .toA d a =>
      let t := t.meetWrite (fun _ => false) (· == .a d)
      t.setA d { t.getA d with addr := (t.getS a).setWidth 48, base := (t.getS a).setWidth 48 }) s

/-! ## Waits on time and tags (R92–R94) -/

/-- waitt captures the deadline and the command its register is bound to (R92, R93); waittWake ends it. -/
def execWaitt (h : Hdr) (a : SReg) (s : State) : Out :=
  xword 0 h [.s a] [] [] (fun _ c => .wait c (.time (c.tile.getS a) (if a = 0 then none else vget c.tile.binds a))) s

/-- The tags of a waits mask that are pending, with their producers (R94). -/
def maskPending (f : Frame) (mask : BitVec 7) : List (BitVec 3 × Nat) :=
  (List.range 7).filterMap fun k =>
    if mask.getLsbD k then (vget f.tags (BitVec.ofNat 3 (k + 1))).map fun id => (BitVec.ofNat 3 (k + 1), id) else none

/-- waits (R94): one clk when nothing named is pending. -/
def execWaits (h : Hdr) (mask : BitVec 7) (s : State) : Out :=
  xword 0 h [] [] [] (fun _ c =>
    match maskPending c.tile.frame mask with
    | [] => fallThrough c
    | ps => .wait c (.tags ps)) s

end Sys2Proof.Machine
end

