-- ==== Sys2Proof/Machine/Fetch.lean ====
section
/-! DEFINITION. Fetching an instruction line, splitting a queue word (R47, R53–R55, R63, R64, R91), and the small steps of the
tile that no word names: results, snapshots, deliveries, waits on time, deadlock. -/

namespace Sys2Proof.Machine

/-! ## The instruction cache (R63, R64) -/

/-- What fetch finds at a PC. -/
inductive Fetched where
  | word (w : IWord)
  | bad (cls : Nat) (tval : Word)
  | busy
deriving DecidableEq, Repr

/-- Lines of the instruction cache: 64 KiB. -/
def icacheLines : Nat := 512

/-- Word k of a line: bytes 10k to 10k + 9, little-endian. -/
def lineWord (l : BitVec 1024) (k : Nat) : IWord := l.extractLsb' (80 * k) 80

/-- A line taken into the cache; the oldest leaves when it is full. -/
def Tile.fillLine (t : Tile) (line : Nat) (l : BitVec 1024) : Tile :=
  { t with icache := ((line, l) :: t.icache).take icacheLines }

/-- The instruction line at a virtual line number: from the cache, or translated, checked and read like a load (R64). -/
def Chip.fetchLine (c : Chip) (line : Nat) : Chip × Except Fetched (BitVec 1024) :=
  match c.tile.icache.find? fun x => x.1 == line with
  | some (_, l) =>
    if c.tile.sramUe.contains (.iline line) then
      let c := c.upd fun t => { t with icache := t.icache.filter (fun x => x.1 != line), sramUe := t.sramUe.erase (.iline line) }
      (c.countConsumed c.focus 0 0 (causeCode 19 0), .error (.bad 19 0))
    else (c, .ok l)
  | none =>
    let (c, r) := c.checkSpan (.fetch c.focus) 0 .fetch (line * 128) 128
    match r with
    | .bad cls va => (c, .error (.bad cls (BitVec.ofNat 64 va)))
    | .absent => (c, .error (.bad 10 (BitVec.ofNat 64 (line * 128))))
    | .busy ls => (c.awaitBlocks (.fetch c.focus) 0 ls, .error .busy)
    | .ok spans =>
      let (c, bs, ue) := c.readSpans (.fetch c.focus) (causeCode 19 0) spans
      match ue with
      | some v => (c, .error (.bad 19 v))
      | none =>
        let l : BitVec 1024 := ofBytes 1024 bs
        (c.upd fun t => t.fillLine line l, .ok l)

/-- The word at the splitter's PC (R63): class 7 beyond the PC range, class 1 for a line whose last eight bytes are not
zero. -/
def Chip.fetchWord (c : Chip) : Chip × Fetched :=
  let pc := c.tile.pc
  if pcLimit ≤ pc then (c, .bad 7 0)
  else
    let (c, r) := c.fetchLine (pc / 12)
    match r with
    | .error e => (c, e)
    | .ok l => if l.extractLsb' 960 64 ≠ 0 then (c, .bad 1 0) else (c, .word (lineWord l (pc % 12)))

/-- The splitter stands ready for a word. -/
def Tile.canSplit (t : Tile) (now : Nat) : Bool := t.splitting && decide (t.frame.free ≤ now)

/-- A fault of fetch, or of an X word's decode, raised at once (R47, R64, R293). -/
def Chip.splitFault (c : Chip) (now cls eng : Nat) (tval : Word) : Chip :=
  let cause := xCause c eng cls tval
  { c with nextId := c.nextId + 1 }.upd fun t => (t.stops now).raise t.cur cause (some t.pc)

/-! ## Splitting a queue word (R47) -/

/-- Queue depths (R12). -/
def queueDepth : Queue → Nat
  | .a => 16
  | _ => 32

/-- The queue of a word by its ENG field (R12). -/
def queueOfEng (e : BitVec 3) : Queue :=
  match e.toNat with
  | 1 => .l
  | 2 | 3 | 6 => .c
  | 4 => .s
  | 5 => .a
  | _ => .x

/-- A word as its split captures it (R47, R55, R59, R60, R86). -/
def Tile.captured (t : Tile) (now id : Nat) (raw : IWord) (what : Parsed) : QWord where
  id := id
  born := now
  raw := raw
  what := what
  pc := t.pc
  vrb := t.regs.vrb
  p4 := t.getP 4
  p5 := t.getP 5
  p6 := t.getP 6
  p7 := t.getP 7
  waits := match what with
    | .ok i => t.frame.waitsFor i.hdr
    | .bad _ => []
  imode := match t.innermost with
    | some f => f.i
    | none => false
  ue := false

/-- The queue binding of an address register at a split (R91): none when another queue holds it. -/
def Tile.bindFor (t : Tile) (i : Instr) : Option Tile :=
  match postReg i with
  | none => some t
  | some a =>
    let q := if queuesOf i = [.s] then Fifo.s else .l
    match (t.getA a).bind with
    | none => some { t with regs := { t.regs with a := vset t.regs.a a { t.getA a with bind := some q } } }
    | some r => if r = q then some t else none

/-- Appended to its queues, with the tag it allocates; the splitter goes on in the next clk. -/
def Chip.enqueue (c : Chip) (now : Nat) (qs : List Queue) (w : QWord) (tag : BitVec 3) : Chip :=
  { c with nextId := c.nextId + 1 }.upd fun t =>
    let t := t.updFrame fun f =>
      let f := qs.foldl (fun (f : Frame) q => f.setQueue q (f.queue q ++ [w])) f
      { f with free := now + 1, tags := if tag = 0 then f.tags else vset f.tags tag (some w.id) }
    { t with pc := t.pc + 1, quiet := now }

/-- There is room in every queue (R47). -/
def Frame.room (f : Frame) (qs : List Queue) : Bool := qs.all fun q => decide ((f.queue q).length < queueDepth q)

/-- The other queue holds the address register that a word post-increments (R91, R95): class 2 at the split, code 16; the word is
discarded, and TPC is the word after it (log entry 57). -/
def Chip.bindFault (c : Chip) (now : Nat) : Chip :=
  { c with nextId := c.nextId + 1 }.upd fun t =>
    ({ t.updFrame (fun f => { f with free := now + 1 }) with pc := t.pc + 1, quiet := now } : Tile).raise t.cur
      { code := causeCode 2 0, pc := t.pc, tval := 0, rq := none, xw := false, id := c.nextId } none

/-- The split of a word that goes to L, C, S or A; an X word is left to its meaning. -/
def Chip.splitQueueWord (c : Chip) (now : Nat) (raw : IWord) : Chip :=
  let t := c.tile
  let eng : BitVec 3 := raw.extractLsb' 77 3
  match decode raw with
  | .ok i =>
    let qs := queuesOf i
    if isX i || !t.canSplit now || !t.frame.room qs || t.frame.tagPending i.hdr.sba then c
    else
      let (d, ue) := c.scrubRegs (fun u => (stageReads i).any u.inReg) (causeCode 19 (instrEng i))
      match d.tile.bindFor i with
      | some t' => (d.setTile t').enqueue now qs { d.tile.captured now c.nextId raw (.ok i) with ue := ue.isSome } i.hdr.sba
      | none => c.bindFault now
  | .error e =>
    if !t.canSplit now then c
    else
      match queueOfEng eng with
      | .x => c.splitFault now e.cls eng.toNat 0
      | q => if t.frame.room [q] then c.enqueue now [q] (t.captured now c.nextId raw (.bad e)) 0 else c

/-- WORD_SPLIT (R47): the splitter takes the queue word at its PC. -/
def execWordSplit (s : State) : Out :=
  s.lift fun now c =>
    if !c.tile.canSplit now then c
    else
      match c.fetchWord with
      | (c, .word w) => c.splitQueueWord now w
      | (c, .bad cls tval) => c.splitFault now cls 0 tval
      | (c, .busy) => c

/-- A word marked faulting at its split reaches the head of its queue (R47, R72): discarded, its trap raised for the ENG of the
word in memory; no token, tag or register changes. -/
def Chip.faultHead (c : Chip) (now : Nat) (q : Queue) : Chip :=
  let t := c.tile
  match t.frame.queue q with
  | [] => c
  | w :: rest =>
    match w.what with
    | .ok _ => c
    | .bad e =>
      if t.active && decide (t.frame.nextOf q ≤ now) && decide (w.born < now) then
        c.upd fun t =>
          { t.updFrame (fun f => (f.setQueue q rest).setNext q (now + 1)) with quiet := now }.raise t.cur
            { code := causeCode e.cls (w.raw.extractLsb' 77 3).toNat, pc := w.pc, tval := 0, rq := none, xw := false, id := w.id }
            none
      else c

/-! ## Results and deliveries -/

/-- RESULT_WRITE (R129): results that are due reach their destinations. -/
def execResultWrite (s : State) : Out :=
  s.lift fun now c => c.upd fun t => Tile.landDue (t.pipe.length + 1) t now

/-- SNAPSHOT_WRITE (R294): a snapshot entry, put back behind the return, is written at tr plus its remaining latency. -/
def execSnapshotWrite (s : State) : Out :=
  s.lift fun now c => c.upd fun t => if t.mode = .user then Tile.landDue (t.pipe.length + 1) t now else t

/-- PROMISE_WRITE (R217). -/
def execPromiseWrite (s : State) : Out := s.lift fun now c => c.upd fun t => t.landAll now

/-- The class 16 of a reclust that exceeded its bound stands only while CXEN is set at its completion (R185, R187). -/
def Result.gated (r : Result) (cst : Word) : Result :=
  match r.cause with
  | some x => if x.code = causeCode 16 6 ∧ !cst.getLsbD 31 then { r with cause := none } else r
  | none => r

/-- VARIABLE_LATENCY_COMPLETION (R131): a result of no fixed latency writes its registers and its tag, and then raises the
cause it carries. -/
def execVariableLatencyCompletion (k : Nat) (s : State) : Out :=
  s.lift fun now c => c.upd fun t =>
    match t.vpend[k]? with
    | none => t
    | some r =>
      if now ≤ r.due || t.lateFor now (resultRefs r) then t
      else
        let t := { t with vpend := dropAt t.vpend k }.land now r
        t.raiseAll ((r.gated t.sys.cst).causes t.sys.vtrapen)

/-- TRAP_ENTRY (R292, R295): the oldest cause that has not been delivered is raised; a trap raised in this clk is taken, unless a word of a
queue may still issue in it: then it is taken when none can (log entry 74). -/
def execTrapEntry (s : State) : Out :=
  s.lift fun now c => c.upd fun t =>
    let t := t.deliver
    if allQueues.any (t.frame.headDue now) then t else t.takeTrap (now + 1)

/-! ## Waits on time (R92, R93) -/

/-- The splitter let go by the wait word that held it; its result counts for the phase (R309). -/
def Tile.release (t : Tile) (now : Nat) : Tile :=
  if t.frame.wait.isNone then t
  else ((if t.mode = .user then t.phaseResult now else t).endWait (now + 1)) |> fun t => { t with quiet := now }

/-- A cause of the wait word itself (R293): class 13 or 23, raised for ENG 0 with TPC at the word. -/
def Tile.waitCause (t : Tile) (now cls : Nat) : Tile :=
  t.failWait now (fun w => { code := causeCode cls 0, pc := w.pc, tval := 0, rq := none, xw := true, id := w.id }) HeldWord.pc

/-- A command has completed, its release included, when its FIFO no longer holds it. -/
def Tile.incomplete (t : Tile) (id : Nat) : Bool := (t.chan.fifo ++ t.unv.fifo).any fun x => x.id == id

/-- WAITT_WAKE (R92, R93): of a strand that runs; one under a pre-emption is held over. -/
def execWaittWake (s : State) : Out :=
  s.lift fun now c => c.upd fun t =>
    match t.frame.wait with
    | some ⟨_, _, _, .time dl cmd, _⟩ =>
      if BitVec.ofNat 64 now < dl || !t.active then t
      else
        match cmd with
        | some id => if t.incomplete id then t.waitCause now 13 else t.release now
        | none => t.release now
    | _ => t

/-! ## Token deadlock (R66) -/

/-- The head of a queue is stalled on a token, or on a queue register that its predicate lets it use. -/
def Tile.stalled (t : Tile) (now : Nat) (q : Queue) : Option QWord :=
  match t.frame.queue q with
  | [] => none
  | w :: _ =>
    match w.what with
    | .ok i =>
      if !tokReady q i.hdr t.frame.tok || (predOn (predKind i) (t.effPred w i.hdr) && !qregsReady now t.frame i) then some w else none
    | .bad _ => none

/-- A load, tag producer or engine command of the tile is outstanding, in either frame; a mark is none of them, nor an rfree. -/
def Tile.outstanding (t : Tile) : Bool :=
  let busy (f : Frame) : Bool := (f.lf ++ f.sf ++ f.ans).any fun a => isLoad a.w.ins || a.w.ins.hdr.sba != 0
  busy t.user || busy t.hand || (t.pipe ++ t.vpend ++ t.snap).any (fun r => r.tag != 0) || t.promises.any (fun p => p.tag != 0) ||
    !t.mat.queue.isEmpty || !t.mat.ards.isEmpty || !t.chan.fifo.isEmpty || !t.unv.fifo.isEmpty

def oldestWord : List QWord → Option QWord
  | [] => none
  | w :: r =>
    match oldestWord r with
    | some x => if x.id < w.id then some x else some w
    | none => some w

/-- TOKEN_DEADLOCK (R66). -/
def execTokenDeadlock (s : State) : Out :=
  s.lift fun now c => c.upd fun t =>
    if t.active && decide (t.quiet + 65536 ≤ now) && !t.outstanding then
      match oldestWord ([Queue.l, .c, .s].filterMap (t.stalled now)) with
      | none => t
      | some w =>
        let eng := match w.what with | .ok i => instrEng i | .bad _ => 0
        { t with quiet := now }.raise t.cur
          { code := causeCode 4 eng, pc := w.pc, tval := 0, rq := none, xw := false, id := w.id } none
    else t

end Sys2Proof.Machine
end

