-- ==== Sys2Proof/Machine/Copy.lean ====
section
/-! DEFINITION. The copy commands: cpy, cpyf and cpyq at issue, and what the copy engine reads and writes (R216–R226, R235). -/

namespace Sys2Proof.Machine

/-! ## The shape (R219) -/

/-- Narrow formats of cvt and ef. -/
inductive Narrow where
  | bf16 | f16 | mx8
deriving DecidableEq, Repr

def narrowOf (x : Word) : Option Narrow :=
  match (bits x 54 2).toNat with
  | 0 => some .bf16
  | 1 => some .f16
  | 2 => some .mx8
  | _ => none
def rndOf (x : Word) : Rnd :=
  match (bits x 51 2).toNat with
  | 0 => .rne
  | 1 => .rtz
  | 2 => .rdn
  | _ => .rup
/-- The residue format. -/
def resFmt (x : Word) : Fmt := if x.getLsbD 53 then fmtF16 else fmtBf16
def shapeCount (x : Word) : Nat := (bits x 0 32).toNat
def shapeRows (x : Word) : Nat := (bits x 32 16).toNat
/-- Element bytes of tps. -/
def shapeEsz (x : Word) : Nat := 2 ^ (bits x 53 2).toNat

/-- The most bytes a command reads, or writes. -/
def cmdLimit : Nat := 16777216

/-- Lines of a tensor of n indices. -/
def Desc.lines (d : Desc) : Nat := (d.n + lineCap d.w - 1) / lineCap d.w

/-- Bytes that a cvt or ef writes at its destination. -/
def narrowBytes (k : Narrow) (n : Nat) : Nat := if k = .mx8 then 33 * (n / 32) else 2 * n

/-- Bytes read, written at the destination and written as residue; none where a field is out of range (R219). -/
def cpySizes (k : CpyKind) (x : Word) : Option (Nat × Nat × Nat) :=
  let n := shapeCount x
  let small := x.extractLsb' 56 8 = 0 ∧ x.extractLsb' 48 2 = 0
  let flat := small ∧ shapeRows x = 0 ∧ n ≠ 0
  let conv (ef : Bool) : Option (Nat × Nat × Nat) :=
    match narrowOf x with
    | none => none
    | some f =>
      let res := if ef then 2 * n else 0
      let dst := narrowBytes f n
      if flat ∧ (ef ∨ x.getLsbD 53 = false) ∧ (f = .mx8 → n % 32 = 0 ∧ bits x 50 3 = 0) ∧ 4 * n ≤ cmdLimit ∧ dst + res ≤ cmdLimit then
        some (4 * n, dst, res) else none
  match k with
  | .plain => if flat ∧ bits x 50 6 = 0 ∧ n ≤ cmdLimit then some (n, n, 0) else none
  | .cvt => conv false
  | .ef => conv true
  | .tps =>
    let b := shapeRows x * n * shapeEsz x
    if small ∧ bits x 50 3 = 0 ∧ x.getLsbD 55 = false ∧ b ≠ 0 ∧ b ≤ cmdLimit then some (b, b, 0) else none
  | .pln | .pak =>
    let d := descOf x
    if !d.resv ∧ d.prow = 0 ∧ d.n ≠ 0 ∧ d.n ≤ 4194304 ∧ lineWidth d.w ∧ d.lines ≤ 4096 then
      (if k = .pln then some (128 * d.lines, d.bytes, 0) else some (d.bytes, 128 * d.lines, 0)) else none

/-! ## Operands (R220, R221, R223) -/

/-- What the copy engine may do in a buffer (R14, R220). -/
def copyAllow (write : Bool) (b : Buf) (_ : Bool) : Bool :=
  match b with
  | .wb => write
  | .ab | .xb => true
  | .lb => false

/-- An operand: scratchpad or global, its address, its bytes, whether it is written, its alignment. -/
structure CpyArg where
  sp : Bool
  addr : Word
  n : Nat
  write : Bool
  align : Nat

/-- The operands of a cpy with the sizes of its kind. -/
def cpyArgs (o : CpyOp) (src dst res shape : Word) (z : Nat × Nat × Nat) : List CpyArg :=
  let narrow := match narrowOf shape with
    | some .mx8 => 128
    | _ => 2
  let (rs, ws) := match o.kind with
    | .plain => (1, 1)
    | .cvt | .ef => (4, narrow)
    | .tps => (shapeEsz shape, shapeEsz shape)
    | .pln | .pak => (128, 128)
  [⟨o.ssp, src, z.1, false, rs⟩, ⟨o.dsp, dst, z.2.1, true, ws⟩] ++ (if o.kind = .ef then [⟨o.dsp, res, z.2.2, true, 2⟩] else [])

def CpyArg.place (own : TileId) (a : CpyArg) : Place :=
  if a.sp then .buf ((spPlace a.addr 0).tile own) (spPlace a.addr 0).buf (bits a.addr 0 20).toNat else .glob a.addr
def CpyArg.region (own : TileId) (a : CpyArg) : Region := ⟨a.place own, a.n⟩

/-- The scratchpad check that the operands fail first in the order of R100: class and address. -/
def argsFail (c : Chip) (as : List CpyArg) : Option (Nat × Word) :=
  let fs := as.filterMap fun a =>
    if a.sp then (spFail c c.focus (copyAllow a.write) (spPlace a.addr 0) a.n a.align).map fun f => (f.1, f.2, a.addr) else none
  let m := fs.foldl (fun m f => Nat.min m f.1) 6
  (fs.find? fun f => f.1 == m).map fun f => f.2

/-- The overlap rule of R223. -/
def cpyOverlap (own : TileId) (o : CpyOp) (as : List CpyArg) : Bool :=
  match o.kind, as with
  | .plain, _ => false
  | _, [s, d] => (s.region own).meets (d.region own) && !o.ip
  | _, [s, d, r] =>
    ((s.region own).meets (d.region own) && !o.ip) || (r.region own).meets (s.region own) || (r.region own).meets (d.region own)
  | _, _ => false

/-- The fate of a cpy at issue (R221): class and TVAL. -/
def cpyFate (c : Chip) (t : Tile) (o : CpyOp) (src dst res shape : Word) : Option (Nat × Word) :=
  match cpySizes o.kind shape with
  | none => some (2, 0)
  | some z =>
    let as := cpyArgs o src dst res shape z
    match as.find? fun a => !a.sp && a.addr.extractLsb' 48 16 != 0 with
    | some a => some (7, a.addr)
    | none =>
      match argsFail c as with
      | some f => some f
      | none =>
        if o.ip ∧ (o.ssp ≠ o.dsp ∨ src ≠ dst) then some (2, 0)
        else if cpyOverlap c.focus o as then some (12, 0)
        else if t.chan.disabled then some (28, 0)
        else none

/-- cpy (R217, R218). -/
def execCpy (h : Hdr) (o : CpyOp) (s : State) : Out :=
  qword .a (.cpy h o) .bit0 (cmdRes .chan) (fun now w t c =>
    let src := t.getS o.a
    let dst := t.getS o.b
    let res := t.getS o.d
    let shape := t.getS o.c
    match cpyFate c t o src dst res shape with
    | some (cls, tval) => c.issueFault w h.sba cls 5 tval
    | none => (c.pushCmd now .chan w t o.d src dst res shape none (c.chanPromise now)).tickFree) s

/-! ## What a cpy moves (R222) -/

/-- Element k of a source stream. -/
def f32At (buf : List Byte) (k : Nat) : Nat := (ofBytes 32 ((buf.drop (4 * k)).take 4)).toNat

/-- Residue (R224). -/
def residue (f : Fmt) (rnd : Rnd) (x n : FVal) : Nat :=
  match x, n with
  | .nan _, _ | _, .nan _ => f.nan
  | .inf a, .inf b => if a = b then f.zero false else f.inf a
  | .inf a, .fin .. => f.inf a
  | .fin .., .inf b => f.inf !b
  | .fin a m e, .fin b k g =>
    if (exactAdd a m e (!b) k g).1 = 0 then f.zero (rnd == .rdn) else (f.add ⟨rnd, false, false⟩ x n.negate).bits

/-- Element k narrowed to bf16 or f16, and its value. -/
def narrowed (f : Narrow) (x : Word) (v : FVal) : Nat × FVal :=
  let g := if f = .f16 then fmtF16 else fmtBf16
  let b := (g.finish ⟨rndOf x, x.getLsbD 50, false⟩ v).bits
  (b, g.val false b)

/-- Block c of a source stream quantised (R35). -/
def mxBlockAt (buf : List Byte) (c : Nat) : MxBlock := quantiseMx 8 ((List.range 32).map fun j => fmtF32.val false (f32At buf (32 * c + j)))

/-- The value of a code of a block (R31). -/
def MxBlock.value (b : MxBlock) (j : Nat) : FVal :=
  if b.scale = 255 then .nan false
  else
    let q := (b.codes[j]?).getD 0
    .fin (decide (q < 0)) q.natAbs ((b.scale : Int) - 133)

def MxBlock.codeBytes (b : MxBlock) : List Byte := b.codes.map fun q => BitVec.ofInt 8 q

/-- What a cvt or ef writes at its destination. -/
def cvtBytes (o : CpyOp) (f : Narrow) (x : Word) (buf : List Byte) : List Byte :=
  let n := shapeCount x
  match f with
  | .bf16 | .f16 => (List.range n).flatMap fun k => toBytes 2 (BitVec.ofNat 16 (narrowed f x (fmtF32.val false (f32At buf k))).1)
  | .mx8 =>
    let blocks := (List.range (n / 32)).map (mxBlockAt buf)
    if o.dsp then
      ((List.range 4).flatMap fun k => blocks.flatMap fun b => toBytes 8 (mxPlane 8 (ofBytes 256 b.codeBytes) k)) ++
        blocks.map fun b => BitVec.ofNat 8 b.scale
    else blocks.flatMap fun b => b.codeBytes ++ [BitVec.ofNat 8 b.scale]

/-- What an ef writes as its residue. -/
def efBytes (f : Narrow) (x : Word) (buf : List Byte) : List Byte :=
  (List.range (shapeCount x)).flatMap fun k =>
    let v := fmtF32.val false (f32At buf k)
    let n := match f with
      | .bf16 | .f16 => (narrowed f x v).2
      | .mx8 => (mxBlockAt buf (k / 32)).value (k % 32)
    toBytes 2 (BitVec.ofNat 16 (residue (resFmt x) (rndOf x) v n))

/-- The transposed elements. -/
def tpsBytes (rows cols es : Nat) (buf : List Byte) : List Byte :=
  (List.range (rows * cols)).flatMap fun i => (buf.drop ((i % rows * cols + i / rows) * es)).take es

/-- The planes of the lines read; a line whose CRC failed stands as zeros in the stream. -/
def plnBytes (d : Desc) (buf : List Byte) : List Byte :=
  planeBytes d.n d.w fun e => lineSlot ((buf.drop (128 * (e / lineCap d.w))).take 128) d.w (e % lineCap d.w)

/-- The lines of the planes read. -/
def pakBytes (d : Desc) (buf : List Byte) : List Byte :=
  let at_ (k : Nat) : Byte := (buf[k]?).getD 0
  (List.range d.lines).flatMap fun l => codedLine l d.n d.w d.cbid.toNat d.etag.toNat fun e => planeIndex at_ d.rows d.w e

/-! ### What each output is computed from (R229) -/

/-- Bytes lo to hi − 1 of the source; in place, every byte up to where the output is written is read first (R223). -/
def needRange (ip : Bool) (lo hi upto : Nat) : List (Nat × Nat) := if ip then [(0, Nat.max hi upto)] else [(lo, hi - lo)]

/-- The source of n output bytes at d of elements of two bytes. -/
def needNarrow (ip : Bool) (d n : Nat) : List (Nat × Nat) := needRange ip (4 * (d / 2)) (4 * ((d + n - 1) / 2 + 1)) (d + n)
/-- The source of blocks a to b. -/
def needBlocks (ip : Bool) (a b upto : Nat) : List (Nat × Nat) := needRange ip (128 * a) (128 * (b + 1)) upto
/-- The source of n output bytes at d of an mx8 output of nb blocks. -/
def needMx (ip planes : Bool) (nb d n : Nat) : List (Nat × Nat) :=
  if !planes then needBlocks ip (d / 33) ((d + n - 1) / 33) (d + n)
  else if 32 * nb ≤ d then needBlocks ip (d - 32 * nb) (d + n - 1 - 32 * nb) (d + n)
  else if d / (8 * nb) = (d + n - 1) / (8 * nb) then needBlocks ip (d % (8 * nb) / 8) ((d + n - 1) % (8 * nb) / 8) (d + n)
  else [(0, 128 * nb)]
/-- The lines of the indices that n bytes at d of the planes hold. -/
def needPln (x : Desc) (d n : Nat) : List (Nat × Nat) :=
  let e (k : Nat) : Nat := k % (x.rows * 128) * 8
  if d / (x.rows * 128) = (d + n - 1) / (x.rows * 128) then
    let lo := e d / lineCap x.w
    [(128 * lo, 128 * ((e (d + n - 1) + 7) / lineCap x.w + 1 - lo))]
  else [(0, 128 * x.lines)]
/-- The plane bytes of the indices of the line that holds output byte d. -/
def needPak (x : Desc) (d n : Nat) : List (Nat × Nat) :=
  let lo := d / 128 * lineCap x.w / 8
  let hi := ((d + n - 1) / 128 + 1) * lineCap x.w / 8 + 1
  (List.range x.w).map fun p => (p * x.rows * 128 + lo, hi - lo)
/-- The elements that a transposed part comes from. -/
def needTps (rows cols es d n : Nat) : List (Nat × Nat) :=
  (List.range ((d + n - 1) / es - d / es + 1)).map fun k =>
    let i := d / es + k
    ((i % rows * cols + i / rows) * es, es)

/-- The operands of a cpy command. -/
def Cmd.cpyArgs (x : Cmd) (o : CpyOp) : List CpyArg :=
  Machine.cpyArgs o x.src x.dst x.res x.shape ((cpySizes o.kind x.shape).getD (0, 0, 0))

/-- The regions that a cpy reads, end to end: lines for pln. -/
def cpySrc (own : TileId) (o : CpyOp) (x : Cmd) : List Region :=
  match x.cpyArgs o with
  | s :: _ =>
    if o.kind = .pln then (List.range (descOf x.shape).lines).map fun l => ⟨(s.place own).add (128 * l), 128⟩ else [s.region own]
  | [] => []

/-- The outputs of a cpy, from what has been read. -/
def cpyOps (own : TileId) (o : CpyOp) (x : Cmd) : List NeedOp :=
  let d := descOf x.shape
  let n := shapeCount x.shape
  let put (a : CpyArg) (bs : List Byte) (esz : Nat) := regionWrites (a.place own) bs esz
  let conv (a : CpyArg) (f : Narrow) : List NeedOp :=
    put a (cvtBytes o f x.shape x.buf) (if f = .mx8 then (if o.dsp then 1 else 33) else 2) 1 id
      (if f = .mx8 then needMx o.ip o.dsp (n / 32) else needNarrow o.ip)
  match x.cpyArgs o with
  | s :: a :: r =>
    match o.kind with
    | .plain =>
      put a (x.buf ++ List.replicate (n - x.buf.length) 0) 1 1 id
        (if (s.region own).meets (a.region own) then fun _ _ => [(0, n)] else fun d k => [(d, k)])
    | .cvt | .ef =>
      match narrowOf x.shape with
      | none => []
      | some f =>
        conv a f ++ match r with
          | [] => []
          | z :: _ => put z (efBytes f x.shape x.buf) 2 2 id
              (fun d k => if f = .mx8 then needBlocks o.ip (d / 64) ((d + k - 1) / 64) 0 else needNarrow o.ip d k)
    | .tps =>
      put a (tpsBytes (shapeRows x.shape) n (shapeEsz x.shape) (x.buf ++ List.replicate (s.n - x.buf.length) 0)) (shapeEsz x.shape) 1 id
        (needTps (shapeRows x.shape) n (shapeEsz x.shape))
    | .pln => put a (plnBytes d x.buf) 1 1 (fun k => match needPln d k 1 with | (lo, _) :: _ => lo / 128 | [] => 0) (needPln d)
    | .pak => put a (pakBytes d x.buf) 128 1 (· / 128) (needPak d)
  | _ => []

/-- The number of a byte of a cpy's source stream (R233): the line's number for pln and pak. -/
def cpyElem (o : CpyOp) (x : Cmd) (off : Nat) : Nat :=
  let d := descOf x.shape
  match o.kind with
  | .pln => off / 128
  | .pak => off % (d.rows * 128) * 8 / lineCap d.w
  | _ => off

/-- A part of a cpy's source has been read. A line of pln is checked when its last byte has been read (R38): one that fails parks
the command, one whose CRC fails is counted and stands as zeros. A line delivered as zeros because it is uncorrectable is checked as any
other (log entry 63). -/
def Chip.cpyRead (c : Chip) (o : CpyOp) (x : Cmd) (k : Nat) : Chip :=
  let ps := srcParts 0 (cpySrc c.focus o x)
  c.cmdRead .chan x ps k (cpyElem o x) true fun c x p bs spans =>
    if o.kind ≠ .pln then c.cmdGot .chan k x p bs
    else
      let l := p.off / 128
      let rest := ps.zipIdx.any fun q => q.2 != k && decide (q.1.off / 128 = l) && !x.rdone.contains q.2
      if rest then c.cmdGot .chan k x p bs
      else
        let buf := growBytes x.buf p.off bs
        let line := (buf.drop (128 * l)).take 128
        let d := descOf x.shape
        match lineFate line l d.n d.w d.cbid.toNat d.etag.toNat with
        | .bad cls => c.parkCmd .chan x (false, k) cls (x.src + BitVec.ofNat 64 (128 * l)) 0 l
        | .good => c.cmdGot .chan k x p bs
        | .zeros =>
          let tv := (spans.head?.map fun s => lineTval c (s.1 / 128)).getD 0
          (c.crcEvent line spans (causeCode 19 5)).cmdGot .chan k { x with ue := x.ue <|> some tv } ⟨128 * l, p.place, 128⟩
            (List.replicate 128 0)

/-! ## cpyf (R235) -/

/-- cpyf. -/
def execCpyf (h : Hdr) (o : CpyfOp) (s : State) : Out :=
  qword .a (.cpyf h o) .bit0 (cmdRes .chan) (fun now w t c =>
    let src := t.getS o.a
    let n := t.getS o.b
    let rc := t.getS o.c
    if n = 0 ∨ cmdLimit < n.toNat ∨ rc = 0 ∨ 255 < rc.toNat then c.issueFault w h.sba 2 5 0
    else if src.extractLsb' 48 16 ≠ 0 then c.issueFault w h.sba 7 5 src
    else if t.chan.disabled then c.issueFault w h.sba 28 5 0
    else (c.pushCmd now .chan w t o.d src n 0 rc none (c.chanPromise now)).tickFree) s

/-- Lines that a cpyf touches. -/
def cpyfLines (x : Cmd) : List Nat := linesOf x.src.toNat x.dst.toNat

/-- A line of a cpyf filled: translated like a load, written back if dirty, its count set (R235). -/
def Chip.cpyfLine (c : Chip) (x : Cmd) (k : Nat) : Chip :=
  match (cpyfLines x)[k]? with
  | none => c
  | some l =>
    let va := Nat.max (l * 128) x.src.toNat
    let park (c : Chip) (cls va : Nat) : Chip := c.parkCmd .chan x (false, k) cls (BitVec.ofNat 64 va) 0 (va - x.src.toNat)
    let (c, f) := c.checkSpan (.word c.focus x.id) 5 .read (l * 128) 128
    match f with
    | .busy ls => c.awaitBlocks (.word c.focus x.id) 5 ls
    | .bad cls _ => park c cls va
    | .absent => park c 7 va
    | .ok spans =>
      match spans with
      | (key, _) :: _ =>
        if keyRemote key then park c 7 va
        else
          let pl := key / 128
          let c := (if c.ueLines.contains pl then c.zeroLine pl c.focus 0 else c).tookLost (.word c.focus x.id) pl
          let c := { c with counts := (pl, x.shape.toNat) :: c.counts.filter (fun y => y.1 != pl), dirty := c.dirty.filter (· != pl) }
          c.upd fun t => t.freeCmd .chan { x with rdone := k :: x.rdone }
      | [] => c

/-- CPYF_LINE_FILL (R235): the next line of the cpyf at the head of the channel, in ascending order of address (log entry 80). -/
def execCpyfLineFill (s : State) : Out :=
  s.lift fun _ c =>
    match c.tile.chan.fifo with
    | x :: _ =>
      let k := x.rdone.length
      match x.ins with
      | .cpyf .. => if x.runs c.tile (false, k) then c.cpyfLine x k else c
      | _ => c
    | [] => c

/-! ## cpyq (R226) -/

/-- In a guarded phase cpyq waits for the commit (R311). -/
def phaseRes (_ : Nat) (_ : QWord) (c : Chip) : Bool := !c.tile.inPhase

/-- cpyq: a fresh promise for the command to which s[SA] is bound. -/
def execCpyq (h : Hdr) (o : RR) (s : State) : Out :=
  qword .a (.cpyq h o) .bit0 phaseRes (fun now w t c =>
    match vget t.binds o.a with
    | none => c.promise now w h o.d (BitVec.ofNat 64 now) none
    | some id =>
      if t.incomplete id then (c.promise now w h o.d (BitVec.ofNat 64 (now + 1 + Config.prediction c.freeCnt)) (some id)).tickFree
      else c.promise now w h o.d (BitVec.ofNat 64 now) (some id)) s

end Sys2Proof.Machine
end

