-- ==== Sys2Proof/Machine/Unveil.lean ====
section
/-! DEFINITION. The Unveil engine and the patina map (R241–R251). -/

namespace Sys2Proof.Machine

/-! ## The state block (R241, R242, R246) -/

/-- A sequence state block. -/
structure UBlock where
  layers : Nat
  blog : Nat
  share : Nat
  n : Nat
  conf : Word
  mask : Word
  argmax : Word
  out : Word
  clist : Word
  ltab : Word
  pcnt : Word
  dirty : Word
deriving DecidableEq, Repr

/-- Word k of a state block's bytes. -/
def blockWord (bs : List Byte) (k : Nat) : Word := ofBytes 64 ((bs.drop (8 * k)).take 8)

def ublockOf (bs : List Byte) : UBlock where
  layers := (bits (blockWord bs 0) 52 8).toNat
  blog := (bits (blockWord bs 0) 48 4).toNat
  share := (bits (blockWord bs 0) 32 16).toNat
  n := (bits (blockWord bs 0) 0 32).toNat
  conf := blockWord bs 1
  mask := blockWord bs 2
  argmax := blockWord bs 3
  out := blockWord bs 4
  clist := blockWord bs 5
  ltab := blockWord bs 6
  pcnt := blockWord bs 7
  dirty := blockWord bs 8

/-- Blocks of the sequence, and dirty words of a layer. -/
def UBlock.nb (u : UBlock) : Nat := (u.n + 2 ^ u.blog - 1) / 2 ^ u.blog
def UBlock.dw (u : UBlock) : Nat := (u.nb + 63) / 64

/-- A reserved bit set, or a field out of range; with LAYERS 0 the patina's addresses may hold any value. -/
def ublockBad (bs : List Byte) : Bool :=
  let u := ublockOf bs
  let high (k : Nat) : Bool := bits (blockWord bs k) 48 16 != 0
  bits (blockWord bs 0) 60 4 != 0 || u.n == 0 || decide (65536 < u.n) || decide (u.blog < 2) || decide (6 < u.blog) ||
    decide (128 < u.layers) || [1, 2, 3, 4, 5].any high || (u.layers != 0 && [6, 7, 8].any high) ||
    (List.range 7).any fun k => blockWord bs (9 + k) != 0

/-- A clear range. -/
structure ClearRange where
  l0 : Nat
  ln : Nat
  b0 : Nat
  bn : Nat
deriving DecidableEq, Repr

def clearRangeOf (x : Word) : ClearRange := ⟨(bits x 35 7).toNat, (bits x 28 7).toNat, (bits x 14 14).toNat, (bits x 0 14).toNat⟩

/-! ## Regions and checks (R249) -/

/-- A region: its bytes, how it is reached, its alignment. -/
structure URegion where
  addr : Word
  n : Nat
  kind : AccKind
  align : Nat
deriving DecidableEq, Repr

def URegion.region (r : URegion) : Region := ⟨.glob r.addr, r.n⟩

/-- The regions of a round. -/
def unvRegions (u : UBlock) : List URegion :=
  [⟨u.conf, 2 * u.n, .read, 2⟩, ⟨u.mask, 8 * ((u.n + 63) / 64), .atomic, 8⟩, ⟨u.argmax, 4 * u.n, .read, 4⟩,
    ⟨u.out, 4 * u.n, .write, 4⟩, ⟨u.clist, 8 + 4 * u.n, .write, 8⟩] ++
    (if u.layers = 0 then [] else
      [⟨u.ltab, 4 * u.layers, .read, 4⟩, ⟨u.pcnt, 2 * (u.layers * u.nb), .atomic, 2⟩, ⟨u.dirty, 8 * (u.layers * u.dw), .atomic, 8⟩])

/-- The regions of a clear: each layer's dirty words. -/
def clrRegions (u : UBlock) (r : ClearRange) : List URegion :=
  (List.range (r.ln + 1)).map fun i =>
    ⟨u.dirty + BitVec.ofNat 64 (8 * ((r.l0 + i) * u.dw + r.b0 / 64)), 8 * ((r.b0 + r.bn) / 64 - r.b0 / 64 + 1), .atomic, 8⟩

def cmdRegions (x : Cmd) (u : UBlock) : List URegion :=
  match x.ins with
  | .patclr .. => clrRegions u (clearRangeOf x.dst)
  | _ => unvRegions u

/-- The first region that shares a byte with a written one. -/
def overlapping (rs : List URegion) : Option URegion :=
  rs.zipIdx.findSome? fun r =>
    if r.1.kind != .read && rs.zipIdx.any fun q => q.2 != r.2 && r.1.region.meets q.1.region then some r.1 else none

/-- Orders 1 to 3 of R249: class and address. -/
def ublockFate (x : Cmd) (bs : List Byte) : Option (Nat × Word) :=
  let u := ublockOf bs
  let clr := match x.ins with | .patclr .. => true | _ => false
  let r := clearRangeOf x.dst
  let rs := cmdRegions x u
  if ublockBad bs || (clr && (u.layers == 0 || decide (u.layers ≤ r.l0 + r.ln) || decide (u.nb ≤ r.b0 + r.bn))) then some (2, x.src)
  else if x.src.toNat % 128 ≠ 0 then some (5, x.src)
  else
    match rs.find? fun q => q.addr.toNat % q.align != 0 with
    | some q => some (5, q.addr)
    | none => if clr then none else (overlapping rs).map fun q => (12, q.addr)

/-- Order 4: every page of every region, in the order of the list, whose first failing one gives class and address (log entry 82); an absent
member's is a class 7 (R251, log entry 65). -/
def Chip.checkRegions (c : Chip) (id : Nat) : List URegion → Chip × Res
  | [] => (c, .ok [])
  | r :: l =>
    let (c, f) := c.checkSpan (.word c.focus id) 5 r.kind r.addr.toNat r.n
    match f with
    | .ok _ => c.checkRegions id l
    | .absent => (c, .bad 7 r.addr.toNat)
    | f => (c, f)

/-- Radius and threshold of a layer entry (R242). -/
def layerOf (tab : List Byte) (l : Nat) : Nat × Nat :=
  let e : BitVec 32 := ofBytes 32 ((tab.drop (4 * l)).take 4)
  ((bits e 16 8).toNat, (bits e 0 16).toNat)

/-- Order 5: the first bad layer entry. -/
def badLayer (tab : List Byte) (layers : Nat) : Option Nat :=
  (List.range layers).find? fun l =>
    let e : BitVec 32 := ofBytes 32 ((tab.drop (4 * l)).take 4)
    bits e 24 8 != 0 || bits e 0 16 == 0

/-! ## Issue (R244, R246, R247, R250) -/

/-- The promise of the last incomplete Unveil command, 0 if none. -/
def Engine.pending (e : Engine) : Nat := if e.fifo.isEmpty then 0 else e.lastPromise
/-- The running time of the last completed unv, or 2,048. -/
def Engine.running (e : Engine) : Nat := if e.lastRun = 0 then 2048 else e.lastRun - 1

/-- An Unveil command at issue: the clear range, the address, the engine (R251). -/
def unvIssue (i : Instr) (d a : SReg) (range : Tile → Word) (dur : Tile → Nat) : State → Out :=
  qword .a i .bit0 (cmdRes .unveil) fun now w t c =>
    let x := t.getS a
    let r := range t
    if bits r 42 22 ≠ 0 then c.issueFault w i.hdr.sba 2 5 0
    else if x.extractLsb' 48 16 ≠ 0 then c.issueFault w i.hdr.sba 7 5 x
    else if t.unv.disabled then c.issueFault w i.hdr.sba 28 5 0
    else c.pushCmd now .unveil w t d x r 0 0 none (Nat.max (now + 4) t.unv.pending + dur t)

/-- unv (R244). -/
def execUnv (h : Hdr) (o : UnvOp) (s : State) : Out := unvIssue (.unv h o) o.d o.a (fun _ => 0) (fun t => t.unv.running) s
/-- patclr (R246). -/
def execPatclr (h : Hdr) (o : PatclrOp) (s : State) : Out :=
  unvIssue (.patclr h o) o.d o.a (fun t => t.getS o.b)
    (fun t => let r := clearRangeOf (t.getS o.b); 40 + ((r.ln + 1) * (r.bn + 1) + 63) / 64) s

/-- Another tile of the die runs, or issued earlier, a command that names the same state block, or such a command has left writes that
have not been performed, or a strand saved there has started such a command (R247). Commands of the other die's tiles, whose engine is another,
are not kept apart from these (log entry 81); one that has parked holds the block though a trap has ended its strand (log entry 76). -/
def Chip.blockTaken (c : Chip) (x : Cmd) : Bool :=
  (c.saved.any fun k => tileDie k.home == tileDie c.focus && k.tile.unv.fifo.any fun y => y.src == x.src && y.st != .queued) || (List.range 256).any fun k =>
    let n : TileId := BitVec.ofNat 8 k
    n != c.focus && tileDie n == tileDie c.focus && (((c.tileAt n).unv.late.any fun l => l.src == x.src) || (c.tileAt n).unv.fifo.any fun y =>
      y.src == x.src && (y.st != .queued || decide (y.issued < x.issued) || (y.issued == x.issued && decide (k < c.focus.toNat))))

/-! ## The round (R244, R245) -/

/-- A position put in rank order: higher key first, then lower position. -/
def insertRank (x : Nat × Nat) : List (Nat × Nat) → List (Nat × Nat)
  | [] => [x]
  | y :: l => if y.1 < x.1 ∨ (y.1 = x.1 ∧ x.2 < y.2) then x :: y :: l else y :: insertRank x l

/-- The positions of a list in the order of their keys. -/
def rankOrder (key : Nat → Nat) (ps : List Nat) : List Nat := (ps.foldl (fun a p => insertRank (key p, p) a) []).map Prod.snd

/-- Commits of a round with m masked positions. -/
def commitCount (share m : Nat) : Nat := if m = 0 then 0 else Nat.max 1 ((share * m + 65535) / 65536)

/-- Counters and dirty bits that a round has changed, and the counters it has read in memory. -/
structure Patina where
  cnt : List (Nat × Nat)
  dirty : List (Nat × Nat)
  read : List Nat
deriving DecidableEq, Repr

def Patina.getCnt (p : Patina) (base : Nat → Nat) (k : Nat) : Nat := ((p.cnt.find? fun x => x.1 == k).map Prod.snd).getD (base k)
def Patina.want (p : Patina) (k : Nat) : Patina := { p with read := if (p.cnt.map Prod.fst ++ p.read).contains k then p.read else p.read ++ [k] }
def Patina.setCnt (p : Patina) (k v : Nat) : Patina := { p with cnt := (k, v) :: p.cnt.filter fun x => x.1 != k }
def Patina.mark (p : Patina) (l b : Nat) : Patina := { p with dirty := if p.dirty.contains (l, b) then p.dirty else (l, b) :: p.dirty }

/-- A commit in block b, in one layer of nb blocks. -/
def Patina.layer (p : Patina) (base : Nat → Nat) (nb l r theta b : Nat) : Patina :=
  let p := (p.mark l b).setCnt (l * nb + b) 0
  let lo := b - r
  let hi := Nat.min (nb - 1) (b + r)
  ((List.range (hi + 1 - lo)).map (lo + ·)).foldl (fun p k =>
    if k = b then p
    else
      let p := p.want (l * nb + k)
      let v := Nat.min (p.getCnt base (l * nb + k) + 1) 65535
      if theta ≤ v then (p.mark l k).setCnt (l * nb + k) 0 else p.setCnt (l * nb + k) v) p

/-- PatinaCommit (R245). -/
def Patina.commit (p : Patina) (base : Nat → Nat) (nb : Nat) (layers : List (Nat × Nat)) (b : Nat) : Patina :=
  layers.zipIdx.foldl (fun p x => p.layer base nb x.2 x.1.1 x.1.2 b) p

/-- Where the arrays of a round lie in its source stream: the state block, the layer table, then the regions read. -/
def tabOff : Nat := 128
def arrOff : Nat := 640
/-- A number in the source stream. -/
def streamNum (buf : List Byte) (off n : Nat) : Nat := (ofBytes 64 ((buf.drop off).take n)).toNat

/-- A mask of positions or blocks collected in words: word number, bits. -/
def wordMasks (ps : List (Nat × Nat)) : List (Nat × Nat) :=
  ps.foldl (fun a p => match a.find? fun x => x.1 == p.1 with
    | some (_, m) => (p.1, m + 2 ^ p.2) :: a.filter fun x => x.1 != p.1
    | none => (p.1, 2 ^ p.2) :: a) []

def uop (k : OutKind) (base : Word) (off n v : Nat) : OutOp := ⟨.glob (base + BitVec.ofNat 64 off), k, toBytes n (BitVec.ofNat 64 v), 1, 0⟩

/-- Where the confidences, the candidates and the counters lie in the source stream. -/
def UBlock.confOff (u : UBlock) : Nat := arrOff + 8 * ((u.n + 63) / 64)
def UBlock.argOff (u : UBlock) : Nat := u.confOff + 2 * u.n
def UBlock.cntOff (u : UBlock) : Nat := u.argOff + 4 * u.n

/-- The masked positions, once the mask has been read. -/
def maskedIn (buf : List Byte) : List Nat :=
  (List.range (ublockOf buf).n).filter fun p => (streamNum buf (arrOff + 8 * (p / 64)) 8).testBit (p % 64)

/-- The positions that a round commits, in rank order, once their confidences have been read. -/
def commitsOf (buf : List Byte) : List Nat :=
  let u := ublockOf buf
  let ps := maskedIn buf
  (rankOrder (fun p => okeyBits .f16 (streamNum buf (u.confOff + 2 * p) 2)) ps).take (commitCount u.share ps.length)

/-- The patina of a round's commits. -/
def patinaOf (buf : List Byte) : Patina :=
  let u := ublockOf buf
  let layers := (List.range u.layers).map (layerOf (buf.drop tabOff))
  (commitsOf buf).foldl (fun (q : Patina) p => q.commit (fun k => streamNum buf (u.cntOff + 2 * k) 2) u.nb layers (p / 2 ^ u.blog)) ⟨[], [], []⟩

/-- The outputs of a round, from what has been read (R243–R245, R248). -/
def unveilOuts (buf : List Byte) : List OutOp :=
  let u := ublockOf buf
  let commits := commitsOf buf
  let pat := patinaOf buf
  (commits.map fun p => uop .put u.out (4 * p) 4 (streamNum buf (u.argOff + 4 * p) 4)) ++
    ((wordMasks (commits.map fun p => (p / 64, p % 64))).map fun x => uop .clr u.mask (8 * x.1) 8 x.2) ++
    [uop .put u.clist 0 8 (((maskedIn buf).length - commits.length) * 2 ^ 32 + commits.length)] ++
    (commits.zipIdx.map fun p => uop .put u.clist (8 + 4 * p.2) 4 p.1) ++
    (pat.cnt.map fun x => uop .put u.pcnt (2 * x.1) 2 x.2) ++
    ((wordMasks (pat.dirty.map fun x => (x.1 * u.dw + x.2 / 64, x.2 % 64))).map fun x => uop .set u.dirty (8 * x.1) 8 x.2)

/-- The outputs of a clear (R246, R248). -/
def patclrOuts (buf : List Byte) (range : Word) : List OutOp :=
  let u := ublockOf buf
  let r := clearRangeOf range
  (wordMasks ((List.range (r.ln + 1)).flatMap fun i => (List.range (r.bn + 1)).map fun j =>
    ((r.l0 + i) * u.dw + (r.b0 + j) / 64, (r.b0 + j) % 64))).map fun x => uop .clr u.dirty (8 * x.1) 8 x.2

/-! ## The engine's steps -/

/-- Source parts have been read. -/
def Cmd.hasRead (x : Cmd) (ps : List SrcPart) : Bool := (List.range ps.length).all x.rdone.contains

/-- The parts of a round's source, as far as they are known: the mask; then the confidences of the masked positions; then the candidates
of the commits and the counters that these step (R244, R245; log entry 27). -/
def roundParts (x : Cmd) : List SrcPart :=
  let u := ublockOf x.buf
  let mask := srcParts arrOff [⟨.glob u.mask, 8 * ((u.n + 63) / 64)⟩]
  if !x.hasRead mask then mask
  else
    let at_ (base : Word) (off k n : Nat) : SrcPart := ⟨off + n * k, .glob (base + BitVec.ofNat 64 (n * k)), n⟩
    let ps := mask ++ (maskedIn x.buf).map fun p => at_ u.conf u.confOff p 2
    if !x.hasRead ps then ps
    else ps ++ ((commitsOf x.buf).map fun p => at_ u.argmax u.argOff p 4) ++ (patinaOf x.buf).read.map fun k => at_ u.pcnt u.cntOff k 2

/-- The parts of an Unveil command's source, once its checks have passed. -/
def unveilParts (x : Cmd) : List SrcPart :=
  match x.ins with
  | .unv .. => if x.sent then roundParts x else []
  | _ => []

/-- UNVEIL_STATE_BLOCK_READ (R249): the state block read in one step, every check, the layer table; a failure parks the command
whole. The block is read before its address is checked: the 128 bytes from the address, of two lines where it is not aligned (log entry
82). -/
def execUnveilStateBlockRead (s : State) : Out :=
  s.lift fun _ c =>
    match c.tile.unv.fifo with
    | [] => c
    | x :: _ =>
      if x.sent || !x.runs c.tile (false, 0) then c
      else
        let park (c : Chip) (x : Cmd) (cls : Nat) (addr : Word) : Chip := c.parkCmd .unveil x (false, 0) cls addr 0 0
        let read (c : Chip) (x : Cmd) (addr : Word) (n : Nat) (next : Chip → Cmd → List Byte → Chip) : Chip :=
          let (c, f) := c.resolvePieces (.word c.focus x.id) 5 .read [⟨0, .glob addr, n⟩]
          match f with
          | .bad cls va => park c x cls (BitVec.ofNat 64 va)
          | .refused => park c x x.absentClass addr
          | .busy ls => c.awaitBlocks (.word c.focus x.id) 5 ls
          | .ok rs =>
            if c.tile.unv.owes rs then c
            else
              let (c, bs, ue) := c.readPieces (.word c.focus x.id) false (causeCode 19 5) rs (List.replicate n 0)
              next c { x with ue := x.ue <|> ue } bs
        read c x x.src 128 fun c x bs =>
          match ublockFate x bs with
          | some (cls, addr) => park c x cls addr
          | none =>
            let u := ublockOf bs
            let (c, f) := c.checkRegions x.id (cmdRegions x u)
            match f with
            | .bad cls va => park c x cls (BitVec.ofNat 64 va)
            | .absent => c
            | .busy ls => c.awaitBlocks (.word c.focus x.id) 5 (tableLines ls)
            | .ok _ =>
              let pass (c : Chip) (x : Cmd) (tab : List Byte) : Chip :=
                c.upd fun t => t.freeCmd .unveil { x with sent := true, buf := growBytes bs tabOff tab }
              match x.ins with
              | .unv .. => read c x u.ltab (4 * u.layers) fun c x tab =>
                match badLayer tab u.layers with
                | some l => park c x 2 (u.ltab + BitVec.ofNat 64 (4 * l))
                | none => pass c x tab
              | _ => pass c x []

/-- The head command of the tile's Unveil FIFO, its reads done, its outputs not yet known. -/
def Tile.unveilHead (t : Tile) : Option Cmd :=
  match t.unv.fifo with
  | x :: _ => if x.sent && !x.ready && !x.dropped && x.hasRead (unveilParts x) then some x else none
  | [] => none

/-- UNVEIL_ROUND (R244, R245): the round is computed from what has been read. -/
def execUnveilRound (s : State) : Out :=
  s.lift fun _ c => c.upd fun t =>
    match t.unveilHead with
    | some x => match x.ins with
      | .unv .. => t.setCmd .unveil { x with ready := true, out := unveilOuts x.buf }
      | _ => t
    | none => t

/-- PATCLR_CLEAR (R246): the words that a clear changes. -/
def execPatclrClear (s : State) : Out :=
  s.lift fun _ c => c.upd fun t =>
    match t.unveilHead with
    | some x => match x.ins with
      | .patclr .. => t.setCmd .unveil { x with ready := true, out := patclrOuts x.buf x.dst }
      | _ => t
    | none => t

end Sys2Proof.Machine
end

