-- ==== Sys2Proof/Machine/Commands.lean ====
section
/-! DEFINITION. The events of a command: its start, its acquire, its accesses, its completion (R227–R233, R247, R248, R283). -/

namespace Sys2Proof.Machine

/-- The parts of a command's source. -/
def cmdParts (c : Chip) (x : Cmd) : List SrcPart :=
  match x.ins with
  | .cpy _ o => srcParts 0 (cpySrc c.focus o x)
  | .unv .. | .patclr .. => unveilParts x
  | .cred .. | .cmc .. | .cbar .. => srcParts 0 (collSrc c x)
  | _ => []

/-- Its outputs, as far as they are known. -/
def cmdOps (c : Chip) (x : Cmd) : List NeedOp :=
  match x.ins with
  | .cpy _ o => cpyOps c.focus o x
  | .unv .. | .patclr .. => x.out.map fun o => ⟨[], o, 0, 0⟩
  | .cred .. | .cmc .. | .cbar .. => collOps c x
  | _ => []

/-- Its reads are done and its outputs are known. -/
def cmdKnown (c : Chip) (x : Cmd) : Bool :=
  match x.ins with
  | .cpyf .. => x.rdone.length == (cpyfLines x).length
  | .unv .. | .patclr .. => x.ready
  | .cred .. | .cmc .. | .cbar .. => x.sent && c.collDone x
  | _ => (List.range (cmdParts c x).length).all x.rdone.contains

/-- COMMAND_START (R228, R247): the command at the head of its FIFO starts; its predecessor has left it. -/
def execCommandStart (eng : CmdEng) (s : State) : Out :=
  s.lift fun now c =>
    match (c.tile.engine eng).fifo with
    | x :: _ => if x.st != .queued || (eng == .unveil && c.blockTaken x) then c
      else c.upd fun t => t.setCmd eng { x with st := .started, since := now }
    | [] => c

/-- The strand's L and S accesses older than a command have been performed; the user frame's unissued words are younger than a
handler's command (R228). -/
def Tile.cmdOlderOpen (t : Tile) (x : Cmd) : Bool :=
  match x.frame with
  | .user => t.user.olderOpen x.id
  | .handler => t.hand.olderOpen x.id || (t.user.lf ++ t.user.sf).any fun a => decide (a.w.id < x.id)

/-- COMMAND_ACQUIRE (R228): the strand's older accesses have been performed, and at .x their owners have acknowledged. -/
def execCommandAcquire (eng : CmdEng) (s : State) : Out :=
  s.lift fun _ c =>
    match (c.tile.engine eng).fifo with
    | x :: _ =>
      if x.st == .started && (cmdFlags x.ins).acq && !c.tile.cmdOlderOpen x && (!atX x.ins || c.tile.unacked == 0) then
        c.upd fun t => t.setCmd eng { x with st := .acquired }
      else c
    | [] => c

/-- COMMAND_ACCESS (R229, R230): source part k of the command at the head; write k of those that completed commands have sent; or, past
these, an output of the command at the head. A collective whose instance has failed parks. -/
def execCommandAccess (eng : CmdEng) (write : Bool) (k : Nat) (s : State) : Out :=
  s.lift fun _ c =>
    let e := c.tile.engine eng
    if write && decide (k < e.late.length) then c.performLate eng k
    else
      let k := if write then k - e.late.length else k
      match e.fifo with
      | [] => c
      | x :: _ =>
        let c := if x.inst.isSome && x.st != .queued && !x.dropped && (x.at_.isNone || (x.parked.isNone && c.tile.freeEntry.isSome)) then c.collPark x
          else c
        if c.tile.engine eng != e || !x.runs c.tile (write, k) then c
        else if write then c.cmdWrite eng x (cmdParts c x) (cmdOps c x) k
        else
          match x.ins with
          | .cpy _ o => c.cpyRead o x k
          | .unv .. => c.cmdRead eng x (cmdParts c x) k (fun _ => 0) false fun c x p bs _ => c.cmdGot eng k x p bs
          | .cred .. | .cmc .. => c.cmdRead eng x (cmdParts c x) k id true fun c x p bs _ => c.cmdGot eng k x p bs
          | _ => c

/-- COMMAND_COMPLETION (R230, R232, R233). -/
def execCommandCompletion (eng : CmdEng) (s : State) : Out :=
  s.lift fun now c =>
    match (c.tile.engine eng).fifo with
    | [] => c
    | x :: _ =>
      if x.dropped then c.completeCmd now eng x []
      else
        let ops := cmdOps c x
        if x.runs c.tile (true, ops.length) && cmdKnown c x then c.completeCmd now eng x ops else c

/-- READ_COUNT_EXPIRY (R123): a line whose count has reached zero invalidates itself without write-back. -/
def execReadCountExpiry (line : Nat) (s : State) : Out :=
  s.lift fun _ c =>
    if c.counts.any fun x => x.1 == line && x.2 == 0 then
      { c with counts := c.counts.filter (fun x => x.1 != line), dirty := c.dirty.filter (· != line) }
    else c

end Sys2Proof.Machine
end

