-- ==== Sys2Proof/Machine/Errors.lean ====
section
/-! DEFINITION. Strike reports, walks of the page tables by themselves, evictions and the recovery of compressed blocks (R314, R337,
R343–R345). -/

namespace Sys2Proof.Machine

/-- STRIKE_REPORT (R343): a record of KIND 5, and the cancellation of an active guarded phase. -/
def execStrikeReport (s : State) : Out :=
  s.lift fun _ c => (c.record (tileDie c.focus) (tileBank c.focus) false 5 0 c.focus 0).upd Tile.askCancel

/-- PAGE_TABLE_WALK (R314–R316): a walk for an address of the tile's strand; its entry is cached, and a failure raises nothing by
itself. -/
def execPageTableWalk (va : BitVec 48) (s : State) : Out :=
  s.lift fun _ c => (c.translate (.walker c.focus) 0 va.toNat).1

/-- LINE_EVICTION (R337, R123): a line leaves the LLC with its count; a dirty one that has failed is written back as zeros. -/
def execLineEviction (line : Nat) (s : State) : Out :=
  s.lift fun _ c =>
    if keyRemote (line * 128) then c
    else
      let c := if c.dirty.contains line && c.ueLines.contains line then c.zeroLine line 0 0 else c
      { c with dirty := c.dirty.filter (· != line), counts := c.counts.filter fun x => x.1 != line }

/-! ## Physical memory as the device's own units read and write it -/

/-- A physical address lies in the module's own HBM. -/
def Chip.ownHbm (c : Chip) (pa : BitVec 56) : Bool := pa.extractLsb' 48 8 == c.member && (regionFate pa).isNone

/-- Bytes of own HBM, read at their home slices; failing lines are zeroed there and recorded, and nothing consumes them. -/
def Chip.unitRead (c : Chip) (pa : BitVec 56) (n : Nat) : Chip × List Byte :=
  let k := c.key pa
  let c := (linesOf k n).foldl (fun (c : Chip) l => if c.ueLines.contains l then c.zeroLine l 0 0 else c) c
  (c, c.mem.read k n)

/-- Bytes written to own HBM; anywhere else nothing is written. -/
def Chip.unitWrite (c : Chip) (pa : BitVec 56) (bs : List Byte) : Chip := if c.ownHbm pa then c.writeMem 0 (c.key pa) bs else c

/-! ## Compressed blocks (R344, R345) -/

/-- Die of a block of 1 KiB, and the channel there. -/
def blockChannel (block : Nat) : Bool × Nat :=
  let ch := hbmChannel (block * 1024)
  (decide (128 ≤ ch), ch % 128)

/-- An entry of the bad-chunk list, or one more lost. -/
def Chip.badChunk (c : Chip) (pa : BitVec 56) (path : BitVec 2) : Chip :=
  let (d, ch) := blockChannel ((pa.extractLsb' 0 48).toNat / 1024)
  let x := c.die d
  if (x.bchead - x.bctail).toNat = 2 ^ x.bclog.toNat then c.updDie d fun x => { x with bclost := x.bclost + 1 }
  else
    let e : Word := 0#8 ++ pa.extractLsb' 10 46 ++ path ++ BitVec.ofNat 8 ch
    let at_ : BitVec 56 := (x.bcbase ++ 0#3) + BitVec.ofNat 56 (8 * (x.bchead.toNat % 2 ^ x.bclog.toNat))
    (c.unitWrite at_ (toBytes 8 e)).updDie d fun x => { x with bchead := x.bchead + 1 }

/-- The replica of a block, by the table of its channel's die: none where the table or its entry names none. -/
def Chip.replica (c : Chip) (pa : BitVec 56) : Chip × Option (BitVec 56) :=
  let (d, _) := blockChannel ((pa.extractLsb' 0 48).toNat / 1024)
  let x := c.die d
  let u := (pa.extractLsb' 16 40).toNat
  let first := x.rtfirst.toNat
  if u < first ∨ first + x.rtcount.toNat ≤ u then (c, none)
  else
    let at_ : BitVec 56 := (x.rtbase ++ 0#3) + BitVec.ofNat 56 (8 * (u - first))
    if !c.ownHbm at_ then (c, none)
    else
      let (c, bs) := c.unitRead at_ 8
      let e : Word := ofBytes 64 bs
      let r : BitVec 56 := e.extractLsb' 16 40 ++ pa.extractLsb' 0 16
      let squeezed := c.compressed.any fun x => decide (x.1 ≤ c.key r) && decide (c.key r < x.1 + x.2)
      if e.getLsbD 0 && c.ownHbm r && !squeezed then (c, some r) else (c, none)

/-- A block's lines that are not dirty in the LLC take bytes from HBM. -/
def Chip.fillBlock (c : Chip) (block : Nat) (bs : List Byte) (wakes : Bool) : Chip :=
  (List.range 8).foldl (fun (c : Chip) k =>
    let l := block * 8 + k
    if c.dirty.contains l then c
    else
      let c := { c with mem := c.mem.write (l * 128) ((bs.drop (128 * k)).take 128) }
      if wakes then { c.wakeLine l with counts := c.counts.filter fun x => x.1 != l } else c) c

/-- The requests that wait for a block share its recovery: those of a lost block will deliver consumed zeros, but for a line whose newer bytes
are in the LLC. -/
def Chip.blockOver (c : Chip) (block : Nat) (lost : Bool) : Chip :=
  let mine := c.blockWait.filter fun x => x.1 / 8 == block && !c.dirty.contains x.1
  { c with
    ueBlocks := c.ueBlocks.filter (· != block)
    blockWait := c.blockWait.filter fun x => x.1 / 8 != block
    blockLost := if lost then c.blockLost ++ mine.map fun x => (x.1, x.2.1) else c.blockLost }

/-- COMPRESSED_BLOCK_RECOVERY (R344): the second read, the replica, or zeros and an entry of the bad-chunk list. -/
def execCompressedBlockRecovery (pa : BitVec 56) (t : BlockTry) (s : State) : Out :=
  s.lift fun _ c =>
    let block := (pa.extractLsb' 0 48).toNat / 1024
    let pa : BitVec 56 := c.member ++ BitVec.ofNat 48 (block * 1024)
    let (d, ch) := blockChannel block
    let first := c.blockWait.find? fun x => x.1 / 8 == block
    let req : TileId := first.elim 0 fun x => x.2.1.tile
    let code : BitVec 8 := (c.blockWait.find? fun x => x.1 / 8 == block && !c.dirty.contains x.1).elim 0 fun x => x.2.2
    if !c.ueBlocks.contains block then c
    else if t.rereadOk then (c.record d (384 + ch) false 3 pa req 0).blockOver block false
    else
      let (c, r) := c.replica pa
      let failed (c : Chip) (path : BitVec 2) : Chip :=
        ((((c.fillBlock block (List.replicate 1024 0) true).badChunk pa path).record d (384 + ch) true 3 pa req code)).blockOver block true
      match r with
      | none => failed c 0
      | some r =>
        let k := c.key r
        let bad := !t.replicaOk || (linesOf k 1024).any c.ueLines.contains
        let (c, bs) := c.unitRead r 1024
        if bad then failed c 1
        else ((c.fillBlock block bs false).record d (384 + ch) false 3 pa req 0).blockOver block false

end Sys2Proof.Machine
end

