-- ==== Sys2Proof/Machine/Launch.lean ====
section
/-! DEFINITION. Launch records, as the firmware takes them from a queue and completes them (R320–R325, R363, R380, R383). -/

namespace Sys2Proof.Machine

/-! ## The firmware reads a launch's tables (R322) -/

/-- What the firmware cannot read: at all, or not before a compressed block has been recovered. -/
inductive Unread where
  | never | later
deriving DecidableEq, Repr

/-- The firmware waits for the blocks of some lines (R344). -/
def Chip.fwAwait (c : Chip) (ls : List Nat) : Chip :=
  { c with blockWait := ls.foldl (fun w l => if w.contains (l, .firmware, 0) then w else w ++ [(l, .firmware, 0)]) c.blockWait }

/-- Bytes at a physical address as the firmware reads them: a block under recovery is awaited (R344), and a line that is uncorrectable,
or whose block has just been lost, cannot be read. -/
def Chip.fwRead (c : Chip) (pa : BitVec 56) (n : Nat) : Chip × Except Unread (List Byte) :=
  let k := c.key pa
  let ls := linesOf k n
  let busy := ls.filter fun l => c.ueBlocks.contains (l / 8)
  let lost := ls.filter fun l => c.lostFor .firmware l
  let bad := ls.filter c.ueLines.contains
  if !busy.isEmpty then (c.fwAwait busy, .error .later)
  else if !bad.isEmpty || !lost.isEmpty then
    (bad.foldl (fun (c : Chip) l => c.zeroLine l 0 0) (lost.foldl (Chip.tookLost · .firmware ·) c), .error .never)
  else (c, .ok (c.mem.read k n))

/-- Bytes at a virtual address under a ROOT: never where an address does not translate, a read is not permitted, a region or a member
is out of reach, or a line is uncorrectable. -/
def Chip.readUnder (die : Bool) (root : Word) : (pages : Nat) → Chip → (va n : Nat) → Chip × Except Unread (List Byte)
  | 0, c, _, _ => (c, .ok [])
  | pages + 1, c, va, n =>
    if n = 0 then (c, .ok [])
    else if 2 ^ 48 ≤ va then (c, .error .never)
    else
      let here := Nat.min n (65536 - va % 65536)
      match c.walk die .firmware 0 va 4 0 (root.extractLsb' 0 44 ++ 0#12) with
      | (c, .error (.cls _)) => (c, .error .never)
      | (c, .error (.busy l)) => (c.fwAwait [l], .error .later)
      | (c, .ok (level, p)) =>
        let pa : BitVec 56 := pteBase p + BitVec.ofNat 56 (va % pageBytes level)
        if (regionFate pa).isSome || !permits .read p || !c.reaches die pa then (c, .error .never)
        else
          match c.fwRead pa here with
          | (c, .error e) => (c, .error e)
          | (c, .ok bs) =>
            match Chip.readUnder die root pages c (va + here) (n - here) with
            | (c, .ok r) => (c, .ok (bs ++ r))
            | (c, .error e) => (c, .error e)

/-- Little-endian words of bytes. -/
def recWords (n : Nat) (bs : List Byte) : List Word := (List.range n).map fun i => ofBytes 64 ((bs.drop (8 * i)).take 8)

/-- n words at a virtual address. -/
def Chip.wordsUnder (c : Chip) (die : Bool) (root : Word) (va n : Nat) : Chip × Except Unread (List Word) :=
  let (c, r) := Chip.readUnder die root (pagesOf (8 * n)) c va (8 * n)
  (c, r.map (recWords n))

/-! ## What a record asks for (R321, R322, R324, R380) -/

/-- Word k of a record. -/
def recWord (r : List Word) (k : Nat) : Word := (r[k]?).getD 0

/-- A reserved bit of the record is set. -/
def recReserved (r : List Word) : Bool :=
  let w := recWord r
  bits (w 0) 60 4 != 0 || (w 0).getLsbD 40 || bits (w 0) 32 6 != 0 || bits (w 1) 48 16 != 0 || bits (w 2) 45 19 != 0 || bits (w 3) 45 19 != 0 ||
    bits (w 4) 60 4 != 0 || bits (w 4) 44 4 != 0 || bits (w 12) 48 16 != 0 || w 13 != 0 || w 14 != 0 || w 15 != 0

/-- The dies that may run a launch. -/
def diesOf (w0 : Word) : BitVec 2 := if bits w0 38 2 = 0 then 3 else bits w0 38 2
def dieCount (w0 : Word) : Nat := popCount 2 (diesOf w0).toNat
/-- Strands per team; 0 where TSIZE is above 8. -/
def teamSize (w0 : Word) : Nat :=
  match (bits w0 44 4).toNat with
  | 0 => 8
  | n => if n ≤ 8 then n else 0

/-- One level of a loop table: its KIND and its count, none where a bit is wrong or an argument too great. -/
def levelOf (r : List Word) (e : Word) : Option (Nat × Nat) :=
  let arg := (bits e 32 3).toNat
  let count := if arg = 0 then (bits e 0 32).toNat else (recWord r (4 + arg)).toNat
  if bits e 35 27 ≠ 0 ∨ (bits e 62 2).toNat = 3 ∨ 2 ^ 32 ≤ count then none else some ((bits e 62 2).toNat, count)

/-- Every level. -/
def levelsOf (r : List Word) : List Word → Option (List (Nat × Nat))
  | [] => some []
  | e :: l =>
    match levelOf r e, levelsOf r l with
    | some x, some y => some (x :: y)
    | _, _ => none

/-- The size of the space of a KIND. -/
def spaceOf (kind : Nat) (l : List (Nat × Nat)) : Nat := ((l.filter fun x => x.1 == kind).map Prod.snd).foldl (· * ·) 1

/-- The loop table's levels. -/
def Chip.loopTable (c : Chip) (die : Bool) (r : List Word) : Chip × Except Unread (List (Nat × Nat)) :=
  let at_ := (recWord r 1).toNat
  match c.wordsUnder die (recWord r 4) at_ 1 with
  | (c, .ok l) =>
    let h := recWord l 0
    let n := (bits h 0 3).toNat
    if bits h 3 61 ≠ 0 ∨ n = 0 ∨ 6 < n then (c, .error .never)
    else
      match c.wordsUnder die (recWord r 4) (at_ + 8) n with
      | (c, .ok l) => (c, match levelsOf r l with | some x => .ok x | none => .error .never)
      | (c, .error e) => (c, .error e)
  | (c, .error e) => (c, .error e)

/-- The module list of a launch across a domain (R380): its members. -/
def Chip.moduleList (c : Chip) (die : Bool) (r : List Word) : Chip × Except Unread (List (BitVec 8)) :=
  let at_ := (recWord r 12).toNat
  match c.wordsUnder die (recWord r 4) at_ 1 with
  | (c, .ok l) =>
    let h := recWord l 0
    let n := (bits h 0 8).toNat
    if bits h 8 56 ≠ 0 ∨ n = 0 ∨ 192 < n then (c, .error .never)
    else
      match c.wordsUnder die (recWord r 4) (at_ + 8) n with
      | (c, .ok l) =>
        let ms := l.map fun e => (bits e 0 8 : BitVec 8)
        (c, if l.any (fun e => bits e 8 56 != 0) || !(decide ms.Nodup) || ms.any (fun m => !(c.die die).domain.getLsbD m.toNat) then .error .never
          else .ok ms)
      | (c, .error e) => (c, .error e)
  | (c, .error e) => (c, .error e)

/-- A launch that starts nothing, with a STATUS. -/
def Launch.empty (num : BitVec 32) (r : List Word) (src : Option (Bool × BitVec 3)) (status : BitVec 8) : Launch where
  num := num
  word0 := recWord r 0
  src := src
  cIters := 0
  dIters := 0
  hasD := false
  place := none
  modules := 0
  strands := 0
  begun := 0
  past := 0
  ended := 0
  cause := none
  status := status
  aborted := false
  record := r
  levels := []
  mods := []
  on0 := ⟨0, 0, false⟩
  on1 := ⟨0, 0, false⟩
  used := 0
  again := []
  cut := false

/-- Strands of a launch on this module. -/
def Launch.strandsHere (l : Launch) : Nat :=
  match l.place with
  | some p => Nat.min 2 (l.dIters - 2 * p) * l.cIters
  | none => if l.hasD then l.dIters * l.cIters else l.cIters

/-- Teams of one run of the C space (R324). -/
def Launch.teams (l : Launch) : Nat := (l.cIters + teamSize l.word0 - 1) / teamSize l.word0

/-- A launch within the limits of R322: D iterations a local launch can place, teams that one wave can hold on the dies that need
any. -/
def Launch.fits (l : Launch) (isLocal : Bool) : Bool :=
  let room := if l.hasD || !isLocal then 16 else 16 * dieCount l.word0
  teamSize l.word0 != 0 && (!isLocal || decide (l.dIters ≤ dieCount l.word0) || !l.hasD) &&
    (!l.word0.getLsbD 43 || l.dIters == 0 || decide (l.teams ≤ room))

/-- A record accepted, or rejected with STATUS 2 (R322, R380); none while a table it names cannot be read yet. -/
def Chip.launchOf (c : Chip) (die : Bool) (num : BitVec 32) (src : Option (Bool × BitVec 3)) (r : List Word) : Chip × Option Launch :=
  let reject := Launch.empty num r src 2
  if recReserved r then (c, some reject)
  else
    match c.loopTable die r with
    | (c, .error .later) => (c, none)
    | (c, .error .never) => (c, some reject)
    | (c, .ok ls) =>
      let l := { Launch.empty num r src 0 with cIters := spaceOf 1 ls, dIters := spaceOf 2 ls, hasD := ls.any (fun x => x.1 == 2), levels := ls }
      if recWord r 12 = 0 then (c, some (if l.fits true then { l with strands := l.strandsHere } else reject))
      else
        match c.moduleList die r with
        | (c, .error .later) => (c, none)
        | (c, .error .never) => (c, some reject)
        | (c, .ok ms) =>
          if 2 * ms.length < l.dIters || !l.fits false then (c, some reject)
          else
            let l := { l with place := some ((ms.findIdx? fun m => m == c.member).getD ms.length)
                              modules := if src.isSome then (ms.filter fun m => m != c.member).length else 0
                              mods := ms }
            (c, some { l with strands := l.strandsHere })

/-! ## Iterations (R324) -/

/-- The coordinates, at every level, of an index of the space of a KIND, and what is left of it: the innermost level varies fastest;
levels of another KIND hold 0. -/
def spread (kind : Nat) : List (Nat × Nat) → (n : Nat) → List Nat × Nat
  | [], n => ([], n)
  | (k, m) :: r, n =>
    let (xs, q) := spread kind r n
    if k = kind then (q % m :: xs, q / m) else (0 :: xs, q)

/-- The index in the space of a KIND of coordinates at every level. -/
def gather (kind : Nat) (levels : List (Nat × Nat)) (x : List Nat) : Nat :=
  (levels.zip x).foldl (fun a p => if p.1.1 = kind then a * p.1.2 + p.2 else a) 0

/-- ITER of every level for a C and a D index (R21, R324). -/
def Launch.iters (l : Launch) (d i : Nat) : List Nat := ((spread 1 l.levels i).1.zip (spread 2 l.levels d).1).map fun p => p.1 + p.2

/-- The C and the D index of a strand's ITER values. -/
def Launch.cOf (l : Launch) (x : List Word) : Nat := gather 1 l.levels (x.map BitVec.toNat)
def Launch.dOf (l : Launch) (x : List Word) : Nat := gather 2 l.levels (x.map BitVec.toNat)

/-- Group 0 of a launch across a domain (R381): the strand of D index d and C index c at place d·NC + c; none above 1,024 strands. -/
def Launch.group (l : Launch) : Option Group :=
  let n := l.dIters * l.cIters
  if l.mods.isEmpty ∨ n = 0 ∨ 1024 < n then none
  else some ⟨l.num, 0, (List.range n).map fun i => ⟨(l.mods[i / l.cIters / 2]?).getD 0, none, 0, false⟩⟩

/-- An accepted launch joins the others, with its group. -/
def Chip.addLaunch (c : Chip) (l : Launch) : Chip :=
  { c with launches := c.launches ++ [l], groups := l.group.toList ++ c.groups.filter fun g => g.launch != l.num
           colls := c.colls.filter fun x => x.launch != l.num }

/-- A change to the members of a launch's group. -/
def Chip.updGroups (c : Chip) (num : BitVec 32) (f : Nat → Member → Member) : Chip :=
  { c with groups := c.groups.map fun g => if g.launch = num then { g with members := g.members.zipIdx.map fun x => f x.2 x.1 } else g }

/-- Every instance of a launch's groups that is not complete fails (R284). -/
def Chip.failColls (c : Chip) (num : BitVec 32) : Chip :=
  { c with colls := c.colls.map fun x =>
      if x.launch = num ∧ !(c.groups.any fun g => g.launch == num && g.grp == x.grp && (List.range g.members.length).all x.arrived.contains) then
        { x with failed := true }
      else x }

/-- A tile is the seat of the member whose strand it last held, and of no other. -/
def Chip.clearSeat (c : Chip) (n : TileId) : Chip :=
  { c with groups := c.groups.map fun g =>
      { g with members := g.members.map fun m => if m.module = c.member ∧ m.tile = some n then { m with tile := none } else m } }

/-- A member on this module takes its place in its group when its strand starts on a tile. -/
def Chip.seat (c : Chip) (num : BitVec 32) (n : TileId) (iters : List Word) : Chip :=
  match c.launches.find? fun l => l.num == num with
  | none => c
  | some l => c.clearSeat n |>.updGroups num fun i m => if i = l.dOf iters * l.cIters + l.cOf iters then { m with tile := some n } else m

/-- A member of another module halts, or is lost to the group (R284, R381). -/
def Chip.memberGone (c : Chip) (num : BitVec 32) (index : Nat) (lost : Bool) : Chip :=
  if lost then c.failColls num else c.updGroups num fun i m => if i = index ∧ m.module ≠ c.member then { m with halted := true } else m

/-! ## Strands that are over (R323) -/

/-- How a strand has ended: halted, by a trap, by fencing, or ended by the firmware with its launch or with the rest of its team. -/
inductive Over where
  | halted | trapped (code : BitVec 8) | fenced | dropped
deriving DecidableEq, Repr

/-- One strand of a launch over. -/
def Launch.count (l : Launch) : Over → Launch
  | .halted => { l with past := l.past + 1 }
  | .trapped k =>
    { l with past := l.past + 1, ended := l.ended + 1, cause := l.cause <|> some k
             status := if l.word0.getLsbD 41 then 3 else if l.status = 0 then 1 else l.status
             aborted := l.aborted || l.word0.getLsbD 41 }
  | .fenced | .dropped => { l with past := l.past + 1, ended := l.ended + 1, status := if l.status = 0 then 1 else l.status }

/-- The launch starts no more strands: ABORT has ended it, or a thermal stop has cut it short (R323, R379). -/
def Launch.closed (l : Launch) : Bool := l.aborted || l.cut

/-- Every strand of the launch is over: all of them, or, once it starts no more, those that had been committed. -/
def Launch.finished (l : Launch) : Bool := (if l.closed then l.past == l.begun else l.past == l.strands) && l.modules == 0

/-- Launches changed; one that another module forwarded is reported there when it is over, and leaves. -/
def Chip.updLaunch (c : Chip) (num : BitVec 32) (f : Launch → Launch) : Chip :=
  { c with launches := (c.launches.map fun l => if l.num = num then f l else l).filter fun l => l.src.isSome || !l.finished }

def Chip.abortedLaunch (c : Chip) (num : BitVec 32) : Bool := c.launches.any fun l => l.num == num && l.aborted

/-- A team loses a member (R335): it is to be bound again from its iterations, and all its strands run anew. -/
def Chip.loseTeam (c : Chip) (no : Nat) (iters : List Word) : Chip :=
  match c.teams.find? fun x => x.no == no with
  | none => c
  | some x =>
    if x.lost then c
    else
      let c : Chip := { c with teams := c.teams.map fun (y : Team) => if y.no = no then { y with lost := true } else y }
      c.updLaunch x.launch fun l =>
        { l with strands := l.strands + (popCount 8 x.mask.toNat), again := l.again ++ [(l.dOf iters, l.cOf iters / teamSize l.word0)] }

/-- A saved strand that an accepted commit restores is no image any more (R328, R335). -/
def Chip.resuming (c : Chip) (x : Saved) : Bool :=
  [false, true].any fun d => (c.die d).dispatch.any fun y => y.recs.any fun r => (vget r.2 0).getLsbD 62 && bits (vget r.2 18) 0 56 == x.addr

/-- A strand of a launch on a tile is over; a member that halts takes part in no later instance (R381); under ABORT the launch's
context images are discarded. -/
def Chip.strandOver (c : Chip) (n : TileId) (num : BitVec 32) (how : Over) : Chip :=
  let c := if how = .halted then c.updGroups num fun _ m => if m.module = c.member ∧ m.tile = some n then { m with halted := true } else m else c
  let c := c.updLaunch num fun l => l.count how
  if c.abortedLaunch num then
    let gone (x : Saved) : Bool := x.tile.bound.launch == num && !c.resuming x
    let n := (c.saved.filter gone).length
    { c with saved := c.saved.filter fun x => !gone x }.updLaunch num fun l =>
      { l with past := l.past + n, ended := l.ended + n }
  else c

/-! ## The queue (R320, R363) -/

/-- The firmware runs (R368). -/
def Chip.firmwareRuns (c : Chip) : Bool := c.firm.st == 2

def Chip.pair (c : Chip) (d : Bool) (p : BitVec 3) : QPair := vget (c.die d).pairs p
def Chip.updPair (c : Chip) (d : Bool) (p : BitVec 3) (f : QPair → QPair) : Chip :=
  c.updDie d fun x => { x with pairs := vset x.pairs p (f (vget x.pairs p)) }

/-- The header of a pair's launch queue, and the place of record n. -/
def QPair.header (q : QPair) : BitVec 56 := q.lqbase ++ 0#7
def QPair.recordAt (q : QPair) (n : Nat) : BitVec 56 := q.header + BitVec.ofNat 56 (128 + 128 * (n % 2 ^ q.q.toNat))

/-- LAUNCH_QUEUE_SIGNAL (R320): the host's MSI sets an identity pending in a hart's file. -/
def execLaunchQueueSignal (hart : BitVec 3) (iid : BitVec 11) (s : State) : Out :=
  s.lift fun _ c => c.setPending hart iid

/-- The firmware takes a pair's interrupt: it reads PIDX, and then the records below it. -/
def Chip.readQueue (c : Chip) (d : Bool) (p : BitVec 3) : Chip :=
  let q := c.pair d p
  let (c, h) := c.unitRead q.header 16
  let pidx : Word := ofBytes 64 (h.take 8)
  let cidx : Word := ofBytes 64 (h.drop 8)
  let ns := (List.range (Nat.min (pidx.toNat - cidx.toNat) (2 ^ q.q.toNat))).map (cidx.toNat + ·)
  let (c, rs) := ns.foldl (fun (x : Chip × List (List Byte)) n =>
    let (c, b) := x.1.unitRead (q.recordAt n) 128
    (c, x.2 ++ [b])) (c, [])
  c.updPair d p fun q => { q with pidx := pidx, seen := rs }

/-- A block of a pair's queue is under recovery: the firmware's reads of it wait (R344). -/
def Chip.queueStuck (c : Chip) (d : Bool) (p : BitVec 3) : Bool :=
  let q := c.pair d p
  (linesOf (c.key q.header) (128 + 128 * 2 ^ q.q.toNat)).any fun l => c.ueBlocks.contains (l / 8)

/-- The firmware takes an identity's interrupts, for every pair in service that uses it. -/
def Chip.claim (c : Chip) (iid : BitVec 11) : Chip :=
  if c.imsic.any fun x => x.2 == iid then
    let c := { c with imsic := c.imsic.filter fun x => x.2 != iid }
    [false, true].foldl (fun (c : Chip) d => (List.range 8).foldl (fun (c : Chip) k =>
      let q := c.pair d (BitVec.ofNat 3 k)
      if q.en && q.iid == iid then c.readQueue d (BitVec.ofNat 3 k) else c) c) c
  else c

/-- LAUNCH_RECORD (R320–R322, R383): the next record below PIDX is accepted or rejected, and CIDX passes it. -/
def execLaunchRecord (die : Bool) (pair : BitVec 3) (s : State) : Out :=
  let c := s.chip
  if !c.firmwareRuns || !(c.pair die pair).en || c.queueStuck die pair then .next s
  else
    let c := c.claim (c.pair die pair).iid
    let q := c.pair die pair
    let (c, h) := c.unitRead (q.header + 8) 8
    let cidx := (ofBytes 64 h : Word).toNat
    if q.pidx.toNat ≤ cidx then .next { s with chip := c }
    else if 2 ^ q.q.toNat < q.pidx.toNat - cidx then .fault .launchRewritten
    else
      let (c, b) := c.unitRead (q.recordAt cidx) 128
      if q.seen.head? ≠ some b then .fault .launchRewritten
      else
        match c.launchOf die (BitVec.ofNat 32 c.launchCnt) (some (die, pair)) (recWords 16 b) with
        | (c, none) => .next { s with chip := c }
        | (c, some l) =>
          let c := ({ c with launchCnt := c.launchCnt + 1 }.addLaunch l).updPair die pair fun q => { q with seen := q.seen.tail }
          .next { s with chip := c.unitWrite (q.header + 8) (toBytes 8 (BitVec.ofNat 64 (cidx + 1))) }

/-! ## Other modules of a domain (R380) -/

/-- A record that the first listed module forwards; one whose tables cannot be read yet is taken when it comes again. -/
def Chip.forwarded (c : Chip) (num : BitVec 32) (record : List Byte) : Chip :=
  match c.launchOf false num none (recWords 16 record) with
  | (c, none) => c
  | (c, some l) => if l.finished then c else c.addLaunch l

/-- Another module's report of its part; ABORT there ends the launch here too (R323). -/
def Chip.reported (c : Chip) (num : BitVec 32) (ended : Nat) (cause status : BitVec 8) : Chip :=
  c.updLaunch num fun l =>
    { l with modules := l.modules - 1, ended := l.ended + ended, cause := if ended = 0 then l.cause else l.cause <|> some cause
             status := if l.status = 0 then status else l.status, aborted := l.aborted || status == 3 }

/-! ## Completion (R323, R363) -/

/-- An MSI-X vector raised: sent, or left pending while it is masked (R356). -/
def Chip.raiseMsix (c : Chip) (d : Bool) (v : BitVec 11) : Chip :=
  if Config.msixVectors ≤ v.toNat then c
  else if (vget (c.die d).msix (BitVec.ofNat 7 (2 * v.toNat + 1))).getLsbD 32 then
    c.updDie d fun x => { x with pba := x.pba ||| (1#64 <<< v.toNat) }
  else { c with msixSent := c.msixSent ++ [(d, v)] }

/-- The completion record. -/
def Launch.result (l : Launch) : List Byte :=
  let w0 : Word := 0#16 ++ l.cause.getD 0 ++ l.status ++ l.word0.extractLsb' 0 32
  toBytes 8 w0 ++ toBytes 8 (BitVec.ofNat 64 l.ended)

/-- COMPLETION_RECORD (R323, R363): the first finished launch of a pair, unless its completion queue is full. -/
def execCompletionRecord (die : Bool) (pair : BitVec 3) (s : State) : Out :=
  s.lift fun _ c =>
    let q := c.pair die pair
    match c.launches.find? fun l => l.src == some (die, pair) && l.finished with
    | none => c
    | some l =>
      if !c.firmwareRuns || !q.en || (q.cqtail - q.cqhead).toNat = 2 ^ q.cqlog.toNat then c
      else
        let at_ := (q.cqbase ++ 0#4 : BitVec 64).toNat + 16 * (q.cqtail.toNat % 2 ^ q.cqlog.toNat)
        let c := { c with host := c.host.write at_ l.result, launches := c.launches.filter fun x => x.num != l.num }
        (c.updPair die pair fun q => { q with cqtail := q.cqtail + 1 }).raiseMsix die q.vec

end Sys2Proof.Machine
end

