-- ==== Sys2Proof/Machine/Sync.lean ====
section
/-! DEFINITION. Monitors, alarms, cascade barriers and rings: the wait words and the answers that end them (R260–R276, R296). -/

namespace Sys2Proof.Machine

/-! ## The wait word of a frame -/

/-- What the wait word of a frame waits for. -/
def Frame.waiting (f : Frame) : Option Wait := f.wait.map HeldWord.wait

/-- A cause of the wait word in force, with TPC at the word (R293). -/
def Tile.waitFault (t : Tile) (now cls : Nat) (tval : Word) : Tile :=
  t.failWait now (fun w => { code := causeCode cls 0, pc := w.pc, tval := tval, rq := none, xw := true, id := w.id }) HeldWord.pc

/-! ## Monitors (R260, R261, R263) -/

/-- mon (R260): translated and checked like a load, then registered at the line's home slice. -/
def execMon (h : Hdr) (a : SReg) (s : State) : Out :=
  xword 0 h [.s a] [] [] (fun _ c =>
    let va := c.tile.getS a
    let (c, r) := c.checkSpan (.split c.focus) 0 .read va.toNat 1
    match r with
    | .busy ls => .await fun c => c.awaitBlocks (.split c.focus) 0 (tableLines ls)
    | .bad cls x => .trap c cls (BitVec.ofNat 64 x) none
    | .absent => .trap c 25 0 none
    | .ok spans =>
      match spans with
      | (k, _) :: _ =>
        if keyRemote k then .trap c 25 0 none
        else if c.tile.watch.contains (k / 128) then .go c (c.tile.pc + 1) 1
        else if 16 ≤ c.tile.watch.length then .trap c 25 0 none
        else .wait c (.mon (k / 128))
      | [] => .hold) s

/-- MONITOR_REGISTRATION_ACK (R260): the registration is performed, and the splitter goes on. -/
def execMonitorRegistrationAck (s : State) : Out :=
  s.lift fun now c =>
    match c.tile.frame.waiting with
    | some (.mon line) => (c.watchBits c.focus line true).upd fun t => { t with watch := t.watch ++ [line] }.release now
    | _ => c

/-- The tile's monitors cleared (R263, R301). -/
def Chip.clearWatches (c : Chip) : Chip :=
  (c.tile.watch.foldl (fun c l => c.watchBits c.focus l false) c).upd fun t => { t with watch := [], wake := false }

/-- moncl (R263). -/
def execMoncl (h : Hdr) (s : State) : Out :=
  xword 0 h [] [] [] (fun _ c => if c.tile.watch.isEmpty then .go (c.upd fun t => { t with wake := false }) (c.tile.pc + 1) 1 else .wait c .moncl) s

/-- MONCL_ACKNOWLEDGEMENT (R263): every slice concerned has cleared the tile's bits. -/
def execMonclAcknowledgement (s : State) : Out :=
  s.lift fun now c =>
    match c.tile.frame.waiting with
    | some .moncl => c.clearWatches.upd fun t => t.release now
    | _ => c

/-! ## Alarms (R262) -/

/-- waita at its split: WAKE ends it at once, then a deadline that has passed; else it sleeps. -/
def execWaita (h : Hdr) (d a : SReg) (trap : Bool) (s : State) : Out :=
  xword 0 h [.s a] [.s d] [] (fun now c =>
    let t := c.tile
    let dl := t.getS a
    if t.wake then .go (c.upd fun t => { t with wake := false }.setS d 1) (t.pc + 1) 1
    else if dl ≠ 0 ∧ dl.toNat ≤ now then
      let c := c.upd fun t => t.setS d 0
      if trap then .trap c 23 0 none else .go c (t.pc + 1) 1
    else .wait c (.alarm d dl trap)) s

/-- WATCH_WAKE (R261, R262): a sleeping waita finds WAKE set and returns 1; under a pre-emption it is held over (R296). -/
def execWatchWake (s : State) : Out :=
  s.lift fun now c => c.upd fun t =>
    match t.frame.waiting with
    | some (.alarm d _ _) => if t.wake && t.active then ({ t with wake := false }.setS d 1).release now else t
    | _ => t

/-- WAITA_DEADLINE (R262): CYC has reached the deadline with no wake: 0, and with .trap class 23 after the write; under a pre-emption it is
held over (R296). -/
def execWaitaDeadline (s : State) : Out :=
  s.lift fun now c => c.upd fun t =>
    match t.frame.waiting with
    | some (.alarm d dl trap) =>
      if t.wake || !t.active || dl == 0 || decide (now < dl.toNat) then t
      else if trap then (t.setS d 0).waitFault now 23 0
      else (t.setS d 0).release now
    | _ => t

/-! ## Barriers (R265–R269) -/

/-- A team by its number. -/
def Chip.team (c : Chip) (no : Nat) : Team := (c.teams.find? fun x => x.no == no).getD .none
def Chip.updTeam (c : Chip) (no : Nat) (f : Team → Team) : Chip := { c with teams := c.teams.map fun x => if x.no = no then f x else x }
/-- The bit of a tile's rank. -/
def rankBit (n : TileId) : BitVec 8 := 1#8 <<< (tileRank n).toNat
/-- Every strand of a team has halted or been ended. -/
def Team.isOver (x : Team) : Bool := x.mask &&& ~~~x.gone == 0

/-- A launch's barrier state on a die. -/
def Chip.launchBar (c : Chip) (d : Bool) (l : BitVec 32) : Option LaunchBar := (c.die d).launches.find? fun x => x.launch == l
def Chip.updLaunchBar (c : Chip) (d : Bool) (l : BitVec 32) (f : LaunchBar → LaunchBar) : Chip :=
  c.updDie d fun x => { x with launches := x.launches.map fun b => if b.launch = l then f b else b }

/-- A tile's bar waits at an instance and has arrived. -/
def Wait.barAt (w : Wait) (id : BitVec 4) (gen : Nat) : Bool :=
  match w with
  | .bar _ i g arrived => i == id && g == gen && arrived
  | _ => false

/-- A bar of a frame ends with class 24: its X part ends, TPC is the word after it (R268, R293). -/
def Tile.barFault (t : Tile) (now : Nat) (k : FrameSel) : Tile :=
  match (t.frameOf k).wait with
  | none => t
  | some w =>
    let c : Cause := { code := causeCode 24 0, pc := w.pc, tval := 0, rq := none, xw := true, id := w.id }
    let t := (t.updFrameOf k fun f => { f with wait := none, free := Nat.max (now + 1) f.free }).raise k c (some (w.pc + 1))
    if w.ue then t.raise k w.ueCause none else t

/-- Every bar that waits at an instance of a tile ends with class 24. -/
def Tile.barFaultAt (t : Tile) (now : Nat) (id : BitVec 4) (gen : Nat) : Tile :=
  let one (t : Tile) (k : FrameSel) : Tile :=
    match (t.frameOf k).waiting with
    | some w => if Wait.barAt w id gen = true then t.barFault now k else t
    | none => t
  one (one t .user) .handler

/-- The instance advances to the next generation. -/
def Team.advance (x : Team) (id : BitVec 4) : Team :=
  { x with inst := vset x.inst id ⟨(vget x.inst id).gen + 1, Option.none, 0, false⟩ }
def Chip.teamRelease (c : Chip) (no : Nat) (id : BitVec 4) : Chip := c.updTeam no fun x => x.advance id

/-- A change to every strand of a team, running or saved. -/
def Chip.updMembers (c : Chip) (no : Nat) (f : Tile → Tile) : Chip :=
  { c with
    tiles := c.tiles.map fun t => if t.team = no then f t else t
    saved := c.saved.map fun x => if x.tile.team = no then { x with tile := f x.tile } else x }

/-- The instance of a team is abandoned: every waiting member raises class 24 (R268). -/
def Chip.teamFault (c : Chip) (now : Nat) (no : Nat) (id : BitVec 4) : Chip :=
  let gen := (vget (c.team no).inst id).gen
  (c.updMembers no fun t => t.barFaultAt now id gen).teamRelease no id

/-- The teams of a launch on a die whose arrival has reached the die. -/
def Chip.sentTeams (c : Chip) (b : LaunchBar) (id : BitVec 4) : List Nat := b.teams.filter fun no => (vget (c.team no).inst id).sent

/-- Every team of wave 0 stands in a list. -/
def LaunchBar.allIn (b : LaunchBar) (l : List Nat) : Bool := decide (b.expect ≤ b.teams.length) && b.teams.all l.contains

/-- The release of a die's instance runs down to its teams. -/
def Chip.dieRelease (c : Chip) (d : Bool) (l : BitVec 32) (id : BitVec 4) : Chip :=
  match c.launchBar d l with
  | none => c
  | some b =>
    ((c.sentTeams b id).foldl (fun c no => c.teamRelease no id) c).updLaunchBar d l fun b => { b with inst := vset b.inst id ⟨none, [], false⟩ }

/-- A die counts as arrived at the package: it has sent its arrival, or it has no team of the launch left. -/
def Chip.dieArrived (c : Chip) (d : Bool) (l : BitVec 32) (id : BitVec 4) : Bool :=
  match c.launchBar d l with
  | none => true
  | some b => (vget b.inst id).sent || b.allIn b.gone

/-- Both dies have arrived at the package: the release runs down. -/
def Chip.pkgCheck (c : Chip) (l : BitVec 32) (id : BitVec 4) : Chip :=
  if c.dieArrived false l id && c.dieArrived true l id then (c.dieRelease false l id).dieRelease true l id else c

/-- A die's instance, when every team of the launch there has arrived or has halted whole. -/
def Chip.dieCheck (c : Chip) (d : Bool) (l : BitVec 32) (id : BitVec 4) : Chip :=
  match c.launchBar d l with
  | none => c
  | some b =>
    let i := vget b.inst id
    if !b.allIn (i.arrived ++ b.gone) then c
    else
      match i.level with
      | some .p => (c.updLaunchBar d l fun b => { b with inst := vset b.inst id { i with sent := true } }).pkgCheck l id
      | some _ => c.dieRelease d l id
      | none => if b.allIn b.gone then c.pkgCheck l id else c

/-- A team's arrival at its die (R267, R268). -/
def Chip.dieArrive (c : Chip) (now : Nat) (d : Bool) (no : Nat) (id : BitVec 4) (lvl : BarLevel) : Chip :=
  let l := (c.team no).launch
  match c.launchBar d l with
  | none => c.teamRelease no id
  | some b =>
    let i := vget b.inst id
    if i.level.isSome && i.level != some lvl then c.teamFault now no id
    else
      ((c.updLaunchBar d l fun b => { b with inst := vset b.inst id ⟨some lvl, no :: i.arrived, false⟩ }).updTeam no fun x =>
        { x with inst := vset x.inst id { vget x.inst id with sent := true } }).dieCheck d l id

/-- A team's instance, when every strand has arrived or departed. -/
def Chip.teamCheck (c : Chip) (now : Nat) (d : Bool) (no : Nat) (id : BitVec 4) : Chip :=
  let x := c.team no
  let i := vget x.inst id
  if i.sent || x.mask &&& ~~~(i.arrived ||| x.gone) != 0 then c
  else
    match i.level with
    | none => c
    | some .t => c.teamRelease no id
    | some l => c.dieArrive now d no id l

/-- A .d or .p arrival of a launch that is multi-wave there (R268). -/
def Chip.multiWave (c : Chip) (d : Bool) (l : BitVec 32) (lvl : BarLevel) : Bool :=
  let m (d : Bool) : Bool := match c.launchBar d l with
    | some b => b.multi
    | none => false
  match lvl with
  | .t => false
  | .d => m d
  | .p => m false || m true

/-- A strand's arrival (R266–R268). -/
def Chip.barArrive (c : Chip) (now : Nat) (fr : FrameSel) (lvl : BarLevel) (id : BitVec 4) : Chip :=
  let no := c.tile.team
  let d := tileDie c.focus
  let x := c.team no
  let i := vget x.inst id
  if (i.level.isSome && i.level != some lvl) || c.multiWave d x.launch lvl then c.upd fun t => t.barFault now fr
  else
    let c := c.upd fun t => t.updFrameOf fr fun f => { f with wait := f.wait.map fun w => { w with wait := .bar lvl id i.gen true } }
    (c.updTeam no fun x => { x with inst := vset x.inst id { i with level := some lvl, arrived := i.arrived ||| rankBit c.focus } }).teamCheck now d no id

/-- A part of a bar stands in a queue of the frame. -/
def Frame.barQueued (f : Frame) : Bool := (f.l ++ f.s).any fun w => match w.ins with | .bar .. => true | _ => false

/-- BARRIER_ARRIVAL (R266): the S part at the head of S, both parts complete. -/
def execBarrierArrival (f : FrameSel) (s : State) : Out :=
  s.lift fun now c =>
    let t := c.tile
    let fr := t.frame
    match fr.s with
    | w :: rest =>
      match w.ins with
      | .bar h lvl id =>
        if f != t.cur || !t.readyQ now .s w h || !fr.sf.isEmpty || fr.l.any (fun x => x.id == w.id) then c
        else (c.upd fun t => t.issue now .s rest h).barArrive now f lvl id
      | _ => c
    | [] => c

/-- The X part of a bar at its split: its other parts are placed, and the splitter is held until the release (R265, R266). -/
def barSplit (h : Hdr) (lvl : BarLevel) (id : BitVec 4) : Nat → Chip → Chip :=
  runX 0 h [] [] [] fun now c =>
    let i : Instr := .bar h lvl id
    let t := c.tile
    if !t.frame.room [.l, .s] then .hold
    else
      let w := t.captured now c.nextId (rawOf i) (.ok i)
      .wait (c.upd fun t => t.updFrame fun f => { f with l := f.l ++ [w], s := f.s ++ [w] }) (.bar lvl id 0 false)

/-- The L part of a bar issues when every older access of the L FIFO has been performed (R266). -/
def barL (h : Hdr) (lvl : BarLevel) (id : BitVec 4) : Nat → Chip → Chip :=
  runQ .l (.bar h lvl id) .always (fun _ _ c => c.tile.frame.lf.isEmpty) fun _ _ _ c => (c, none)

/-- bar (R265): its X part, or its L part; its S part is the arrival's. -/
def execBar (h : Hdr) (lvl : BarLevel) (id : BitVec 4) (s : State) : Out :=
  s.lift fun now c => if c.tile.frame.barQueued then barL h lvl id now c else barSplit h lvl id now c

/-- BARRIER_RELEASE (R267): the release reaches the tile in focus. -/
def execBarrierRelease (id : BitVec 4) (s : State) : Out :=
  s.lift fun now c =>
    match c.tile.frame.waiting with
    | some (.bar _ i gen true) =>
      if i = id ∧ gen ≠ (vget (c.team c.tile.team).inst i).gen then c.upd fun t => t.release now else c
    | _ => c

/-- A rank of a team on a die departs from the team's barriers (R267, R301). -/
def Chip.rankDeparts (c : Chip) (now : Nat) (d : Bool) (no : Nat) (bit : BitVec 8) : Chip :=
  let c := c.updTeam no fun x => { x with gone := x.gone ||| bit }
  let x := c.team no
  let c := if x.isOver then c.updLaunchBar d x.launch fun b => { b with gone := no :: b.gone } else c
  (List.range 16).foldl (fun c j => (c.teamCheck now d no (BitVec.ofNat 4 j)).dieCheck d x.launch (BitVec.ofNat 4 j)) c

/-- The strand on a tile departs. -/
def Chip.barDepart (c : Chip) (now : Nat) (n : TileId) : Chip := c.rankDeparts now (tileDie n) (c.tileAt n).team (rankBit n)

/-- The teams of a launch on a die with an instance at .d, or at .p, in progress. -/
def Chip.openTeams (c : Chip) (d : Bool) (l : BitVec 32) (id : BitVec 4) (p : Bool) : List Nat :=
  match c.launchBar d l with
  | none => []
  | some b => b.teams.filter fun no => (vget (c.team no).inst id).level == some (if p then BarLevel.p else BarLevel.d)

/-- The instances of a die or package group are abandoned. -/
def Chip.abandon (c : Chip) (now : Nat) (d : Bool) (l : BitVec 32) (id : BitVec 4) (p : Bool) : Chip :=
  let ks := c.openTeams d l id p
  if ks.isEmpty then c
  else
    (ks.foldl (fun c no => c.teamFault now no id) c).updLaunchBar d l fun b => { b with inst := vset b.inst id ⟨none, [], false⟩ }

/-- A tile is fenced: the instances that still need its strand are abandoned, and it counts as departed at later ones (R268). -/
def Chip.barFenced (c : Chip) (now : Nat) (n : TileId) : Chip :=
  let no := (c.tileAt n).team
  let d := tileDie n
  let bit := rankBit n
  let x := c.team no
  if x.mask &&& bit == 0 || x.gone &&& bit != 0 then c
  else
    let c := (List.range 16).foldl (fun c j =>
      let id := BitVec.ofNat 4 j
      let i := vget x.inst id
      let out (l : BarLevel) : Bool := i.arrived &&& bit == 0 || i.level != some l
      let c := if i.level == some .t && out .t then c.teamFault now no id else c
      let c := if out .d then c.abandon now d x.launch id false else c
      if out .p then (c.abandon now false x.launch id true).abandon now true x.launch id true else c) c
    c.barDepart now n

/-! ## Rings (R270–R276) -/

def geomSb (g : Word) : Nat := (bits g 8 12).toNat
def geomLog (g : Word) : Nat := (bits g 0 4).toNat

/-- Buffers that hold rings: AB and LB, of the tile or of a peer. -/
def ringAllow (b : Buf) (_ : Bool) : Bool := b == .ab || b == .lb

/-- The checks of rinit at its split (R270): class and TVAL. -/
def rinitFate (c : Chip) (g : GReg) (base geom : Word) : Option (Nat × Word) :=
  if bits geom 20 44 ≠ 0 ∨ bits geom 4 4 ≠ 0 ∨ geomSb geom = 0 ∨ 1024 < geomSb geom ∨ 8 < geomLog geom then some (2, 0)
  else
    match spFail c c.focus ringAllow (spPlace base 0) (2 ^ geomLog geom * 64 * geomSb geom) 1 with
    | some f => some (f.2, base)
    | none =>
      if ringOff base % 64 ≠ 0 then some (5, base)
      else if !(c.tile.getG g).prod.isEmpty || !(c.tile.getG g).cons.isEmpty then some (25, 0)
      else none

/-- rinit (R270). -/
def execRinit (h : Hdr) (d : GReg) (a b : SReg) (s : State) : Out :=
  xword 0 h [.s a, .s b, .g d] [] [] (fun _ c =>
    let base := c.tile.getS a
    let geom := c.tile.getS b
    match rinitFate c d base geom with
    | some (cls, tval) => .trap c cls tval none
    | none => .wait c (.rinit d base geom)) s

/-- A ring that its owner holds at a place. -/
def Tile.ringAt (t : Tile) (b : Buf) (off : Nat) : Option Ring := t.rings.find? fun r => r.buf == b && r.off == off

/-- RING_REGISTRATION_ANSWER (R270): the owner joins the strand to a ring, creates one, or refuses. -/
def execRingRegistrationAnswer (s : State) : Out :=
  s.lift fun now c =>
    match c.tile.frame.waiting with
    | some (.rinit g base geom) =>
      let own := ringOwner c.focus base
      let t := c.tileAt own
      let fail (cls : Nat) (tval : Word) : Chip := c.upd fun t => t.waitFault now cls tval
      let join (c : Chip) : Chip := c.upd fun t => (t.setG g ⟨true, base, geom, [], []⟩).release now
      if t.fence.fenced && own != c.focus then fail 10 base
      else
        match t.ringAt (ringBuf base) (ringOff base) with
        | some r => if r.geom = geom then join c else fail 25 0
        | none =>
          if 16 ≤ t.rings.length then fail 25 0
          else join (c.updAt own fun t =>
            { t with rings := t.rings ++ [⟨ringBuf base, ringOff base, geom, 0, 0, List.replicate (2 ^ geomLog geom) .empty⟩] })
    | _ => c

/-- A claim word at its split: an unconfigured register, or a ninth claim, raises class 25 (R276). -/
def claimSplit (h : Hdr) (d : SReg) (g : GReg) (prod : Bool) (w : Wait) : State → Out :=
  xword 0 h [.g g] [.s d] [] fun _ c =>
    let r := c.tile.getG g
    if !r.conf || decide (8 ≤ (if prod then r.prod else r.cons).length) then .trap c 25 0 none else .wait c w

/-- rwaite (R272). -/
def execRwaite (h : Hdr) (d : SReg) (g : GReg) (s : State) : Out := claimSplit h d g true (.ringE d g) s
/-- rwaitf (R274). -/
def execRwaitf (h : Hdr) (d : SReg) (g : GReg) (s : State) : Out := claimSplit h d g false (.ringF d g) s

/-- The address of sequence number n of a ring register. -/
def slotAddr (r : RingReg) (n : Nat) : Word :=
  bits r.base 20 44 ++ (bits r.base 0 20 + BitVec.ofNat 20 (n % 2 ^ geomLog r.geom * 64 * geomSb r.geom))

/-- The owner grants a claim of the frame's wait word: the slot changes state, its number joins the list, the count advances. -/
def Chip.grantClaim (c : Chip) (now : Nat) (fr : FrameSel) (d : SReg) (g : GReg) (prod : Bool) : Chip :=
  let r := c.tile.getG g
  let own := ringOwner c.focus r.base
  let t := c.tileAt own
  if t.fence.fenced && own != c.focus then (if fr = c.tile.cur then c.upd fun t => t.waitFault now 10 r.base else c)
  else
    match t.ringAt (ringBuf r.base) (ringOff r.base) with
    | none => c
    | some q =>
      let n := if prod then q.ph else q.ch
      let want : SlotState := if prod then .empty else .full
      if q.slots[n % q.slots.length]? != some want then c
      else
        let c := c.updAt own fun t => (t.setSlot q.buf q.off n (if prod then .pclaim else .cclaim))
        let c := c.updAt own fun t => { t with rings := t.rings.map fun x =>
          if x.buf = q.buf ∧ x.off = q.off then (if prod then { x with ph := x.ph + 1 } else { x with ch := x.ch + 1 }) else x }
        (c.scrubWrites (fun _ => false) (· == .g g)).upd fun t =>
          let r := t.getG g
          let t := t.setG g (if prod then { r with prod := r.prod ++ [n] } else { r with cons := r.cons ++ [n] })
          if fr = t.cur then (t.setS d (slotAddr r n)).release now
          else t.updFrameOf fr fun f => { f with wait := f.wait.map fun w => { w with wait := .ringGot d (slotAddr r n) } }

/-- RING_CLAIM_GRANT (R272, R274, R296): the owner grants the claim of the frame in force, or, while the handler runs, of the user
frame's held-over word, whose address is kept for it. -/
def execRingClaimGrant (s : State) : Out :=
  s.lift fun now c =>
    let t := c.tile
    let serve (fr : FrameSel) : Option Chip :=
      match (t.frameOf fr).waiting with
      | some (.ringE d g) => some (c.grantClaim now fr d g true)
      | some (.ringF d g) => some (c.grantClaim now fr d g false)
      | some (.ringGot d x) => if fr = t.cur then some (c.upd fun t => (t.setS d x).release now) else none
      | _ => none
    if t.st != .running then c
    else
      match serve t.cur with
      | some c' => c'
      | none => if t.cur = .handler then (serve .user).getD c else c

end Sys2Proof.Machine
end

