-- ==== Sys2Proof/Machine/System.lean ====
section
/-! DEFINITION. System words, traps and returns as events, halt and retirement, pre-emption (R288–R305). Guarded phases stand in
Phase.lean. -/

namespace Sys2Proof.Machine

/-- trap (R299): class 31, or 29 for trap.brk, with IMM16 as TVAL and TPC at the next word. -/
def execTrap (h : Hdr) (brk : Bool) (imm : BitVec 16) (s : State) : Out :=
  xword 7 h [] [] [] (fun _ c => .trap c (if brk then 29 else 31) (imm.setWidth 64) (some (c.tile.pc + 1))) s

/-! ## Return (R294) -/

/-- The user frame resumes; a cancellation that waited for the return takes the unissued words (R313). -/
def Tile.returnTo (t : Tile) (tr : Nat) : Tile :=
  let t := t.resume tr
  if t.cancelling then { t with user := t.user.dropUnissued } else t

/-- tret (R294, R302): held until the handler frame has drained. -/
def execTret (h : Hdr) (s : State) : Out :=
  xword 7 h [] [] [] (fun now c =>
    if c.tile.mode = .user then .trap c 3 0 none
    else if !c.tile.handlerDrained then .hold
    else
      let c := c.upd fun t => t.returnTo (now + 1)
      .go c c.tile.pc 1) s

/-- TRAP_RETURN (R294): a tret that the splitter has reached, once the handler frame has drained. -/
def execTrapReturn (s : State) : Out :=
  if !s.chip.tile.canSplit s.clk || s.chip.tile.mode == .user then .next s
  else
    match s.chip.fetchWord with
    | (c, .word w) => match decode w with
      | .ok (.tret h) => execTret h { s with chip := c }
      | _ => .next s
    | _ => .next s

/-! ## System registers (R297, R298) -/

def sysHandlerOnly : SysReg → Bool
  | .tcause | .tpc | .tepc | .tval | .tscr0 | .tscr1 | .rqstat | .tvrb | .troot => true
  | .vflags | .vtrapen | .cst | .epol | .phcfg | .tvec => false

/-- RQSTAT: DLV over VAL (R297). -/
def Tile.rqstat (t : Tile) : Word :=
  let bit (f : RqEntry → Bool) : BitVec 32 := (t.replay.toList.zipIdx).foldl (fun a x => match x.1 with
    | some e => if f e then a ||| (1#32 <<< x.2) else a
    | none => a) 0
  bit (fun e => e.dlv) ++ bit (fun _ => true)

/-- The bits of TCAUSE and TROOT that are not reserved (R297). -/
def tcauseMask : Word := 0x7F00FF
def trootMask : Word := 0x0FFF0FFFFFFFFFFF

/-- A system register read. -/
def Tile.readSys (t : Tile) : SysReg → Word
  | .vflags => t.sys.vflags.setWidth 64
  | .vtrapen => t.sys.vtrapen.setWidth 64
  | .cst => t.sys.cst
  | .epol => flag64 t.sys.uet
  | .phcfg => t.sys.phcfg
  | .tcause => t.sys.tcause
  | .tpc => t.sys.tpc
  | .tepc => t.sys.tepc
  | .tval => t.sys.tval
  | .tvec => t.sys.tvec
  | .tscr0 => t.sys.tscr0
  | .tscr1 => t.sys.tscr1
  | .rqstat => t.rqstat
  | .tvrb => t.sys.tvrb.setWidth 64
  | .troot => t.sys.troot

/-- The RW bits of CST and PHCFG (R185, R308). -/
def cstRw : Word := 0x8000000080000000
def phcfgRw : Word := 0x8FFFFFFFFFFFFFFF

/-- What a write of a system register does to a failing word of it: one that leaves RO bits standing meets zeros there (R337). -/
def Tile.meetSys (t : Tile) (r : SysReg) : Tile :=
  match r with
  | .cst | .phcfg => t.meetWrite (fun _ => false) (· == .sys r)
  | .vflags | .vtrapen | .epol | .tpc | .tscr0 | .tscr1 | .tvrb => t.meetWrite (· == .sys r) fun _ => false
  | .tcause | .tepc | .tval | .tvec | .rqstat | .troot => t

/-- A system register written: fields marked RO keep their values (R5). -/
def Tile.writeSys (t : Tile) (r : SysReg) (x : Word) : Tile :=
  let t := t.meetSys r
  match r with
  | .vflags => { t with sys := { t.sys with vflags := x.setWidth 5 } }
  | .vtrapen => { t with sys := { t.sys with vtrapen := x.setWidth 5 } }
  | .cst => { t with sys := { t.sys with cst := blend cstRw x t.sys.cst } }
  | .epol => { t with sys := { t.sys with uet := x.getLsbD 0 } }
  | .phcfg => { t with sys := { t.sys with phcfg := blend phcfgRw x t.sys.phcfg } }
  | .tpc => { t with sys := { t.sys with tpc := x } }
  | .tscr0 => { t with sys := { t.sys with tscr0 := x } }
  | .tscr1 => { t with sys := { t.sys with tscr1 := x } }
  | .tvrb => { t with sys := { t.sys with tvrb := x.setWidth 5 } }
  | .tcause | .tepc | .tval | .tvec | .rqstat | .troot => t

/-- Every older word of L, C and S of the frame in force has completed. -/
def Tile.lcsDone (t : Tile) : Bool :=
  let f := t.frame
  f.l.isEmpty && f.c.isEmpty && f.s.isEmpty && f.lf.isEmpty && f.sf.isEmpty && f.ans.isEmpty && t.pipe.all (fun r => r.frame != t.cur) &&
    t.vpend.all (fun r => r.frame != t.cur) && t.mat.queue.all (fun m => m.frame != t.cur) && t.mat.ards.all fun r => r.frame != t.cur

/-- mfs (R298). -/
def execMfs (h : Hdr) (o : MfsOp) (s : State) : Out :=
  s.lift (runReading 7 h (fun c u => u == .sys o.reg && !(sysHandlerOnly o.reg && c.tile.mode == .user)) [.s o.d] [] fun _ c =>
    if sysHandlerOnly o.reg ∧ c.tile.mode = .user then .trap c 3 0 none
    else if o.drain ∧ !c.tile.lcsDone then .hold
    else .go (c.upd fun t => t.setS o.d (t.readSys o.reg)) (c.tile.pc + 1) 1)

/-- mts (R298, R308). -/
def execMts (h : Hdr) (o : MtsOp) (s : State) : Out :=
  xword 7 h [.s o.a] [] [] (fun _ c =>
    if sysHandlerOnly o.reg ∧ c.tile.mode = .user then .trap c 3 0 none
    else if o.reg = .phcfg ∧ c.tile.phase.isSome then .trap c 2 0 none
    else .go (c.upd fun t => t.writeSys o.reg (t.getS o.a)) (c.tile.pc + 1) 1) s

/-! ## Replay-queue words (R302–R304) -/

def Tile.rqNumber (t : Tile) : RqSel → BitVec 5
  | .imm n => n
  | .s a => (t.getS a).setWidth 5
def rqUses : RqSel → List RegRef
  | .imm _ => []
  | .s a => [.s a]

/-- The entry word (R303). -/
def RqEntry.word (e : RqEntry) : Word :=
  1#1 ++ e.cls ++ e.eng ++ e.queue ++ BitVec.ofBool e.rel ++ e.opc ++ 0#10 ++ e.strm ++ e.sub ++ e.elem

/-- A failing unit that an rqrd reads: its register, and, in handler mode, the two words of its entry. -/
def Tile.rqReads (t : Tile) (n : RqSel) (u : SramUnit) : Bool :=
  let k : BitVec 5 := match n with
    | .imm k => k
    | .s a => if t.sramUe.contains (.s a) then 0 else (t.getS a).setWidth 5
  (rqUses n).any u.inReg || (t.mode == .handler && (u == .rq k 0 || u == .rq k 1))

/-- rqrd (R303): an invalid entry gives 0 in both destinations. -/
def execRqrd (h : Hdr) (o : RqrdOp) (s : State) : Out :=
  s.lift (runReading 7 h (fun c => c.tile.rqReads o.n) [.s o.d, .s o.c] [] fun _ c =>
    if c.tile.mode = .user then .trap c 3 0 none
    else
      let (addr, word) := match vget c.tile.replay (c.tile.rqNumber o.n) with
        | some e => (e.addr, e.word)
        | none => (0, 0)
      .go (c.upd fun t => (t.setS o.d addr).setS o.c word) (c.tile.pc + 1) 1)

/-- A parked element dropped: a load's bytes are zero, a line's indices are zero, a store performs nothing (R119, R171, R214, R238,
R259). -/
def Tile.dropUnit (t : Tile) (q : Fifo) (id : Nat) (n : BitVec 5) : Tile :=
  match (t.user.fifo q).findIdx? fun a => a.w.id == id with
  | none => t
  | some k =>
    match (t.user.fifo q)[k]? with
    | none => t
    | some a =>
      match a.units.findIdx? fun u => u.st == .parked n with
      | none => t
      | some e =>
        match a.units[e]? with
        | none => t
        | some u =>
          let a := { a.setUnit e { u with st := .dropped, left := [] } with
            got := u.pieces.foldl (fun (g : List Byte) (p : Piece) => putBytes g p.at_ (List.replicate p.n 0)) a.got }
          let t := match a.w.ins, a.args with
            | .ixld .., d :: _ =>
              let d := descOf d
              (t.meetPlanes d.prow d.n d.w fun e => e / lineCap d.w == u.no).writeLine d u.no fun _ => 0
            | _, _ => t
          (t.setAccess .user q k a).leaveFifo .user q k

/-- An entry dropped (R304, R233): freed at once, with what its owner then does. -/
def Tile.dropEntry (t : Tile) (n : BitVec 5) : Tile :=
  match vget t.replay n with
  | none => t
  | some e =>
    let t := t.setEntry n none
    match e.owner with
    | .access q id _ => t.dropUnit q id n
    | .command eng _ =>
      t.updEngine eng fun g => { g with fifo := g.fifo.map fun x => if x.parked = some n then { x with parked := none, at_ := none, dropped := true } else x }

/-- Every older L and S access of the handler has been performed. -/
def Tile.handlerPerformed (t : Tile) : Bool :=
  t.hand.l.isEmpty && t.hand.s.isEmpty && t.hand.lf.isEmpty && t.hand.sf.isEmpty &&
    t.hand.c.all fun w => match w.ins with | .cbld .. | .cbst .. => false | _ => true

/-- REL set in an entry; its other bits stand. -/
def Tile.releaseEntry (t : Tile) (n : BitVec 5) (e : RqEntry) : Tile := { t with replay := vset t.replay n (some { e with rel := true }) }

/-- rqrel (R304, R284): waits for the handler's older accesses; REL, or for class 26 a drop. -/
def execRqrel (h : Hdr) (n : RqSel) (s : State) : Out :=
  xword 7 h (rqUses n) [] [] (fun _ c =>
    let t := c.tile
    if t.mode = .user then .trap c 3 0 none
    else if !t.handlerPerformed then .hold
    else
      let k := t.rqNumber n
      match vget t.replay k with
      | none => .trap c 2 0 none
      | some e => .go (c.upd fun t => if e.cls = 26 then t.dropEntry k else t.releaseEntry k e) (t.pc + 1) 1) s

/-- rqdrop (R304). -/
def execRqdrop (h : Hdr) (n : RqSel) (s : State) : Out :=
  xword 7 h (rqUses n) [] [] (fun _ c =>
    let t := c.tile
    if t.mode = .user then .trap c 3 0 none
    else
      let k := t.rqNumber n
      match vget t.replay k with
      | none => .trap c 2 0 none
      | some _ => .go (c.upd fun t => t.dropEntry k) (t.pc + 1) 1) s

/-! ## icflush and halt (R300, R301, R313) -/

/-- Every older S access of the frame in force has been performed. -/
def Tile.storesPerformed (t : Tile) : Bool :=
  let f := t.frame
  f.s.isEmpty && f.sf.isEmpty && f.c.all fun w => match w.ins with | .cbst .. => false | _ => true

/-- icflush (R300). -/
def execIcflush (h : Hdr) (a b : SReg) (s : State) : Out :=
  xword 7 h [.s a, .s b] [] [] (fun _ c =>
    let t := c.tile
    if !t.storesPerformed then .hold
    else
      let lo := (t.getS a).toNat
      let n := (t.getS b).toNat
      .go (c.upd fun t => { t with icache := if n = 0 then [] else t.icache.filter fun x => !rangesMeet (x.1 * 128) 128 lo n }) (t.pc + 1) 1) s

/-- ACT, HALF and RERUN of PHCFG (R308). -/
def actBit : Word := 0x4000000000000000
def halfBit : Word := 0x2000000000000000
def rerunBit : Word := 0x1000000000000000

/-- halt (R301): the splitter stops; in handler mode every entry is dropped, held causes and the user frame's unissued words go, and
the log of a guarded phase is discarded (R313). -/
def execHalt (h : Hdr) (s : State) : Out :=
  xword 7 h [] [] [] (fun _ c =>
    let c := match c.tile.mode with
      | .user => c
      | .handler => c.upd fun t =>
          let t := (List.range 32).foldl (fun (t : Tile) (n : Nat) => t.dropEntry (BitVec.ofNat 5 n)) t
          { t with held := [], user := t.user.dropUnissued, phase := none
                   sys := { t.sys with phcfg := t.sys.phcfg &&& ~~~(actBit ||| rerunBit) } }
    .wait (c.upd fun t => { t with st := .halting }) .halted) s

/-- Nothing of the strand is left to complete (R301), a trap that the clk has raised included: an access or a command that has parked is
left (log entry 84). -/
def Tile.drained (t : Tile) : Bool :=
  let quiet (f : Frame) : Bool := f.l.isEmpty && f.c.isEmpty && f.s.isEmpty && f.a.isEmpty && f.lf.isEmpty && f.sf.isEmpty && f.ans.isEmpty
  let idle (e : Engine) : Bool := e.fifo.all (·.orphan) && e.late.all (·.orphan) && e.unacked == 0
  quiet t.user && quiet t.hand && t.pipe.isEmpty && t.vpend.isEmpty && t.promises.isEmpty && t.mat.queue.isEmpty && t.mat.ards.isEmpty &&
    idle t.chan && idle t.unv && t.unacked == 0 && t.phase.isNone && t.trap.isNone && (t.mode == .handler || (t.undelivered.isEmpty && t.snap.isEmpty))

/-- STRAND_RETIREMENT (R301, R331): a drained strand's monitors are cleared, it departs from its barriers, and it is retired to the
firmware. -/
def execStrandRetirement (s : State) : Out :=
  s.lift fun now c =>
    let t := c.tile
    match t.st, t.frame.waiting with
    | .halting, some .halted =>
      if t.drained then
        (((c.clearWatches.upd fun t => { t with st := .retired }).barDepart now c.focus).strandOver c.focus t.bound.launch .halted).irqAll
          (tileDie c.focus) .halted
      else c
    | _, _ => c

/-- HANDLER_FAULT (R288, R290): a strand that a trap has ended is given to the firmware with its cause; it departs from its
barriers. -/
def execHandlerFault (s : State) : Out :=
  s.lift fun now c =>
    match c.tile.st with
    | .ended code _ =>
      (((c.clearWatches.upd fun t => { t with st := .retired }).barDepart now c.focus).strandOver c.focus
        c.tile.bound.launch (.trapped code)).irq (tileDie c.focus) .ended
    | _ => c

/-! ## Pre-emption (R305) -/

/-- The tile holds a strand that has not halted. -/
def Tile.runs (t : Tile) : Bool :=
  match t.st with
  | .running | .halting | .ended _ _ | .preempting | .preempted => true
  | .absent | .retired => false

/-- A trap or a freeze waits for its clk to end; a freeze also for an exchange with a home slice (R296). -/
def Tile.endsClk (t : Tile) : Bool := t.trap.isSome || (t.freezing && !t.exchanging)

/-- Both frames freeze: results of fixed latency not yet written go to the snapshot; TCAUSE holds code 247. Of a strand in user mode TPC
and TVRB keep where it resumes; of one in handler mode they keep where its tret resumes (log entry 66). -/
def Tile.freeze (t : Tile) (now : Nat) : Tile :=
  let t := t.freshSys (match t.mode with
    | .user => [.tcause, .tpc, .tvrb]
    | .handler => [.tcause])
  let y := { t.sys with tcause := 247 }
  { t with
    sys := match t.mode with
      | .user => { y with tpc := BitVec.ofNat 64 t.nextPc, tvrb := t.regs.vrb }
      | .handler => y
    st := .preempting
    tf := now + 1
    snap := t.snap ++ (t.pipe.filter (·.snap)).map fun r => { r with due := r.due - (now + 1) }
    pipe := t.pipe.filter fun r => !r.snap }

/-- What a tile does as a clk ends: the trap that the clk has raised is taken, then the freeze that the firmware has asked for. -/
def Tile.endClk (t : Tile) (now : Nat) : Tile :=
  let t := t.takeTrap (now + 1)
  if !t.freezing || t.exchanging then t
  else
    let t := { t with freezing := false }
    if t.active then t.freeze now else t

/-- A unit that the machine could still perform: it waits, or has passed its checks and is not done. -/
def MUnit.live (u : MUnit) : Bool := !u.st.finished && (u.st == .todo || !u.left.isEmpty)

/-- Every issued access has been performed, parked, or is held behind a parked one, of its own word too. -/
def Tile.accessesSettled (t : Tile) (own : TileId) (fr : FrameSel) : Bool :=
  let f := t.frameOf fr
  let one (q : Fifo) : Bool := (f.fifo q).zipIdx.all fun a =>
    !t.canPerform fr q a.2 a.1 || a.1.units.zipIdx.all fun u => !u.1.live || (u.1.left.isEmpty && !t.unitReady own q a.1 u.2 u.1)
  f.ans.isEmpty && one .l && one .s

/-- Every command has completed, its writes performed and acknowledged, has parked, or stands behind one that has parked. -/
def Engine.settled (e : Engine) : Bool :=
  e.late.isEmpty && e.unacked == 0 && (match e.fifo with
    | [] => true
    | x :: _ => x.at_.isSome)

/-- A strand to be ended once it is frozen: of a launch that ABORT has ended, or of a team that has lost a member (R323, R335). -/
def Chip.toEnd (c : Chip) (t : Tile) : Bool := c.abortedLaunch t.bound.launch || (t.team != 0 && (c.team t.team).lost)

/-- A frozen strand ended by the firmware: it departs from its barriers. -/
def Chip.endFrozen (c : Chip) (now : Nat) (n : TileId) : Chip :=
  ((c.updAt n fun t => { t with st := .retired }).barDepart now n).strandOver n (c.tileAt n).bound.launch .dropped

/-- A strand frozen for its save, or ended; one that a thermal stop has frozen counts as over (R379). -/
def Chip.frozen (c : Chip) (now : Nat) : Chip :=
  let t := c.tile
  if c.toEnd t then c.clearWatches.endFrozen now c.focus
  else
    let c := (c.upd fun t => { t with st := .preempted }).irq (tileDie c.focus) .frozen
    if c.launches.any fun l => l.num == t.bound.launch && l.cut then c.strandOver c.focus t.bound.launch .dropped else c

/-- A strand frozen by the firmware as the clk ends (R305). -/
def Tile.askFreeze (t : Tile) : Tile := if t.active then { t with freezing := true } else t

/-- The strands of a team frozen together (R334). -/
def Chip.freezeTeam (c : Chip) (no : Nat) : Chip :=
  if no = 0 then c else { c with tiles := c.tiles.map fun x => if x.team = no then x.askFreeze else x }

/-- PREEMPTION (R305, R334): the firmware freezes a strand, with its team; when everything has drained or parked, the tile reports it. -/
def execPreemption (s : State) : Out :=
  s.lift fun now c =>
    let t := c.tile
    match t.st with
    | .running | .halting => (c.upd Tile.askFreeze).freezeTeam t.team
    | .preempting =>
      if t.pipe.isEmpty && t.vpend.isEmpty && t.promises.isEmpty && t.mat.queue.isEmpty && t.mat.ards.isEmpty && t.chan.settled && t.unv.settled &&
          t.unacked == 0 && t.accessesSettled c.focus .user && t.accessesSettled c.focus .handler then
        c.frozen now
      else c
    | _ => c

end Sys2Proof.Machine
end

