-- ==== Sys2Proof/Machine/Phase.lean ====
section
/-! DEFINITION. Guarded phases (R308–R313). -/

namespace Sys2Proof.Machine

/-! ## The configuration (R308, R309) -/

structure PhCfg where
  en : Bool
  half : Bool
  rerun : Bool
  inlen : Nat
  inb0 : Nat
  inb1 : Nat
  outb : Nat
  outlen : Nat
deriving DecidableEq, Repr

def phCfgOf (x : Word) : PhCfg where
  en := x.getLsbD 63
  half := x.getLsbD 61
  rerun := x.getLsbD 60
  inlen := (bits x 48 12).toNat
  inb0 := (bits x 36 12).toNat
  inb1 := (bits x 24 12).toNat
  outb := (bits x 12 12).toNat
  outlen := (bits x 0 12).toNat

/-- First row of the half in use. -/
def PhCfg.inb (p : PhCfg) : Nat := if p.half then p.inb1 else p.inb0

/-- INLEN and OUTLEN at least 1; halves and log within AB and sharing no row. -/
def PhCfg.ok (p : PhCfg) : Bool :=
  p.inlen != 0 && p.outlen != 0 && decide (p.inb0 + p.inlen ≤ 4096) && decide (p.inb1 + p.inlen ≤ 4096) &&
    decide (p.outb + p.outlen ≤ 4096) && !rangesMeet p.inb0 p.inlen p.inb1 p.inlen && !rangesMeet p.inb0 p.inlen p.outb p.outlen &&
    !rangesMeet p.inb1 p.inlen p.outb p.outlen

/-! ## The parts (R309) -/

/-- The queues of the parts. -/
def phaseQueues : List Queue := [.l, .c, .s, .a]

def Frame.phaseQueued (f : Frame) : Bool := phaseQueues.any fun q => (f.queue q).any fun w => match w.ins with | .phase .. => true | _ => false

/-- phase at its split: its parts are placed, s[SA] is read, the splitter is held. -/
def execPhase (h : Hdr) (a : SReg) (s : State) : Out :=
  xword 7 h [.s a] [] [] (fun now c =>
    let i : Instr := .phase h a
    let t := c.tile
    if t.frame.phaseQueued || !t.frame.room phaseQueues then .hold
    else
      let w := t.captured now c.nextId (rawOf i) (.ok i)
      .wait (c.upd fun t => t.updFrame fun f => phaseQueues.foldl (fun f q => f.setQueue q (f.queue q ++ [w])) f) (.phase (t.getS a))) s

/-- Every part stands at the head of its queue and could issue. -/
def Tile.phaseReady (t : Tile) (now : Nat) (hw : HeldWord) : Bool :=
  phaseQueues.all fun q =>
    match t.frame.queue q with
    | w :: _ => w.id == hw.id && t.readyQ now q w w.ins.hdr
    | [] => false

/-- The parts issued. -/
def Tile.popParts (t : Tile) (now : Nat) : Tile :=
  phaseQueues.foldl (fun t q => match t.frame.queue q with
    | w :: rest => t.issue now q rest w.ins.hdr
    | [] => t) t

/-- Token queues and queue registers of a frame are empty. -/
def Frame.tokensEmpty (f : Frame) : Bool := f.tok == .zero && f.qi.all (·.isEmpty) && f.qo.all (·.isEmpty)

/-- A phase word that fails: its parts go, and the SYS word raises its class with TPC at its own PC (R293, R317). -/
def Tile.phaseFault (t : Tile) (now cls : Nat) : Tile :=
  match t.frame.wait with
  | none => t
  | some w =>
    let drop (f : Frame) : Frame := phaseQueues.foldl (fun f q => f.setQueue q ((f.queue q).filter fun x => x.id != w.id)) f
    (t.updFrame drop).failWait now (fun w => { code := causeCode cls 7, pc := w.pc, tval := 0, rq := none, xw := true, id := w.id }) HeldWord.pc

/-! ## Commands of the channel (R310, R311) -/

/-- The regions of the tile's own AB that a command writes. -/
def Cmd.ownAb (x : Cmd) (own : TileId) : List (Nat × Nat) :=
  match x.ins with
  | .cpy _ o => ((x.cpyArgs o).drop 1).filterMap fun a => match a.place own with
      | .buf n .ab off => if n = own then some (off, a.n) else none
      | _ => none
  | _ => []

/-- A command that writes only the tile's own buffers. -/
def Cmd.ownBuffers (x : Cmd) (own : TileId) : Bool :=
  match x.ins with
  | .cpy _ o => ((x.cpyArgs o).drop 1).all fun a => match a.place own with
      | .buf n _ _ => n == own
      | .glob _ => false
  | .cpyf .. => true
  | _ => false

/-- A command of the channel writes a row of the half in use. -/
def Tile.fillingHalf (t : Tile) (own : TileId) (p : PhCfg) : Bool :=
  t.chan.fifo.any fun x => (x.ownAb own).any fun r => rangesMeet r.1 r.2 (p.inb * 128) (p.inlen * 128)

/-! ## Opening (R309) -/

/-- The checkpoint taken. -/
def Tile.openPhase (t : Tile) (now id : Nat) (input : Word) (pc : Nat) : Tile :=
  { t with
    sys := { t.sys with phcfg := t.sys.phcfg ||| actBit }
    phase := some { since := id, s := t.regs.s, a := t.regs.a, vrb := t.regs.vrb, p4 := t.getP 4, p5 := t.getP 5, p6 := t.getP 6, p7 := t.getP 7
                    loops := t.frame.loops, input := input, resume := pc + 1, last := now, log := [], fill := 0, cancel := false } }

/-- What the checkpoint copies of the register files: a failing word among it is read as zeros, which no word consumes (R337, R338, log entry
77). -/
def copied (u : SramUnit) : Bool :=
  match u with
  | .s n => decide (1 ≤ n.toNat ∧ n.toNat ≤ 15)
  | .a _ => true
  | .p n => decide (4 ≤ n.toNat)
  | _ => false

/-- PHCFG read by the phase word or the halt that holds the splitter: one that fails is zeros, which the word consumes (R337, R338). -/
def Chip.readPhcfg (c : Chip) : Chip :=
  let (c, u) := c.scrubRegs (· == .sys .phcfg) (causeCode 19 7)
  if u.isSome && c.tile.trapsUe then c.upd fun t => t.updFrame fun f => { f with wait := f.wait.map fun w => { w with ue := true } } else c

/-- PHASE_PROCEED (R309): with every part at the head of its queue and no phase active, a phase opens if EN is 1, and the splitter goes
on; a refill that has completed lets a cancelled phase restart (R312). A handler's phase word that meets a phase whose cancellation is
held goes on alone (log entry 67). -/
def execPhaseProceed (s : State) : Out :=
  s.lift fun now c =>
    let t := c.tile
    match t.frame.wait with
    | none => c
    | some hw =>
      match hw.wait with
      | .refill id => if t.incomplete id || !t.active then c else c.upd fun t => t.release now
      | .phase input =>
        let lost := t.mode == .handler && (match t.phase with | some x => x.cancel | none => false)
        if !t.phaseReady now hw || (t.phase.isSome && !lost) then c
        else if !t.frame.tokensEmpty then c.upd fun t => t.phaseFault now 2
        else
          let d := c.readPhcfg
          let p := phCfgOf d.tile.sys.phcfg
          if !p.en || lost then d.upd fun t => (t.popParts now).release now
          else if !p.ok then d.upd fun t => t.phaseFault now 9
          else if t.fillingHalf c.focus p then c
          else (d.scrubWrites (fun _ => false) copied).upd fun t => ((t.popParts now).openPhase now hw.id input hw.pc).release now
      | _ => c

/-! ## Commit (R309, R313) -/

/-- Every older word, access and own-buffer command is done, and 400 clk have passed since the phase's last result; the user frame's
unissued words are younger than a handler's phase word (log entry 67). -/
def Tile.commitReady (t : Tile) (own : TileId) (now : Nat) (p : PhaseState) (before : Nat) : Bool :=
  let f := t.frame
  let old (l : List QWord) : Bool := l.all fun w => decide (before ≤ w.id)
  let done (f : Frame) : Bool := f.lf.isEmpty && f.sf.isEmpty && f.ans.isEmpty
  old f.l && old f.c && old f.s && old f.a && done t.user && done t.hand && t.pipe.isEmpty && t.vpend.isEmpty &&
    t.promises.isEmpty && t.mat.queue.isEmpty && t.mat.ards.isEmpty && t.chan.fifo.all (fun x => !x.ownBuffers own) &&
    decide (p.last + 400 ≤ now)

/-- The log goes to the S FIFO in its order; the halves change places. -/
def Tile.commitPhase (t : Tile) (p : PhaseState) : Tile :=
  { t with
    user := { t.user with sf := t.user.sf ++ p.log }
    phase := none
    sys := { t.sys with phcfg := (t.sys.phcfg ^^^ halfBit) &&& ~~~(actBit ||| rerunBit) } }

/-- PHASE_COMMIT (R309, R313): for a phase word whose parts stand at the heads of their queues, or for a halt in user mode once no older word
waits in them. -/
def execPhaseCommit (s : State) : Out :=
  s.lift fun now c =>
    let t := c.tile
    match t.phase, t.frame.wait with
    | some p, some hw =>
      let held := match hw.wait with
        | .phase _ => t.phaseReady now hw
        | .halted => phaseQueues.all fun q => (t.frame.queue q).isEmpty
        | _ => false
      if p.cancel || !t.active || !held then c
      else if !t.frame.tokensEmpty then c.upd fun t => t.phaseFault now 2
      else if t.commitReady c.focus now p hw.id then
        let c := c.readPhcfg
        match c.tile.phase with
        | some p => if p.cancel then c else c.upd fun t => t.commitPhase p
        | none => c
      else c
    | _, _ => c

/-! ## Cancellation (R312, R313) -/


/-- The issued words of the phase have finished. -/
def Tile.phaseQuiet (t : Tile) (p : PhaseState) : Bool :=
  (t.user.lf ++ t.user.sf ++ t.user.ans).all (fun a => decide (a.w.id < p.since)) && t.pipe.isEmpty && t.vpend.isEmpty &&
    t.promises.isEmpty && t.mat.queue.isEmpty && t.mat.ards.isEmpty

/-- A replay entry, or a held cause, of the phase. -/
def PhaseState.owns (p : PhaseState) (e : RqEntry) : Bool := match e.owner with | .access _ id _ | .command _ id => decide (p.since ≤ id)

/-- The phase holds replay entries, or a command that has stopped for want of one. -/
def Tile.phaseEntries (t : Tile) (p : PhaseState) : List (BitVec 5) :=
  (t.replay.toList.zipIdx).filterMap fun (e, n) => match e with
    | some e => if p.owns e then some (BitVec.ofNat 5 n) else none
    | none => none
def Cmd.stuckIn (x : Cmd) (p : PhaseState) : Bool := decide (p.since ≤ x.id) && x.at_.isSome && !x.dropped

/-- The phase's replay entries are discarded with the elements and the commands that they hold, so that what has issued can finish; the
log goes with them. -/
def Tile.dropPhaseEntries (t : Tile) (p : PhaseState) : Tile :=
  let t := (t.phaseEntries p).foldl (fun t n => t.dropEntry n) t
  { t with
    chan := { t.chan with fifo := t.chan.fifo.map fun x => if x.stuckIn p then { x with parked := none, at_ := none, dropped := true } else x }
    phase := some { p with log := [], fill := 0 } }

/-- The checkpointed state restored: s1–s15, the address registers, VRB, p4–p7, the loop frames; queue registers are empty as at the
opening, and what causes the phase has left goes. Tokens and tags stand (R52, R54). -/
def Tile.restorePhase (t : Tile) (p : PhaseState) : Tile :=
  let s := (List.range 15).foldl (fun (v : Vector Word (2 ^ 5)) k =>
    let n : SReg := BitVec.ofNat 5 (k + 1)
    vset v n (vget p.s n)) t.regs.s
  let t := { t with
    regs := { t.regs with s := s, a := p.a, vrb := p.vrb }
    held := t.held.filter fun c => decide (c.id < p.since)
    sramUe := t.sramUe.filter fun u => match u with
      | .s n => decide (n = 0 ∨ 15 < n.toNat)
      | .a _ => false
      | _ => true
    user := { t.user with qi := Vector.replicate _ [], qo := Vector.replicate _ [], loops := p.loops }
    pc := p.resume }
  t.setStages p.p4 p.p5 p.p6 p.p7

/-- The refill of the input half (R312): a plain cpy.acq.rel.c into own AB. -/
def refillCmd (now id : Nat) (p : PhaseState) (g : PhCfg) : Cmd :=
  let o : CpyOp := ⟨0, 0, 0, 0, .plain, .c, true, true, false, false, true, none⟩
  { id := id, frame := .user, pc := p.resume - 1, ins := .cpy .zero o, src := p.input, dst := 0x100000 + BitVec.ofNat 64 (g.inb * 128)
    res := 0, shape := BitVec.ofNat 64 (g.inlen * 128), ring := none, st := .queued, orphan := false, rdone := [], wdone := [], counted := [], buf := [], out := []
    ready := false, at_ := none, parked := none, dropped := false, sent := false, inst := none, ue := none, issued := now, since := 0 }

/-- A command put ahead of every command that has not started. -/
def insertUnstarted (x : Cmd) : List Cmd → List Cmd
  | [] => [x]
  | y :: l => if y.st = .queued then x :: y :: l else y :: insertUnstarted x l

/-- PHASE_CANCELLATION (R312): the log and the phase's entries go; then, with the issued words finished, the checkpoint is restored, the
input half is filled again, and the splitter restarts; a second cancellation then raises class 20. -/
def execPhaseCancellation (s : State) : Out :=
  s.lift fun now c =>
    let t := c.tile
    match t.phase with
    | none => c
    | some p =>
      if !t.cancelling || !t.active then c
      else if !(t.phaseEntries p).isEmpty || t.chan.fifo.any (Cmd.stuckIn · p) || !p.log.isEmpty then c.upd fun t => t.dropPhaseEntries p
      else if !t.phaseQuiet p then c
      else
        let c := c.scrubWrites (fun _ => false) (· == .sys .phcfg)
        let t := c.tile
        let g := phCfgOf t.sys.phcfg
        let id := c.nextId
        let t := (t.restorePhase p).updEngine .chan fun e => { e with fifo := insertUnstarted (refillCmd now id p g) e.fifo }
        let hw : HeldWord := ⟨id, p.resume - 1, 0, .refill id, false⟩
        let t := { t with
          st := .running
          phase := some { p with log := [], fill := 0, cancel := false, last := now }
          user := { t.user with wait := some hw, free := now + 1 }
          sys := { t.sys with phcfg := if g.rerun then t.sys.phcfg &&& ~~~rerunBit else t.sys.phcfg ||| rerunBit } }
        let c := { c with nextId := id + 1 }.setTile t
        if g.rerun then
          c.upd fun t => t.raise .user { code := causeCode 20 7, pc := p.resume, tval := 0, rq := none, xw := false, id := id } (some p.resume)
        else c

end Sys2Proof.Machine
end

