-- ==== Sys2Proof/Machine/Context.lean ====
section
/-! DEFINITION. The context image (R305–R307, R359): a strand frozen for its save written as records, and a strand resumed from
them. Log entry 21 lists what the layout leaves open. -/

namespace Sys2Proof.Machine

/-! ## Writing the records (R307) -/

def w8 (n : Nat) : List Byte := toBytes 8 (BitVec.ofNat 64 n)
def d8 (x : Word) : List Byte := toBytes 8 x
def zeros (n : Nat) : List Byte := List.replicate n 0
/-- Padded with zero bytes to a multiple of 8. -/
def pad8 (bs : List Byte) : List Byte := bs ++ zeros ((8 - bs.length % 8) % 8)

/-- An item behind an item of eight-byte words: k of them, each as long as `len` says of its offset. -/
def itemsEnd (len : Nat → Nat) : (k at_ : Nat) → Nat
  | 0, at_ => at_
  | k + 1, at_ => itemsEnd len k (at_ + len at_)

/-- One record: its header, its padded payload. -/
def imgRec (ty frame : Nat) (bs : List Byte) : List Byte := w8 (ty * 2 ^ 56 + frame * 2 ^ 54 + bs.length) ++ pad8 bs

def aregBytes (a : ARegS) : List Byte :=
  let q := match a.bind with | none => 0 | some .l => 1 | some .s => 2
  w8 a.addr.toNat ++ w8 a.base.toNat ++ d8 (a.stride.signExtend 64) ++ w8 (a.modulus.toNat + a.mode.code.toNat * 2 ^ 48 + q * 2 ^ 50)

def loopBytes (l : List LoopFrame) : List Byte :=
  let one (f : LoopFrame) : List Byte :=
    w8 f.start ++ w8 f.stop ++ d8 f.left ++ w8 (f.drain.toNat + (if f.i then 4 else 0)) ++ d8 f.p4 ++ d8 f.p5 ++ d8 f.p6 ++ d8 f.p7
  w8 l.length ++ l.flatMap one ++ zeros (64 * (6 - l.length))

def codebookBytes (x : Codebook) : List Byte :=
  w8 (x.count.toNat + x.ty.code.toNat * 2 ^ 9 + x.tag.toNat * 2 ^ 16 + x.rlen.toNat * 2 ^ 32 + x.rfrom.toNat * 2 ^ 48 + x.rto.toNat * 2 ^ 56) ++
    w8 0 ++ toBytes 1024 x.entry ++ toBytes 256 x.remap

def basinBytes (x : Basin) : List Byte :=
  let h (n : Nat) : List Byte := toBytes 2 (BitVec.ofNat 16 n)
  h x.count.toNat ++ h x.m.toNat ++ h x.nb.toNat ++ h x.ty.code.toNat ++ h x.tag.toNat ++ h x.acb.toNat ++ h x.atag.toNat ++ h x.bcb.toNat ++
    h x.btag.toNat ++ h x.hb.toNat ++ h x.htag.toNat ++ h x.rcnt.toNat ++ zeros 8 ++ toBytes 16384 x.entry ++ toBytes 16384 x.hist ++
    toBytes 4096 x.bremap

/-- A ring register in 48 bytes: the table's items take 40, and zeros fill the rest (log entry 21). -/
def ringBytes (x : RingReg) : List Byte :=
  let m := 2 ^ (bits x.geom 0 4).toNat
  let nums (l : List Nat) : List Byte := (l.map fun n => BitVec.ofNat 8 (n % m)) ++ zeros (8 - l.length)
  d8 x.base ++ d8 x.geom ++ w8 (x.conf.toNat + x.prod.length * 2 ^ 8 + x.cons.length * 2 ^ 12) ++ (nums x.prod).take 8 ++ (nums x.cons).take 8 ++ zeros 8

/-- The system registers in number order, MFLAGS, then VRB, WAKE, the mode and, of a handler, its PC. -/
def sysBytes (t : Tile) : List Byte :=
  let r := t.sys
  let handler := t.mode == .handler
  let last := t.regs.vrb.toNat + t.wake.toNat * 2 ^ 8 + handler.toNat * 2 ^ 9 + (if handler then t.pc * 2 ^ 16 else 0)
  w8 r.vflags.toNat ++ w8 r.vtrapen.toNat ++ d8 r.cst ++ w8 r.uet.toNat ++ d8 r.phcfg ++ zeros (8 * 11) ++ d8 r.tcause ++ d8 r.tpc ++ d8 r.tepc ++
    d8 r.tval ++ d8 r.tvec ++ d8 r.tscr0 ++ d8 r.tscr1 ++ d8 t.rqstat ++ w8 r.tvrb.toNat ++ d8 r.troot ++ zeros (8 * 4) ++ w8 r.mflags.toNat ++ w8 last

def watchBytes (member : BitVec 8) (l : List Nat) : List Byte := w8 l.length ++ l.flatMap fun n => w8 (member.toNat * 2 ^ 48 + n * 128)

/-- Position of a command in its FIFO. -/
def Tile.cmdPlace (t : Tile) (id : Nat) : Option (Nat × Nat) :=
  match t.chan.fifo.findIdx? fun x => x.id == id with
  | some k => some (0, k)
  | none => (t.unv.fifo.findIdx? fun x => x.id == id).map fun k => (1, k)

def bindBytes (t : Tile) : List Byte :=
  let one (k : Nat) : List (List Byte) :=
    match vget t.binds (BitVec.ofNat 5 k) with
    | none => []
    | some id => ((t.cmdPlace id).map fun p => w8 (k + p.1 * 2 ^ 8 + p.2 * 2 ^ 16)).toList
  let l := (List.range 32).flatMap one
  w8 l.length ++ l.flatten

/-- A word with its PC. -/
def wordBytes (raw : IWord) (pc : Nat) : List Byte := toBytes 10 raw ++ toBytes 6 (BitVec.ofNat 48 pc)

/-- What a held-over word has already done: bits 7:1 the tags recorded, 8 a request sent, 9 a grant received, 10 an arrival sent, 11 a
binding captured, with its engine and its place; then a deadline. -/
def progressBytes (t : Tile) (w : Wait) : List Byte :=
  match w with
  | .time dl cmd =>
    let b := match cmd.bind t.cmdPlace with
      | some (e, k) => 2 ^ 11 + e * 2 ^ 12 + k * 2 ^ 16
      | none => 0
    w8 b ++ d8 dl
  | .tags ps => w8 (ps.foldl (fun a p => a + 2 ^ p.1.toNat) 0) ++ w8 0
  | .alarm _ dl _ => w8 0 ++ d8 dl
  | .ringE .. | .ringF .. => w8 (2 ^ 8) ++ w8 0
  | .ringGot _ x => w8 (2 ^ 8 + 2 ^ 9) ++ d8 x
  | .bar _ _ _ arrived => w8 (if arrived then 2 ^ 10 else 0) ++ w8 0
  | .phase x => w8 0 ++ d8 x
  | .mon _ | .moncl | .rinit .. | .halted | .refill _ => w8 0 ++ w8 0

def queuesBytes (t : Tile) (f : Frame) : List Byte :=
  let k := f.tok
  let tags := (List.range 8).foldl (fun a n => if n ≠ 0 ∧ (vget f.tags (BitVec.ofNat 3 n)).isSome then a + 2 ^ n else a) 0
  let held := match f.wait with
    | none => []
    | some w => wordBytes w.raw w.pc ++ progressBytes t w.wait
  [k.lc.setWidth 8, k.cs.setWidth 8, k.sl.setWidth 8, k.cl.setWidth 8, k.sc.setWidth 8, k.ls.setWidth 8, 0, 0] ++ w8 tags ++
    w8 (f.l.length + f.c.length * 2 ^ 8 + f.s.length * 2 ^ 16 + f.a.length * 2 ^ 24 + f.wait.isSome.toNat * 2 ^ 32) ++
    (f.l ++ f.c ++ f.s ++ f.a).flatMap (fun w => wordBytes w.raw w.pc) ++ held

def qregBytes (f : Frame) : List Byte :=
  let one (l : List QEntry) : List Byte :=
    let res := l.zipIdx.foldl (fun a x => if x.1.filled then a else a + 2 ^ (8 + x.2)) 0
    w8 (l.length + res) ++ l.flatMap fun e => toBytes 256 e.val
  f.qi.toList.flatMap one ++ f.qo.toList.flatMap one

/-- The units of an access that are still held. -/
def Access.heldUnits (a : Access) : List MUnit := a.units.filter fun u => match u.st with
  | .todo | .stopped | .parked _ => true
  | .done | .refused | .dropped => false

def AClass.code : AClass → Nat
  | .g => 0
  | .wb => 1
  | .ab => 2
  | .lb => 3
  | .peer => 4
  | .ring => 5
  | .order => 6

/-- Both FIFOs of a frame: of each access a head, whose first word also counts the data bytes (log entry 21), then the data. -/
def fifoBytes (own : TileId) (f : Frame) : List Byte :=
  let one (q : Nat) (a : Access) : List Byte :=
    let us := a.heldUnits
    let addr : Word := match us.head? with
      | some u => match u.pieces.head? with
        | some p => p.place.word own (a.cls == .peer)
        | none => 0
      | none => 0
    let mask := us.foldl (fun m u => m + 2 ^ (u.no % 64)) 0
    w8 (q + a.cls.code * 2 ^ 4 + (a.w.raw.extractLsb' 69 8).toNat * 2 ^ 8 + a.data.length * 2 ^ 16) ++ w8 a.w.pc ++ d8 addr ++ w8 mask ++ pad8 a.data
  w8 f.lf.length ++ f.lf.flatMap (one 1) ++ w8 f.sf.length ++ f.sf.flatMap (one 2)

/-- A snapshot entry: destination operand number, its entry of a queue register and in bit 15 the handler frame, remaining latency, lane mask,
value. -/
def snapBytes (t : Tile) (l : List Result) : List Byte :=
  let lanes (m : VWord) : Nat := (List.range 64).foldl (fun a k => if m.extractLsb' (32 * k) 32 ≠ (0 : BitVec 32) then a + 2 ^ k else a) 0
  let one (r : Result) (w : RegWrite) : List Byte :=
    let f := t.frameOf r.frame
    let go (num : BitVec 8) (mask : Nat) (x : VWord) (entry : Nat := 0) : List Byte :=
      w8 (num.toNat + entry * 2 ^ 8 + (r.frame == .handler).toNat * 2 ^ 15 + r.due * 2 ^ 16) ++ w8 mask ++ toBytes 256 x
    let place (l : List QEntry) (id : Nat) : Nat := (l.findIdx? fun e => e.id == id && !e.filled).getD 0
    match w with
    | .s n x => go (sNum n) 3 (x.setWidth 2048)
    | .v n m x => go (vNum n) (lanes m) x
    | .p n m x => go (pNum n) m.toNat (x.setWidth 2048)
    | .qi n id x => go (qiNum n) (2 ^ 64 - 1) x (place (vget f.qi n) id)
    | .qo n id x => go (qoNum n) (2 ^ 64 - 1) x (place (vget f.qo n) id)
    | .promise .. | .cb .. | .basin .. | .cst .. => []
  let l := (l.flatMap fun r => r.writes.map (one r)).filter fun b => !b.isEmpty
  w8 l.length ++ l.flatten

/-- Data that a replay entry's owner has captured. -/
def Tile.entryData (t : Tile) (o : Owner) : List Byte :=
  match o with
  | .access q id _ => match (t.user.fifo q).find? fun a => a.w.id == id with
    | some a => a.data
    | none => []
  | .command eng id => match (t.engine eng).fifo.find? fun x => x.id == id with
    | some x => d8 x.src ++ d8 x.dst ++ d8 x.res ++ d8 x.shape
    | none => []

def replayBytes (t : Tile) : List Byte :=
  d8 t.rqstat ++ t.replay.toList.flatMap fun e => match e with
    | none => []
    | some e =>
      let d := t.entryData e.owner
      d8 e.word ++ d8 e.addr ++ w8 d.length ++ pad8 d

def phaseBytes (t : Tile) (p : PhaseState) : List Byte :=
  (p.s.toList.drop 1).take 15 |>.flatMap d8 |> (· ++ p.a.toList.flatMap aregBytes ++ w8 p.vrb.toNat ++ d8 p.p4 ++ d8 p.p5 ++ d8 p.p6 ++
    d8 p.p7 ++ loopBytes p.loops ++ d8 p.input ++ w8 p.resume ++ w8 (t.tf - p.last) ++ w8 ((p.fill + 127) / 128))

def heldBytes (l : List Cause) : List Byte := w8 l.length ++ l.flatMap fun c => w8 c.code.toNat ++ w8 c.pc ++ d8 c.tval

/-- The records between HEADER and END, in ascending TYPE; a record that holds only bind values is left out. -/
def imgRecords (member : BitVec 8) (own : TileId) (t : Tile) : List (Nat × Nat × List Byte) :=
  let r := t.regs
  let when (b : Bool) (x : Nat × Nat × List Byte) : List (Nat × Nat × List Byte) := if b then [x] else []
  let frames (ty : Nat) (f : Frame → List Byte) (bare : List Byte) : List (Nat × Nat × List Byte) :=
    when (f t.user != bare) (ty, 1, f t.user) ++ when (f t.hand != bare) (ty, 2, f t.hand)
  when (r.v != Regs.zero.v) (2, 0, r.v.toList.flatMap (toBytes 256)) ++
    [(3, 0, r.s.toList.flatMap d8)] ++
    when (r.a != Regs.zero.a) (4, 0, r.a.toList.flatMap aregBytes) ++
    [(5, 0, d8 (BitVec.allOnes 64) ++ (r.p.toList.drop 1).flatMap d8), (6, 0, sysBytes t)] ++
    frames 7 (fun f => loopBytes f.loops) (loopBytes []) ++
    when (r.cb != Regs.zero.cb) (8, 0, r.cb.toList.flatMap codebookBytes) ++
    when (r.basin != .zero) (9, 0, basinBytes r.basin) ++
    when (r.g != Regs.zero.g) (10, 0, r.g.toList.flatMap ringBytes) ++
    when (!t.watch.isEmpty) (11, 0, watchBytes member t.watch) ++
    when (bindBytes t != w8 0) (12, 0, bindBytes t) ++
    frames 13 (queuesBytes t) (queuesBytes t (.empty 0)) ++
    frames 14 qregBytes (qregBytes (.empty 0)) ++
    frames 15 (fifoBytes own) (fifoBytes own (.empty 0)) ++
    when (!t.snap.isEmpty) (16, 0, snapBytes t t.snap) ++
    when (t.replay.any (·.isSome)) (17, 0, replayBytes t) ++
    (match t.phase with | some p => [(18, 0, phaseBytes t p)] | none => []) ++
    when (!t.held.isEmpty) (19, 0, heldBytes t.held)

/-- LATLVL of the part (R360). -/
def latLevel : Nat := 1

/-- The whole image. -/
def imageOf (member : BitVec 8) (own : TileId) (t : Tile) : List Byte :=
  let body := (imgRecords member own t).flatMap (fun x => imgRec x.1 x.2.1 x.2.2) ++ imgRec 0xFF 0 []
  imgRec 1 0 (w8 (1 + latLevel * 2 ^ 8 + (tileRank own).toNat * 2 ^ 16) ++ w8 (32 + body.length) ++ w8 own.toNat) ++ body

/-! ## Reading the records -/

/-- A record as it is read: TYPE, FRAME, payload. -/
structure ImgRec where
  ty : Nat
  frame : Nat
  bs : List Byte
deriving DecidableEq, Repr

def imgWord (bs : List Byte) (at_ : Nat) : Word := ofBytes 64 ((bs.drop at_).take 8)

/-- The records of an image, END included; none where a header is malformed or a payload runs out. -/
def splitImage : (fuel : Nat) → List Byte → Option (List ImgRec)
  | 0, _ => none
  | fuel + 1, bs =>
    let h := imgWord bs 0
    let n := (bits h 0 32).toNat
    let size := 8 + (n + 7) / 8 * 8
    if bs.length < 8 ∨ bs.length < size ∨ bits h 32 22 ≠ 0 then none
    else
      let r : ImgRec := ⟨(bits h 56 8).toNat, (bits h 54 2).toNat, (bs.drop 8).take n⟩
      if r.ty = 0xFF then (if n = 0 ∧ bs.length = size then some [r] else none)
      else (splitImage fuel (bs.drop size)).map (r :: ·)

/-- A payload has the length its TYPE and its own counts give; a type that is unassigned has none. -/
def ImgRec.lengthOk (r : ImgRec) : Bool :=
  let n := r.bs.length
  let w := imgWord r.bs
  match r.ty with
  | 1 => n == 24
  | 2 => n == 16384
  | 3 => n == 256
  | 4 => n == 256
  | 5 => n == 64
  | 6 => n == 256
  | 7 => n == 392 && decide ((w 0).toNat ≤ 6)
  | 8 => n == 20736
  | 9 => n == 36896
  | 10 => n == 768
  | 11 => decide ((w 0).toNat ≤ 16) && n == 8 + 8 * (w 0).toNat
  | 12 => decide ((w 0).toNat ≤ 32) && n == 8 + 8 * (w 0).toNat
  | 13 =>
    let c := w 16
    n == 24 + 16 * ((bits c 0 8).toNat + (bits c 8 8).toNat + (bits c 16 8).toNat + (bits c 24 8).toNat) + (if c.getLsbD 32 then 32 else 0)
  | 14 => n == itemsEnd (fun at_ => 8 + 256 * (bits (w at_) 0 4).toNat) 8 0
  | 15 =>
    let item (at_ : Nat) : Nat := 32 + ((bits (w at_) 16 32).toNat + 7) / 8 * 8
    let l := itemsEnd item (Nat.min 32 (w 0).toNat) 8
    decide ((w 0).toNat ≤ 32) && decide ((w l).toNat ≤ 32) && n == itemsEnd item (Nat.min 32 (w l).toNat) (l + 8)
  | 16 => decide ((w 0).toNat ≤ 48) && n == 8 + 272 * (w 0).toNat
  | 17 => n == itemsEnd (fun at_ => 24 + ((bits (w (at_ + 16)) 0 32).toNat + 7) / 8 * 8) (popCount 32 (w 0).toNat) 8
  | 18 => n == 120 + 256 + 8 + 32 + 392 + 32
  | 19 => decide ((w 0).toNat ≤ 256) && n == 8 + 24 * (w 0).toNat
  | 0xFF => n == 0
  | _ => false

/-- FRAME is that of the type: a frame for LOOP, QUEUES, QREG and FIFO, shared state for the rest. -/
def ImgRec.frameOk (r : ImgRec) : Bool :=
  if r.ty = 7 ∨ r.ty = 13 ∨ r.ty = 14 ∨ r.ty = 15 then r.frame == 1 || r.frame == 2 else r.frame == 0

/-- The records stand in ascending TYPE, the user frame's before the handler frame's. -/
def ascending : List ImgRec → Bool
  | a :: b :: r => decide (a.ty * 4 + a.frame < b.ty * 4 + b.frame) && ascending (b :: r)
  | _ => true

/-- The records of an image that a restore accepts (R307). -/
def readImage (bs : List Byte) : Option (List ImgRec) :=
  match splitImage 32 bs with
  | some (h :: r) =>
    if h.ty = 1 ∧ (imgWord h.bs 0).toNat % 256 = 1 ∧ (h :: r).all (fun x => x.lengthOk && x.frameOk) ∧ ascending (h :: r) then some (h :: r) else none
  | _ => none

/-- The longest image that its records can make. -/
def imageLimit : Nat := 2 ^ 20

/-- The bytes of the image at a physical address, as long as its HEADER says. -/
def Chip.imageAt (c : Chip) (pa : BitVec 56) : Chip × Option (List Byte) :=
  if !c.ownHbm pa then (c, none)
  else
    let (c, h) := c.unitRead pa 32
    let n := (imgWord h 16).toNat
    if n < 32 ∨ imageLimit < n ∨ !c.ownHbm (pa + BitVec.ofNat 56 (n - 1)) then (c, none)
    else
      let (c, bs) := c.unitRead pa n
      (c, some bs)

/-! ## What the records restore -/

def aregOf (bs : List Byte) (at_ : Nat) : ARegS :=
  let m := imgWord bs (at_ + 24)
  { addr := bits (imgWord bs at_) 0 48, base := bits (imgWord bs (at_ + 8)) 0 48, stride := bits (imgWord bs (at_ + 16)) 0 32, modulus := bits m 0 33
    mode := (AMode.ofCode (bits m 48 2)).getD .lin
    bind := match (bits m 50 2 : BitVec 2).toNat with | 1 => some .l | 2 => some .s | _ => none }

def loopsOf (bs : List Byte) (at_ : Nat) : List LoopFrame :=
  (List.range (imgWord bs at_).toNat).map fun k =>
    let w (j : Nat) : Word := imgWord bs (at_ + 8 + 64 * k + 8 * j)
    ⟨(w 0).toNat, (w 1).toNat, w 2, bits (w 3) 0 2, (w 3).getLsbD 2, w 4, w 5, w 6, w 7⟩

def codebookOf (bs : List Byte) (at_ : Nat) : Codebook :=
  let h := imgWord bs at_
  { entry := ofBytes 8192 ((bs.drop (at_ + 16)).take 1024), count := bits h 0 9, ty := CbTy.ofCode (bits h 9 2), tag := bits h 16 8
    remap := ofBytes 2048 ((bs.drop (at_ + 1040)).take 256), rlen := bits h 32 9, rfrom := bits h 48 8, rto := bits h 56 8 }

def basinOf (bs : List Byte) : Basin :=
  let h (k : Nat) : BitVec 16 := ofBytes 16 ((bs.drop (2 * k)).take 2)
  { entry := ofBytes 131072 ((bs.drop 32).take 16384), count := (h 0).setWidth 13, m := (h 1).setWidth 9, nb := (h 2).setWidth 9
    ty := CbTy.ofCode ((h 3).setWidth 2), tag := (h 4).setWidth 8, acb := (h 5).setWidth 4, atag := (h 6).setWidth 8, bcb := (h 7).setWidth 4
    btag := (h 8).setWidth 8, hist := ofBytes 131072 ((bs.drop 16416).take 16384), hb := (h 9).getLsbD 0, htag := (h 10).setWidth 8
    bremap := ofBytes 32768 ((bs.drop 32800).take 4096), rcnt := (h 11).setWidth 9 }

/-- The members of a register file, built from their numbers. -/
def fileOf {α : Type} (k : Nat) (f : Nat → α) : Vector α (2 ^ k) := Vector.ofFn fun i => f i.val

/-- Bytes of a record from an offset. -/
def ImgRec.part (r : ImgRec) (at_ n : Nat) : List Byte := (r.bs.drop at_).take n

/-- A ring register. -/
def ringOf (bs : List Byte) (at_ : Nat) : RingReg :=
  let m := imgWord bs (at_ + 16)
  let nums (o n : Nat) : List Nat := ((bs.drop (at_ + o)).take (Nat.min n 8)).map BitVec.toNat
  ⟨m.getLsbD 0, imgWord bs at_, imgWord bs (at_ + 8), nums 24 (bits m 8 4).toNat, nums 32 (bits m 12 4).toNat⟩

/-! ### Words, tags and queue registers -/

/-- The words of a QUEUES record: bits, PC, and which of several alike it is in its queue. -/
def recWordsOf (r : ImgRec) (at_ n : Nat) : List (IWord × Nat × Nat) :=
  let l : List (IWord × Nat) := (List.range n).map fun k =>
    (ofBytes 80 (r.part (at_ + 16 * k) 10), (ofBytes 48 (r.part (at_ + 16 * k + 10) 6) : BitVec 48).toNat)
  l.zipIdx.map fun x => (x.1.1, x.1.2, (l.take x.2).count x.1)

/-- A word of a record: the one that the saved strand held there, or one captured anew; parts of one word have one number. -/
def wordOfRec (t : Tile) (S id : Nat) (all : List (IWord × Nat × Nat)) (old : Option QWord) (x : IWord × Nat × Nat) : QWord :=
  let what : Parsed := match decode x.1 with | .ok i => .ok i | .error e => .bad e
  let new : QWord := { t.captured S (id + (all.findIdx? (· == x)).getD 0) x.1 what with pc := x.2.1, waits := [] }
  match old with
  | some w => if w.raw = x.1 ∧ w.pc = x.2.1 then w else new
  | none => new

/-- The youngest word that writes a tag. -/
def producerOf (f : Frame) (tag : BitVec 3) : Option Nat :=
  ((f.l ++ f.c ++ f.s ++ f.a ++ (f.lf ++ f.sf).map Access.w).filter fun w => w.ins.hdr.sba == tag).foldl (fun m w => some (Nat.max w.id (m.getD 0))) none

/-- What a held-over word waits for, from its bits and its progress record. -/
def waitOfRec (t : Tile) (f : Frame) (raw : IWord) (p q : Word) : Option Wait :=
  match decode raw with
  | .ok (.waitt ..) =>
    let k := (bits p 16 16 : BitVec 16).toNat
    let fifo := if (bits p 12 4 : BitVec 4) = 0 then t.chan.fifo else t.unv.fifo
    some (.time q (if p.getLsbD 11 then (fifo[k]?).map Cmd.id else none))
  | .ok (.waits ..) => some (.tags ((List.range 8).filterMap fun k =>
      if p.getLsbD k && k != 0 then (vget f.tags (BitVec.ofNat 3 k)).map fun id => (BitVec.ofNat 3 k, id) else none))
  | .ok (.waita _ d _ trap) => some (.alarm d q trap)
  | .ok (.rwaite _ d g) => some (if p.getLsbD 9 then .ringGot d q else .ringE d g)
  | .ok (.rwaitf _ d g) => some (if p.getLsbD 9 then .ringGot d q else .ringF d g)
  | .ok (.bar _ lvl id) => some (.bar lvl id 0 (p.getLsbD 10))
  | .ok (.phase ..) => some (.phase q)
  | .ok (.halt _) => some .halted
  | _ => none

/-- A frame with nothing in it that a record holds; its clocks stand. -/
def Frame.bare (f : Frame) : Frame :=
  { Frame.empty f.free with nextL := f.nextL, nextC := f.nextC, nextS := f.nextS, nextA := f.nextA, portL := f.portL, portS := f.portS
                            busyV := f.busyV, busyK := f.busyK, fps := f.fps }

/-- QUEUES taken into a frame; `o` is the frame as it was saved. -/
def Frame.takeQueues (f o : Frame) (t : Tile) (S id : Nat) (r : ImgRec) : Frame :=
  let w := imgWord r.bs
  let n (k : Nat) : Nat := (bits (w 16) (8 * k) 8).toNat
  let ql := recWordsOf r 24 (n 0)
  let qc := recWordsOf r (24 + 16 * n 0) (n 1)
  let qs := recWordsOf r (24 + 16 * (n 0 + n 1)) (n 2)
  let qa := recWordsOf r (24 + 16 * (n 0 + n 1 + n 2)) (n 3)
  let all := ql ++ qc ++ qs ++ qa
  let words (l : List (IWord × Nat × Nat)) (old : List QWord) : List QWord := l.zipIdx.map fun x => wordOfRec t S id all old[x.2]? x.1
  let tok (k : Nat) : BitVec 4 := bits (w 0) (8 * k) 4
  let f := { f with l := words ql o.l, c := words qc o.c, s := words qs o.s, a := words qa o.a, tok := ⟨tok 0, tok 1, tok 2, tok 3, tok 4, tok 5⟩ }
  let f := { f with tags := Vector.ofFn fun k =>
    let tag : BitVec 3 := BitVec.ofNat 3 k.val
    if k.val ≠ 0 ∧ (w 8).getLsbD k.val then vget o.tags tag <|> producerOf { f with lf := o.lf, sf := o.sf } tag else none }
  let at_ := 24 + 16 * all.length
  let raw : IWord := ofBytes 80 (r.part at_ 10)
  let pc := (ofBytes 48 (r.part (at_ + 10) 6) : BitVec 48).toNat
  let new : Option HeldWord := (waitOfRec t f raw (w (at_ + 16)) (w (at_ + 24))).map fun x => ⟨id + all.length, pc, raw, x, false⟩
  { f with wait := if (w 16).getLsbD 32 then (match o.wait with
      | some h => if wordBytes h.raw h.pc ++ progressBytes t h.wait = r.part at_ 32 then some h else new
      | none => new) else none }

/-- QREG taken into a frame: entry k of a queue register keeps the number of the word that reserved it. -/
def Frame.takeQreg (f o : Frame) (id : Nat) (r : ImgRec) : Frame :=
  let start (k : Nat) : Nat := itemsEnd (fun at_ => 8 + 256 * (bits (imgWord r.bs at_) 0 4).toNat) k 0
  let one (k : Nat) (old : List QEntry) : List QEntry :=
    let h := imgWord r.bs (start k)
    (List.range (bits h 0 4).toNat).map fun j =>
      ⟨((old[j]?).map QEntry.id).getD (id + 256 + 8 * k + j), !h.getLsbD (8 + j), ofBytes 2048 (r.part (start k + 8 + 256 * j) 256)⟩
  { f with
    qi := Vector.ofFn fun k => one k.val (vget o.qi (BitVec.ofNat 2 k.val))
    qo := Vector.ofFn fun k => one (4 + k.val) (vget o.qo (BitVec.ofNat 2 k.val)) }

/-- FIFO taken into a frame: the accesses of the saved strand, as many as the record counts, with the captured data that it holds. -/
def Frame.takeFifo (f o : Frame) (r : ImgRec) : Frame :=
  let w := imgWord r.bs
  let size (at_ : Nat) : Nat := (bits (w at_) 16 32).toNat
  let item (at_ : Nat) : Nat := 32 + (size at_ + 7) / 8 * 8
  let take (at_ n : Nat) (l : List Access) : List Access := (l.take n).zipIdx.map fun a =>
    let here := itemsEnd item a.2 at_
    { a.1 with data := r.part (here + 32) (size here) }
  let mid := itemsEnd item (w 0).toNat 8
  { f with lf := take 8 (w 0).toNat o.lf, sf := take (mid + 8) (w mid).toNat o.sf }

/-! ### Shared records in flight -/

/-- Promise bindings: each to the command that stands where the record says. -/
def Tile.takeBinds (t : Tile) (r : ImgRec) : Tile :=
  (List.range (imgWord r.bs 0).toNat).foldl (fun t k =>
    let x := imgWord r.bs (8 + 8 * k)
    let fifo := if (bits x 8 2 : BitVec 2) = 0 then t.chan.fifo else t.unv.fifo
    { t with binds := vset t.binds (bits x 0 5) ((fifo[(bits x 16 8 : BitVec 8).toNat]?).map Cmd.id) }) t

/-- The write of a snapshot entry. -/
def snapWrite (f : Frame) (num : BitVec 8) (entry : Nat) (mask : Word) (x : VWord) : Option RegWrite :=
  let lanes : VWord := ofBytes 2048 ((List.range 64).flatMap fun k => List.replicate 4 (if mask.getLsbD k then 0xFF#8 else 0))
  let at_ (l : List QEntry) : Nat := ((l[entry]?).map QEntry.id).getD 0
  match vSrc? num, num.extractLsb' 5 3 with
  | some (.v n), _ => some (.v n lanes x)
  | some (.qi n), _ => some (.qi n (at_ (vget f.qi n)) x)
  | _, 2 => some (.s (num.setWidth 5) (x.setWidth 64))
  | _, 4 => some (.p (num.setWidth 3) mask (x.setWidth 64))
  | _, 3 => some (.qo (num.setWidth 2) (at_ (vget f.qo (num.setWidth 2))) x)
  | _, _ => none

/-- SNAPSHOT: the saved strand's own entries where the record is theirs, else each as its head says. -/
def Tile.takeSnap (t : Tile) (o : Tile) (id : Nat) (r : ImgRec) : Tile :=
  if r.bs = snapBytes o o.snap then { t with snap := o.snap }
  else
    { t with snap := (List.range (imgWord r.bs 0).toNat).filterMap fun k =>
        let h := imgWord r.bs (8 + 272 * k)
        let fr : FrameSel := if h.getLsbD 15 then .handler else .user
        (snapWrite (t.frameOf fr) (bits h 0 8) (bits h 8 7 : BitVec 7).toNat (imgWord r.bs (16 + 272 * k)) (ofBytes 2048 (r.part (24 + 272 * k) 256))).map fun x =>
          { id := id + 512 + k, frame := fr, pc := 0, due := (bits h 16 48 : BitVec 48).toNat, writes := [x], flags := 0, tag := 0
            ue := none, cause := none, snap := true } }

/-- REPLAY: the words of each valid entry; what owns it, and the PC of its word, are the saved strand's; an entry that it has not has no
owner. -/
def Tile.takeReplay (t : Tile) (o : Tile) (id : Nat) (r : ImgRec) : Tile :=
  let w := imgWord r.bs
  let valid (n : Nat) : Bool := (w 0).getLsbD n
  let item (at_ : Nat) : Nat := 24 + ((bits (w (at_ + 16)) 0 32 : BitVec 32).toNat + 7) / 8 * 8
  { t with replay := Vector.ofFn fun n =>
      if !valid n.val then none
      else
        let at_ := itemsEnd item ((List.range n.val).filter valid).length 8
        let x := w at_
        let q : Fifo := if (bits x 53 2 : BitVec 2) = 2 then .s else .l
        let old := vget o.replay (BitVec.ofNat 5 n.val)
        some {
            cls := bits x 58 5, eng := bits x 55 3, queue := bits x 53 2, rel := x.getLsbD 52, opc := bits x 44 8, strm := bits x 32 2
            sub := bits x 24 8, elem := bits x 0 24, addr := w (at_ + 8), dlv := (w 0).getLsbD (32 + n.val)
            pc := (old.map RqEntry.pc).getD 0, owner := (old.map RqEntry.owner).getD (Owner.access q (id + 768 + n.val) 0) } }

/-- PHASE: the checkpoint; the log's stores and the phase's place in program order are the saved strand's. -/
def Tile.takePhase (t : Tile) (o : Tile) (id : Nat) (r : ImgRec) : Tile :=
  let w := imgWord r.bs
  let at_ := 120 + 256
  let rows := (w (at_ + 8 + 32 + 392 + 24)).toNat
  let old := o.phase
  let fill := (old.map PhaseState.fill).getD 0
  { t with phase := some {
      since := (old.map PhaseState.since).getD id
      s := fileOf 5 fun k => if 1 ≤ k ∧ k ≤ 15 then w (8 * (k - 1)) else (old.map fun p => vget p.s (BitVec.ofNat 5 k)).getD 0
      a := fileOf 3 fun k => aregOf r.bs (120 + 32 * k)
      vrb := bits (w at_) 0 5
      p4 := w (at_ + 8), p5 := w (at_ + 16), p6 := w (at_ + 24), p7 := w (at_ + 32)
      loops := loopsOf r.bs (at_ + 40)
      input := w (at_ + 432)
      resume := (w (at_ + 440)).toNat
      last := o.tf - (w (at_ + 448)).toNat
      log := (old.map PhaseState.log).getD []
      fill := if (fill + 127) / 128 = rows then fill else 128 * rows
      cancel := (old.map PhaseState.cancel).getD false } }

/-- HELD: the causes of user words, oldest first. -/
def Tile.takeHeld (t : Tile) (o : Tile) (r : ImgRec) : Tile :=
  { t with held := (List.range (imgWord r.bs 0).toNat).map fun k =>
      let c : Cause := { code := bits (imgWord r.bs (8 + 24 * k)) 0 8, pc := (imgWord r.bs (16 + 24 * k)).toNat, tval := imgWord r.bs (24 + 24 * k)
                         rq := none, xw := false, id := k }
      match o.held[k]? with
      | some x => if x.code = c.code ∧ x.pc = c.pc ∧ x.tval = c.tval then x else c
      | none => c }

/-- One record taken into a tile; `o` is the strand as it was saved, for what the layout leaves open (log entry 21). -/
def Tile.takeRec (o : Tile) (S id : Nat) (t : Tile) (r : ImgRec) : Tile :=
  let w := imgWord r.bs
  let onFrame (f : Frame → Frame → Frame) : Tile := if r.frame = 2 then { t with hand := f t.hand o.hand } else { t with user := f t.user o.user }
  match r.ty with
  | 2 => { t with regs := { t.regs with v := fileOf 6 fun k => ofBytes 2048 (r.part (256 * k) 256) } }
  | 3 => { t with regs := { t.regs with s := fileOf 5 fun k => w (8 * k) } }
  | 4 => { t with regs := { t.regs with a := fileOf 3 fun k => aregOf r.bs (32 * k) } }
  | 5 => { t with regs := { t.regs with p := fileOf 3 fun k => if k = 0 then 0 else w (8 * k) } }
  | 6 =>
    let last := w (8 * 0x1F)
    { t with
      sys := { vflags := bits (w 0) 0 5, vtrapen := bits (w 8) 0 5, cst := w 16, uet := (w 24).getLsbD 0, phcfg := w 32, tcause := w 128 &&& tcauseMask
               tpc := w 136, tepc := w 144, tval := w 152, tvec := w 160, tscr0 := w 168, tscr1 := w 176, tvrb := bits (w 192) 0 5
               troot := w 200 &&& trootMask, mflags := bits (w 240) 0 5 }
      regs := { t.regs with vrb := bits last 0 5 }
      mode := if last.getLsbD 9 then .handler else .user
      pc := if last.getLsbD 9 then (bits last 16 48).toNat else (w 136).toNat }
  | 7 => onFrame fun f _ => { f with loops := loopsOf r.bs 0 }
  | 8 => { t with regs := { t.regs with cb := fileOf 4 fun k => codebookOf r.bs (1296 * k) } }
  | 9 => { t with regs := { t.regs with basin := basinOf r.bs } }
  | 10 => { t with regs := { t.regs with g := fileOf 4 fun k => ringOf r.bs (48 * k) } }
  | 11 => { t with watch := (List.range (w 0).toNat).map fun k => (bits (w (8 + 8 * k)) 7 41).toNat }
  | 12 => t.takeBinds r
  | 13 => onFrame fun f g => f.takeQueues g t S (id + 1024 * r.frame) r
  | 14 => onFrame fun f g => f.takeQreg g (id + 1024 * r.frame) r
  | 15 => onFrame fun f g => f.takeFifo g r
  | 16 => t.takeSnap o id r
  | 17 => t.takeReplay o id r
  | 18 => t.takePhase o id r
  | 19 => t.takeHeld o r
  | _ => t

/-- The numbers that an image's words may take. -/
def imageIds : Nat := 4096

/-- The records in flight of an image. -/
def inFlightOf (bs : List Byte) : List ImgRec := ((readImage bs).getD []).filter fun r => r.ty == 10 || decide (12 ≤ r.ty ∧ r.ty ≤ 19)

/-- The saved context behind an image: one with these very bytes, else one saved at its address, else one whose records in flight are
these. -/
def contextIn (l : List Saved) (addr : BitVec 56) (bs : List Byte) : Option Saved :=
  (l.find? fun x => x.bytes == bs) <|> (l.find? fun x => x.addr == addr) <|> l.find? fun x => inFlightOf x.bytes == inFlightOf bs

/-- Of the strands that have not resumed, and then of those that have, whose images may be restored again (R306). -/
def Chip.contextOf (c : Chip) (addr : BitVec 56) (bs : List Byte) : Option Saved := contextIn c.saved addr bs <|> contextIn c.resumed addr bs

/-- Causes held by an image. -/
def heldIn (bs : List Byte) : Nat := (((readImage bs).getD []).find? fun r => r.ty == 19).elim 0 fun r => (imgWord r.bs 0).toNat

/-- Class 24 that has met a saved strand at its bar: the bar is over, and the cause is held behind those of the image (R268). -/
def Tile.takeFaults (t : Tile) (o : Tile) (n : Nat) : Tile :=
  if o.held.length ≤ n then t else { t with held := t.held ++ o.held.drop n, user := { t.user with wait := none } }

/-- A tile of one cluster is the tile of the same rank in another. -/
def sameRank (old new n : TileId) : TileId := if tileCluster n = tileCluster old then tileOfRank (tileCluster new) (tileRank n) else n

/-- The places of a strand that resumes in another cluster. -/
def Place.move (old new : TileId) : Place → Place
  | .buf n b off => .buf (sameRank old new n) b off
  | p => p
def Access.move (old new : TileId) (a : Access) : Access :=
  { a with units := a.units.map fun u =>
      { u with pieces := u.pieces.map (fun p => { p with place := p.place.move old new })
               left := u.left.map fun p => ({ p.1 with place := p.1.place.move old new }, p.2) } }
def Frame.move (old new : TileId) (f : Frame) : Frame := { f with lf := f.lf.map (Access.move old new), sf := f.sf.map (Access.move old new) }
def Cmd.move (old new : TileId) (x : Cmd) : Cmd := { x with out := x.out.map fun o => { o with place := o.place.move old new } }

/-- A saved strand as a tile of the new place sees it. -/
def Saved.moved (x : Saved) (new : TileId) : Tile :=
  { x.tile with
    user := x.tile.user.move x.home new
    hand := x.tile.hand.move x.home new
    chan := { x.tile.chan with fifo := x.tile.chan.fifo.map (Cmd.move x.home new) }
    unv := { x.tile.unv with fifo := x.tile.unv.fifo.map (Cmd.move x.home new) }
    phase := x.tile.phase.map fun p => { p with log := p.log.map (Access.move x.home new) } }

/-- A strand made from an image for a tile: every record as the image has it, the bind values of `fresh` for what it leaves out (R307,
R330), and, of the saved context, what the layout leaves open. -/
def Chip.fromImage (c : Chip) (new : TileId) (S : Nat) (fresh : Tile) (addr : BitVec 56) (bs : List Byte) : Tile :=
  let x := c.contextOf addr bs
  let o : Tile := match x with
    | some x => x.moved new
    | none => { fresh with bufs := (c.tileAt new).bufs, sramUe := (c.tileAt new).sramUe }
  let start : Tile :=
    { o with
      mode := .user, pc := fresh.pc, regs := fresh.regs, sys := fresh.sys, watch := [], binds := fresh.binds, snap := [], replay := fresh.replay
      phase := none, held := [], user := o.user.bare, hand := o.hand.bare }
  (((readImage bs).getD []).foldl (Tile.takeRec o S c.nextId) start).takeFaults o (x.elim 0 fun x => heldIn x.bytes)

/-- A frozen strand resumes at S as tret does, with te at the freeze (R306): the clk between are not counted; WAKE is set (R264). One that had
halted goes on halting, and one that a handler fault has ended since stays so. -/
def Tile.restart (t : Tile) (S : Nat) : Tile :=
  let d := S - t.tf
  let mine := fun (r : Result) => t.mode == .user || r.frame == .handler
  let t : Tile := { t with
    st := match t.st with
      | .ended code pc => .ended code pc
      | _ => if t.frame.waiting == some .halted then .halting else .running
    wake := true
    quiet := S
    pipe := ((t.snap.filter mine).map fun r => { r with due := r.due + S }).foldl (fun l r => insertResult r l) t.pipe
    snap := t.snap.filter fun r => !mine r
    phase := t.phase.map fun p => { p with last := p.last + d } }
  match t.mode with
  | .user => { t with regs := { t.regs with vrb := t.sys.tvrb }, pc := t.sys.tpc.toNat, user := t.user.shift d }
  | .handler => { t with hand := t.hand.shift d }

/-! ## Saving (R359) -/

/-- A tile that holds no strand: its buffers stay, and what is the tile's own. -/
def Tile.emptied (t : Tile) : Tile :=
  { Tile.fresh with
    bufs := t.bufs
    sramUe := t.sramUe
    fence := t.fence
    cs := t.cs
    chan := { Engine.idle with disabled := t.chan.disabled }
    unv := { Engine.idle with disabled := t.unv.disabled, lastRun := t.unv.lastRun } }

/-- The image's address: CSAVE. -/
def Tile.saveAddr (t : Tile) : BitVec 56 := bits t.cs.addr 0 56

/-- CSCTL_GO (R359): acted on only while the tile is frozen for a save. -/
def Tile.csctlGo (t : Tile) : Tile :=
  if t.st = .preempted ∧ !t.cs.busy then { t with cs := { t.cs with busy := true, done := false } } else t
def execCsctlGo (s : State) : Out := s.lift fun _ c => c.upd Tile.csctlGo

/-- A failing word of a buffer, which an image does not hold. -/
def SramUnit.isBuf : SramUnit → Bool
  | .buf _ _ => true
  | _ => false

/-- CONTEXT_IMAGE_DONE (R359): the save reads every register, and those that fail are zeros and recorded (R337); the image stands in memory, and the tile holds no strand any more. -/
def execContextImageDone (s : State) : Out :=
  s.lift fun _ c =>
    if c.tile.st ≠ .preempted ∨ !c.tile.cs.busy then c
    else
      let c := c.scrubWrites (fun _ => false) fun u => !u.isBuf && (match u with | .iline _ => false | _ => true)
      let t := c.tile
      let bs := imageOf c.member c.focus t
      let x : Saved := ⟨c.focus, t.saveAddr, bs, t⟩
      let c := (c.unitWrite t.saveAddr bs).clearWatches
      let c := { c with saved := x :: c.saved.filter fun y => y.addr != t.saveAddr }
      c.setTile { t.emptied with cs := { t.cs with busy := false, done := true, len := BitVec.ofNat 32 bs.length } }

end Sys2Proof.Machine
end

