-- ==== Sys2Proof/Machine/Commit.lean ====
section
/-! DEFINITION. The slot table, the cluster commit and the start of strands (R327–R331, R335). -/

namespace Sys2Proof.Machine

/-! ## Bind records (R327) -/

/-- Bits of word k of a bind record that a write sets. -/
def slotMask (k : Nat) : Word :=
  match k with
  | 0 => 0xC00000FFFFFFFFFF
  | 1 => 0xFFFFFFFF
  | 2 | 3 => 0x1FFFFFFFFFFF
  | 4 => BitVec.allOnes 64
  | 18 => 0x00FFFFFFFFFFFF80
  | _ => if k < 18 then BitVec.allOnes 64 else 0

/-- A word of a record. -/
def slotWord (r : BindRec) (k : Nat) : Word := vget r (BitVec.ofNat 5 k)
def slotV (r : BindRec) : Bool := (slotWord r 0).getLsbD 63
def slotRst (r : BindRec) : Bool := (slotWord r 0).getLsbD 62
def slotTmask (r : BindRec) : BitVec 8 := bits (slotWord r 0) 32 8
def slotLaunch (r : BindRec) : BitVec 32 := bits (slotWord r 0) 0 32
def slotCtxa (r : BindRec) : BitVec 56 := bits (slotWord r 18) 0 56

/-- Entry of a tile's bank. -/
def slotOf (n : TileId) (bank : Bool) : BitVec 8 := BitVec.ofNat 8 (2 * (n.toNat % 128) + bank.toNat)

/-! ## Cluster registers (R328) -/

/-- A global cluster number. -/
def clusterNo (die : Bool) (k : BitVec 4) : BitVec 5 := BitVec.ofBool die ++ k

/-- Ranks of a mask. -/
def ranksOf (m : BitVec 8) : List (BitVec 3) := ((List.range 8).filter m.getLsbD).map (BitVec.ofNat 3)

/-- RUN of a cluster. -/
def Chip.runMask (c : Chip) (k : BitVec 5) : BitVec 8 :=
  (List.range 8).foldl (fun (m : BitVec 8) r => if (c.tileAt (tileOfRank k (BitVec.ofNat 3 r))).runs then m ||| (1#8 <<< r) else m) 0

/-- CSTAT. -/
def Chip.cstat (c : Chip) (k : BitVec 5) : Word :=
  let x := vget c.clusters k
  (0#32 ++ x.err ++ c.runMask k ++ x.att ++ 0#8 : BitVec 64)

/-- Ranks of a cluster that an accepted commit names and that have not started. -/
def Chip.dispatching (c : Chip) (k : BitVec 5) : BitVec 8 :=
  ((c.die (k.getLsbD 4)).dispatch.filter fun x => x.cluster == k.extractLsb' 0 4).foldl (fun m x => m ||| x.mask) 0

/-! ## The commit (R328, R329) -/

/-- The named records. -/
def Chip.named (c : Chip) (k : BitVec 5) (mask : BitVec 8) (bank : Bool) : List (BitVec 3 × BindRec) :=
  (ranksOf mask).map fun r => (r, vget (c.die (k.getLsbD 4)).slots (slotOf (tileOfRank k r) bank))

/-- The images of the named records with RST set; none where R307 refuses one. -/
def Chip.images (c : Chip) : List (BitVec 3 × BindRec) → Chip × Option (List (BitVec 3 × List Byte))
  | [] => (c, some [])
  | (r, x) :: l =>
    if !slotRst x then c.images l
    else
      match c.imageAt (slotCtxa x) with
      | (c, none) => (c, none)
      | (c, some bs) =>
        if (readImage bs).isNone then (c, none)
        else
          match c.images l with
          | (c, none) => (c, none)
          | (c, some y) => (c, some ((r, bs) :: y))

/-- The checks of a commit, in the order of ERR: its error, or the images it restores; a rank that an accepted commit is about to start counts as
taken (log entry 85). -/
def Chip.commitCheck (c : Chip) (k : BitVec 5) (mask : BitVec 8) (bank : Bool) : Chip × Except (BitVec 8) (List (BitVec 3 × List Byte)) :=
  let rs := c.named k mask bank
  if mask = 0 then (c, .error 1)
  else if (ranksOf mask).any fun r => (c.runMask k ||| c.dispatching k).getLsbD r.toNat || (c.tileAt (tileOfRank k r)).cs.busy then (c, .error 2)
  else if rs.any fun x => !slotV x.2 || slotWord x.2 4 &&& ~~~trootMask != 0 then (c, .error 3)
  else
    match c.images rs with
    | (c, none) => (c, .error 3)
    | (c, some im) =>
      if rs.any fun x => slotTmask x.2 != mask || rs.any fun y => slotLaunch x.2 != slotLaunch y.2 then (c, .error 4)
      else if (ranksOf mask).any fun r => (c.tileAt (tileOfRank k r)).fence.fenced then (c, .error 5)
      else (c, .ok im)

/-- The saved strand behind a record that restores one, by the image's bytes. -/
def Chip.savedOf (c : Chip) (im : List (BitVec 3 × List Byte)) (x : BitVec 3 × BindRec) : Option Saved :=
  (im.find? fun y => y.1 == x.1).bind fun y => contextIn c.saved (slotCtxa x.2) y.2

/-- The team that a commit resumes: every named record restores a strand of one saved team. -/
def Chip.resumedTeam (c : Chip) (rs : List (BitVec 3 × BindRec)) (im : List (BitVec 3 × List Byte)) : Option Nat :=
  match rs.map fun x => (c.savedOf im x).map fun y => y.tile.team with
  | some no :: l => if no ≠ 0 ∧ l.all (· == some no) then some no else none
  | _ => none

/-- LOOSE of a launch (R321). -/
def Chip.looseLaunch (c : Chip) (num : BitVec 32) : Bool := c.launches.any fun l => l.num == num && l.word0.getLsbD 42

/-- Core rank in the HEADER of an image (R307). -/
def imageRank (bs : List Byte) : BitVec 3 := ((imgRec0 bs).extractLsb' 16 3)
where imgRec0 (bs : List Byte) : Word := imgWord bs 8

/-- Every strand of a team that is not over has been saved (R335). -/
def Chip.teamSaved (c : Chip) (no : Nat) : Bool :=
  let t := c.team no
  (c.saved.filter fun x => x.tile.team == no).length == popCount 8 (t.mask &&& ~~~t.gone).toNat

/-- The commits that a firmware makes (log entry 69): without LOOSE a cluster is bound anew only once no strand runs on it (R326); a
saved team resumes whole, on its die, each strand at the rank of its image (R334, R335). -/
def Chip.firmwareCommits (c : Chip) (k : BitVec 5) (rs : List (BitVec 3 × BindRec)) (im : List (BitVec 3 × List Byte)) : Bool :=
  let ss := rs.filterMap fun x => c.savedOf im x
  let teams := ss.filterMap fun x => if x.tile.team = 0 then none else some x.tile.team
  ((ranksOf (c.runMask k)).all fun r => c.looseLaunch (c.tileAt (tileOfRank k r)).bound.launch) &&
    ((c.die (k.getLsbD 4)).dispatch.all fun x => x.cluster != k.extractLsb' 0 4 || x.recs.all fun y => c.looseLaunch (slotLaunch y.2)) &&
    im.all (fun x => imageRank x.2 == x.1) && ss.all (fun x => tileDie x.home == k.getLsbD 4) &&
    (teams.isEmpty || ((c.resumedTeam rs im).isSome && teams.all c.teamSaved &&
      c.saved.all fun x => !teams.contains x.tile.team || ss.any fun y => y.home == x.home && y.addr == x.addr))

/-- A write to CCOMMIT: refused with ERR and nothing else, or the tiles are dispatched. Once a thermal stop has come the firmware
commits nothing more (R379). -/
def Chip.ccommit (c : Chip) (die : Bool) (cluster : BitVec 4) (val : Word) : Chip :=
  if c.stopped then c
  else
    let k := clusterNo die cluster
    let mask : BitVec 8 := bits val 0 8
    let bank := val.getLsbD 8
    match c.commitCheck k mask bank with
    | (c, .error e) => { c with clusters := vset c.clusters k { vget c.clusters k with err := e } }
    | (c, .ok im) =>
      let rs := c.named k mask bank
      if !c.firmwareCommits k rs im then c
      else
        let seq := c.teamCnt + 1
        let x := vget c.clusters k
        let c := rs.foldl (fun (c : Chip) y => if slotRst y.2 then c else c.updLaunch (slotLaunch y.2) fun l => { l with begun := l.begun + 1 }) c
        { c with teamCnt := seq, clusters := vset c.clusters k (Cluster.mk (x.att &&& mask) 0) }.updDie die fun d =>
          { d with dispatch := d.dispatch ++ [Dispatch.mk cluster mask bank ((c.resumedTeam rs im).getD seq) seq rs im] }

/-- CCOMMIT (R328, R329). -/
def execCcommit (die : Bool) (cluster : BitVec 4) (val : Word) (s : State) : Out := s.lift fun _ c => c.ccommit die cluster val

/-! ## The start (R329, R330) -/

/-- What a bind record gives a strand beside its registers. -/
def boundOf (r : BindRec) : Bound :=
  ⟨slotWord r 5, slotWord r 6, slotWord r 7, slotWord r 8, slotWord r 9, slotWord r 10, slotLaunch r, bits (slotWord r 1) 0 32⟩

/-- A fresh strand: the bind record's values, and bind values for the rest. -/
def freshStrand (r : BindRec) (S : Nat) : Tile :=
  { Tile.fresh with
    st := .running
    pc := (slotWord r 2).toNat
    regs := { Regs.zero with s := fileOf 5 fun k => if 1 ≤ k ∧ k ≤ 7 then slotWord r (10 + k) else 0 }
    sys := { SysRegs.zero with tvec := slotWord r 3, troot := slotWord r 4 &&& trootMask }
    bound := boundOf r
    user := .empty S
    quiet := S }

/-- The engine of a tile to which a strand is bound: what an earlier strand has left there runs on before it (R230, R234). -/
def Engine.bindTo (new old : Engine) (g : Vector RingReg (2 ^ 4)) : Engine :=
  let o := old.leave g
  { new with fifo := o.fifo ++ new.fifo, late := o.late ++ new.late, unacked := o.unacked + new.unacked, disabled := old.disabled }

/-- What a tile keeps when a strand is bound to it. -/
def Tile.bindTo (old new : Tile) (team : Nat) : Tile :=
  { new with
    team := team
    fence := old.fence
    cs := old.cs
    icache := []
    sramUe := new.sramUe.filter (·.isBuf)
    chan := new.chan.bindTo old.chan old.regs.g
    unv := { new.unv.bindTo old.unv old.regs.g with lastRun := old.unv.lastRun } }

/-- ITER0–ITER5 of a bind record. -/
def slotIters (r : BindRec) : List Word := (List.range 6).map fun k => slotWord r (5 + k)

/-- One named tile starts: fresh, or from its image, its watch set registered again (R264), in its place of its group (R381); a tile
that has been fenced since the commit counts as fenced (R350). -/
def Chip.startTile (c : Chip) (S : Nat) (team : Nat) (n : TileId) (r : BindRec) (im : Option (List Byte)) : Chip :=
  let old := c.tileAt n
  let c := old.watch.foldl (fun (c : Chip) l => c.watchBits n l false) c
  if old.fence.fenced then
    let c := ((c.updAt n fun t => { t with team := team }).loseTeam team (slotIters r)).seat (slotLaunch r) n (slotIters r)
    ((c.barFenced S n).strandOver n (slotLaunch r) .fenced).failColls (slotLaunch r)
  else
    match im with
    | none => (c.setTileAt n (old.bindTo (freshStrand r S) team)).seat (slotLaunch r) n (slotIters r)
    | some bs =>
      let at_ := slotCtxa r
      let t := (c.fromImage n S (freshStrand r S) at_ bs).restart S
      let x := c.contextOf at_ bs
      let t := old.bindTo { t with bound := boundOf r } team
      t.watch.foldl (fun (c : Chip) l => c.watchBits n l true)
        (({ c with saved := c.saved.filter (some · != x), resumed := x.toList ++ c.resumed.filter (some · != x)
                   nextId := c.nextId + imageIds }.setTileAt n t).seat (slotLaunch r) n (slotIters r))

/-- The barrier state of a launch on a die, that of none before its first commit there. -/
def Chip.barOf (c : Chip) (d : Bool) (launch : BitVec 32) : LaunchBar :=
  ((c.die d).launches.find? fun x => x.launch == launch).getD ⟨launch, [], [], false, 0, Vector.replicate _ ⟨none, [], false⟩⟩

/-- A launch's barrier state on a die set. -/
def Chip.setBar (c : Chip) (d : Bool) (b : LaunchBar) : Chip :=
  c.updDie d fun x => { x with launches := b :: x.launches.filter fun y => y.launch != b.launch }

/-- A new team joins its launch's barrier state on the die: a team of wave 0; one of a later wave makes a launch multi-wave there
unless wave 0 was recorded as holding every team, and then it is a team bound again, which joins the others (R325, log entry 70). -/
def Chip.joinLaunch (c : Chip) (d : Bool) (team : Nat) (launch wave : BitVec 32) : Chip :=
  let b := c.barOf d launch
  c.setBar d (if wave = 0 ∨ (0 < b.expect ∧ !b.multi) then { b with teams := b.teams ++ [team] } else { b with multi := true })

/-- STRAND_START (R329): every named strand of an accepted commit starts in one clk; after a thermal stop it is pre-empted at once (R379). -/
def execStrandStart (die : Bool) (cluster : BitVec 4) (s : State) : Out :=
  s.lift fun now c =>
    match (c.die die).dispatch.find? fun x => x.cluster == cluster with
    | none => c
    | some x =>
      let k := clusterNo die cluster
      let first := ((x.recs.head?).map Prod.snd).getD (Vector.replicate _ 0)
      let fresh := !c.teams.any fun t => t.no == x.team
      let again (t : Team) : Team := if t.no = x.team then { t with seq := x.seq } else t
      let c : Chip := { c with clusters := vset c.clusters k { vget c.clusters k with att := x.mask }
                               teams := (c.teams.filter fun t => !t.isOver || t.no == x.team).map again }
      let c := c.updDie die fun d =>
        { d with
          dispatch := d.dispatch.erase x
          slots := x.recs.foldl (fun (v : Vector BindRec (2 ^ 8)) r =>
            let i := slotOf (tileOfRank k r.1) x.bank
            vset v i (vset (vget v i) 0 (slotWord (vget v i) 0 &&& 0x7FFFFFFFFFFFFFFF))) d.slots }
      let c : Chip := if fresh then
          { c with teams := Team.start x.team (slotLaunch first) x.mask :: c.teams }.joinLaunch die x.team (slotLaunch first)
            (bits (slotWord first 1) 0 32)
        else c
      let c := x.recs.foldl (fun (c : Chip) r =>
        c.startTile now x.team (tileOfRank k r.1) r.2 ((x.images.find? fun y => y.1 == r.1).map Prod.snd)) c
      if c.stopped then x.recs.foldl (fun (c : Chip) r => c.updAt (tileOfRank k r.1) Tile.askFreeze) c else c

end Sys2Proof.Machine
end

