-- ==== Sys2Proof/Machine/Policy.lean ====
section
/-! DEFINITION. The policy of record of the firmware (R324–R326, R334, R335, R381): one pass ends what is to be ended, grants free
clusters, and pre-empts for launches that wait. Log entry 70 lists what the rules leave to it. -/

namespace Sys2Proof.Machine

/-! ## What a launch may be granted (R321, R324) -/

def Launch.prio (l : Launch) : Nat := (bits l.word0 56 4).toNat
/-- WEIGHT: 0 is read as 1. -/
def Launch.weight (l : Launch) : Nat := Nat.max 1 (bits l.word0 48 8).toNat
def Launch.oneWave (l : Launch) : Bool := l.word0.getLsbD 43
def Launch.grants (l : Launch) (d : Bool) : Grants := if d then l.on1 else l.on0
def Launch.setGrants (l : Launch) (d : Bool) (g : Grants) : Launch := if d then { l with on1 := g } else { l with on0 := g }

/-- The teams are placed at their commit, on either named die: a local launch without D levels. -/
def Launch.floats (l : Launch) : Bool := !l.hasD && l.place.isNone

/-- The D iteration that a die of this module runs. -/
def Launch.dOn (l : Launch) (d : Bool) : Option Nat :=
  let n := match l.place with
    | some p => some (2 * p + d.toNat)
    | none =>
      let dies := diesOf l.word0
      if !dies.getLsbD d.toNat then none else if l.hasD then some (if d && dies.getLsbD 0 then 1 else 0) else some 0
  n.bind fun n => if n < l.dIters then some n else none

/-- The next team of a launch to be committed on a die: its D and team index, one that is to be bound again first. -/
def Launch.next (l : Launch) (d : Bool) : Option (Nat × Nat) :=
  match l.dOn d with
  | none => none
  | some n =>
    let j := if l.floats then l.on0.teams + l.on1.teams else (l.grants d).teams
    (l.again.find? fun x => l.floats || x.1 == n) <|> (if j < l.teams then some (n, j) else none)

/-- A team granted: taken from those to be bound again, or counted. -/
def Launch.take (l : Launch) (d : Bool) (x : Nat × Nat) : Launch :=
  let g := l.grants d
  if l.again.contains x then { l with again := l.again.erase x } else l.setGrants d { g with teams := g.teams + 1 }

/-- A commit of the launch on a die, in the grant round under way. -/
def Launch.committed (l : Launch) (d : Bool) : Launch := { l.setGrants d { l.grants d with hit := true } with used := l.used + 1 }

/-- Strands of team j: those of its iterations that exist. -/
def Launch.teamStrands (l : Launch) (j : Nat) : Nat := Nat.min (teamSize l.word0) (l.cIters - j * teamSize l.word0)

/-- The ranks of a team of n strands. -/
def firstRanks (n : Nat) : BitVec 8 := BitVec.ofNat 8 (2 ^ n - 1)

/-! ## Free clusters (R324, R325) -/

/-- A bank whose records are all clear at the named ranks. -/
def Chip.clearBank (c : Chip) (k : BitVec 5) (mask : BitVec 8) : Option Bool :=
  [false, true].find? fun b => (c.named k mask b).all fun x => !slotV x.2

/-- The named ranks of a cluster could hold a team, were it free. -/
def Chip.sound (c : Chip) (k : BitVec 5) (mask : BitVec 8) : Bool :=
  (ranksOf mask).all fun r => !(c.tileAt (tileOfRank k r)).fence.fenced

/-- A cluster holds no team and can take one at the named ranks. -/
def Chip.free (c : Chip) (k : BitVec 5) (mask : BitVec 8) : Bool :=
  c.runMask k == 0 && c.dispatching k == 0 && c.sound k mask && (c.clearBank k mask).isSome &&
    (ranksOf mask).all fun r => !(c.tileAt (tileOfRank k r)).cs.busy

/-- The clusters of a die, in ascending number. -/
def clustersOf (d : Bool) : List (BitVec 5) := (List.range 16).map fun k => clusterNo d (BitVec.ofNat 4 k)

/-- The lowest-numbered free cluster of a die. -/
def Chip.freeCluster (c : Chip) (d : Bool) (mask : BitVec 8) : Option (BitVec 5) := (clustersOf d).find? fun k => c.free k mask

/-! ## Bind records (R327) -/

/-- Word k of the record that binds one strand: its V, TMASK and LAUNCH, its WAVE, ENTRY, TVEC, ROOT, coordinates and arguments. -/
def Launch.bindWord (l : Launch) (mask : BitVec 8) (wave : Nat) (iters : List Nat) (k : Nat) : Word :=
  match k with
  | 0 => (1#1 ++ 0#23 ++ mask ++ l.num : BitVec 64)
  | 1 => BitVec.ofNat 64 (wave % 2 ^ 32)
  | 2 | 3 | 4 => recWord l.record k
  | _ => if k < 11 then BitVec.ofNat 64 ((iters[k - 5]?).getD 0) else if k < 18 then recWord l.record (k - 6) else 0

/-- The record of one strand. -/
def Launch.bindRec (l : Launch) (mask : BitVec 8) (wave : Nat) (iters : List Nat) : BindRec :=
  Vector.ofFn fun k => l.bindWord mask wave iters k.val &&& slotMask k.val

/-- The record that restores a saved strand: RST, its image, the coordinates it has. -/
def Launch.restoreRec (l : Launch) (mask : BitVec 8) (wave : Nat) (x : Saved) : BindRec :=
  let b := x.tile.bound
  let r := l.bindRec mask wave ([b.iter0, b.iter1, b.iter2, b.iter3, b.iter4, b.iter5].map BitVec.toNat)
  vset (vset r 0 (slotWord r 0 ||| 0x4000000000000000)) 18 (x.addr.setWidth 64 &&& slotMask 18)

/-- Records written into a clear bank, and their cluster committed; none where the commit is not accepted. -/
def Chip.commitRecs (c : Chip) (k : BitVec 5) (rs : List (BitVec 3 × BindRec)) : Option Chip :=
  let mask := rs.foldl (fun (m : BitVec 8) x => m ||| (1#8 <<< x.1.toNat)) 0
  match c.clearBank k mask with
  | none => none
  | some b =>
    let d := k.getLsbD 4
    let w := (c.updDie d fun y => { y with slots := rs.foldl (fun v x => vset v (slotOf (tileOfRank k x.1) b) x.2) y.slots }).ccommit d
      (k.extractLsb' 0 4) ((BitVec.ofBool b).setWidth 64 <<< 8 ||| mask.setWidth 64)
    if w.teamCnt = c.teamCnt then none else some w

/-- Launches changed, none leaving. -/
def Chip.setLaunch (c : Chip) (num : BitVec 32) (f : Launch → Launch) : Chip :=
  { c with launches := c.launches.map fun l => if l.num = num then f l else l }

/-! ## Grants (R334) -/

/-- A saved team: its number, its strands; every strand of it that is not over has been saved. -/
def Chip.savedTeams (c : Chip) (l : Launch) : List (Nat × List Saved) :=
  c.teams.reverse.filterMap fun t =>
    let ss := c.saved.filter fun x => x.tile.team == t.no
    if t.launch = l.num ∧ !t.lost ∧ !ss.isEmpty ∧ c.teamSaved t.no then some (t.no, ss) else none

/-- Die of a saved team, and its ranks. -/
def savedDie (ss : List Saved) : Bool := ((ss.head?).map fun x => tileDie x.home).getD false
def savedMask (ss : List Saved) : BitVec 8 := ss.foldl (fun (m : BitVec 8) x => m ||| rankBit x.home) 0

/-- The first saved team of a launch restored on the lowest free cluster of its die (R334, R335). -/
def Chip.restoreOne (c : Chip) (shut : Bool → Bool) (l : Launch) : Option Chip :=
  (c.savedTeams l).findSome? fun t =>
    let ss := t.2
    let d := savedDie ss
    if shut d then none else
    (c.freeCluster d (savedMask ss)).bind fun k =>
      (c.commitRecs k (ss.map fun x => (tileRank x.home, l.restoreRec (savedMask ss) (l.grants d).rounds x))).map fun c =>
        c.setLaunch l.num fun l => l.committed d

/-- The next team of a launch committed on the lowest free cluster of a die, member i at core rank i (R325). -/
def Chip.commitNext (c : Chip) (l : Launch) (d : Bool) : Option Chip :=
  (l.next d).bind fun x =>
    let n := l.teamStrands x.2
    let mask := firstRanks n
    (c.freeCluster d mask).bind fun k =>
      (c.commitRecs k ((List.range n).map fun i =>
        (BitVec.ofNat 3 i, l.bindRec mask (l.grants d).rounds (l.iters x.1 (x.2 * teamSize l.word0 + i))))).map fun c =>
        c.setLaunch l.num fun l => (l.take d x).committed d

/-- Teams that a launch has still to be committed on a die: for one whose teams float, on either. -/
def Launch.left (l : Launch) (d : Bool) : Nat :=
  match l.dOn d with
  | none => 0
  | some n =>
    let j := if l.floats then l.on0.teams + l.on1.teams else (l.grants d).teams
    (l.teams - j) + (l.again.filter fun x => l.floats || x.1 == n).length

/-- Clusters of a die that could take a whole team of a launch now. -/
def Chip.roomOn (c : Chip) (l : Launch) (d : Bool) : Nat :=
  if (l.dOn d).isNone then 0 else ((clustersOf d).filter fun k => c.free k (firstRanks (Nat.min (teamSize l.word0) l.cIters))).length

/-- A ONEWAVE launch whose one wave is being committed in the grant round under way. -/
def Launch.midWave (l : Launch) : Bool := l.oneWave && l.on0.rounds + l.on1.rounds == 0 && (l.on0.hit || l.on1.hit)

/-- Clusters of a die that a launch in mid-wave still needs: floating teams go to die 0 while it has any. -/
def Chip.needOn (c : Chip) (l : Launch) (d : Bool) : Nat :=
  if !l.midWave then 0
  else if !l.floats then l.left d
  else
    let n := Nat.max (l.left false) (l.left true)
    let here := Nat.min n (c.roomOn l false)
    if d then n - here else here

/-- Clusters of a die that are kept for launches in mid-wave other than one (R325), and those that this leaves it. -/
def Chip.keptFrom (c : Chip) (l : Launch) (d : Bool) : Nat := ((c.launches.filter fun x => x.num != l.num).map fun x => c.needOn x d).sum
def Chip.spareOn (c : Chip) (l : Launch) (d : Bool) : Nat := c.roomOn l d - c.keptFrom l d

/-- A ONEWAVE launch has begun its one wave, or every team of each die could be committed now (R325). -/
def Chip.waveReady (c : Chip) (l : Launch) : Bool :=
  !l.oneWave || l.on0.rounds + l.on1.rounds != 0 || l.on0.hit || l.on1.hit ||
    (if l.floats then decide (Nat.max (l.left false) (l.left true) ≤ c.spareOn l false + c.spareOn l true)
     else decide (l.left false ≤ c.spareOn l false) && decide (l.left true ≤ c.spareOn l true))

/-- A launch that has something to be granted. -/
def Chip.waits (c : Chip) (l : Launch) : Bool :=
  !l.closed && l.status != 2 && (!(c.savedTeams l).isEmpty || (l.next false).isSome || (l.next true).isSome)

/-- The dies on which a launch's next team may go, die 0 first: for one whose teams float, the first with a free cluster alone (R324). -/
def Chip.diesFor (c : Chip) (l : Launch) : List Bool :=
  let ds := [false, true].filter fun d => (l.next d).any fun x => (c.freeCluster d (firstRanks (l.teamStrands x.2))).isSome
  if l.floats then ds.take 1 else ds

/-- One commit for a launch: a restore, then a new team (R324, R334); dies closed by a waiting launch, and clusters kept for one in mid-wave,
give nothing. -/
def Chip.grantTo (c : Chip) (closed : Bool → Bool) (l : Launch) : Option Chip :=
  let shut (d : Bool) : Bool := closed d || (c.keptFrom l d != 0 && c.spareOn l d == 0)
  c.restoreOne shut l <|> (c.diesFor l).findSome? fun d => if shut d then none else c.commitNext l d

/-- Launches by descending PRIO, those of one PRIO in their order. -/
def byPrio (ls : List Launch) : List Launch := (List.range 16).reverse.flatMap fun p => ls.filter fun l => l.prio == p

/-- The first launch in order that can be granted a commit, and the module after it; a ONEWAVE launch that waits for room closes its dies
to those behind it. -/
def Chip.firstGrant (c : Chip) (closed : Bool → Bool) : List Launch → Option (Launch × Chip)
  | [] => none
  | l :: r =>
    if !c.waits l then c.firstGrant closed r
    else if !c.waveReady l then c.firstGrant (fun d => closed d || (l.dOn d).isSome) r
    else
      match c.grantTo closed l with
      | some c' => some (l, c')
      | none => c.firstGrant closed r

/-- The turn among launches of one PRIO: one that has had WEIGHT commits goes to the end, and a turn taken ends the others' (R334). -/
def turnTaken (num : BitVec 32) (ls : List Launch) : List Launch :=
  let ls := ls.map fun l => if l.num = num then l else { l with used := 0 }
  match ls.find? fun l => l.num == num with
  | some l => if l.weight ≤ l.used then ls.filter (fun x => x.num != num) ++ [{ l with used := 0 }] else ls
  | none => ls

/-- Grants, as long as there are any. -/
def Chip.grantAll : (fuel : Nat) → Chip → Chip
  | 0, c => c
  | fuel + 1, c =>
    match c.firstGrant (fun _ => false) (byPrio c.launches) with
    | none => c
    | some (l, c') => Chip.grantAll fuel { c' with launches := turnTaken l.num c'.launches }

/-- A die's grants when a round ends: the round counts if it committed a team. -/
def Grants.close (g : Grants) : Grants := { g with rounds := g.rounds + g.hit.toNat, hit := false }

/-- What the firmware records of wave 0 of a launch on a die (R325): how many teams it has, and whether any is left for a later wave. -/
def Chip.recordWave0 (c : Chip) (l : Launch) (d : Bool) : Chip :=
  let g := l.grants d
  if g.hit ∧ g.rounds = 0 then c.setBar d { c.barOf d l.num with multi := 0 < l.left d, expect := g.teams } else c

/-- A round of grants: wave 0 is recorded, the rounds are counted. -/
def Chip.grantRound (c : Chip) : Chip :=
  let c := Chip.grantAll 32 c
  let c := c.launches.foldl (fun (c : Chip) l => (c.recordWave0 l false).recordWave0 l true) c
  { c with launches := c.launches.map fun l => { l with on0 := l.on0.close, on1 := l.on1.close } }

/-! ## Pre-emption (R334) -/

/-- A strand of a team has been frozen, or is being frozen. -/
def Tile.stopping (t : Tile) : Bool := t.freezing || (match t.st with | .preempting | .preempted => true | _ => false)

/-- Strands to be frozen: of a launch or a team to be ended, or of a team that is being pre-empted, which goes together. -/
def Chip.toFreeze (c : Chip) (t : Tile) : Bool :=
  c.toEnd t || (t.team != 0 && c.tiles.any fun x => x.team == t.team && x.stopping)

/-- A saved strand ended: its image is discarded. -/
def Chip.endSaved (c : Chip) (now : Nat) (x : Saved) : Chip :=
  ({ c with saved := c.saved.filter (· != x) }.rankDeparts now (tileDie x.home) x.tile.team (rankBit x.home)).updLaunch x.tile.bound.launch
    fun l => l.count .dropped

/-- Strands of launches and teams to be ended are frozen, and ended where they already are; teams being pre-empted go whole. -/
def Chip.endPass (c : Chip) (now : Nat) : Chip :=
  let c' : Chip := { c with tiles := c.tiles.map fun t => if c.toFreeze t then t.askFreeze else t }
  let c' := (List.range 256).foldl (fun (c : Chip) k =>
    let n : TileId := BitVec.ofNat 8 k
    if (c.tileAt n).st = .preempted ∧ c.toEnd (c.tileAt n) then c.endFrozen now n else c) c'
  (c'.saved.filter fun x => c'.toEnd x.tile && !c'.resuming x).foldl (fun (c : Chip) x => c.endSaved now x) c'

/-- A team runs on a die: a strand of it runs there. -/
def Chip.teamOn (c : Chip) (d : Bool) (no : Nat) : Bool :=
  (List.range 128).any fun k => let t := c.tileAt (BitVec.ofBool d ++ BitVec.ofNat 7 k); t.team == no && t.runs

/-- A team is on its way out on a die. -/
def Chip.stoppingOn (c : Chip) (d : Bool) : Bool := (List.range 128).any fun k => (c.tileAt (BitVec.ofBool d ++ BitVec.ofNat 7 k)).stopping

/-- The team that a launch waiting on some dies displaces: of lower PRIO, the lowest first, of these the one committed last (R334). -/
def Chip.victim (c : Chip) (p : Nat) (ds : List Bool) : Option Team :=
  let prio (t : Team) : Option Nat := (c.launches.find? fun l => l.num == t.launch).map Launch.prio
  let better (x : Option (Nat × Team)) (t : Team) : Option (Nat × Team) :=
    match prio t with
    | none => x
    | some q =>
      if q < p ∧ ds.any fun d => c.teamOn d t.no then
        match x with
        | none => some (q, t)
        | some y => if q < y.1 ∨ (q = y.1 ∧ y.2.seq < t.seq) then some (q, t) else x
      else x
  (c.teams.foldl better none).map Prod.snd

/-- A die on which a launch waits: it has a team for it, new or saved, and no suitable cluster is free. -/
def Chip.waitsOn (c : Chip) (l : Launch) (d : Bool) : Bool :=
  ((l.next d).any fun x => !c.waveReady l || (c.freeCluster d (firstRanks (l.teamStrands x.2))).isNone) ||
    (c.savedTeams l).any fun x => savedDie x.2 == d && (c.freeCluster d (savedMask x.2)).isNone

/-- The dies on which a launch displaces a team: those on which it waits and from which none is on its way out; a launch whose teams float
displaces none while one is on its way out of either. -/
def Chip.displaces (c : Chip) (l : Launch) : List Bool :=
  let ds := [false, true].filter (c.waitsOn l)
  if l.floats && ds.any c.stoppingOn then [] else ds.filter fun d => !c.stoppingOn d

/-- For the waiting launch of highest PRIO that finds a victim, the strands of that team are frozen together. -/
def Chip.preemptPass (c : Chip) : Chip :=
  let pick := (byPrio c.launches).findSome? fun l => if !c.waits l then none else c.victim l.prio (c.displaces l)
  match pick with
  | none => c
  | some t => c.freezeTeam t.no

/-- A pass of the policy of record, while the firmware runs and no thermal stop has come. -/
def Chip.policy (c : Chip) (now : Nat) : Chip :=
  if !c.firmwareRuns || c.stopped then c else (((c.endPass now).grantRound).preemptPass)

end Sys2Proof.Machine
end

