-- ==== Sys2Proof/Machine/Fence.lean ====
section
/-! DEFINITION. Heartbeats, votes, the fence of a tile, its appeal and its return (R346–R355). -/

namespace Sys2Proof.Machine

/-! ## The mesh (R10); north is the row below in number (log entry 22) -/

/-- The neighbour in a direction. -/
def meshNext (n : TileId) (d : Dir) : Option TileId :=
  match d with
  | .n => if tileRow n = 0 then none else some (n - 16)
  | .s => if tileRow n = 7 then none else some (n + 16)
  | .w => if tileCol n = 0 then none else some (n - 1)
  | .e => if tileCol n = 15 then none else some (n + 1)

def allDirs : List Dir := [.n, .e, .s, .w]
def dirBack : Dir → Dir
  | .n => .s
  | .s => .n
  | .e => .w
  | .w => .e
/-- Number of a direction in FSTAT (R351). -/
def dirNum : Dir → BitVec 2
  | .n => 0
  | .e => 1
  | .s => 2
  | .w => 3

/-- The neighbours of a tile, with the direction each lies in. -/
def meshAround (n : TileId) : List (Dir × TileId) := allDirs.filterMap fun d => (meshNext n d).map fun m => (d, m)

/-- The direction in which one tile lies from another, if they are neighbours. -/
def dirTo (a b : TileId) : Option Dir := ((meshAround a).find? fun x => x.2 == b).map Prod.fst

def Fence.at (f : Fence) : Dir → Neighbour
  | .n => f.n
  | .e => f.e
  | .s => f.s
  | .w => f.w
def Fence.put (f : Fence) (d : Dir) (x : Neighbour) : Fence :=
  match d with
  | .n => { f with n := x }
  | .e => { f with e := x }
  | .s => { f with s := x }
  | .w => { f with w := x }

def Chip.updFence (c : Chip) (n : TileId) (f : Fence → Fence) : Chip := c.updAt n fun t => { t with fence := f t.fence }
/-- Tile n's view of its neighbour in a direction. -/
def Chip.view (c : Chip) (n : TileId) (d : Dir) : Neighbour := (c.tileAt n).fence.at d
def Chip.updView (c : Chip) (n : TileId) (d : Dir) (f : Neighbour → Neighbour) : Chip := c.updFence n fun x => x.put d (f (x.at d))
def Chip.isFenced (c : Chip) (n : TileId) : Bool := (c.tileAt n).fence.fenced

/-! ## Periods (R346, R347) -/

def periodOf (clk : Nat) : Nat := clk / 4096

/-- One period passes. -/
def Neighbour.roll (x : Neighbour) : Neighbour :=
  { x with
    ok1 := x.okNow, ok2 := x.ok1, ok3 := x.ok2, okNow := 0, hbLast := x.hbNow, hbNow := 0, flLast := x.flNow, flNow := 0
    badLast := x.badNow, badNow := false, appeals := if x.apNow = 1 then x.appeals + 1 else 0, apNow := 0 }

/-- As many periods as have passed; beyond four nothing more changes. -/
def Neighbour.rolls : Nat → Neighbour → Neighbour
  | 0, x => x
  | n + 1, x => Neighbour.rolls n x.roll

/-- A tile's counts brought to the current period. -/
def Fence.toPeriod (f : Fence) (k : Nat) : Fence :=
  let n := Nat.min 4 (k - f.period)
  { f with n := f.n.rolls n, e := f.e.rolls n, s := f.s.rolls n, w := f.w.rolls n, period := Nat.max f.period k }

/-- Silence: no valid heartbeat in the last three periods. -/
def Neighbour.silent (x : Neighbour) : Bool := x.ok1 == 0 && x.ok2 == 0 && x.ok3 == 0
/-- The other grounds of suspicion; beside the flits of the protocol count those of the tile's own traffic in the last period, which the
spec gives no number (log entry 72). -/
def Neighbour.babbles (x : Neighbour) (rthr : BitVec 16) (traffic : Nat) : Bool :=
  decide (4 < x.hbLast) || x.badLast || decide (rthr.toNat < x.flLast + traffic)

/-! ## Flits sent (R346) -/

/-- A flit: its TYPE, SRC, SUBJ, SEQ, INFO. -/
def flitOf (ty : BitVec 8) (src subj : TileId) (k : Nat) (info : BitVec 16) : Word :=
  ty ++ 0#8 ++ (src &&& 0x7F) ++ (subj &&& 0x7F) ++ BitVec.ofNat 16 k ++ info

/-- Flits sent by a tile, on their way to others. -/
def Chip.sendFlits (c : Chip) (dest : List TileId) (f : Word) : Chip := { c with flits := c.flits ++ dest.map fun n => (n, f) }

/-- Flits that a tile has sent in an earlier period and that have not arrived are lost. -/
def Chip.dropFlits (c : Chip) (n : TileId) : Chip :=
  { c with flits := c.flits.filter fun x => !(tileDie x.1 == tileDie n && (bits x.2 40 8 : BitVec 8) == n &&& 0x7F) }

/-- INFO of a heartbeat: SELFOK, the tile's own judgement, is a free value; BIN; the low bits of its bank's COUNT. -/
def Chip.heartbeatInfo (c : Chip) (n : TileId) : BitVec 16 :=
  BitVec.ofBool (Config.selfOk c.freeCnt) ++ (c.tileAt n).fence.bin ++ (getBank (c.die (tileDie n)).banks (tileBank n)).count.extractLsb' 0 13

/-! ## Majorities (R348, R355) -/

/-- A vote of a period still counts. -/
def stillCounts (k : Nat) (v : Option Nat) : Bool :=
  match v with
  | some p => decide (k ≤ p + 7)
  | none => false

/-- Neighbours of a tile that are not fenced, by direction. -/
def Chip.judges (c : Chip) (s : TileId) : List (Dir × TileId) := (meshAround s).filter fun x => !c.isFenced x.2

/-- A majority of n neighbours. -/
def majority (n : Nat) : Nat := n / 2 + 1

/-- Tile n holds counting votes of a majority of s's neighbours. -/
def Chip.holdsMajority (c : Chip) (k : Nat) (n s : TileId) (votes : Neighbour → Vector (Option Nat) (2 ^ 2)) : Bool :=
  match dirTo n s with
  | none => false
  | some d =>
    let js := c.judges s
    let v := votes (c.view n d)
    !js.isEmpty && !c.isFenced n && decide (majority js.length ≤ (js.filter fun x => stillCounts k (vget v (dirNum x.1))).length)

/-! ## The fence (R349, R350) -/

/-- A command of a fenced tile that has parked, or stopped for want of an entry, ends; the others run to completion (R234, R350). -/
def Engine.unpark (e : Engine) : Engine :=
  { e with fifo := e.fifo.map fun x => if x.at_.isSome then { x with parked := none, at_ := none, dropped := true } else x }

/-- What stops in a fenced tile: its strand performs nothing more, nothing of it is saved or reported; its accepted commands run on. -/
def Tile.stopFenced (t : Tile) : Tile :=
  let stop (f : Frame) : Frame := { f.dropUnissued with lf := [], sf := [] }
  { t with
    st := if t.runs then .retired else t.st
    user := stop t.user, hand := stop t.hand, pipe := [], vpend := [], promises := [], snap := [], held := [], trap := none, freezing := false, mat := .idle, phase := none
    replay := Vector.replicate _ none, chan := t.chan.unpark, unv := t.unv.unpark
    wake := false, cs := { t.cs with busy := false } }

/-- Requests of a tile that are on the mesh: units of its accesses that leave the tile, not performed and not parked (log entry 72). -/
def Tile.onMesh (own : TileId) (t : Tile) : Nat :=
  let away (u : MUnit) : Bool := u.live && u.pieces.any fun p => match p.place with | .buf n _ _ => n != own | _ => true
  let one (f : Frame) : Nat := ((f.lf ++ f.sf).flatMap fun a => a.units.filter away).length
  one t.user + one t.hand

/-- A tile is fenced at F, with its CAUSE: its strand is over, and with it the team it would need; its flits on the mesh are dropped
and counted; barriers and collectives that await it are abandoned; its bin steps up and, short of B3, its self-test starts (R335,
R350, R353, R354). -/
def Chip.fenceTile (c : Chip) (F : Nat) (s : TileId) (cause : BitVec 2) : Chip :=
  if c.isFenced s then c
  else
    let t := c.tileAt s
    let bin : BitVec 2 := if t.fence.bin = 3 then 3 else t.fence.bin + 1
    let n := t.onMesh s + (c.flits.filter fun x => tileDie x.1 == tileDie s && (bits x.2 40 8 : BitVec 8) == s &&& 0x7F).length
    let c := ((c.dropFlits s).updDie (tileDie s) fun d => { d with orphcnt := d.orphcnt + BitVec.ofNat 32 n }).updAt s fun t =>
      { t.stopFenced with
        fence := { t.fence with fenced := true, cause := cause, bin := bin, test := false, testing := bin != 3, ready := false } }
    let iters := [t.bound.iter0, t.bound.iter1, t.bound.iter2, t.bound.iter3, t.bound.iter4, t.bound.iter5]
    if t.runs then
      (((if t.team = 0 then c else c.loseTeam t.team iters).barFenced F s).strandOver s t.bound.launch .fenced).failColls t.bound.launch
    else c

/-- A neighbour closes its port toward a tile; the first to do so fences it. -/
def Chip.closePort (c : Chip) (F : Nat) (n s : TileId) (cause : BitVec 2) : Chip :=
  match dirTo n s with
  | none => c
  | some d => (c.updView n d fun x => { x with closed := true, seq := none }).fenceTile F s cause

/-- CAUSE by a neighbour's own view. -/
def Chip.causeOf (c : Chip) (n s : TileId) : BitVec 2 :=
  match dirTo n s with
  | some d => if (c.view n d).silent then 1 else 2
  | none => 2

/-- Tile n acts on a majority against s: it closes its port and sends notices to s's other neighbours and to the die's first hart. -/
def Chip.judge (c : Chip) (F : Nat) (n s : TileId) : Chip :=
  let open_ := match dirTo n s with
    | some d => !(c.view n d).closed
    | none => false
  if open_ && c.holdsMajority (periodOf F) n s Neighbour.votes then
    ((c.closePort F n s (c.causeOf n s)).sendFlits (((meshAround s).map Prod.snd).filter (· != n)) (flitOf 3 n s (periodOf F) 0)).irq (tileDie s)
      .fence
  else c

/-- A majority of readmit votes makes a fenced tile READY, and the firmware is told; a retired tile stays fenced (R352, R355). -/
def Chip.checkReady (c : Chip) (now : Nat) (n s : TileId) : Chip :=
  let f := (c.tileAt s).fence
  if f.fenced && !f.ready && f.bin != 3 && c.holdsMajority (periodOf now) n s Neighbour.rvotes then
    (c.updFence s fun f => { f with ready := true }).irq (tileDie s) .ready
  else c

/-- After a fence its votes no longer count and majorities are counted again (R348, R355), tile by tile; each round of it fences a tile
more, or ends. -/
def Chip.rejudge (F : Nat) : (fuel : Nat) → Chip → (fenced : TileId) → Chip
  | 0, c, _ => c
  | fuel + 1, c, f =>
    (meshAround f).foldl (fun (c : Chip) s =>
      let d := (c.judges s.2).foldl (fun (c : Chip) n => (c.judge F n.2 s.2).checkReady F n.2 s.2) c
      if d.isFenced s.2 && !c.isFenced s.2 then Chip.rejudge F fuel d s.2 else d) c

/-- Tile n judges s, and what follows. -/
def Chip.judgeAll (c : Chip) (F : Nat) (n s : TileId) : Chip :=
  let d := c.judge F n s
  if d.isFenced s && !c.isFenced s then Chip.rejudge F 256 d s else d

/-! ## Flits (R346–R348) -/

def flitType (w : Word) : Nat := (bits w 56 8).toNat
/-- A tile that a flit names, on a die. -/
def flitTile (die : Bool) (w : Word) (lo : Nat) : Option TileId :=
  let n := (bits w lo 8 : BitVec 8)
  if n.getLsbD 7 then none else some (BitVec.ofBool die ++ n.extractLsb' 0 7)
def flitSrc (die : Bool) (w : Word) : Option TileId := flitTile die w 40
def flitSubj (die : Bool) (w : Word) : Option TileId := flitTile die w 32
def flitSeq (w : Word) : BitVec 16 := bits w 16 16

/-- The latest period, no later than k, with a SEQ. -/
def periodWith (k : Nat) (seq : BitVec 16) : Option Nat :=
  let back := (BitVec.ofNat 16 k - seq).toNat
  if back ≤ k then some (k - back) else none

/-- A flit reaches the tile in focus from a direction, and is on its way no more: nothing passes a closed port, and a tile behind one
only counts as an orphan; else it counts among its neighbour's, and has its effect. -/
def Chip.receive (c : Chip) (now : Nat) (src : Dir) (flit : Word) (f : Chip → Chip) : Chip :=
  let c := { c with flits := c.flits.erase (c.focus, flit) }.updFence c.focus fun x => x.toPeriod (periodOf now)
  if (meshNext c.focus src).isNone || c.tile.fence.fenced then c
  else if (c.view c.focus src).closed then c.orphan
  else f (c.updView c.focus src fun x => { x with flNow := x.flNow + 1 })

/-- A flit of the neighbour itself has the SEQ after its last. -/
def Neighbour.seqNext (x : Neighbour) (flit : Word) : Bool :=
  match x.seq with
  | some q => flitSeq flit == q + 1
  | none => true

/-- A flit of a TYPE that other steps take: a vote, a notice, an appeal, a readmit vote. -/
def notBeat (flit : Word) (crcOk : Bool) : Bool := crcOk && decide (2 ≤ flitType flit) && decide (flitType flit ≤ 5)

/-- What a port hears as a heartbeat: a valid one, a malformed one, or a garbled flit (R347). -/
def Neighbour.beat (x : Neighbour) (from_ : TileId) (flit : Word) (crcOk : Bool) : Neighbour :=
  let good := crcOk && flitType flit == 1 && (bits flit 40 8 : BitVec 8) == from_ &&& 0x7F && x.seqNext flit && flit.getLsbD 15
  let isBeat := !crcOk || flitType flit == 1
  let x := { x with seq := if crcOk then some (flitSeq flit) else none, hbNow := x.hbNow + isBeat.toNat }
  if good then { x with okNow := x.okNow + 1 } else { x with badNow := true }

/-- HEARTBEAT (R346, R347): a flit of another TYPE only counts as a flit here. -/
def execHeartbeat (src : Dir) (flit : Word) (crcOk : Bool) (s : State) : Out :=
  s.lift fun now c => c.receive now src flit fun c =>
    match meshNext c.focus src with
    | none => c
    | some m => if notBeat flit crcOk then c else c.updView c.focus src fun x => x.beat m flit crcOk

/-- Tile n casts a vote against s, or to readmit it: it records the vote itself, and sends it to every other unfenced neighbour of s. -/
def Chip.castVote (c : Chip) (k : Nat) (n s : TileId) (ty : BitVec 8) (f : Neighbour → BitVec 2 → Nat → Neighbour) : Chip :=
  match dirTo n s, dirTo s n with
  | some d, some back =>
    (c.updView n d fun x => f x (dirNum back) k).sendFlits (((c.judges s).map Prod.snd).filter (· != n)) (flitOf ty n s k 0)
  | _, _ => c

def Neighbour.vote (x : Neighbour) (d : BitVec 2) (p : Nat) : Neighbour := { x with votes := vset x.votes d (some p) }
def Neighbour.rvote (x : Neighbour) (d : BitVec 2) (p : Nat) : Neighbour := { x with rvotes := vset x.rvotes d (some p) }

/-- What a tile sends at the start of a period: an unfenced one a heartbeat to each neighbour its ports reach; a fenced one whose
self-test has passed an appeal on each closed port (R346, R354). -/
def Chip.sendPeriod (c : Chip) (k : Nat) : Chip :=
  let n := c.focus
  let f := c.tile.fence
  let c := c.dropFlits n
  if f.fenced then
    if f.test && f.bin != 3 then
      c.sendFlits ((meshAround n).filterMap fun m => if (c.view m.2 (dirBack m.1)).closed then some m.2 else none)
        (flitOf 4 n n k (0#1 ++ f.bin ++ 0#13))
    else c
  else
    (c.sendFlits ((meshAround n).filterMap fun m => if (c.view n m.1).closed then none else some m.2) (flitOf 1 n n k (c.heartbeatInfo n))).tickFree

/-- HEARTBEAT_PERIOD (R346–R348, R354): at the start of a period, once, the tile in focus sends its flits, judges each neighbour, and casts a
vote against one it suspects. -/
def execHeartbeatPeriod (s : State) : Out :=
  s.lift fun now c =>
    let k := periodOf now
    let c := c.updFence c.focus fun x => x.toPeriod k
    if k < c.tile.fence.sent then c
    else
    let c := (c.updFence c.focus fun x => { x with sent := k + 1 }).sendPeriod k
    if c.tile.fence.fenced then c
    else
      (meshAround c.focus).foldl (fun (c : Chip) m =>
        let x := c.view c.focus m.1
        if x.closed then c
        else
          let c := if x.silent || x.babbles (c.die (tileDie c.focus)).rthr (Config.traffic k m.2.toNat) then c.castVote k c.focus m.2 2 Neighbour.vote
            else c
          c.judgeAll now c.focus m.2) c

/-- A flit that other tiles have passed on: its SRC is a neighbour of its SUBJ, the receiver another; from the neighbour on the port
itself it carries that neighbour's last SEQ or the one after (log entry 72). A malformed one counts against the neighbour on its port. -/
def Chip.routed (c : Chip) (src : Dir) (flit : Word) : Chip :=
  let die := tileDie c.focus
  let ok := match flitSrc die flit, flitSubj die flit with
    | some q, some s => q != c.focus && (dirTo s q).isSome && (dirTo c.focus s).isSome &&
        (meshNext c.focus src != some q || (c.view c.focus src).seqNext flit || (c.view c.focus src).seq == some (flitSeq flit))
    | _, _ => false
  if ok then c else c.updView c.focus src fun x => { x with badNow := true }

/-- The vote of a flit recorded: by a neighbour of its subject, from the direction of the voter. -/
def Chip.recordVote (c : Chip) (k : Nat) (flit : Word) (f : Neighbour → BitVec 2 → Nat → Neighbour) : Chip × Option TileId :=
  let die := tileDie c.focus
  match flitSrc die flit, flitSubj die flit with
  | some q, some s =>
    match dirTo c.focus s, dirTo s q, periodWith k (flitSeq flit) with
    | some d, some from_, some p => if c.isFenced q then (c, none) else (c.updView c.focus d fun x => f x (dirNum from_) p, some s)
    | _, _, _ => (c, none)
  | _, _ => (c, none)

/-- VOTE (R348). -/
def execVote (src : Dir) (flit : Word) (s : State) : Out :=
  s.lift fun now c => c.receive now src flit fun c =>
    let c := c.routed src flit
    if flitType flit ≠ 2 then c
    else
      match c.recordVote (periodOf now) flit Neighbour.vote with
      | (c, some s) => c.judgeAll now c.focus s
      | (c, none) => c

/-- FENCE_NOTICE (R348): the receiver closes its port toward a tile that has been fenced. -/
def execFenceNotice (src : Dir) (flit : Word) (s : State) : Out :=
  s.lift fun now c => c.receive now src flit fun c =>
    let c := c.routed src flit
    match flitSubj (tileDie c.focus) flit with
    | some s => if flitType flit = 3 && c.isFenced s then c.closePort now c.focus s 0 else c
    | none => c

/-- A 1 written to FORCE: the tile is fenced at once, with CAUSE 3, and its neighbours' ports close; the first hart is told, and no notices go
(log entry 86). -/
def Chip.force (c : Chip) (now : Nat) (s : TileId) : Chip :=
  if c.isFenced s then c
  else
    let d := ((meshAround s).foldl (fun (c : Chip) m => c.updView m.2 (dirBack m.1) fun x => { x with closed := true, seq := none }) c).fenceTile now s 3
    Chip.rejudge now 256 (d.irq (tileDie s) .fence) s

/-- FORCE (R351): the tile in focus. -/
def execForce (s : State) : Out := s.lift fun now c => c.force now c.focus

/-! ## Self-test, appeal, return (R352–R355) -/

/-- SELF_TEST_COMPLETION (R354): passed at its bin, or a bin further; a failure in B2 leaves the tile in B3. -/
def execSelfTestCompletion (pass : Bool) (s : State) : Out :=
  s.lift fun _ c => c.updFence c.focus fun f =>
    if !f.fenced || !f.testing then f
    else if pass then { f with test := true, testing := false }
    else if f.bin = 2 then { f with bin := 3, testing := false }
    else { f with bin := f.bin + 1 }

/-- APPEAL (R354, R355): a valid appeal in each of three periods in a row casts a readmit vote; a second one in a period, or a malformed
one, starts the count again. Only a tile that has passed its self-test appeals. -/
def execAppeal (src : Dir) (flit : Word) (crcOk : Bool) (s : State) : Out :=
  s.lift fun now c =>
    let k := periodOf now
    let c := { c with flits := c.flits.erase (c.focus, flit) }.updFence c.focus fun x => x.toPeriod k
    match meshNext c.focus src with
    | none => c
    | some m =>
      let x := c.view c.focus src
      if !x.closed || c.tile.fence.fenced then c
      else
        let f := (c.tileAt m).fence
        let good := crcOk && flitType flit == 4 && flitSrc (tileDie c.focus) flit == some m && flitSubj (tileDie c.focus) flit == some m &&
          x.seqNext flit && f.test && f.bin != 3
        let seq := if crcOk then some (flitSeq flit) else none
        if !good || x.apNow != 0 then c.updView c.focus src fun x => { x with appeals := 0, apNow := 2, seq := seq }
        else
          let c := c.updView c.focus src fun x => { x with apNow := 1, seq := seq }
          if x.appeals < 2 then c else (c.castVote k c.focus m 5 Neighbour.rvote).checkReady now c.focus m

/-- READMIT_VOTE (R355). -/
def execReadmitVote (src : Dir) (flit : Word) (s : State) : Out :=
  s.lift fun now c => c.receive now src flit fun c =>
    let c := c.routed src flit
    if flitType flit ≠ 5 then c
    else
      match c.recordVote (periodOf now) flit Neighbour.rvote with
      | (c, some s) => c.checkReady now c.focus s
      | (c, none) => c

/-- A tile without its strand; commands that its engines have accepted run on. -/
def Tile.unbound (t : Tile) : Tile :=
  { Tile.fresh with bufs := t.bufs, sramUe := t.sramUe, watch := t.watch, fence := t.fence, cs := t.cs
                    chan := t.chan.leave t.regs.g, unv := t.unv.leave t.regs.g
                    sys := { SysRegs.zero with troot := t.sys.troot }, replay := t.replay, bound := t.bound, quiet := t.quiet }

/-- A 1 written to READMIT: a READY tile's ports open again; it rejoins as an unbound tile in its bin, and no vote stands. -/
def Chip.readmit (c : Chip) (now : Nat) (s : TileId) : Chip :=
  let f := (c.tileAt s).fence
  if !f.fenced || !f.ready || f.bin = 3 then c
  else
    let fresh (x : Neighbour) : Neighbour := { Neighbour.fresh with closed := x.closed }
    let c := (meshAround s).foldl (fun (c : Chip) m => c.updView m.2 (dirBack m.1) fun _ => .fresh) c
    c.updAt s fun t =>
      { t.unbound with fence := { f with fenced := false, cause := 0, ready := false, n := fresh f.n, e := fresh f.e, s := fresh f.s,
                                         w := fresh f.w, period := periodOf now, sent := periodOf now + 1 } }

/-- READMIT (R351, R355): the tile in focus. -/
def execReadmit (s : State) : Out := s.lift fun now c => c.readmit now c.focus

/-- FSTAT of a tile (R351). -/
def Chip.fstat (c : Chip) (now : Nat) (s : TileId) : Word :=
  let f := (c.tileAt s).fence
  let held (votes : Neighbour → Vector (Option Nat) (2 ^ 2)) : BitVec 4 :=
    (c.judges s).foldl (fun (m : BitVec 4) x =>
      if (c.judges s).any fun n => stillCounts (periodOf now) (vget (votes (c.view n.2 (dirBack n.1))) (dirNum x.1)) then m ||| (1#4 <<< (dirNum x.1).toNat) else m) 0
  (0#36 ++ held Neighbour.votes ++ held Neighbour.rvotes ++ f.bin ++ f.cause ++ BitVec.ofBool f.fenced ++ BitVec.ofBool f.ready ++
    BitVec.ofBool f.test ++ 0#13 : BitVec 64)

end Sys2Proof.Machine
end

