-- ==== Sys2Proof/Machine/Firmware.lean ====
section
/-! DEFINITION. The firmware load, the fuses, attestation and image sealing (R367–R370, R377). Hashes and signatures are free values
(log entry 8). -/

namespace Sys2Proof.Machine

/-! ## The image (R367, R368) -/

/-- FWADDR as an address. -/
def Chip.fwAddr (c : Chip) : BitVec 56 := c.firm.fwaddr ++ 0#12

/-- A write of GO to FWCTL: ignored while an image is checked or runs. -/
def Chip.fwGo (c : Chip) : Chip := if c.firm.st = 1 ∨ c.firm.st = 2 then c else { c with firm := { c.firm with st := 1, err := 0 } }

/-- FWCTL_GO (R368). -/
def execFwctlGo (s : State) : Out := s.lift fun _ c => c.fwGo

/-- The ASCII bytes PLYNDOM1. -/
def fwMagic : List Byte := [0x50, 0x4C, 0x59, 0x4E, 0x44, 0x4F, 0x4D, 0x31]

/-- Bytes of a header from an offset, and a field of them. -/
def hdrBytes (h : List Byte) (at_ n : Nat) : List Byte := (h.drop at_).take n
def hdrField (k : Nat) (h : List Byte) (at_ : Nat) : BitVec k := ofBytes k (hdrBytes h at_ (k / 8))
def hdrLen (h : List Byte) : Nat := (hdrField 64 h 16).toNat

/-- The hash that a SLOT's key must have; none for an empty, revoked or unknown slot. -/
def Firm.slotHash (f : Firm) (slot : BitVec 8) : Option (BitVec 512) :=
  if slot = 0 then some Config.vendorHash
  else if 4 < slot.toNat then none
  else match vget f.keys ((slot - 1).setWidth 2) with
    | .enrolled h => some h
    | .empty | .revoked _ => none

/-- The first check of the ROM that an image fails, 0 when it passes. -/
def Firm.imageErr (f : Firm) (h payload : List Byte) : BitVec 8 :=
  let zero (at_ n : Nat) : Bool := (hdrBytes h at_ n).all (· == 0)
  let slot : BitVec 8 := hdrField 8 h 12
  let entry := (hdrField 64 h 24).toNat
  if hdrBytes h 0 8 ≠ fwMagic then 1
  else if !(zero 13 3 && zero 165 3 && zero 300 212) then 2
  else if hdrLen h = 0 ∨ 2 ^ 28 < hdrLen h ∨ entry % 8 ≠ 0 ∨ hdrLen h ≤ entry then 3
  else
    match f.slotHash slot with
    | none => 4
    | some k =>
      if Config.sha512 (hdrBytes h 32 133) ≠ k then 5
      else if !Config.ecdsaOk (hdrBytes h 32 133) (Config.sha512 (hdrBytes h 0 168 ++ payload)) (hdrBytes h 168 132) then 6
      else if (hdrField 32 h 8).toNat < f.floor.toNat then 7
      else if slot = 0 ∧ f.vlock then 8
      else 0

/-- FIRMWARE_LOAD_COMPLETION (R368): every hart starts with STATE 2, or the image is refused with STATE 3 and ERR. -/
def execFirmwareLoadCompletion (s : State) : Out :=
  s.lift fun _ c =>
    if c.firm.st ≠ 1 then c
    else
      let (c, h) := c.unitRead c.fwAddr 512
      let n := if hdrLen h ≤ 2 ^ 28 then hdrLen h else 0
      let (c, payload) := c.unitRead (c.fwAddr + 512) n
      let f := c.firm
      let e := f.imageErr h payload
      if e ≠ 0 then { c with firm := { f with st := 3, err := e } }
      else
        { c with firm := { f with
            st := 2, err := 0, svn := hdrField 32 h 8, slot := hdrField 8 h 12, hash := Config.sha512 (h ++ payload)
            region := some ((c.fwAddr).toNat, 512 + n)
            harts := Vector.replicate _ (some (c.fwAddr + 512 + (hdrField 64 h 24).setWidth 56)) } }

/-! ## The fuses (R369) -/

/-- A request is signed by the key of an enrolled slot. -/
def Firm.enrolled (f : Firm) : Signer → Bool
  | .vendor => false
  | .owner k => match vget f.keys k with | .enrolled _ => true | _ => false

/-- A request accepted, with its effect, or refused. -/
def Chip.fuse (c : Chip) (ok : Bool) (f : Firm → Firm) : Chip :=
  if ok then { c with firm := { f c.firm with accepted := true } } else { c with firm := { c.firm with accepted := false } }

/-- ENROL_KEY (R369). -/
def execEnrolKey (slot : BitVec 2) (hash : BitVec 512) (by_ : Signer) (s : State) : Out :=
  s.lift fun _ c =>
    let f := c.firm
    c.fuse (vget f.keys slot == .empty && (f.enrolled by_ || (by_ == .vendor && !f.vlock))) fun f => { f with keys := vset f.keys slot (.enrolled hash) }

/-- REVOKE_SLOT (R369). -/
def execRevokeSlot (slot : BitVec 2) (by_ : Signer) (s : State) : Out :=
  s.lift fun _ c =>
    c.fuse (c.firm.enrolled by_ && by_ != .owner slot) fun f =>
      let k := match vget f.keys slot with
        | .empty => KeySlot.revoked 0
        | .enrolled h => .revoked h
        | .revoked h => .revoked h
      { f with keys := vset f.keys slot k }

/-- RAISE_SVN_FLOOR (R369). -/
def execRaiseSvnFloor (floor : BitVec 32) (by_ : Signer) (s : State) : Out :=
  s.lift fun _ c => c.fuse (c.firm.enrolled by_) fun f => { f with floor := if f.floor.ult floor then floor else f.floor }

/-- SET_VLOCK (R369). -/
def execSetVlock (by_ : Signer) (s : State) : Out :=
  s.lift fun _ c => c.fuse (c.firm.enrolled by_) fun f => { f with vlock := true }

/-! ## Attestation and sealing (R370, R377) -/

/-- MEMBERCFG (R360). -/
def Chip.membercfg (c : Chip) : Word := (c.modnum ++ c.member ++ 0#36 ++ BitVec.ofBool c.lock : BitVec 64)

/-- State of an owner slot in a report. -/
def KeySlot.code : KeySlot → BitVec 2
  | .empty => 0
  | .enrolled _ => 1
  | .revoked _ => 2

/-- Bytes 0–155 of a report. -/
def Chip.report (c : Chip) (nonce : BitVec 512) : List Byte :=
  let f := c.firm
  let k (n : BitVec 2) : BitVec 2 := (vget f.keys n).code
  let slots : BitVec 8 := k 3 ++ k 2 ++ k 1 ++ k 0
  toBytes 64 nonce ++ toBytes 64 f.hash ++ toBytes 4 f.svn ++ [f.slot, slots, BitVec.setWidth 8 (BitVec.ofBool f.vlock), 0] ++ toBytes 4 f.floor ++
    toBytes 8 Config.serial ++ toBytes 8 c.membercfg

/-- ATTESTATION_REQUEST (R370): the report, signed by the identity key. -/
def execAttestationRequest (nonce : BitVec 512) (s : State) : Out :=
  s.lift fun _ c =>
    let r := c.report nonce
    { c with answer := r ++ toBytes 132 (Config.identitySign (Config.sha512 r)) }

/-- What the seal key signs of an entry. -/
def SealReq.hash (r : SealReq) : BitVec 512 := Config.sha512 (toBytes 64 r.srcHash ++ toBytes 1 r.level ++ toBytes 8 r.loader ++ r.image)

/-- SEAL_REQUEST (R377): an entry signed, or an entry accepted or rejected. -/
def execSealRequest (r : SealReq) (s : State) : Out :=
  s.lift fun _ c =>
    let sig := Config.sealSign (SealReq.hash r)
    if !r.verify then { c with answer := toBytes 132 sig }
    else
      { c with firm := { c.firm with
          accepted := r.sig == sig && r.level == BitVec.ofNat 8 latLevel && r.srcHash == r.wantHash && r.loader == r.wantLoader } }

end Sys2Proof.Machine
end

