-- ==== Sys2Proof/Machine/Manage.lean ====
section
/-! DEFINITION. The management map: its registers written and read; translation control, the host's BARs, the fabric, power (R19,
R356–R366, R371, R379). -/

namespace Sys2Proof.Machine

/-! ## Registers with a row of their own -/

/-- A write to BSTAT (R340): V and OVF are cleared by a 1, COUNT is set. -/
def Bank.write (b : Bank) (val : Word) : Bank :=
  let b : Bank := if val.getLsbD 63 then { Bank.zero with ovf := b.ovf } else b
  { b with ovf := b.ovf && !val.getLsbD 61, count := bits val 0 32 }

/-- Banks of a die that exist (R339). -/
def bankLimit : Nat := 1553

def Chip.writeBank (c : Chip) (d : Bool) (n : Nat) (val : Word) : Chip :=
  if bankLimit ≤ n then c else c.updDie d fun x => { x with banks := setBank x.banks n ((getBank x.banks n).write val) }

/-- BSTAT_WRITE (R340). -/
def execBstatWrite (die : Bool) (bank : BitVec 11) (val : Word) (s : State) : Out := s.lift fun _ c => c.writeBank die bank.toNat val

/-- Some tile holds a strand, or is about to. -/
def Chip.anyBound (c : Chip) : Bool := c.tiles.any Tile.runs || !c.die0.dispatch.isEmpty || !c.die1.dispatch.isEmpty

/-- A write to MEMBERCFG (R360): ignored while LOCK is 1 or a strand is bound; members 192–255 are refused. -/
def Chip.writeMember (c : Chip) (val : Word) : Chip :=
  let m : BitVec 8 := bits val 37 8
  if c.lock || c.anyBound || decide (192 ≤ m.toNat) then c
  else { c with modnum := bits val 45 19, member := m, lock := val.getLsbD 0 }

/-- MEMBERCFG_WRITE (R360). -/
def execMembercfgWrite (val : Word) (s : State) : Out := s.lift fun _ c => c.writeMember val

/-- A write to word 0 of a queue pair (R363): LQBASE and EN; a Q outside 4–16 refuses EN. -/
def QPair.writeEn (q : QPair) (val : Word) : QPair :=
  if q.en then { q with en := val.getLsbD 0 }
  else
    { q with lqbase := bits val 7 49, en := val.getLsbD 0 && decide (4 ≤ q.q.toNat) && decide (q.q.toNat ≤ 16), pidx := 0, seen := [] }

/-- QUEUE_PAIR_ENABLE (R363). -/
def execQueuePairEnable (die : Bool) (pair : BitVec 3) (val : Word) (s : State) : Out :=
  s.lift fun _ c => c.updPair die pair fun q => q.writeEn val

/-- The other words of a pair; all but CQHEAD change only while EN is 0. -/
def QPair.write (q : QPair) (k : Nat) (val : Word) : QPair :=
  match k with
  | 0 => q.writeEn val
  | 1 => if q.en then q else { q with q := bits val 0 5, iid := bits val 16 11 }
  | 2 => if q.en then q else { q with cqbase := bits val 4 60 }
  | 3 => if q.en then q else { q with cqlog := bits val 0 5, vec := bits val 16 11 }
  | 5 => { q with cqhead := val }
  | _ => q

/-! ## Translation control (R364) -/

/-- An invalidation removes a cached translation. -/
def Inval.removes (x : Inval) (e : Tlb) : Bool :=
  let lo := x.va.toNat * 65536
  let asid := match e.asid with
    | none => x.glb
    | some a => x.all || a == x.asid
  asid && (x.pages == 0 || rangesMeet e.base (pageBytes e.level) lo (x.pages.toNat * 65536))

/-- An invalidation starts on a die, or waits behind the one in progress. -/
def Die.invalidate (d : Die) (x : Inval) : Die :=
  match d.inval with
  | none => { d with inval := some x }
  | some _ => { d with waiting := d.waiting ++ [x] }

/-- A write to TINVC: its fields, and with GO the invalidation on both dies. -/
def Chip.writeTinvc (c : Chip) (d : Bool) (val : Word) : Chip :=
  let c := c.updDie d fun x => { x with glb := val.getLsbD 17, all := val.getLsbD 16, asid := bits val 0 12 }
  let x := c.die d
  let v : Inval := ⟨x.tinva, x.tinvl, x.glb, x.all, x.asid⟩
  if val.getLsbD 63 then { c with die0 := c.die0.invalidate v, die1 := c.die1.invalidate v } else c

/-- TINVC_GO (R364). -/
def execTinvcGo (die : Bool) (val : Word) (s : State) : Out := s.lift fun _ c => c.writeTinvc die val

/-- INVALIDATION_COMPLETE (R364): a die's removals are done, and the next invalidation begins. -/
def execInvalidationComplete (die : Bool) (s : State) : Out :=
  s.lift fun _ c => c.updDie die fun d =>
    match d.inval with
    | none => d
    | some x => { d with tlb := d.tlb.filter fun e => !x.removes e, inval := d.waiting.head?, waiting := d.waiting.tail }

/-- TINVS.BUSY: an invalidation is in progress on either die. -/
def Chip.invalBusy (c : Chip) : Bool := c.die0.inval.isSome || c.die1.inval.isSome

/-! ## MSI-X (R356); the table is laid out as PCIe gives (log entry 13) -/

/-- A word of the table written; a vector unmasked while it is pending is sent. -/
def Chip.writeMsix (c : Chip) (d : Bool) (k : Nat) (val : Word) : Chip :=
  let x : Word := if k % 2 = 0 then val &&& 0xFFFFFFFFFFFFFFFC else val &&& 0x1FFFFFFFF
  let c := c.updDie d fun y => { y with msix := vset y.msix (BitVec.ofNat 7 k) x }
  let v := k / 2
  if k % 2 = 1 ∧ !x.getLsbD 32 ∧ (c.die d).pba.getLsbD v then
    (c.updDie d fun y => { y with pba := y.pba &&& ~~~(1#64 <<< v) }).raiseMsix d (BitVec.ofNat 11 v)
  else c

/-! ## Writes (R5, R358) -/

/-- The buffer at an offset of a tile's window (R359). -/
def windowBuf (o : Nat) : Option Buf :=
  if o < 0x100000 then some .wb else if o < 0x180000 then some .ab else if o < 0x1C0000 then some .xb else if o < 0x1E0000 then some .lb else none

/-- The granule of 32 bytes around an offset of a buffer, read whole: its failing words become zeros and are recorded (R337, R359). -/
def Chip.readGranule (c : Chip) (n : TileId) (b : Buf) (off : Nat) : Chip × List Byte :=
  let at_ := off / 32 * 32
  let bad := (c.tileAt n).badWords b at_ 32
  let c := bad.foldl (fun (c : Chip) k => c.record (tileDie n) (tileBank n) true 0 (bufPa c n b k) 0 0) (c.updAt n fun t => t.zeroWords b bad)
  (c, (c.tileAt n).readBuf b at_ 32)

/-- Bytes of a granule written: the granule is read, and written whole. -/
def Chip.writeGranule (c : Chip) (n : TileId) (b : Buf) (off : Nat) (bs : List Byte) : Chip :=
  let at_ := off / 32 * 32
  if bs.length = 32 ∧ off = at_ then c.updAt n fun t => (t.zeroWords b (t.badWords b at_ 32)).writeBuf b at_ bs
  else
    let (c, old) := c.readGranule n b off
    c.updAt n fun t => t.writeBuf b at_ (putBytes old (off - at_) (bs.take (32 - (off - at_))))

/-- A write inside a tile's window (R359). -/
def Chip.writeWindow (c : Chip) (n : TileId) (o : Nat) (val : Word) : Chip :=
  match windowBuf o with
  | some b => c.writeGranule n b (o - windowBase b) (toBytes 8 val)
  | none =>
  if o = 0x1E0000 then c.updAt n fun t => { t with cs := { t.cs with addr := val &&& 0x00FFFFFFFFFFFF80 } }
  else if o = 0x1E0008 then (if val.getLsbD 0 then c.updAt n Tile.csctlGo else c)
  else c

/-- A write to the memory block (R345). -/
def Die.writeMemory (x : Die) (o : Nat) (val : Word) : Die :=
  match o with
  | 0x00 => { x with rtbase := bits val 3 53 }
  | 0x08 => { x with rtfirst := bits val 0 40 }
  | 0x10 => { x with rtcount := bits val 0 32 }
  | 0x18 => { x with bcbase := bits val 3 53 }
  | 0x20 => { x with bclog := bits val 0 5 }
  | 0x30 => { x with bctail := val }
  | _ => x

/-- A write to the fence block (R351). -/
def Chip.writeFence (c : Chip) (now : Nat) (d : Bool) (o : Nat) (val : Word) : Chip :=
  if o < 0x400 then
    let n : TileId := BitVec.ofNat 8 ((if d then 128 else 0) + o / 8)
    let c := if val.getLsbD 8 then c.force now n else c
    if val.getLsbD 9 then c.readmit now n else c
  else if o = 0x400 then c.updDie d fun x => { x with rthr := bits val 0 16 }
  else c

/-- A bind record of a tile being dispatched, its V still set (R331). -/
def Chip.beingDispatched (c : Chip) (d : Bool) (e : BitVec 8) : Bool :=
  slotV (vget (c.die d).slots e) && (c.die d).dispatch.any fun x =>
    (ranksOf x.mask).any fun r => slotOf (tileOfRank (clusterNo d x.cluster) r) x.bank == e

/-- A write to the slot table, or to a cluster register (R327, R328). -/
def Chip.writeScheduler (c : Chip) (d : Bool) (o : Nat) (val : Word) : Chip :=
  if o < 0x10000 then
    let k := o % 256 / 8
    let e : BitVec 8 := BitVec.ofNat 8 (o / 256)
    c.updDie d fun x => { x with slots := vset x.slots e (vset (vget x.slots e) (BitVec.ofNat 5 k) (val &&& slotMask k)) }
  else if o < 0x10100 ∧ o % 16 = 0 then c.ccommit d (BitVec.ofNat 4 ((o - 0x10000) / 16)) val
  else c

/-- A 64-bit register of the map written; an offset that is not listed ignores it (R358). -/
def Chip.writeReg (c : Chip) (now : Nat) (off : BitVec 32) (val : Word) : Chip :=
  let d := off.getLsbD 31
  let o := (off.setWidth 31).toNat / 8 * 8
  if o < 0x1000 then (if o = 0x18 then c.writeMember val else c)
  else if o < 0x1200 then c.updPair d (BitVec.ofNat 3 ((o - 0x1000) / 64)) fun q => q.write ((o - 0x1000) % 64 / 8) val
  else if 0x2000 ≤ o ∧ o < 0x2400 then c.writeMsix d ((o - 0x2000) / 8) val
  else if 0x10000 ≤ o ∧ o < 0x14000 then
    if o % 4096 = 0 then
      let hart : BitVec 3 := firstHart d + BitVec.ofNat 3 ((o - 0x10000) / 4096)
      let iid : BitVec 11 := bits val 0 11
      c.setPending hart iid
    else c
  else if 0x100000 ≤ o ∧ o < 0x120000 then c.writeScheduler d (o - 0x100000) val
  else if 0x200000 ≤ o ∧ o < 0x210000 then (if o % 32 = 0 then c.writeBank d ((o - 0x200000) / 32) val else c)
  else if 0x300000 ≤ o ∧ o < 0x301000 then c.updDie d fun x => x.writeMemory (o - 0x300000) val
  else if 0x310000 ≤ o ∧ o < 0x311000 then c.writeFence now d (o - 0x310000) val
  else if o = 0x400000 then c.updDie d fun x => { x with tinva := bits val 16 32 }
  else if o = 0x400008 then c.updDie d fun x => { x with tinvl := bits val 0 32 }
  else if o = 0x400010 then c.writeTinvc d val
  else if o = 0x500000 then { c with firm := { c.firm with fwaddr := bits val 12 44 } }
  else if o = 0x500008 then (if val.getLsbD 0 then c.fwGo else c)
  else if 0x600008 ≤ o ∧ o < 0x600028 then
    c.updDie d fun x => { x with domain := putElem 64 x.domain ((o - 0x600008) / 8) val }
  else if 0x10000000 ≤ o ∧ o < 0x20000000 then
    c.writeWindow (BitVec.ofNat 8 ((if d then 128 else 0) + (o - 0x10000000) / 0x200000)) ((o - 0x10000000) % 0x200000) val
  else c

/-- REGISTER_WRITE (R5, R358, R362): the host or a hart writes a register; a bind record rewritten while its tile is dispatched has no
defined effect (R331). -/
def execRegisterWrite (off : BitVec 32) (val : Word) (s : State) : Out :=
  let o := (off.setWidth 31).toNat
  if 0x100000 ≤ o ∧ o < 0x110000 ∧ s.chip.beingDispatched (off.getLsbD 31) (BitVec.ofNat 8 ((o - 0x100000) / 256)) then .fault .bindRewritten
  else s.lift fun now c => c.writeReg now off val

/-! ## Reads (R5, R358) -/

/-- The capabilities (R361): ID and the words after the header. -/
def Chip.capabilities (c : Chip) : List (BitVec 16 × List Word) :=
  let ports := popCount 9 c.die0.ports.toNat + popCount 9 c.die1.ports.toNat
  [(1, []), (2, []), (3, [BitVec.ofNat 64 ports]), (4, [4]), (5, (List.range 8).map fun k => bits Config.sealHash (64 * k) 64)]

/-- The words of the list, one capability behind the other from an offset. -/
def capWords (at_ : Nat) : List (BitVec 16 × List Word) → List Word
  | [] => []
  | (id, ws) :: r =>
    let next := if r.isEmpty then 0 else at_ + 8 + 8 * ws.length
    (id ++ Config.capVersion id.toNat ++ 0#8 ++ BitVec.ofNat 32 next : BitVec 64) :: ws ++ capWords (at_ + 8 + 8 * ws.length) r

/-- A word of a bank (R340). -/
def Bank.read (b : Bank) (k : Nat) : Word :=
  match k with
  | 0 => (BitVec.ofBool b.v ++ BitVec.ofBool b.ue ++ BitVec.ofBool b.ovf ++ 0#5 ++ b.kind ++ 0#20 ++ b.count : BitVec 64)
  | 1 => (0#8 ++ b.addr : BitVec 64)
  | 2 => (0#40 ++ b.synd ++ b.tnum ++ b.code : BitVec 64)
  | _ => 0

/-- A word of a queue pair (R363). -/
def QPair.read (q : QPair) (k : Nat) : Word :=
  match k with
  | 0 => (0#8 ++ q.lqbase ++ 0#6 ++ BitVec.ofBool q.en : BitVec 64)
  | 1 => (0#37 ++ q.iid ++ 0#11 ++ q.q : BitVec 64)
  | 2 => (q.cqbase ++ 0#4 : BitVec 64)
  | 3 => (0#37 ++ q.vec ++ 0#11 ++ q.cqlog : BitVec 64)
  | 4 => q.cqtail
  | 5 => q.cqhead
  | _ => 0

/-- A word of the memory block (R345). -/
def Die.readMemory (x : Die) (o : Nat) : Word :=
  match o with
  | 0x00 => (0#8 ++ x.rtbase ++ 0#3 : BitVec 64)
  | 0x08 => x.rtfirst.setWidth 64
  | 0x10 => x.rtcount.setWidth 64
  | 0x18 => (0#8 ++ x.bcbase ++ 0#3 : BitVec 64)
  | 0x20 => x.bclog.setWidth 64
  | 0x28 => x.bchead
  | 0x30 => x.bctail
  | 0x38 => x.bclost.setWidth 64
  | _ => 0

/-- A 64-bit register of the map as a read finds it; an offset that is not listed reads as zero. -/
def Chip.readReg (c : Chip) (now : Nat) (off : BitVec 32) : Word :=
  let d := off.getLsbD 31
  let x := c.die d
  let o := (off.setWidth 31).toNat / 8 * 8
  let caps := capWords Config.capPtr.toNat c.capabilities
  let cap := Config.capPtr.toNat
  if o = 0 then (Config.deviceId ++ Config.stepping ++ BitVec.ofNat 8 latLevel ++ 0#31 ++ BitVec.ofBool d : BitVec 64)
  else if o = 8 then Config.capPtr.setWidth 64
  else if o = 0x10 then Config.serial
  else if o = 0x18 then c.membercfg
  else if o < 0x1000 ∧ cap ≤ o ∧ o < cap + 8 * caps.length then (caps[(o - cap) / 8]?).getD 0
  else if 0x1000 ≤ o ∧ o < 0x1200 then (c.pair d (BitVec.ofNat 3 ((o - 0x1000) / 64))).read ((o - 0x1000) % 64 / 8)
  else if 0x2000 ≤ o ∧ o < 0x2400 then vget x.msix (BitVec.ofNat 7 ((o - 0x2000) / 8))
  else if o = 0x3000 then x.pba
  else if 0x100000 ≤ o ∧ o < 0x110000 then slotWord (vget x.slots (BitVec.ofNat 8 ((o - 0x100000) / 256))) (o % 256 / 8)
  else if 0x110000 ≤ o ∧ o < 0x110100 then (if o % 16 = 8 then c.cstat (clusterNo d (BitVec.ofNat 4 ((o - 0x110000) / 16))) else 0)
  else if 0x200000 ≤ o ∧ o < 0x200000 + 32 * bankLimit then (getBank x.banks ((o - 0x200000) / 32)).read (o % 32 / 8)
  else if 0x300000 ≤ o ∧ o < 0x301000 then x.readMemory (o - 0x300000)
  else if 0x310000 ≤ o ∧ o < 0x310400 then c.fstat now (BitVec.ofNat 8 ((if d then 128 else 0) + (o - 0x310000) / 8))
  else if o = 0x310400 then x.rthr.setWidth 64
  else if o = 0x310408 then x.orphcnt.setWidth 64
  else if o = 0x400000 then (0#16 ++ x.tinva ++ 0#16 : BitVec 64)
  else if o = 0x400008 then x.tinvl.setWidth 64
  else if o = 0x400010 then (0#46 ++ BitVec.ofBool x.glb ++ BitVec.ofBool x.all ++ 0#4 ++ x.asid : BitVec 64)
  else if o = 0x400018 then flag64 c.invalBusy
  else if o = 0x500000 then (0#8 ++ c.firm.fwaddr ++ 0#12 : BitVec 64)
  else if o = 0x500010 then (0#48 ++ c.firm.err ++ c.firm.st : BitVec 64)
  else if o = 0x600000 then x.ports.setWidth 64
  else if 0x600008 ≤ o ∧ o < 0x600028 then elem 64 x.domain ((o - 0x600008) / 8)
  else if 0x500018 ≤ o ∧ o < 0x510000 then Config.securityWord ((o - 0x500000) / 8)
  else if 0x10000000 ≤ o ∧ o < 0x20000000 then
    let t := c.tileAt (BitVec.ofNat 8 ((if d then 128 else 0) + (o - 0x10000000) / 0x200000))
    let w := (o - 0x10000000) % 0x200000
    match windowBuf w with
    | some b => ofBytes 64 (t.readBuf b (w - windowBase b) 8)
    | none =>
      if w = 0x1E0000 then t.cs.addr
      else if w = 0x1E0010 then (BitVec.ofBool t.cs.busy ++ BitVec.ofBool t.cs.done ++ 0#30 ++ t.cs.len : BitVec 64)
      else 0
  else 0

/-- The buffer of a tile window at an offset of the map: its tile, its place. -/
def windowAt (off : BitVec 32) : Option (TileId × Buf × Nat) :=
  let o := (off.setWidth 31).toNat
  if 0x10000000 ≤ o ∧ o < 0x20000000 then
    let w := (o - 0x10000000) % 0x200000
    (windowBuf w).map fun b => (BitVec.ofNat 8 ((if off.getLsbD 31 then 128 else 0) + (o - 0x10000000) / 0x200000), b, w - windowBase b)
  else none

/-- A register of the map read, with a row of its own or not: counts that a read clears are cleared (R5), and a buffer of a tile is read
by granules. -/
def Chip.answerReg (c : Chip) (now : Nat) (off : BitVec 32) : Chip :=
  match windowAt off with
  | some (n, b, o) =>
    let (c, bs) := c.readGranule n b o
    { c with answer := bs }
  | none =>
    let o := (off.setWidth 31).toNat / 8 * 8
    { c with answer := toBytes 8 (c.readReg now off) }.updDie (off.getLsbD 31) fun x =>
      if o = 0x310408 then { x with orphcnt := 0 } else if o = 0x300038 then { x with bclost := 0 } else x

/-- A granule of a tile window written whole by the host or a hart. -/
def Chip.putGranule (c : Chip) (off : BitVec 32) (bs : List Byte) : Chip :=
  match windowAt off with
  | some (n, b, o) => if bs.length = 32 ∧ o % 32 = 0 then c.writeGranule n b o bs else c
  | none => c

/-- ORPHCNT_READ (R5, R351): the count is returned and cleared. -/
def execOrphcntRead (die : Bool) (s : State) : Out :=
  s.lift fun now c =>
    { c with answer := toBytes 8 (c.readReg now (BitVec.ofBool die ++ 0x310408#31)) }.updDie die fun x => { x with orphcnt := 0 }

/-- BCLOST_READ (R5, R345): the count is returned and cleared. -/
def execBclostRead (die : Bool) (s : State) : Out :=
  s.lift fun now c =>
    { c with answer := toBytes 8 (c.readReg now (BitVec.ofBool die ++ 0x300038#31)) }.updDie die fun x => { x with bclost := 0 }

/-! ## BAR2 (R357) -/

/-- BAR2_ACCESS (R357): performed at the home slices of its lines; beyond the HBM reads complete with all ones and writes are dropped;
a compressed block under recovery is awaited. -/
def execBar2Access (off : BitVec 40) (req : BusReq) (s : State) : Out :=
  s.lift fun _ c =>
    let o := off.toNat
    let n := match req with
      | .read len => len
      | .write data => data.length
    let here := Nat.min n (Config.hbmBytes - o)
    if (linesOf o here).any fun l => c.ueBlocks.contains (l / 8) then c
    else
      match req with
      | .write data => if here = 0 then c else c.writeMem 0 o (data.take here)
      | .read len =>
        let (c, bs) := c.unitRead (c.member ++ BitVec.ofNat 48 o) here
        { c with answer := bs ++ List.replicate (len - here) 0xFF }

/-! ## The fabric and the clock (R365, R366, R371) -/

/-- BRODNIS_PORT_TRAINING (R365, R371). -/
def execBrodnisPortTraining (die : Bool) (port : BitVec 4) (up : Bool) (s : State) : Out :=
  s.lift fun _ c => c.updDie die fun x =>
    let bit : BitVec 9 := 1#9 <<< port.toNat
    { x with ports := if up then x.ports ||| bit else x.ports &&& ~~~bit }

/-- CLOCK_REFERENCE_LOSS (R366): the module leaves the domain, and every collective that is not complete fails (R284). -/
def execClockReferenceLoss (s : State) : Out :=
  s.lift fun _ c => c.groups.foldl (fun (c : Chip) g => c.failColls g.launch) { c with refLost := true, joined := false }

/-- TIME_BEACON (R19, R366): CYC is set once, when the module joins a domain and before any strand of it is bound; it never runs
backward. -/
def execTimeBeacon (val : Nat) (s : State) : Out :=
  if s.chip.joined || s.chip.anyBound then .next s
  else .next { s with clk := Nat.max s.clk val, chip := { s.chip with joined := true, refLost := false } }

/-! ## Power (R19, R379) -/

/-- A launch that a thermal stop cuts short: it starts no more strands, those frozen already count as ended, and its STATUS is 1 (log entry
71). -/
def Chip.cutLaunch (c : Chip) (l : Launch) : Launch :=
  let mine (t : Tile) : Bool := t.bound.launch == l.num
  let coming := [false, true].any fun d => (c.die d).dispatch.any fun y => y.recs.any fun r => slotLaunch r.2 == l.num
  if coming || c.tiles.any fun t => t.runs && mine t then
    let n := (c.saved.filter fun x => mine x.tile && !c.resuming x).length + (c.tiles.toList.filter fun t => t.st == .preempted && mine t).length
    { l with cut := true, past := l.past + n, ended := l.ended + n, status := if l.status = 0 then 1 else l.status }
  else l

/-- THERMAL_STOP (R379): every running team is pre-empted, a strand in an exchange by a later PREEMPTION (R296, R305); nothing more is
committed, and the launches concerned complete with STATUS 1. -/
def execThermalStop (_die : Bool) (s : State) : Out :=
  s.lift fun _ c =>
    if c.stopped then c
    else { c with stopped := true, launches := c.launches.map c.cutLaunch, tiles := c.tiles.map Tile.askFreeze }

/-- POWER_UP (R19, R368): the module as reset leaves it, the dies' counters aligned; what stands in fuses and in host memory stays
(log entry 5). -/
def execPowerUp (s : State) : Out :=
  s.lift fun _ c =>
    let f := c.firm
    { Chip.reset with
      freeCnt := c.freeCnt
      nextId := c.nextId
      host := c.host
      firm := { Firm.reset with vlock := f.vlock, floor := f.floor, keys := f.keys } }

end Sys2Proof.Machine
end

