-- ==== Sys2Proof/Machine/Agenda.lean ====
section
/-! DEFINITION. What a turn brings beside its act: the happenings outside the rules' control, the clk, the default act, and the
placing of a word where the next fetch finds it (log entries 1, 2). -/

namespace Sys2Proof.Machine

/-! ## Happenings (log entry 1) -/

/-- A unit marked uncorrectable once. -/
def markUe (l : List Nat) (n : Nat) : List Nat := if l.contains n then l else n :: l

/-- Bytes written by another observer at their home slices, line part by line part (R107, R111). -/
def Chip.outsideWrite (c : Chip) (pa : BitVec 56) (bs : List Byte) : Chip := c.writeMem c.focus (c.key pa) bs

def Chip.happen (now : Nat) (c : Chip) : Env → Chip
  | .memUe l => { c with ueLines := markUe c.ueLines l }
  | .blockUe b => { c with ueBlocks := markUe c.ueBlocks b }
  | .sramUe n u => c.updAt n fun t => { t with sramUe := if t.sramUe.contains u then t.sramUe else u :: t.sramUe }
  | .corrected d n k a req => c.record d n.toNat false k a req 0
  | .icacheDrop n l => c.updAt n fun t => { t with icache := t.icache.filter fun x => x.1 != l }
  | .tlbDrop d n => c.updDie d fun x => { x with tlb := dropAt x.tlb n }
  | .countDrop l => { c with counts := c.counts.filter fun x => x.1 != l }
  | .chanFail n =>
    (c.record (tileDie n) (1536 + (tileCluster n).toNat % 16) true 4 0 n (causeCode 28 5)).updAt n fun t =>
      { t with chan := { t.chan with disabled := true } }
  | .unveilFail d =>
    (List.range 128).foldl (fun c k =>
      c.updAt (BitVec.ofNat 8 ((if d then 128 else 0) + k)) fun t => { t with unv := { t.unv with disabled := true } })
      (c.record d 1552 true 4 0 0 (causeCode 28 5))
  | .remoteWrite pa bs => if pa.extractLsb' 48 8 = c.member ∧ (regionFate pa).isSome then c else c.outsideWrite pa bs
  | .policy => c.policy now
  | .member l i lost => c.memberGone l i lost
  | .forward n r => c.forwarded n r
  | .report n e k st => c.reported n e k st
  | .host a bs => { c with host := c.host.write a bs }
  | .read o => c.answerReg now o
  | .granule o bs => c.putGranule o bs

/-! ## The clk -/

/-- The failing words of registers that writes of part of them have met are recorded in the tile's bank (R337). -/
def Chip.drainNotes (c : Chip) : Chip :=
  (c.tile.ueNote.foldl (fun (c : Chip) _ => c.record (tileDie c.focus) (tileBank c.focus) true 0 0 c.focus 0) c).upd fun t => { t with ueNote := [] }

/-- What reaches a tile by a clk with no further choice. -/
def Chip.settleTile (c : Chip) (now : Nat) : Chip :=
  let c := c.upd fun t => t.settle now
  if c.tile.ueNote.isEmpty then c else c.drainNotes

/-- A turn taken: its clk pass, its happenings take effect, its tile has the focus and settles. -/
def State.begin (s : State) (u : Turn) (rest : List Turn) : State :=
  let now := s.clk + u.ticks
  { clk := now, agenda := rest, chip := ({ u.env.foldl (Chip.happen now) s.chip with focus := u.tile }).settleTile now }

/-- One clk more, for a word that has just been split. -/
def State.tick (s : State) : State := { s with clk := s.clk + 1, chip := s.chip.settleTile (s.clk + 1) }

/-! ## The default turn (log entry 2) -/

/-- The step that ends or furthers the wait of a held word. -/
def waitOffers (fr : FrameSel) : Wait → List Instr
  | .time .. => [.waittWake]
  | .tags _ => []
  | .alarm .. => [.watchWake, .waitaDeadline]
  | .ringE .. | .ringF .. | .ringGot .. => [.ringClaimGrant]
  | .mon _ => [.monitorRegistrationAck]
  | .moncl => [.monclAcknowledgement]
  | .rinit .. => [.ringRegistrationAnswer]
  | .bar _ id _ arrived => if arrived then [.barrierRelease id] else [.barrierArrival fr]
  | .phase _ => [.phaseCommit, .phaseProceed]
  | .halted => [.phaseCommit, .strandRetirement]
  | .refill _ => [.phaseProceed]

/-- A unit may be performed next: it is waiting, or its replay entry has been released, or it stopped for want of an entry and one is
free. -/
def Tile.unitOpen (t : Tile) (u : MUnit) : Bool :=
  match u.st with
  | .todo => true
  | .parked n => (match vget t.replay n with | some x => x.rel | none => false)
  | .stopped => t.replay.toList.any (·.isNone)
  | .done | .refused | .dropped => false

/-- The unit or the part of an access that may be performed next. -/
def Tile.openPart (t : Tile) (a : Access) : Option Nat :=
  if oneStep a.w.ins then a.units.findIdx? t.unitOpen
  else a.parts.findIdx? fun x => x.1.any fun i =>
    match a.units[i]? with
    | some u => t.unitOpen u && u.rest.any fun p => p.line == x.2
    | none => false

/-- For each access of a FIFO, the steps that perform its first open unit or part. -/
def fifoOffers (t : Tile) (fr : FrameSel) (q : Fifo) (l : List Access) : List Instr :=
  l.zipIdx.flatMap fun (a, k) =>
    match t.openPart a with
    | none => []
    | some e => [.accessPerform fr q k e, .remoteRequest fr q k e] ++ (match q with
      | .l => [.tileOperationPerform fr .l k]
      | .s => [.tileOperationPerform fr .s k, .atomicStep fr k e])

/-- The read or the write that a command performs next: the one at which it has parked, else the lowest that it has not performed. -/
def Cmd.nextAccess (x : Cmd) (write : Bool) : Nat :=
  let done := if write then x.wdone else x.rdone
  let first := ((List.range done.length).find? fun k => !done.contains k).getD done.length
  match x.at_ with
  | some (w, k) => if w == write then k else first
  | none => first

/-- The steps of the command at the head of an engine's FIFO, behind a number of sent writes. -/
def cmdOffers (e : CmdEng) (late : Nat) : List Cmd → List Instr
  | [] => []
  | x :: _ =>
    match x.st with
    | .queued => [.commandStart e]
    | .started | .acquired =>
      [.commandAcquire e, .commandAccess e false (x.nextAccess false), .commandAccess e true (late + x.nextAccess true), .commandCompletion e] ++
        (match e with
        | .chan => [.cpyfLineFill, .contributionArrival none]
        | .unveil => [.unveilStateBlockRead, .unveilRound, .patclrClear])

/-- The steps of an engine: those of its head, and a write that a completed command has left. -/
def engOffers (e : CmdEng) (g : Engine) : List Instr :=
  cmdOffers e g.late.length g.fifo ++ (if g.late.isEmpty then [] else [.commandAccess e true 0])

/-- The steps that a frame's accesses, answers and held word await. -/
def frameOffers (t : Tile) (fr : FrameSel) : List Instr :=
  let f := t.frameOf fr
  fifoOffers t fr .l f.lf ++ fifoOffers t fr .s f.sf ++ (match f.wait with | some w => waitOffers fr w.wait | none => [])

/-- The acts that a tile's state offers, a fair share of which the default turn takes; its queues issue of themselves (R333). -/
def offers (now : Nat) (t : Tile) : List Act :=
  let events : List Instr := frameOffers t .user ++ frameOffers t .handler ++ engOffers .chan t.chan ++ engOffers .unveil t.unv ++
    (if t.user.ans.isEmpty && t.hand.ans.isEmpty then [] else [.accessResponse 0]) ++
    (if t.unacked + t.chan.unacked + t.unv.unacked = 0 then [] else [.ownerAcknowledgement]) ++
    (if t.vpend.isEmpty then [] else [.variableLatencyCompletion 0]) ++
    (if t.mat.queue.isEmpty then [] else [.matrixCommandStart, .kStepCompletion, .matrixCommandCompletion]) ++
    (if t.mat.ards.isEmpty then [] else [.ardSnapshot]) ++
    (if t.cancelling then [.phaseCancellation] else []) ++ (match t.st with
      | .ended _ _ => [.handlerFault]
      | .preempting => [.preemption]
      | .absent | .running | .halting | .retired | .preempted => [])
  (if t.canSplit now then [Act.run] else []) ++ events.map Act.event

/-- The heartbeats, votes and notices on their way to a tile that a neighbour has sent, as they reach it. -/
def Chip.flitOffers (c : Chip) : List Instr :=
  c.flits.flatMap fun x =>
    if x.1 ≠ c.focus then []
    else
      match (flitSrc (tileDie c.focus) x.2).bind (dirTo c.focus) with
      | none => []
      | some d =>
        match flitType x.2 with
        | 1 => [.heartbeat d x.2 true]
        | 2 => [.vote d x.2]
        | 3 => [.fenceNotice d x.2]
        | _ => []

/-- The turn when the agenda is empty: one clk, the same tile, a pass of the firmware's policy, one of the acts on offer in rotation. -/
def State.defaultTurn (s : State) : Turn :=
  let l := offers (s.clk + 1) s.chip.tile ++ s.chip.flitOffers.map Act.event
  { ticks := 1, tile := s.chip.focus, env := [.policy], act := (l[s.clk % l.length]?).getD .run }

/-! ## A word placed at the next fetch (log entry 14) -/

/-- Page-table entries for one 64 KiB page of HBM at virtual and physical 0, with every permission, as the firmware would leave
them cached. -/
def onePage : Tlb := ⟨none, 0, 3, 0x9F⟩

/-- The module with the tile in focus running in user mode at PC 0, page 0 mapped, and an 80-bit word in its first bytes. -/
def Chip.place (c : Chip) (w : IWord) : Chip :=
  let c := { c with mem := (c.mem.write 0 (List.replicate 128 0)).write 0 (toBytes 10 w) }
  (c.updDie (tileDie c.focus) fun d => { d with tlb := onePage :: d.tlb }).upd fun t =>
    { t with st := .running, mode := .user, pc := 0, icache := [], user := .empty 0, phase := none, trap := none, freezing := false }

end Sys2Proof.Machine
end

