-- ==== Sys2Proof/Machine/Lanes.lean ====
section
/-! DEFINITION. Lane moves, reductions, scans, selection and predicate words (R140–R152). -/

namespace Sys2Proof.Machine

/-! ## Lane moves (R140–R144) -/

/-- A *lanes* word: each enabled 32-bit lane. -/
def laneWord (i : Instr) (d : VDst) (lat : Nat) (f : Tile → QWord → Nat → Nat) : State → Out :=
  elemWord i d .n32 lat 1 fun t w e => ⟨f t w e, 0⟩

/-- sel (R140). -/
def execSel (h : Hdr) (o : SelOp) (s : State) : Out :=
  laneWord (.sel h o) o.d 1 (fun t w e =>
    if (t.predOf w o.p).getLsbD e then elemN 32 (t.vsrc w o.a) e else elemN 32 (t.vsrc w o.b) e) s
/-- movv (R140). -/
def execMovv (h : Hdr) (o : MovvOp) (s : State) : Out := laneWord (.movv h o) o.d 1 (fun t w e => elemN 32 (t.vsrc w o.a) e) s
/-- bcast (R140). -/
def execBcast (h : Hdr) (o : BcastOp) (s : State) : Out :=
  elemWord (.bcast h o) o.d o.ty 1 1 (fun t _ _ =>
    ⟨match o.a with
      | .s n => (t.getS n).toNat % 2 ^ tyWidth o.ty
      | .imm i => immBits o.ty i, 0⟩) s

/-- A scalar from an element (R23). -/
def scalarOf (ty : Ty) (x : Nat) : Word := extendTo64 (tySigned ty) (BitVec.ofNat (tyWidth ty) x)

/-- extr (R141). -/
def execExtr (h : Hdr) (o : ExtrOp) (s : State) : Out :=
  qword .c (.extr h o) .bit0 vecRes (fun now w t c =>
    let e := (t.ssrc o.i).toNat % tyCount o.ty
    (c.takeV now 1).result now 2 w h.sba [.s o.d (scalarOf o.ty (elemN (tyWidth o.ty) (t.vsrc w o.a) e))] 0) s

/-- iota (R142). -/
def execIota (h : Hdr) (o : IotaOp) (s : State) : Out :=
  elemWord (.iota h o) o.d o.ty 1 1 (fun t _ e =>
    let step : Int := match o.step with
      | .s n => (t.getS n).toInt
      | .imm i => immInt o.ty i
    ⟨intBits o.ty o.sat (toZ (tySigned o.ty) (t.getS o.a) + e * step), 0⟩) s

/-- perm (R143). -/
def execPerm (h : Hdr) (o : PermOp) (s : State) : Out :=
  laneWord (.perm h o) o.d 2 (fun t w e =>
    let x := elemN 32 (t.vsrc w o.b) e
    let k := x % 128
    if x.testBit 31 then 0 else if k < 64 then elemN 32 (t.vsrc w o.a) k else elemN 32 (t.vsrc w o.c) (k - 64)) s

/-- shfl (R144). -/
def execShfl (h : Hdr) (o : ShflOp) (s : State) : Out :=
  laneWord (.shfl h o) o.d 2 (fun t w e =>
    let k := (t.ssrc o.cnt).toNat
    let x := t.vsrc w o.a
    match o.kind with
    | .rot => elemN 32 x ((e + k) % 64)
    | .dn => if 64 ≤ e + k then 0 else elemN 32 x (e + k)
    | .up => if e < k then 0 else elemN 32 x (e - k)
    | .xor => elemN 32 x (e ^^^ (k % 64))) s

/-! ## Reductions and scans (R145–R147) -/

/-- The elements of a source, absent where the predicate's lane is 0 (R41, R145). -/
def presentElems (t : Tile) (w : QWord) (h : Hdr) (ty : Ty) (a : VSrc) : List (Option Nat) :=
  let p := t.effPred w h
  let x := t.vsrc w a
  (List.range (tyCount ty)).map fun e => if p.getLsbD (laneOf (tyWidth ty) e) then some (elemN (tyWidth ty) x e) else none

/-- The destination of a reduction: a scalar, or element 0 with zeros behind it (R146). -/
def redWrite (d : RDst) (w : QWord) (ty : Ty) (x : Nat) : RegWrite :=
  match d with
  | .s n => .s n (scalarOf ty x)
  | .v n => .v (physV w.vrb n) (BitVec.allOnes 2048) (BitVec.ofNat 2048 x)
  | .qo n => .qo n w.id (BitVec.ofNat 2048 x)

def redWord (i : Instr) (o : RdOp) (k : RedK) (lat : Nat) : State → Out :=
  qword .c i .always vecRes fun now w t c =>
    let r := reduceTerms o.ty k (.of o.rnd o.sat w) (presentElems t w i.hdr o.ty o.a)
    (c.takeV now 2).result now lat w i.hdr.sba [redWrite o.d w o.ty r.bits] r.fl

/-- rdadd (R146). -/
def execRdadd (h : Hdr) (o : RdOp) (s : State) : Out := redWord (.rdadd h o) o .add (if tyFloat o.ty then 12 else 7) s
/-- rdmax (R146). -/
def execRdmax (h : Hdr) (o : RdOp) (s : State) : Out := redWord (.rdmax h o) o .max 7 s
/-- rdmin (R146). -/
def execRdmin (h : Hdr) (o : RdOp) (s : State) : Out := redWord (.rdmin h o) o .min 7 s

def scanKind : ScanKind → RedK
  | .add => .add
  | .max => .max
  | .min => .min

/-- scan (R147). -/
def execScan (h : Hdr) (o : ScanOp) (s : State) : Out :=
  qword .c (.scan h o) .always vecRes (fun now w t c =>
    let l := presentElems t w h o.ty o.a
    let k := scanKind o.op
    let (xs, fl) := if k = .add ∧ !tyFloat o.ty then (scanInts o.ty o.sat 0 l, 0) else scanTerms o.ty k (.of o.rnd o.sat w) none l
    (c.takeV now 4).result now 16 w h.sba [dstWrite o.d w (BitVec.allOnes 2048) (packN (tyWidth o.ty) xs)] fl) s

/-- topk (R148): k outside 1–64 from a register raises class 2 at issue. -/
def execTopk (h : Hdr) (o : TopkOp) (s : State) : Out :=
  qword .c (.topk h o) .always vecRes (fun now w t c =>
    let k := (t.ssrc o.k).toNat
    if k < 1 ∨ 64 < k then c.issueFault w h.sba 2 2 0
    else
      let (ix, ks) := topkLanes k (sortTop (topkPairs o.ty (presentElems t w h o.ty o.a)))
      (c.takeV now 4).later now w h.sba
        [.v (physV w.vrb o.d) (BitVec.allOnes 2048) (packN 32 ix), .v (physV w.vrb o.c) (BitVec.allOnes 2048) (packN 32 ks)]
        none) s

/-- vhist (R151): a group above 3 from a register raises class 2 at issue. -/
def execVhist (h : Hdr) (o : VhistOp) (s : State) : Out :=
  qword .c (.vhist h o) .always vecRes (fun now w t c =>
    let g := (t.ssrc o.g).toNat
    if 3 < g then c.issueFault w h.sba 2 2 0
    else
      let old := if o.acc then (List.range 64).map (elemN 32 (t.getV (physV w.vrb o.d))) else List.replicate 64 0
      let xs := (presentElems t w h o.ty o.a).filterMap id
      (c.takeV now 4).later now w h.sba
        [.v (physV w.vrb o.d) (BitVec.allOnes 2048) (packN 32 (vhistLanes g old xs))] none) s

/-- okey (R149). -/
def execOkey (h : Hdr) (o : VUn) (s : State) : Out := vUnWord (.okey h o) o 1 (okeyBits o.ty) s
/-- okeyi (R149). -/
def execOkeyi (h : Hdr) (o : VUn) (s : State) : Out := vUnWord (.okeyi h o) o 1 (okeyiBits o.ty) s

/-- digit (R150). -/
def execDigit (h : Hdr) (o : DigitOp) (s : State) : Out :=
  elemWord (.digit h o) o.d o.ty 1 1 (fun t w e =>
    ⟨digitBits (tyWidth o.ty) o.pos.toNat o.len.toNat (t.ssrc o.pre).toNat (elemN (tyWidth o.ty) (t.vsrc w o.a) e), 0⟩) s

/-! ## Predicate words (R152) -/

/-- pcnt (R152). -/
def execPcnt (h : Hdr) (o : PcntOp) (s : State) : Out :=
  qword .c (.pcnt h o) .always vecRes (fun now w t c =>
    let x := t.predOf w o.a &&& t.effPred w h
    (c.takeV now 1).result now 2 w h.sba [.s o.d (BitVec.ofNat 64 (popCount 64 x.toNat))] 0) s

def predWord (i : Instr) (d : PReg) (f : Tile → QWord → Word) : State → Out :=
  qword .c i .lanes vecRes fun now w t c =>
    (c.takeV now 1).result now 1 w i.hdr.sba [.p d (t.effPred w i.hdr) (f t w)] 0

/-- pand (R152). -/
def execPand (h : Hdr) (o : PBinOp) (s : State) : Out :=
  predWord (.pand h o) o.d (fun t w => t.predOf w o.a &&& t.predOf w o.b) s
/-- por (R152). -/
def execPor (h : Hdr) (o : PBinOp) (s : State) : Out :=
  predWord (.por h o) o.d (fun t w => t.predOf w o.a ||| t.predOf w o.b) s
/-- pxor (R152). -/
def execPxor (h : Hdr) (o : PBinOp) (s : State) : Out :=
  predWord (.pxor h o) o.d (fun t w => t.predOf w o.a ^^^ t.predOf w o.b) s
/-- pnot (R152). -/
def execPnot (h : Hdr) (o : PUnOp) (s : State) : Out := predWord (.pnot h o) o.d (fun t w => ~~~(t.predOf w o.a)) s

end Sys2Proof.Machine
end

