-- ==== Sys2Proof/Machine/Scalar.lean ====
section
/-! DEFINITION. The scalar integer words (R76–R80): their results, and one meaning each. -/

namespace Sys2Proof.Machine

/-! ## Results (R77, R79, R80): a = s[SA], b = s[SB], i the sign-extended immediate, n a shift immediate -/

/-- add: a + b. -/
def addVal (a b : Word) : Word := a + b
/-- sub: a − b. -/
def subVal (a b : Word) : Word := a - b
/-- mul: bits 63:0 of a × b. -/
def mulVal (a b : Word) : Word := a * b
/-- mulh: bits 127:64 of the signed product. -/
def mulhVal (a b : Word) : Word := BitVec.ofInt 64 (a.toInt * b.toInt / 2 ^ 64)
/-- mulhn: bits 127:64 of the unsigned product. -/
def mulhnVal (a b : Word) : Word := BitVec.ofNat 64 (a.toNat * b.toNat / 2 ^ 64)
/-- and: a and b. -/
def andVal (a b : Word) : Word := a &&& b
/-- or: a or b. -/
def orVal (a b : Word) : Word := a ||| b
/-- xor: a xor b. -/
def xorVal (a b : Word) : Word := a ^^^ b
/-- shl: a shifted left by b[5:0]. -/
def shlVal (a b : Word) : Word := a <<< (bits b 0 6).toNat
/-- shr: a shifted right by b[5:0], zeros in. -/
def shrVal (a b : Word) : Word := a >>> (bits b 0 6).toNat
/-- sar: a shifted right by b[5:0], sign bits in. -/
def sarVal (a b : Word) : Word := a.sshiftRight (bits b 0 6).toNat
/-- min: signed minimum. -/
def minVal (a b : Word) : Word := if a.slt b then a else b
/-- max: signed maximum. -/
def maxVal (a b : Word) : Word := if a.slt b then b else a
/-- minn: unsigned minimum. -/
def minnVal (a b : Word) : Word := if a.ult b then a else b
/-- maxn: unsigned maximum. -/
def maxnVal (a b : Word) : Word := if a.ult b then b else a
/-- seq: 1 if a = b. -/
def seqVal (a b : Word) : Word := flag64 (a == b)
/-- slt: 1 if a < b signed. -/
def sltVal (a b : Word) : Word := flag64 (a.slt b)
/-- sltn: 1 if a < b unsigned. -/
def sltnVal (a b : Word) : Word := flag64 (a.ult b)
/-- div: signed quotient toward zero, for b ≠ 0; −2^63 by −1 is no fault (R78). -/
def divVal (a b : Word) : Word := a.sdiv b
/-- divn: unsigned quotient, for b ≠ 0; −2^63 by −1 is no fault (R78). -/
def divnVal (a b : Word) : Word := a / b
/-- rem: signed remainder with the sign of a, for b ≠ 0; −2^63 by −1 is no fault (R78). -/
def remVal (a b : Word) : Word := a.srem b
/-- remn: unsigned remainder, for b ≠ 0; −2^63 by −1 is no fault (R78). -/
def remnVal (a b : Word) : Word := a % b
/-- addi: a + i. -/
def addiVal (a i : Word) : Word := a + i
/-- andi: a and i. -/
def andiVal (a i : Word) : Word := a &&& i
/-- ori: a or i. -/
def oriVal (a i : Word) : Word := a ||| i
/-- xori: a xor i. -/
def xoriVal (a i : Word) : Word := a ^^^ i
/-- shli: as shl, by the immediate. -/
def shliVal (a : Word) (n : Nat) : Word := a <<< n
/-- shri: as shr, by the immediate. -/
def shriVal (a : Word) (n : Nat) : Word := a >>> n
/-- sari: as sar, by the immediate. -/
def sariVal (a : Word) (n : Nat) : Word := a.sshiftRight n
/-- clz: count of leading zero bits. -/
def clzVal (a : Word) : Word := BitVec.ofNat 64 (64 - bitLen 64 a.toNat)
/-- popc: count of one bits. -/
def popcVal (a : Word) : Word := BitVec.ofNat 64 (popCount 64 a.toNat)
/-- bfx: the field of LEN bits at POS, extended (R79). -/
def bfxVal (a : Word) (pos len : Nat) (sx : Bool) : Word :=
  let f := (a >>> pos) &&& ((BitVec.allOnes 64) >>> (64 - len))
  if sx && len != 0 && f.getLsbD (len - 1) then f ||| ~~~((BitVec.allOnes 64) >>> (64 - len)) else f
/-- bfi: the low LEN bits of a in place of the field of d (R79). -/
def bfiVal (d a : Word) (pos len : Nat) : Word :=
  let m := ((BitVec.allOnes 64) >>> (64 - len)) <<< pos
  blend m (a <<< pos) d
/-- movhi: bits 49:25 or bits 63:50 of d replaced (R80). -/
def movhiVal (d : Word) : MovHi → Word
  | .mid _ i => (d.extractLsb' 50 14 ++ i ++ d.extractLsb' 0 25 : BitVec 64)
  | .top _ i => (i ++ d.extractLsb' 0 50 : BitVec 64)
def movhiDst : MovHi → SReg
  | .mid d _ => d
  | .top d _ => d

/-! ## Forms (R76) -/

/-- Register form: s[DST] ← f s[SA] s[SB], in `clk` splitter clk. -/
def regWord (h : Hdr) (o : RRR) (clk : Nat) (f : Word → Word → Word) : State → Out :=
  xword 0 h [.s o.a, .s o.b] [.s o.d] [] (xstep clk fun t => t.setS o.d (f (t.getS o.a) (t.getS o.b)))

/-- A division: a zero divisor raises class 18 and leaves the register (R78). -/
def divWord (h : Hdr) (o : RRR) (f : Word → Word → Word) : State → Out :=
  xword 0 h [.s o.a, .s o.b] [.s o.d] [] fun now c =>
    if c.tile.getS o.b = 0 then .trap c 18 0 none
    else xstep 24 (fun t => t.setS o.d (f (t.getS o.a) (t.getS o.b))) now c

/-- Immediate form. -/
def immWord (h : Hdr) (o : RRI) (f : Word → Word → Word) : State → Out :=
  xword 0 h [.s o.a] [.s o.d] [] (xstep 1 fun t => t.setS o.d (f (t.getS o.a) (o.imm.signExtend 64)))

/-- Shift by an immediate. -/
def shiftWord (h : Hdr) (o : RRS) (f : Word → Nat → Word) : State → Out :=
  xword 0 h [.s o.a] [.s o.d] [] (xstep 1 fun t => t.setS o.d (f (t.getS o.a) o.sh.toNat))

/-- Unary form. -/
def unWord (h : Hdr) (o : RR) (f : Word → Word) : State → Out :=
  xword 0 h [.s o.a] [.s o.d] [] (xstep 1 fun t => t.setS o.d (f (t.getS o.a)))

/-! ## Meanings -/

/-- add (R77). -/
def execAdd (h : Hdr) (o : RRR) (s : State) : Out := regWord h o 1 addVal s
/-- sub (R77). -/
def execSub (h : Hdr) (o : RRR) (s : State) : Out := regWord h o 1 subVal s
/-- mul (R77). -/
def execMul (h : Hdr) (o : RRR) (s : State) : Out := regWord h o 3 mulVal s
/-- mulh (R77). -/
def execMulh (h : Hdr) (o : RRR) (s : State) : Out := regWord h o 3 mulhVal s
/-- mulhn (R77). -/
def execMulhn (h : Hdr) (o : RRR) (s : State) : Out := regWord h o 3 mulhnVal s
/-- and (R77). -/
def execAnd (h : Hdr) (o : RRR) (s : State) : Out := regWord h o 1 andVal s
/-- or (R77). -/
def execOr (h : Hdr) (o : RRR) (s : State) : Out := regWord h o 1 orVal s
/-- xor (R77). -/
def execXor (h : Hdr) (o : RRR) (s : State) : Out := regWord h o 1 xorVal s
/-- shl (R77). -/
def execShl (h : Hdr) (o : RRR) (s : State) : Out := regWord h o 1 shlVal s
/-- shr (R77). -/
def execShr (h : Hdr) (o : RRR) (s : State) : Out := regWord h o 1 shrVal s
/-- sar (R77). -/
def execSar (h : Hdr) (o : RRR) (s : State) : Out := regWord h o 1 sarVal s
/-- min (R77). -/
def execMin (h : Hdr) (o : RRR) (s : State) : Out := regWord h o 1 minVal s
/-- max (R77). -/
def execMax (h : Hdr) (o : RRR) (s : State) : Out := regWord h o 1 maxVal s
/-- minn (R77). -/
def execMinn (h : Hdr) (o : RRR) (s : State) : Out := regWord h o 1 minnVal s
/-- maxn (R77). -/
def execMaxn (h : Hdr) (o : RRR) (s : State) : Out := regWord h o 1 maxnVal s
/-- seq (R77). -/
def execSeq (h : Hdr) (o : RRR) (s : State) : Out := regWord h o 1 seqVal s
/-- slt (R77). -/
def execSlt (h : Hdr) (o : RRR) (s : State) : Out := regWord h o 1 sltVal s
/-- sltn (R77). -/
def execSltn (h : Hdr) (o : RRR) (s : State) : Out := regWord h o 1 sltnVal s
/-- div (R77, R78). -/
def execDiv (h : Hdr) (o : RRR) (s : State) : Out := divWord h o divVal s
/-- divn (R77, R78). -/
def execDivn (h : Hdr) (o : RRR) (s : State) : Out := divWord h o divnVal s
/-- rem (R77, R78). -/
def execRem (h : Hdr) (o : RRR) (s : State) : Out := divWord h o remVal s
/-- remn (R77, R78). -/
def execRemn (h : Hdr) (o : RRR) (s : State) : Out := divWord h o remnVal s
/-- addi (R77). -/
def execAddi (h : Hdr) (o : RRI) (s : State) : Out := immWord h o addiVal s
/-- andi (R77). -/
def execAndi (h : Hdr) (o : RRI) (s : State) : Out := immWord h o andiVal s
/-- ori (R77). -/
def execOri (h : Hdr) (o : RRI) (s : State) : Out := immWord h o oriVal s
/-- xori (R77). -/
def execXori (h : Hdr) (o : RRI) (s : State) : Out := immWord h o xoriVal s
/-- shli (R77). -/
def execShli (h : Hdr) (o : RRS) (s : State) : Out := shiftWord h o shliVal s
/-- shri (R77). -/
def execShri (h : Hdr) (o : RRS) (s : State) : Out := shiftWord h o shriVal s
/-- sari (R77). -/
def execSari (h : Hdr) (o : RRS) (s : State) : Out := shiftWord h o sariVal s
/-- clz (R77). -/
def execClz (h : Hdr) (o : RR) (s : State) : Out := unWord h o clzVal s
/-- popc (R77). -/
def execPopc (h : Hdr) (o : RR) (s : State) : Out := unWord h o popcVal s
/-- bfx (R79). -/
def execBfx (h : Hdr) (o : BfOp) (s : State) : Out :=
  xword 0 h [.s o.a] [.s o.d] [] (xstep 1 fun t => t.setS o.d (bfxVal (t.getS o.a) o.pos.toNat o.len.toNat o.sx)) s
/-- bfi (R79). -/
def execBfi (h : Hdr) (o : BfOp) (s : State) : Out :=
  xword 0 h [.s o.d, .s o.a] [.s o.d] [] (xstep 1 fun t => t.setS o.d (bfiVal (t.getS o.d) (t.getS o.a) o.pos.toNat o.len.toNat)) s
/-- movi (R80). -/
def execMovi (h : Hdr) (d : SReg) (imm : BitVec 25) (s : State) : Out :=
  xword 0 h [] [.s d] [] (xstep 1 fun t => t.setS d (imm.signExtend 64)) s
/-- movhi (R80). -/
def execMovhi (h : Hdr) (o : MovHi) (s : State) : Out :=
  xword 0 h [.s (movhiDst o)] [.s (movhiDst o)] [] (xstep 1 fun t => t.setS (movhiDst o) (movhiVal (t.getS (movhiDst o)) o)) s

end Sys2Proof.Machine
end

