-- ==== Sys2Proof/Machine/Dispatch.lean ====
section
/-! DEFINITION. One arm for every instruction and step of the opcode table. -/

namespace Sys2Proof.Machine

def exec (i : Instr) (s : State) : Host.Outcome State Fault Refusal :=
  match i with
  | .nop h => Sys2Proof.Machine.execNop h s
  | .br h imm => Sys2Proof.Machine.execBr h imm s
  | .brc h o => Sys2Proof.Machine.execBrc h o s
  | .brp h o => Sys2Proof.Machine.execBrp h o s
  | .bri h a link => Sys2Proof.Machine.execBri h a link s
  | .call h imm => Sys2Proof.Machine.execCall h imm s
  | .ret h => Sys2Proof.Machine.execRet h s
  | .movi h d imm => Sys2Proof.Machine.execMovi h d imm s
  | .movhi h o => Sys2Proof.Machine.execMovhi h o s
  | .add h o => Sys2Proof.Machine.execAdd h o s
  | .sub h o => Sys2Proof.Machine.execSub h o s
  | .addi h o => Sys2Proof.Machine.execAddi h o s
  | .mul h o => Sys2Proof.Machine.execMul h o s
  | .mulh h o => Sys2Proof.Machine.execMulh h o s
  | .mulhn h o => Sys2Proof.Machine.execMulhn h o s
  | .div h o => Sys2Proof.Machine.execDiv h o s
  | .divn h o => Sys2Proof.Machine.execDivn h o s
  | .rem h o => Sys2Proof.Machine.execRem h o s
  | .remn h o => Sys2Proof.Machine.execRemn h o s
  | .and h o => Sys2Proof.Machine.execAnd h o s
  | .or h o => Sys2Proof.Machine.execOr h o s
  | .xor h o => Sys2Proof.Machine.execXor h o s
  | .andi h o => Sys2Proof.Machine.execAndi h o s
  | .ori h o => Sys2Proof.Machine.execOri h o s
  | .xori h o => Sys2Proof.Machine.execXori h o s
  | .shl h o => Sys2Proof.Machine.execShl h o s
  | .shr h o => Sys2Proof.Machine.execShr h o s
  | .sar h o => Sys2Proof.Machine.execSar h o s
  | .shli h o => Sys2Proof.Machine.execShli h o s
  | .shri h o => Sys2Proof.Machine.execShri h o s
  | .sari h o => Sys2Proof.Machine.execSari h o s
  | .min h o => Sys2Proof.Machine.execMin h o s
  | .max h o => Sys2Proof.Machine.execMax h o s
  | .minn h o => Sys2Proof.Machine.execMinn h o s
  | .maxn h o => Sys2Proof.Machine.execMaxn h o s
  | .clz h o => Sys2Proof.Machine.execClz h o s
  | .popc h o => Sys2Proof.Machine.execPopc h o s
  | .bfx h o => Sys2Proof.Machine.execBfx h o s
  | .bfi h o => Sys2Proof.Machine.execBfi h o s
  | .seq h o => Sys2Proof.Machine.execSeq h o s
  | .slt h o => Sys2Proof.Machine.execSlt h o s
  | .sltn h o => Sys2Proof.Machine.execSltn h o s
  | .lset h o => Sys2Proof.Machine.execLset h o s
  | .loopb h imm => Sys2Proof.Machine.execLoopb h imm s
  | .lexit h => Sys2Proof.Machine.execLexit h s
  | .movs h d r => Sys2Proof.Machine.execMovs h d r s
  | .amode h o => Sys2Proof.Machine.execAmode h o s
  | .amov h o => Sys2Proof.Machine.execAmov h o s
  | .waitt h a => Sys2Proof.Machine.execWaitt h a s
  | .waits h mask => Sys2Proof.Machine.execWaits h mask s
  | .waita h d a trap => Sys2Proof.Machine.execWaita h d a trap s
  | .rwaite h d g => Sys2Proof.Machine.execRwaite h d g s
  | .rwaitf h d g => Sys2Proof.Machine.execRwaitf h d g s
  | .mon h a => Sys2Proof.Machine.execMon h a s
  | .moncl h => Sys2Proof.Machine.execMoncl h s
  | .bar h lvl id => Sys2Proof.Machine.execBar h lvl id s
  | .rinit h d a b => Sys2Proof.Machine.execRinit h d a b s
  | .ldb h o => Sys2Proof.Machine.execLdb h o s
  | .ldh h o => Sys2Proof.Machine.execLdh h o s
  | .ldw h o => Sys2Proof.Machine.execLdw h o s
  | .ldd h o => Sys2Proof.Machine.execLdd h o s
  | .ldv h o => Sys2Proof.Machine.execLdv h o s
  | .ldvs h o => Sys2Proof.Machine.execLdvs h o s
  | .ldg h o => Sys2Proof.Machine.execLdg h o s
  | .lds h o => Sys2Proof.Machine.execLds h o s
  | .ldss h o => Sys2Proof.Machine.execLdss h o s
  | .ldmx h o => Sys2Proof.Machine.execLdmx h o s
  | .ldt h o => Sys2Proof.Machine.execLdt h o s
  | .kvlook h o => Sys2Proof.Machine.execKvlook h o s
  | .ixld h o => Sys2Proof.Machine.execIxld h o s
  | .pref h o => Sys2Proof.Machine.execPref h o s
  | .rfree h g => Sys2Proof.Machine.execRfree h g s
  | .mark h sc => Sys2Proof.Machine.execMark h sc s
  | .markS h sc => Sys2Proof.Machine.execMarkS h sc s
  | .fadd h o => Sys2Proof.Machine.execFadd h o s
  | .fsub h o => Sys2Proof.Machine.execFsub h o s
  | .fmul h o => Sys2Proof.Machine.execFmul h o s
  | .fma h o => Sys2Proof.Machine.execFma h o s
  | .fms h o => Sys2Proof.Machine.execFms h o s
  | .fnma h o => Sys2Proof.Machine.execFnma h o s
  | .fmin h o => Sys2Proof.Machine.execFmin h o s
  | .fmax h o => Sys2Proof.Machine.execFmax h o s
  | .fabs h o => Sys2Proof.Machine.execFabs h o s
  | .fneg h o => Sys2Proof.Machine.execFneg h o s
  | .fcpys h o => Sys2Proof.Machine.execFcpys h o s
  | .fdiv h o => Sys2Proof.Machine.execFdiv h o s
  | .fsqrt h o => Sys2Proof.Machine.execFsqrt h o s
  | .frcp h o => Sys2Proof.Machine.execFrcp h o s
  | .frsq h o => Sys2Proof.Machine.execFrsq h o s
  | .fexp2 h o => Sys2Proof.Machine.execFexp2 h o s
  | .flog2 h o => Sys2Proof.Machine.execFlog2 h o s
  | .fcmp h o => Sys2Proof.Machine.execFcmp h o s
  | .fclass h o => Sys2Proof.Machine.execFclass h o s
  | .fcvt h o => Sys2Proof.Machine.execFcvt h o s
  | .fscalb h o => Sys2Proof.Machine.execFscalb h o s
  | .icvt h o => Sys2Proof.Machine.execIcvt h o s
  | .iadd h o => Sys2Proof.Machine.execIadd h o s
  | .isub h o => Sys2Proof.Machine.execIsub h o s
  | .imul h o => Sys2Proof.Machine.execImul h o s
  | .imulh h o => Sys2Proof.Machine.execImulh h o s
  | .imad h o => Sys2Proof.Machine.execImad h o s
  | .imin h o => Sys2Proof.Machine.execImin h o s
  | .imax h o => Sys2Proof.Machine.execImax h o s
  | .iabs h o => Sys2Proof.Machine.execIabs h o s
  | .iand h o => Sys2Proof.Machine.execIand h o s
  | .ior h o => Sys2Proof.Machine.execIor h o s
  | .ixor h o => Sys2Proof.Machine.execIxor h o s
  | .inot h o => Sys2Proof.Machine.execInot h o s
  | .ishl h o => Sys2Proof.Machine.execIshl h o s
  | .ishr h o => Sys2Proof.Machine.execIshr h o s
  | .isar h o => Sys2Proof.Machine.execIsar h o s
  | .icmp h o => Sys2Proof.Machine.execIcmp h o s
  | .sel h o => Sys2Proof.Machine.execSel h o s
  | .movv h o => Sys2Proof.Machine.execMovv h o s
  | .bcast h o => Sys2Proof.Machine.execBcast h o s
  | .extr h o => Sys2Proof.Machine.execExtr h o s
  | .iota h o => Sys2Proof.Machine.execIota h o s
  | .perm h o => Sys2Proof.Machine.execPerm h o s
  | .shfl h o => Sys2Proof.Machine.execShfl h o s
  | .rdadd h o => Sys2Proof.Machine.execRdadd h o s
  | .rdmax h o => Sys2Proof.Machine.execRdmax h o s
  | .rdmin h o => Sys2Proof.Machine.execRdmin h o s
  | .scan h o => Sys2Proof.Machine.execScan h o s
  | .topk h o => Sys2Proof.Machine.execTopk h o s
  | .vhist h o => Sys2Proof.Machine.execVhist h o s
  | .okey h o => Sys2Proof.Machine.execOkey h o s
  | .okeyi h o => Sys2Proof.Machine.execOkeyi h o s
  | .digit h o => Sys2Proof.Machine.execDigit h o s
  | .pcnt h o => Sys2Proof.Machine.execPcnt h o s
  | .pand h o => Sys2Proof.Machine.execPand h o s
  | .por h o => Sys2Proof.Machine.execPor h o s
  | .pxor h o => Sys2Proof.Machine.execPxor h o s
  | .pnot h o => Sys2Proof.Machine.execPnot h o s
  | .mma h o => Sys2Proof.Machine.execMma h o s
  | .mmaw h o => Sys2Proof.Machine.execMmaw h o s
  | .aclr h mask => Sys2Proof.Machine.execAclr h mask s
  | .ard h o => Sys2Proof.Machine.execArd h o s
  | .awr h o => Sys2Proof.Machine.execAwr h o s
  | .adrn h o => Sys2Proof.Machine.execAdrn h o s
  | .mstat h o => Sys2Proof.Machine.execMstat h o s
  | .stb h o => Sys2Proof.Machine.execStb h o s
  | .sth h o => Sys2Proof.Machine.execSth h o s
  | .stw h o => Sys2Proof.Machine.execStw h o s
  | .std h o => Sys2Proof.Machine.execStd h o s
  | .stv h o => Sys2Proof.Machine.execStv h o s
  | .stvs h o => Sys2Proof.Machine.execStvs h o s
  | .stg h o => Sys2Proof.Machine.execStg h o s
  | .sts h o => Sys2Proof.Machine.execSts h o s
  | .stss h o => Sys2Proof.Machine.execStss h o s
  | .stmx h o => Sys2Proof.Machine.execStmx h o s
  | .stt h o => Sys2Proof.Machine.execStt h o s
  | .ixst h o => Sys2Proof.Machine.execIxst h o s
  | .atom h o => Sys2Proof.Machine.execAtom h o s
  | .acas h o => Sys2Proof.Machine.execAcas h o s
  | .red h o => Sys2Proof.Machine.execRed h o s
  | .rpub h g => Sys2Proof.Machine.execRpub h g s
  | .fence h sc => Sys2Proof.Machine.execFence h sc s
  | .cpy h o => Sys2Proof.Machine.execCpy h o s
  | .cpyf h o => Sys2Proof.Machine.execCpyf h o s
  | .cpyq h o => Sys2Proof.Machine.execCpyq h o s
  | .cred h o => Sys2Proof.Machine.execCred h o s
  | .cmc h o => Sys2Proof.Machine.execCmc h o s
  | .cbar h o => Sys2Proof.Machine.execCbar h o s
  | .unv h o => Sys2Proof.Machine.execUnv h o s
  | .patclr h o => Sys2Proof.Machine.execPatclr h o s
  | .cbld h o => Sys2Proof.Machine.execCbld h o s
  | .cbst h o => Sys2Proof.Machine.execCbst h o s
  | .cbget h o => Sys2Proof.Machine.execCbget h o s
  | .cbput h o => Sys2Proof.Machine.execCbput h o s
  | .cbcnt h o => Sys2Proof.Machine.execCbcnt h o s
  | .cbdedup h c => Sys2Proof.Machine.execCbdedup h c s
  | .ixremap h o => Sys2Proof.Machine.execIxremap h o s
  | .cbenc h o => Sys2Proof.Machine.execCbenc h o s
  | .cbdec h o => Sys2Proof.Machine.execCbdec h o s
  | .ixmov h o => Sys2Proof.Machine.execIxmov h o s
  | .cbpair h o => Sys2Proof.Machine.execCbpair h o s
  | .ixpair h o => Sys2Proof.Machine.execIxpair h o s
  | .ixhist h o => Sys2Proof.Machine.execIxhist h o s
  | .reclust h o => Sys2Proof.Machine.execReclust h o s
  | .bsget h o => Sys2Proof.Machine.execBsget h o s
  | .trap h brk imm => Sys2Proof.Machine.execTrap h brk imm s
  | .tret h => Sys2Proof.Machine.execTret h s
  | .mfs h o => Sys2Proof.Machine.execMfs h o s
  | .mts h o => Sys2Proof.Machine.execMts h o s
  | .rqrd h o => Sys2Proof.Machine.execRqrd h o s
  | .rqrel h n => Sys2Proof.Machine.execRqrel h n s
  | .rqdrop h n => Sys2Proof.Machine.execRqdrop h n s
  | .phase h a => Sys2Proof.Machine.execPhase h a s
  | .icflush h a b => Sys2Proof.Machine.execIcflush h a b s
  | .halt h => Sys2Proof.Machine.execHalt h s
  | .resultWrite => Sys2Proof.Machine.execResultWrite s
  | .accessPerform f q k e => Sys2Proof.Machine.execAccessPerform f q k e s
  | .accessResponse k => Sys2Proof.Machine.execAccessResponse k s
  | .atomicStep f k e => Sys2Proof.Machine.execAtomicStep f k e s
  | .tileOperationPerform f q k => Sys2Proof.Machine.execTileOperationPerform f q k s
  | .watchWake => Sys2Proof.Machine.execWatchWake s
  | .tokenDeadlock => Sys2Proof.Machine.execTokenDeadlock s
  | .trapEntry => Sys2Proof.Machine.execTrapEntry s
  | .handlerFault => Sys2Proof.Machine.execHandlerFault s
  | .trapReturn => Sys2Proof.Machine.execTrapReturn s
  | .snapshotWrite => Sys2Proof.Machine.execSnapshotWrite s
  | .waittWake => Sys2Proof.Machine.execWaittWake s
  | .waitaDeadline => Sys2Proof.Machine.execWaitaDeadline s
  | .monitorRegistrationAck => Sys2Proof.Machine.execMonitorRegistrationAck s
  | .barrierArrival f => Sys2Proof.Machine.execBarrierArrival f s
  | .barrierRelease id => Sys2Proof.Machine.execBarrierRelease id s
  | .ringRegistrationAnswer => Sys2Proof.Machine.execRingRegistrationAnswer s
  | .ringClaimGrant => Sys2Proof.Machine.execRingClaimGrant s
  | .promiseWrite => Sys2Proof.Machine.execPromiseWrite s
  | .commandStart eng => Sys2Proof.Machine.execCommandStart eng s
  | .commandAcquire eng => Sys2Proof.Machine.execCommandAcquire eng s
  | .commandAccess eng write k => Sys2Proof.Machine.execCommandAccess eng write k s
  | .commandCompletion eng => Sys2Proof.Machine.execCommandCompletion eng s
  | .cpyfLineFill => Sys2Proof.Machine.execCpyfLineFill s
  | .readCountExpiry line => Sys2Proof.Machine.execReadCountExpiry line s
  | .unveilStateBlockRead => Sys2Proof.Machine.execUnveilStateBlockRead s
  | .unveilRound => Sys2Proof.Machine.execUnveilRound s
  | .patclrClear => Sys2Proof.Machine.execPatclrClear s
  | .contributionArrival src => Sys2Proof.Machine.execContributionArrival src s
  | .matrixCommandStart => Sys2Proof.Machine.execMatrixCommandStart s
  | .kStepCompletion => Sys2Proof.Machine.execKStepCompletion s
  | .matrixCommandCompletion => Sys2Proof.Machine.execMatrixCommandCompletion s
  | .ardSnapshot => Sys2Proof.Machine.execArdSnapshot s
  | .phaseProceed => Sys2Proof.Machine.execPhaseProceed s
  | .phaseCommit => Sys2Proof.Machine.execPhaseCommit s
  | .phaseCancellation => Sys2Proof.Machine.execPhaseCancellation s
  | .strikeReport => Sys2Proof.Machine.execStrikeReport s
  | .pageTableWalk va => Sys2Proof.Machine.execPageTableWalk va s
  | .compressedBlockRecovery pa t => Sys2Proof.Machine.execCompressedBlockRecovery pa t s
  | .strandRetirement => Sys2Proof.Machine.execStrandRetirement s
  | .preemption => Sys2Proof.Machine.execPreemption s
  | .csctlGo => Sys2Proof.Machine.execCsctlGo s
  | .ccommit die cluster val => Sys2Proof.Machine.execCcommit die cluster val s
  | .strandStart die cluster => Sys2Proof.Machine.execStrandStart die cluster s
  | .launchRecord die pair => Sys2Proof.Machine.execLaunchRecord die pair s
  | .launchQueueSignal hart iid => Sys2Proof.Machine.execLaunchQueueSignal hart iid s
  | .completionRecord die pair => Sys2Proof.Machine.execCompletionRecord die pair s
  | .heartbeatPeriod => Sys2Proof.Machine.execHeartbeatPeriod s
  | .heartbeat src flit crcOk => Sys2Proof.Machine.execHeartbeat src flit crcOk s
  | .vote src flit => Sys2Proof.Machine.execVote src flit s
  | .fenceNotice src flit => Sys2Proof.Machine.execFenceNotice src flit s
  | .selfTestCompletion pass => Sys2Proof.Machine.execSelfTestCompletion pass s
  | .appeal src flit crcOk => Sys2Proof.Machine.execAppeal src flit crcOk s
  | .readmitVote src flit => Sys2Proof.Machine.execReadmitVote src flit s
  | .readmit => Sys2Proof.Machine.execReadmit s
  | .force => Sys2Proof.Machine.execForce s
  | .orphcntRead die => Sys2Proof.Machine.execOrphcntRead die s
  | .bclostRead die => Sys2Proof.Machine.execBclostRead die s
  | .bstatWrite die bank val => Sys2Proof.Machine.execBstatWrite die bank val s
  | .membercfgWrite val => Sys2Proof.Machine.execMembercfgWrite val s
  | .queuePairEnable die pair val => Sys2Proof.Machine.execQueuePairEnable die pair val s
  | .tinvcGo die val => Sys2Proof.Machine.execTinvcGo die val s
  | .invalidationComplete die => Sys2Proof.Machine.execInvalidationComplete die s
  | .fwctlGo => Sys2Proof.Machine.execFwctlGo s
  | .enrolKey slot hash by_ => Sys2Proof.Machine.execEnrolKey slot hash by_ s
  | .revokeSlot slot by_ => Sys2Proof.Machine.execRevokeSlot slot by_ s
  | .raiseSvnFloor floor by_ => Sys2Proof.Machine.execRaiseSvnFloor floor by_ s
  | .setVlock by_ => Sys2Proof.Machine.execSetVlock by_ s
  | .attestationRequest nonce => Sys2Proof.Machine.execAttestationRequest nonce s
  | .bar2Access off req => Sys2Proof.Machine.execBar2Access off req s
  | .remoteRequest f q k e => Sys2Proof.Machine.execRemoteRequest f q k e s
  | .clockReferenceLoss => Sys2Proof.Machine.execClockReferenceLoss s
  | .thermalStop die => Sys2Proof.Machine.execThermalStop die s
  | .powerUp => Sys2Proof.Machine.execPowerUp s
  | .registerWrite off val => Sys2Proof.Machine.execRegisterWrite off val s
  | .wordSplit => Sys2Proof.Machine.execWordSplit s
  | .variableLatencyCompletion k => Sys2Proof.Machine.execVariableLatencyCompletion k s
  | .lineEviction line => Sys2Proof.Machine.execLineEviction line s
  | .ownerAcknowledgement => Sys2Proof.Machine.execOwnerAcknowledgement s
  | .monclAcknowledgement => Sys2Proof.Machine.execMonclAcknowledgement s
  | .contextImageDone => Sys2Proof.Machine.execContextImageDone s
  | .firmwareLoadCompletion => Sys2Proof.Machine.execFirmwareLoadCompletion s
  | .brodnisPortTraining die port up => Sys2Proof.Machine.execBrodnisPortTraining die port up s
  | .timeBeacon val => Sys2Proof.Machine.execTimeBeacon val s
  | .sealRequest r => Sys2Proof.Machine.execSealRequest r s

end Sys2Proof.Machine
end

