-- ==== Sys2Proof/Machine/Step.lean ====
section
/-! DEFINITION. One step of the machine: a turn of the agenda (log entry 1), or the default turn (log entry 2); before a clk is left, the
words that can issue in it do (log entry 74). -/

namespace Sys2Proof.Machine

/-- A word of the table is a word of a program, and no step of the machine. -/
def isWord (i : Instr) : Bool := i.eng.isSome

/-- A cascade barrier. -/
def isBar : Instr → Bool
  | .bar .. => true
  | _ => false

/-- A queue tries to issue its head (R50); the S part of a bar is its arrival (R266). -/
def stepIssue (q : Queue) (s : State) : Out :=
  match s.chip.tile.frame.queue q with
  | [] => .next s
  | w :: _ =>
    match w.what with
    | .ok i => if q == .s && isBar i then exec (.barrierArrival s.chip.tile.cur) s else exec i s
    | .bad _ => .next { s with chip := s.chip.faultHead s.clk q }

/-! ## What issues of itself (R332, R333) -/

/-- The state as a tile stands in it at its clk. -/
def State.look (s : State) (n : TileId) : State := { s with chip := { s.chip with focus := n }.settleTile s.clk }

/-- The issue of a queue's head in this clk: the state after it; none where the word does not issue. -/
def State.tryIssue (s : State) (q : Queue) : Option State :=
  let f := s.chip.tile.cur
  let size (s : State) : Nat := ((s.chip.tile.frameOf f).queue q).length
  if !s.chip.tile.frame.headDue s.clk q then none
  else
    match stepIssue q s with
    | .next s' => if size s' < size s then some s' else none
    | .fault _ | .refused _ => none

/-- A tile whose head of a queue issues in this clk: the tiles in their order, of each the queues L, C, S and A. -/
def State.dueIssue (s : State) : Option State :=
  (s.chip.tiles.toList.zipIdx.findSome? fun x =>
    if allQueues.all (fun q => !x.1.frame.headDue s.clk q) then none else allQueues.findSome? (s.look (BitVec.ofNat 8 x.2)).tryIssue).map fun s' =>
    { s' with chip := { s'.chip with focus := s.chip.focus } }

/-- A tile whose clk ends with a trap or a freeze: one that has raised it, or whose results of this clk do. -/
def State.dueEnd (s : State) : Option State :=
  s.chip.tiles.toList.zipIdx.findSome? fun x =>
    if x.1.trap.isNone && !x.1.freezing && allQueues.all (fun q => !x.1.frame.headDue s.clk q) then none
    else
      let s' := s.look (BitVec.ofNat 8 x.2)
      if s'.chip.tile.endsClk then some { s' with chip := { s'.chip.upd (fun t => t.endClk s.clk) with focus := s.chip.focus } } else none

/-- Some tile has a word in a queue of its frame in force. -/
def State.anyQueued (s : State) : Bool := s.chip.tiles.any fun t => allQueues.any fun q => !(t.frame.queue q).isEmpty

/-- Clk to the next one at which the machine does of itself what is on offer (R332, log entry 74). -/
def State.toBound (s : State) : Nat := 2 ^ 18 - s.clk % 2 ^ 18

/-- The splitter takes the word at its PC: an X word is executed; a queue word goes to its queue, and where the turn runs it tries to
issue in the next clk, if no other word is to issue first. -/
def stepWord (run : Bool) (w : IWord) (s : State) : Out :=
  let queued : State := { s with chip := s.chip.splitQueueWord s.clk w }
  match decode w with
  | .error _ => .next queued
  | .ok i =>
    if isX i then exec i s
    else if run && queued.dueIssue.isNone && queued.dueEnd.isNone && s.toBound != 1 then exec i queued.tick else .next queued

/-- The act of fetching. -/
def stepFetch (run : Bool) (s : State) : Out :=
  if !s.chip.tile.canSplit s.clk then .next s
  else
    match s.chip.fetchWord with
    | (c, .word w) => stepWord run w { s with chip := c }
    | (c, .bad cls tval) => .next { s with chip := c.splitFault s.clk cls 0 tval }
    | (c, .busy) => .next { s with chip := c }

/-- The bound within which the model's splitter takes a word that it can take: half of the 2^20 clk promised (R332, log entry 74). -/
def splitBound : Nat := 2 ^ 19

/-- A tile whose splitter has stood ready for that long takes its next word. -/
def State.dueSplit (s : State) : Option State :=
  (s.chip.tiles.toList.zipIdx.findSome? fun x =>
    if x.1.canSplit s.clk && decide (x.1.frame.free + splitBound ≤ s.clk) then
      match stepFetch false (s.look (BitVec.ofNat 8 x.2)) with
      | .next s' => if s'.chip.nextId = s.chip.nextId then none else some s'
      | .fault _ | .refused _ => none
    else none).map fun s' => { s' with chip := { s'.chip with focus := s.chip.focus } }

/-- What the machine does before the clk is left, whatever the agenda holds: what can issue issues, and then the traps and freezes of the clk are
taken (R292). -/
def State.due (s : State) : Option State := s.dueIssue <|> s.dueEnd <|> s.dueSplit

/-- Some strand runs, or something is on offer at a tile. -/
def State.busy (s : State) : Bool := s.chip.tiles.any fun t => t.active || !(offers s.clk t).isEmpty

/-- One event of a tile; what would stop the machine does nothing. -/
def State.tryEvent (s : State) : Act → State
  | .event i => match exec i s with
    | .next s' => s'
    | .fault _ | .refused _ => s
  | .fetch | .run | .issue _ => s

/-- Every tile does what is on offer at it, each act once: so no resource is waited for without end (R332). -/
def State.work (s : State) : State :=
  let s' := (List.range 256).foldl (fun (s : State) n =>
    let s' := s.look (BitVec.ofNat 8 n)
    match offers s.clk s'.chip.tile with
    | [] => s
    | l => l.foldl State.tryEvent s') s
  { s' with chip := { s'.chip with focus := s.chip.focus } }

/-- An act, at the state its turn has begun; a word of the table is never an event. -/
def stepAct (a : Act) (s : State) : Out :=
  match a with
  | .fetch => stepFetch false s
  | .run => stepFetch true s
  | .issue q => stepIssue q s
  | .event i => if isWord i then .next s else exec i s

/-- A turn taken and its act done. -/
def State.take (s : State) (u : Turn) (rest : List Turn) : Out := stepAct u.act (s.begin u rest)

/-- Some of a turn's clk pass. -/
def State.pass (s : State) (u : Turn) (rest : List Turn) (n : Nat) : State :=
  { s with clk := s.clk + n, agenda := { u with ticks := u.ticks - n } :: rest }

/-- A turn that lets clk pass: first what is due in this clk; while words are queued the clk pass one at a time, and while a strand runs the
machine does what is on offer at every 2^18th (R332, log entry 74). -/
def State.turn (s : State) (u : Turn) (rest : List Turn) : Out :=
  match s.due with
  | some s' => .next s'
  | none =>
    if s.busy ∧ s.toBound ≤ u.ticks ∧ (s.toBound = 1 ∨ !s.anyQueued) then .next (s.pass u rest s.toBound).work
    else if 1 < u.ticks ∧ s.anyQueued then .next (s.pass u rest 1)
    else s.take u rest

/-- One step. -/
def step (s : State) : Host.Outcome State Fault Refusal :=
  match s.agenda with
  | u :: rest => if u.ticks = 0 then s.take u rest else s.turn u rest
  | [] => s.turn s.defaultTurn []

/-- s with a table row's word where step fetches its next instruction (log entry 14); a row with no bits is a step of the machine,
whose turn the agenda holds. -/
def State.withFetchWord (s : State) (nbits w : Nat) : State :=
  { s with agenda := [], chip := s.chip.place (BitVec.ofNat 80 (w % 2 ^ nbits)) }

end Sys2Proof.Machine
end

