-- ==== Sys2Proof/Safety.lean ====
section
/-! DEFINITION. The terms of the claims: a state whose memories are sound, when a word takes its own effect, and what an executed
X word and an issued queue word leave beside it. -/

namespace Sys2Proof.Machine

/-! ## Sound memories -/

/-- HBM and host memory stand in their canonical form. -/
def Chip.memOk (c : Chip) : Prop := c.mem.wf = true ∧ c.host.wf = true
def State.memOk (s : State) : Prop := s.chip.memOk

/-- The byte of HBM at a key of `Chip.mem`. -/
def State.byteAt (s : State) (k : Nat) : Byte := s.chip.mem.get k
/-- The tile the turn concerns. -/
def State.tile (s : State) : Tile := s.chip.tile

/-- A turn at the head of the agenda is taken in this step: no clk passes with it, or nothing is due first, its clk pass at once, and none of them is
one at which a strand's machine does what is on offer (log entry 74). -/
abbrev State.takes (s : State) (u : Turn) : Prop :=
  u.ticks = 0 ∨ (s.due = none ∧ (u.ticks ≤ 1 ∨ s.anyQueued = false) ∧ (s.busy = false ∨ u.ticks < s.toBound))

/-- A step that did not fault and was not refused. -/
def ran : Out → Bool
  | .next _ => true
  | .fault _ | .refused _ => false

/-! ## X words (R47, R49, R50, R55, R57, R73) -/

/-- The splitter executes an X word in this clk: its clocks, tags and holds let the word go, no SRAM unit of the tile has failed, and
bit 0 of its effective predicate is one. -/
structure XReady (s : State) (h : Hdr) (ws rs : List RegRef) : Prop where
  ready : s.chip.tile.readyX s.clk h ws rs = true
  clean : s.chip.tile.sramUe = []
  pred : (s.chip.tile.effPredX h).getLsbD 0 = true

/-- The state with its tile changed, and the word that did it counted. -/
def State.split (s : State) (f : Tile → Tile) : State :=
  { s with chip := { s.chip with nextId := s.chip.nextId + 1 }.upd f }

/-- The clk of a result of the user frame, as its phase counts it (R309). -/
def Tile.resultAt (t : Tile) (now : Nat) : Tile := if t.mode = .user then t.phaseResult now else t

/-- The splitter goes on at a PC, and is taken for some clk. -/
def Tile.goOn (t : Tile) (now pc clk : Nat) : Tile :=
  Tile.resultAt { t.updFrame (fun r => { r with free := Nat.max r.free (now + clk) }) with pc := pc, quiet := now } now

/-- The state after an X word that goes on at a PC and takes the splitter for some clk. -/
def State.splitTo (s : State) (pc clk : Nat) (f : Tile → Tile) : State := s.split fun t => (f t).goOn s.clk pc clk

/-- The state after an X word that falls through. -/
def State.splitNext (s : State) (clk : Nat) (f : Tile → Tile) : State := s.splitTo (s.chip.tile.pc + 1) clk f

/-- The state after an X word that raises a class (R293): the word's own cause with TVAL, TPC at the word. -/
def State.splitTrap (s : State) (eng cls : Nat) (tval : Word) (f : Tile → Tile) : State :=
  s.split fun t => ((f t).stops s.clk).raise t.cur
    { code := causeCode cls eng, pc := t.pc, tval := tval, rq := none, xw := true, id := s.chip.nextId } (some t.pc)

/-- The state after an X word that waits: the word holds the splitter, and the next stands behind it. -/
def State.splitWait (s : State) (w : Wait) (f : Tile → Tile) : State :=
  s.split fun t => { (f t).updFrame (fun r => { r with
    wait := some ⟨s.chip.nextId, t.pc, t.wordAt t.pc, w, false⟩, free := s.clk + 1 }) with pc := t.pc + 1, quiet := s.clk }

/-! ## Queue words (R50–R57) -/

/-- The word at the head of a queue issues in this clk and its predicate enables it: R50's conditions hold, its queue registers are
ready, no plane it reads or writes is reserved, its unit accepts it, no phase is being cancelled, no SRAM unit of the tile has failed, nor
had one of the stage predicates that its split read. -/
structure QReady (s : State) (q : Queue) (i : Instr) (k : Pred) (res : Nat → QWord → Chip → Bool) (w : QWord) (rest : List QWord) : Prop where
  head : s.chip.tile.frame.queue q = w :: rest
  what : w.what = .ok i
  ready : s.chip.tile.readyQ s.clk q w i.hdr = true
  pred : predOn k (s.chip.tile.effPred w i.hdr) = true
  regs : qregsReady s.clk s.chip.tile.frame i = true
  planes : s.chip.tile.planesHeld w.id i = false
  unit : res s.clk w s.chip = true
  going : s.chip.tile.cancelling = false
  clean : s.chip.tile.sramUe = []
  stage : w.ue = false

/-- The module with the word at the head of a queue issued, and nothing else done (R50, R52, R61). -/
def State.issued (s : State) (q : Queue) (i : Instr) (rest : List QWord) : Chip :=
  s.chip.upd fun t => (t.issue s.clk q rest i.hdr).updFrame fun f => popRegs s.clk f (readsOf i)

/-- The state with another module. -/
def State.withChip (s : State) (c : Chip) : State := { s with chip := c }

/-! ## Vector words (R126–R131) -/

/-- The state after a VEC word of fixed latency has issued: the vector unit is taken for `occ` clk, its writes and its flags are due
`lat` clk later. -/
def State.vecDone (s : State) (i : Instr) (w : QWord) (rest : List QWord) (occ lat : Nat) (writes : List RegWrite) (fl : FFlags) : State :=
  s.withChip (((s.issued .c i rest).takeV s.clk occ).result s.clk lat w i.hdr.sba writes fl)

/-- What an element-wise word on elements of `n` bits writes under a predicate (R23, R128): the bits of the enabled elements, f of each of
them, zero in the others, and the flags of the enabled ones alone. -/
structure Elementwise (n : Nat) (p : Word) (f : Nat → FRes) (mask val : VWord) (fl : FFlags) : Prop where
  mask : ∀ e < 2048 / n, ∀ b < n, mask.getLsbD (n * e + b) = p.getLsbD (laneOf n e)
  val : ∀ e < 2048 / n, elemN n val e = if p.getLsbD (laneOf n e) then (f e).bits % 2 ^ n else 0
  flags : ∀ k, fl.getLsbD k = true ↔ ∃ e < 2048 / n, p.getLsbD (laneOf n e) = true ∧ (f e).fl.getLsbD k = true

/-- An element-wise word answers a next state: it has issued, and its enabled elements are due in its destination (R128, R129). -/
def State.answersElements (s : State) (i : Instr) (w : QWord) (rest : List QWord) (occ lat n : Nat) (d : VDst) (f : Nat → FRes) : Prop :=
  ∃ (mask val : VWord) (fl : FFlags), Elementwise n (s.tile.effPred w i.hdr) f mask val fl ∧
    exec i s = .next (s.vecDone i w rest occ lat
      [match d with | .v r => .v (physV w.vrb r) mask val | .qo r => .qo r w.id val] fl)

/-- An exact integer reduced once to an integer type (R24). -/
def reduced (ty : Ty) (sat : Bool) (z : Int) : Nat :=
  let lo : Int := if tySigned ty then -(2 ^ (tyWidth ty - 1)) else 0
  let hi : Int := if tySigned ty then 2 ^ (tyWidth ty - 1) - 1 else 2 ^ tyWidth ty - 1
  (BitVec.ofInt (tyWidth ty) (if sat then max lo (min z hi) else z)).toNat

/-- The present elements of a source (R145), with their numbers. -/
def Tile.present (t : Tile) (w : QWord) (h : Hdr) (ty : Ty) (a : VSrc) : List (Nat × Nat) :=
  (List.range (2048 / tyWidth ty)).filterMap fun e =>
    if (t.effPred w h).getLsbD (laneOf (tyWidth ty) e) then some (e, elemN (tyWidth ty) (t.vsrc w a) e) else none

/-! ## Rounding (R27, R28, R30) -/

/-- q · 2^k is num / den rounded to a multiple of 2^k in a mode; `bottom`: below q the numbers lie twice as close. -/
def roundedTo (rnd : Rnd) (neg : Bool) (num den : Nat) (k : Int) (q : Nat) (bottom : Bool) : Prop :=
  let x : Int := num * 2 ^ (-k).toNat
  let u : Int := den * 2 ^ k.toNat
  let down : Prop := q * u ≤ x ∧ x < (q + 1) * u
  let away : Prop := x ≤ q * u ∧ (if bottom then (2 * q - 1) * u < 2 * x else (q - 1) * u < x)
  match rnd with
  | .rtz => down
  | .rdn => if neg then away else down
  | .rup => if neg then down else away
  | .rne => 2 * (q * u - x).natAbs ≤ u ∧ (2 * (q * u - x).natAbs = u → q % 2 = 0) ∧ (bottom = true → x ≤ q * u → 4 * (q * u - x) ≤ u)

/-- A result is the nonzero value num / den of a sign, rounded once to the format with unbounded exponent range, and then handled as R30, R27
and R28 say. -/
def Fmt.Rounds (f : Fmt) (md : FMode) (neg : Bool) (num den : Nat) (r : FRes) : Prop :=
  let bias : Int := 2 ^ (f.eb - 1) - 1
  let sign : Nat := if neg then 2 ^ (f.eb + f.fb) else 0
  let inf : Nat := sign + (2 ^ f.eb - 1) * 2 ^ f.fb
  let exact (q : Nat) (k : Int) : Prop := q * den * 2 ^ k.toNat = num * 2 ^ (-k).toNat
  ∃ (q : Nat) (x : Int), 2 ^ f.fb ≤ q ∧ q < 2 ^ (f.fb + 1) ∧ roundedTo md.rnd neg num den (x - f.fb) q (q == 2 ^ f.fb) ∧
    (bias < x → r = ⟨if md.sat = false ∧ (md.rnd = .rne ∨ (md.rnd = .rdn ∧ neg = true) ∨ (md.rnd = .rup ∧ neg = false)) then inf else inf - 1, 5⟩) ∧
    (1 - bias ≤ x → x ≤ bias →
      r.bits = sign + (x + bias).toNat * 2 ^ f.fb + (q - 2 ^ f.fb) ∧ (exact q (x - f.fb) → r.fl = 0) ∧ (¬exact q (x - f.fb) → r.fl = 1)) ∧
    (x < 1 - bias → md.flush = true → r = ⟨sign, 3⟩) ∧
    (x < 1 - bias → md.flush = false → ∃ j : Nat, roundedTo md.rnd neg num den (1 - bias - f.fb) j false ∧
      r.bits = sign + j ∧ (exact j (1 - bias - f.fb) → r.fl = 0) ∧ (¬exact j (1 - bias - f.fb) → r.fl = 3))

/-! ## Words that access memory, at their issue (R98–R109) -/

/-- A word has issued and its post-increment register has advanced (R101). -/
def State.advanced (s : State) (q : Queue) (i : Instr) (rest : List QWord) (adv : Option AReg) : Chip :=
  (s.issued q i rest).upd fun t => match adv with
    | some r => t.advance r
    | none => t

/-- A word has issued and its access stands in its FIFO: its port is taken for `n` clk, the entries of the queue registers it writes are
reserved (R61, R108, R109). -/
def State.entered (s : State) (q : Queue) (f : Fifo) (i : Instr) (w : QWord) (rest : List QWord) (adv : Option AReg) (n : Nat)
    (resv : List RegRef) (a : Access) : State :=
  s.withChip ((((s.advanced q i rest adv).upd fun t => t.takePort f (s.clk + n)).upd fun t =>
    t.updFrame fun fr => reserveRegs fr w.id resv).pushAccess f a)

/-- A word has issued and fails at its issue: it performs nothing, writes its tag and raises its class (R54, R293). -/
def State.refusedAt (s : State) (q : Queue) (i : Instr) (w : QWord) (rest : List QWord) (adv : Option AReg) (cls eng : Nat)
    (tval : Word) : State :=
  s.withChip ((s.advanced q i rest adv).issueFault w i.hdr.sba cls eng tval)

/-- A word has issued inside a guarded phase and its store is appended to the phase's log of `rec` more bytes, or finds no room there and
raises class 21 (R311); the record's bytes in the log's rows are free values (log entry 26). -/
def State.logged (s : State) (q : Queue) (i : Instr) (w : QWord) (rest : List QWord) (adv : Option AReg) (n eng rec : Nat) (p : PhaseState)
    (a : Access) : State :=
  let c := (s.advanced q i rest adv).upd fun t => t.takePort .s (s.clk + n)
  s.withChip (if logRoom s.tile < p.fill + rec then c.issueFault w 0 21 eng 0
    else (c.upd fun t => t.logRecord s.chip.freeCnt p rec a).tickFree)

/-! ## The machine's own steps -/

/-- The state with the tile in focus changed. -/
def State.onTile (s : State) (f : Tile → Tile) : State := s.withChip (s.chip.upd f)

/-- The word that holds the splitter lets it go in this clk, at the word behind it (R94), and then raises class 19 if it has consumed
zeros (R338). -/
def Tile.letGo (t : Tile) (now : Nat) (w : HeldWord) : Tile :=
  let t := (t.resultAt now).updFrame fun f => { f with wait := none, free := Nat.max (now + 1) f.free }
  { (if w.ue then t.raise t.cur w.ueCause none else t) with quiet := now }

/-- The word that holds the splitter raises a class of its own, with TPC at the word (R293), and then class 19 if it has consumed zeros. -/
def Tile.letFail (t : Tile) (now : Nat) (w : HeldWord) (cls : Nat) (tval : Word) : Tile :=
  let c : Cause := { code := causeCode cls 0, pc := w.pc, tval := tval, rq := none, xw := true, id := w.id }
  let u := (t.updFrame fun f => { f with wait := none, free := Nat.max (now + 1) f.free }).raiseBy t.cur c (some w.pc) (w.heldOver c)
  if w.ue then u.raise t.cur w.ueCause none else u

end Sys2Proof.Machine
end

