-- ==== Sys2Proof/Certificates/Slice0/Obligations.lean ====
section
/-! DEFINITION. The statements of this model for the provers. -/

open Sys2Proof Sys2Proof.Machine

/-! ## The encoding (R45, R58, R72) -/

/-- Every well-formed instruction of a program has a word, and its word decodes to it: no operand bit is dropped. A step of the machine that
no word names has none. -/
def Obligations.DecodeOfEncode : Prop :=
  ∀ i : Instr, (i.wf = true → i.eng.isSome = true → ∃ w : IWord, encode i = some w ∧ decode w = .ok i) ∧ (i.eng = none → encode i = none)

/-- Every accepted word decodes to a well-formed instruction whose word it is: each word has one meaning, and no two words have the same. -/
def Obligations.EncodeOfDecode : Prop :=
  ∀ (w : IWord) (i : Instr), decode w = .ok i → i.wf = true ∧ encode i = some w

/-- The words that the spec writes out decode to the instructions it writes them for: brc.lt s3, s4, −6; movs s6, iter1; mfs s5, vflags;
tret; mark .p; trap 18. -/
def Obligations.PrintedWordsDecode : Prop :=
  (decode 0x0040000004868801FFFA).toOption = some (.brc .zero ⟨.lt, 3, 4, -6⟩) ∧
  (decode 0x076000008C0000000003).toOption = some (.movs .zero 6 .iter1) ∧
  (decode 0xE04000008A0000000000).toOption = some (.mfs .zero ⟨5, .vflags, false⟩) ∧
  (decode 0xE0200000000000000000).toOption = some (.tret .zero) ∧
  (decode 0x21E00000000000000003).toOption = some (.mark .zero .p) ∧
  (decode 0xE0000000000000000012).toOption = some (.trap .zero false 18)

/-- An (ENG, OPC) pair is unassigned exactly where the tables of R71 leave it so, and then the word is refused with class 0, whose
cause code is the ENG. -/
def Obligations.UnassignedOpcodesRaiseClassZero : Prop :=
  ∀ f : Fields,
    let n := f.opc.toNat
    let free : Bool :=
      (f.eng == 0 && ((9 ≤ n && n < 0x10) || (0x31 ≤ n && n < 0x38) || (0x3E ≤ n && n < 0x40) || 0x49 ≤ n)) ||
      (f.eng == 1 && 0x10 ≤ n) ||
      (f.eng == 2 && ((0x16 ≤ n && n < 0x20) || (0x30 ≤ n && n < 0x40) || (0x47 ≤ n && n < 0x50) || (0x59 ≤ n && n < 0x60) || 0x65 ≤ n)) ||
      (f.eng == 3 && 7 ≤ n) || (f.eng == 4 && 0x12 ≤ n) || (f.eng == 5 && 8 ≤ n) || (f.eng == 6 && 0xF ≤ n) || (f.eng == 7 && 0xA ≤ n)
    (decodeFields f = .error .opcode ↔ free = true) ∧ DecErr.opcode.cls = 0 ∧ causeCode DecErr.opcode.cls f.eng.toNat = f.eng.setWidth 8

/-! ## The step (R47, R50) -/

/-- A step is its turn's act, the agenda's order being the model's choice (log entry 1): where the splitter can take a word and the bytes at
its PC decode to an X word, the step executes it; to a queue word, the word goes to its queue and, if the turn runs it and no other word is due
first and no trap or freeze ends the clk (log entry 74), is executed one clk later; bytes that decode to no word go to their fault; a turn that issues a queue executes the
instruction at its head, the S part of a bar being its arrival; a turn of the machine's own executes its step. Before its clk is left, what is
due in it is done first: issues, then the trap or freeze that a clk ends with, then a splitter that has stood ready for 2^19 clk; and every clk that is a
multiple of 2^18 begins with what is on offer at each tile (log entry 74). With no turn fixed from outside the step is the model's default turn (log entry 2): one clk, the same tile,
a pass of the firmware's policy and no other happening. -/
def Obligations.StepRunsTheDecodedInstruction : Prop :=
  (∀ (s s' : State) (u : Turn) (rest : List Turn), s.agenda = u :: rest → u.ticks ≠ 0 →
    (s.dueIssue = some s' → s.due = some s') ∧ (s.dueIssue = none → s.dueEnd = some s' → s.due = some s') ∧
    (s.due = some s' → step s = .next s') ∧
    (s.due = none → s.busy = true → s.toBound ≤ u.ticks → s.toBound = 1 ∨ s.anyQueued = false →
      step s = .next (s.pass u rest s.toBound).work ∧ 2 ^ 18 ∣ s.clk + s.toBound)) ∧
  (∀ (s : State) (u : Turn) (rest : List Turn), s.agenda = u :: rest → s.takes u →
    let b := s.begin u rest
    (∀ (w : IWord) (c : Chip) (i : Instr), (u.act = .run ∨ u.act = .fetch) → b.chip.tile.canSplit b.clk = true →
      b.chip.fetchWord = (c, .word w) → decode w = .ok i →
      (isX i = true → step s = exec i (b.withChip c)) ∧
      (isX i = false → u.act = .fetch → step s = .next (b.withChip (c.splitQueueWord b.clk w))) ∧
      (isX i = false → u.act = .run → (b.withChip (c.splitQueueWord b.clk w)).dueIssue = none →
        (b.withChip (c.splitQueueWord b.clk w)).dueEnd = none → b.toBound ≠ 1 →
        step s = exec i (b.withChip (c.splitQueueWord b.clk w)).tick)) ∧
    (∀ (w : IWord) (c : Chip) (e : DecErr), (u.act = .run ∨ u.act = .fetch) → b.chip.tile.canSplit b.clk = true →
      b.chip.fetchWord = (c, .word w) → decode w = .error e → step s = .next (b.withChip (c.splitQueueWord b.clk w))) ∧
    (∀ (c : Chip) (cls : Nat) (tval : Word), (u.act = .run ∨ u.act = .fetch) → b.chip.tile.canSplit b.clk = true →
      b.chip.fetchWord = (c, .bad cls tval) → step s = .next (b.withChip (c.splitFault b.clk cls 0 tval))) ∧
    (∀ (q : Queue) (w : QWord) (l : List QWord), u.act = .issue q → b.chip.tile.frame.queue q = w :: l →
      (∀ i : Instr, w.what = .ok i → (q ≠ .s ∨ ∀ h lv k, i ≠ .bar h lv k) → step s = exec i b) ∧
      (∀ h lv k, w.what = .ok (.bar h lv k) → q = .s → step s = exec (.barrierArrival b.chip.tile.cur) b) ∧
      (∀ e : DecErr, w.what = .bad e → step s = .next (b.withChip (b.chip.faultHead b.clk q)))) ∧
    (∀ i : Instr, u.act = .event i → i.eng = none → step s = exec i b)) ∧
  (∀ s : State, s.agenda = [] →
    (s.due = none → s.busy = false ∨ s.toBound ≠ 1 → step s = stepAct s.defaultTurn.act (s.begin s.defaultTurn [])) ∧
    (∀ s' : State, s.due = some s' → step s = .next s') ∧
    s.defaultTurn.ticks = 1 ∧ s.defaultTurn.tile = s.chip.focus ∧ s.defaultTurn.env = [.policy])

/-! ## Scalar integer words (R77–R80) -/

/-- R77: each integer word writes its result to s[DST], goes on at the next PC and changes nothing else; a shift immediate above 63 is
refused with class 1. -/
def Obligations.IntegerWordsCompute : Prop :=
  (∀ (s : State) (h : Hdr) (o : RRR), XReady s h [.s o.d] [] →
    let a := s.tile.getS o.a
    let b := s.tile.getS o.b
    let n := b.toNat % 64
    let writes (clk : Nat) (v : Word) : Out := .next (s.splitNext clk fun t => t.setS o.d v)
    exec (.add h o) s = writes 1 (a + b) ∧
    exec (.sub h o) s = writes 1 (a - b) ∧
    exec (.mul h o) s = writes 3 (a * b) ∧
    exec (.mulh h o) s = writes 3 ((a.signExtend 128 * b.signExtend 128).extractLsb' 64 64) ∧
    exec (.mulhn h o) s = writes 3 ((a.setWidth 128 * b.setWidth 128).extractLsb' 64 64) ∧
    (b ≠ 0 → exec (.div h o) s = writes 24 (BitVec.ofInt 64 (a.toInt.tdiv b.toInt))) ∧
    (b ≠ 0 → exec (.divn h o) s = writes 24 (BitVec.ofNat 64 (a.toNat / b.toNat))) ∧
    (b ≠ 0 → exec (.rem h o) s = writes 24 (BitVec.ofInt 64 (a.toInt.tmod b.toInt))) ∧
    (b ≠ 0 → exec (.remn h o) s = writes 24 (BitVec.ofNat 64 (a.toNat % b.toNat))) ∧
    exec (.and h o) s = writes 1 (a &&& b) ∧
    exec (.or h o) s = writes 1 (a ||| b) ∧
    exec (.xor h o) s = writes 1 (a ^^^ b) ∧
    exec (.shl h o) s = writes 1 (BitVec.ofNat 64 (a.toNat * 2 ^ n)) ∧
    exec (.shr h o) s = writes 1 (BitVec.ofNat 64 (a.toNat / 2 ^ n)) ∧
    exec (.sar h o) s = writes 1 (BitVec.ofInt 64 (a.toInt / 2 ^ n)) ∧
    exec (.min h o) s = writes 1 (BitVec.ofInt 64 (min a.toInt b.toInt)) ∧
    exec (.max h o) s = writes 1 (BitVec.ofInt 64 (max a.toInt b.toInt)) ∧
    exec (.minn h o) s = writes 1 (BitVec.ofNat 64 (min a.toNat b.toNat)) ∧
    exec (.maxn h o) s = writes 1 (BitVec.ofNat 64 (max a.toNat b.toNat)) ∧
    exec (.seq h o) s = writes 1 (if a = b then 1 else 0) ∧
    exec (.slt h o) s = writes 1 (if a.toInt < b.toInt then 1 else 0) ∧
    exec (.sltn h o) s = writes 1 (if a.toNat < b.toNat then 1 else 0)) ∧
  (∀ (s : State) (h : Hdr) (o : RRI), XReady s h [.s o.d] [] →
    let a := s.tile.getS o.a
    let i : Word := BitVec.ofInt 64 o.imm.toInt
    let writes (v : Word) : Out := .next (s.splitNext 1 fun t => t.setS o.d v)
    exec (.addi h o) s = writes (a + i) ∧ exec (.andi h o) s = writes (a &&& i) ∧ exec (.ori h o) s = writes (a ||| i) ∧
    exec (.xori h o) s = writes (a ^^^ i)) ∧
  (∀ (s : State) (h : Hdr) (o : RRS), XReady s h [.s o.d] [] →
    let a := s.tile.getS o.a
    let n := o.sh.toNat
    let writes (v : Word) : Out := .next (s.splitNext 1 fun t => t.setS o.d v)
    exec (.shli h o) s = writes (BitVec.ofNat 64 (a.toNat * 2 ^ n)) ∧ exec (.shri h o) s = writes (BitVec.ofNat 64 (a.toNat / 2 ^ n)) ∧
    exec (.sari h o) s = writes (BitVec.ofInt 64 (a.toInt / 2 ^ n))) ∧
  (∀ (s : State) (h : Hdr) (o : RR), XReady s h [.s o.d] [] →
    let a := s.tile.getS o.a
    (∃ n : Nat, exec (.clz h o) s = .next (s.splitNext 1 fun t => t.setS o.d (BitVec.ofNat 64 n)) ∧ n ≤ 64 ∧
      (∀ j < n, a.getMsbD j = false) ∧ (n < 64 → a.getMsbD n = true)) ∧
    exec (.popc h o) s = .next (s.splitNext 1 fun t => t.setS o.d (BitVec.ofNat 64 ((List.range 64).countP a.getLsbD)))) ∧
  (∀ f : Fields, f.eng = 0 → (f.opc = 0x23 ∨ f.opc = 0x24 ∨ f.opc = 0x25) → 64 ≤ f.mod.toNat →
    decodeFields f = .error .reserved ∧ DecErr.reserved.cls = 1)

/-- R78: a division by zero raises class 18, code 144, and leaves s[DST]; −2^63 by −1 is no fault, div writes −2^63 and rem 0. -/
def Obligations.DivisionByZeroTraps : Prop :=
  ∀ (s : State) (h : Hdr) (o : RRR), XReady s h [.s o.d] [] →
    let a := s.tile.getS o.a
    let b := s.tile.getS o.b
    let traps : Out := .next (s.splitTrap 0 18 0 id)
    causeCode 18 0 = 144 ∧
    (b = 0 → exec (.div h o) s = traps ∧ exec (.divn h o) s = traps ∧ exec (.rem h o) s = traps ∧ exec (.remn h o) s = traps) ∧
    (a.toInt = -(2 ^ 63) → b.toInt = -1 →
      exec (.div h o) s = .next (s.splitNext 24 fun t => t.setS o.d (BitVec.ofInt 64 (-(2 ^ 63)))) ∧
      exec (.rem h o) s = .next (s.splitNext 24 fun t => t.setS o.d 0))

/-- R79: bfx takes out a field, sign- or zero-extended; bfi puts one in and keeps every other bit; a bad LEN or POS, or a reserved bit that is
set, is refused with class 1. -/
def Obligations.BitFieldWordsMoveTheField : Prop :=
  (∀ (s : State) (h : Hdr) (o : BfOp), XReady s h [.s o.d] [] → o.wf = true →
    let a := s.tile.getS o.a
    let d := s.tile.getS o.d
    let f : BitVec o.len.toNat := a.extractLsb' o.pos.toNat o.len.toNat
    exec (.bfx h o) s = .next (s.splitNext 1 fun t => t.setS o.d (if o.sx then f.signExtend 64 else f.setWidth 64)) ∧
    ∃ v : Word, exec (.bfi h o) s = .next (s.splitNext 1 fun t => t.setS o.d v) ∧
      ∀ j < 64, v.getLsbD j = if o.pos.toNat ≤ j ∧ j < o.pos.toNat + o.len.toNat then a.getLsbD (j - o.pos.toNat) else d.getLsbD j) ∧
  (∀ f : Fields, f.eng = 0 → (f.opc = 0x2C ∨ f.opc = 0x2D) →
    (f.bits 6 7 = 0 ∨ 64 < (f.bits 6 7).toNat ∨ 64 < (f.bits 0 6).toNat + (f.bits 6 7).toNat ∨ f.bits 13 3 ≠ 0 ∨
      (f.opc = 0x2D ∧ f.bit 16 = true)) → decodeFields f = .error .reserved)

/-- R80: movi and movhi place constants; a bad selector or a too wide immediate of movhi is refused with class 1. -/
def Obligations.ConstantWordsPlaceTheirBits : Prop :=
  (∀ (s : State) (h : Hdr) (d : SReg) (i : BitVec 25), XReady s h [.s d] [] →
    let old := s.tile.getS d
    exec (.movi h d i) s = .next (s.splitNext 1 fun t => t.setS d (BitVec.ofInt 64 i.toInt)) ∧
    (∃ v : Word, exec (.movhi h (.mid d i)) s = .next (s.splitNext 1 fun t => t.setS d v) ∧
      v.extractLsb' 25 25 = i ∧ v.extractLsb' 0 25 = old.extractLsb' 0 25 ∧ v.extractLsb' 50 14 = old.extractLsb' 50 14) ∧
    ∀ k : BitVec 14, ∃ v : Word, exec (.movhi h (.top d k)) s = .next (s.splitNext 1 fun t => t.setS d v) ∧
      v.extractLsb' 50 14 = k ∧ v.extractLsb' 0 50 = old.extractLsb' 0 50) ∧
  (∀ f : Fields, f.eng = 0 → f.opc = 8 → ((f.sb ≠ 1 ∧ f.sb ≠ 2) ∨ (f.sb = 2 ∧ (f.sc ++ f.mod).extractLsb' 14 11 ≠ 0#11)) →
    decodeFields f = .error .reserved) ∧
  (∀ f : Fields, f.eng = 0 → f.opc = 7 → (f.sa ≠ 0 ∨ f.sb ≠ 0) → decodeFields f = .error .reserved) ∧ DecErr.reserved.cls = 1

/-- R10, R58: s0 reads as zero and p0 as all ones, a write to them is discarded, any other scalar or predicate register reads back what was
written, and no other register changes. A vector, an address, a ring and a codebook register, the basin and VRB read back what was written, and no
other register changes. A byte of a canonical memory reads back what was written and no other byte changes; the form is kept, and
two such memories that read alike are one. The cluster and the core rank of a tile name it. -/
def Obligations.RegistersAndMemoryReadBack : Prop :=
  (∀ (t : Tile) (n m : SReg) (p q : PReg) (x : Word),
    t.getS 0 = 0 ∧ t.setS 0 x = t ∧ (n ≠ 0 → (t.setS n x).getS n = x) ∧ (m ≠ n → (t.setS n x).getS m = t.getS m) ∧
    t.getP 0 = BitVec.allOnes 64 ∧ t.setP 0 x = t ∧ (p ≠ 0 → (t.setP p x).getP p = x) ∧ (q ≠ p → (t.setP p x).getP q = t.getP q) ∧
    (t.setS n x).regs = { t.regs with s := (t.setS n x).regs.s } ∧ (t.setP p x).regs = { t.regs with p := (t.setP p x).regs.p }) ∧
  (∀ (t : Tile) (n m : VReg) (x : VWord), (t.setV n x).getV n = x ∧ (m ≠ n → (t.setV n x).getV m = t.getV m) ∧
    (t.setV n x).regs = { t.regs with v := (t.setV n x).regs.v }) ∧
  (∀ (t : Tile) (n m : AReg) (x : ARegS), (t.setA n x).getA n = x ∧ (m ≠ n → (t.setA n x).getA m = t.getA m) ∧
    (t.setA n x).regs = { t.regs with a := (t.setA n x).regs.a }) ∧
  (∀ (t : Tile) (n m : GReg) (x : RingReg), (t.setG n x).getG n = x ∧ (m ≠ n → (t.setG n x).getG m = t.getG m) ∧
    (t.setG n x).regs = { t.regs with g := (t.setG n x).regs.g }) ∧
  (∀ (t : Tile) (n m : CReg) (x : Codebook), (t.setCb n x).getCb n = x ∧ (m ≠ n → (t.setCb n x).getCb m = t.getCb m) ∧
    (t.setCb n x).regs = { t.regs with cb := (t.setCb n x).regs.cb }) ∧
  (∀ (t : Tile) (x : Basin) (k : BitVec 5), (t.setBasin x).regs = { t.regs with basin := x } ∧ (t.setVrb k).regs = { t.regs with vrb := k }) ∧
  (∀ (m : Memory) (a : Nat) (bs : List Byte), m.wf = true →
    (m.write a bs).wf = true ∧ (m.write a bs).read a bs.length = bs ∧
    ∀ x, x < a ∨ a + bs.length ≤ x → (m.write a bs).get x = m.get x) ∧
  (∀ m m' : Memory, m.wf = true → m'.wf = true → (∀ a, m.get a = m'.get a) → m = m') ∧
  (∀ n : TileId, tileOfRank (tileCluster n) (tileRank n) = n) ∧
  (∀ (k : BitVec 5) (r : BitVec 3), tileCluster (tileOfRank k r) = k ∧ tileRank (tileOfRank k r) = r)

/-! ## Control words (R81–R90) -/

/-- R81: nop falls through in one clk; a branch that is taken goes to its exact target in two, or, where that lies outside 0 to
12·2^41 − 1, raises class 7 (code 56) and does nothing else; one that is not taken falls through. call and bri.l write s31 ← PC + 1, and the
target of bri.l s31 is the old s31. -/
def Obligations.BranchesGoWhereTheySay : Prop :=
  ∀ (s : State) (h : Hdr),
    let pc := s.tile.pc
    let falls : Out := .next (s.splitNext 1 id)
    let goes (target : Int) (f : Tile → Tile) : Out :=
      if 0 ≤ target ∧ target < 12 * 2 ^ 41 then .next (s.splitTo target.toNat 2 f) else .next (s.splitTrap 0 7 0 id)
    let link (t : Tile) : Tile := t.setS 31 (BitVec.ofNat 64 (pc + 1))
    (XReady s h [] [] →
      exec (.nop h) s = falls ∧
      (∀ imm : BitVec 17, exec (.br h imm) s = goes (pc + imm.toInt) id) ∧
      (∀ o : BrcOp,
        let a := s.tile.getS o.a
        let b := s.tile.getS o.b
        let taken : Prop := match o.cond with
          | .eq => a = b
          | .ne => a ≠ b
          | .lt => a.toInt < b.toInt
          | .ge => b.toInt ≤ a.toInt
          | .ltn => a.toNat < b.toNat
          | .gen => b.toNat ≤ a.toNat
        (taken → exec (.brc h o) s = goes (pc + o.imm.toInt) id) ∧ (¬taken → exec (.brc h o) s = falls)) ∧
      (∀ o : BrpOp,
        let p := s.tile.getP o.p
        let taken : Prop := match o.cond with
          | .any => p ≠ 0
          | .all => p = BitVec.allOnes 64
          | .none => p = 0
        (taken → exec (.brp h o) s = goes (pc + o.imm.toInt) id) ∧ (¬taken → exec (.brp h o) s = falls)) ∧
      (∀ a : SReg, exec (.bri h a false) s = goes (s.tile.getS a).toNat id) ∧
      exec (.ret h) s = goes (s.tile.getS 31).toNat id) ∧
    (XReady s h [.s 31] [] →
      (∀ imm : BitVec 17, exec (.call h imm) s = goes (pc + imm.toInt) link) ∧
      (∀ a : SReg, exec (.bri h a true) s = goes (s.tile.getS a).toNat link)) ∧
    causeCode 7 0 = 56

/-- R83–R85: lset enters a loop of s[n] passes, passes over it when s[n] is 0, and raises class 2 beside six frames; loopb starts the next
pass, then the draining passes, then leaves with p4–p7 restored, and turns VRB; lexit leaves at once; loopb and lexit raise class 2 without
a frame, loopb also where it is not the end of the innermost one. A target outside the PC range raises class 7 and does nothing else. -/
def Obligations.CountedLoops : Prop :=
  ∀ (s : State) (h : Hdr), XReady s h [] [] →
    let t := s.tile
    let pc := t.pc
    let traps (cls : Nat) : Out := .next (s.splitTrap 0 cls 0 id)
    let goes (target : Int) (f : Tile → Tile) : Out :=
      if 0 ≤ target ∧ target < 12 * 2 ^ 41 then .next (s.splitTo target.toNat 2 f) else traps 7
    (∀ o : LSetOp,
      let n := t.getS o.n
      (n = 0 → exec (.lset h o) s = goes (pc + o.imm.toInt + 1) id) ∧
      (n ≠ 0 → 6 ≤ t.frame.loops.length → exec (.lset h o) s = traps 2) ∧
      (n ≠ 0 → t.frame.loops.length < 6 → exec (.lset h o) s = .next (s.splitNext 1 fun t =>
        (t.updFrame fun f => { f with loops := f.loops ++
          [⟨pc + 1, (pc + o.imm.toInt).toNat, n - 1, o.e, o.i, t.getP 4, t.getP 5, t.getP 6, t.getP 7⟩] }).setStages
            (BitVec.allOnes 64) 0 0 0))) ∧
    (t.frame.loops = [] → (∀ imm, exec (.loopb h imm) s = traps 2) ∧ exec (.lexit h) s = traps 2) ∧
    (∀ (outer : List LoopFrame) (f : LoopFrame), t.frame.loops = outer ++ [f] →
      let keeps (x : List LoopFrame) (t : Tile) : Tile := t.updFrame fun r => { r with loops := outer ++ x }
      let turned (t : Tile) : Tile := t.setVrb (t.regs.vrb - 1)
      let passes (p4 : Word) (f' : LoopFrame) (t : Tile) : Tile :=
        keeps [f'] ((turned t).setStages p4 (t.getP 4) (t.getP 5) (t.getP 6))
      let leaves (t : Tile) : Tile := keeps [] (t.setStages f.p4 f.p5 f.p6 f.p7)
      (∀ imm : BitVec 17,
        ((pc ≠ f.stop ∨ (pc : Int) + imm.toInt ≠ f.start) → exec (.loopb h imm) s = traps 2) ∧
        (pc = f.stop → (pc : Int) + imm.toInt = f.start →
          (f.left ≠ 0 → exec (.loopb h imm) s = goes f.start (passes (BitVec.allOnes 64) { f with left := f.left - 1 })) ∧
          (f.left = 0 → f.drain ≠ 0 → exec (.loopb h imm) s = goes f.start (passes 0 { f with drain := f.drain - 1 })) ∧
          (f.left = 0 → f.drain = 0 → exec (.loopb h imm) s =
            if pc + 1 < 12 * 2 ^ 41 then .next (s.splitNext 1 fun t => leaves (turned t)) else traps 7))) ∧
      (f.stop + 1 < 12 * 2 ^ 41 → exec (.lexit h) s = .next (s.splitTo (f.stop + 1) 1 leaves)) ∧
      (12 * 2 ^ 41 ≤ f.stop + 1 → exec (.lexit h) s = traps 7))

/-- R87: movs reads the special register that SB names, as it stands at the split, into s[DST]. -/
def Obligations.SpecialRegistersRead : Prop :=
  ∀ (s : State) (h : Hdr) (d : SReg) (r : SpecReg), XReady s h [.s d] [] →
    let t := s.tile
    ∃ v : Word, exec (.movs h d r) s = .next (s.splitNext 1 fun t => t.setS d v) ∧
      match r with
      | .cyc => v = BitVec.ofNat 64 s.clk
      | .tile => v.extractLsb' 0 8 = s.chip.focus ∧ v.extractLsb' 8 3 = tileRank s.chip.focus ∧ v.extractLsb' 11 5 = tileCluster s.chip.focus ∧
          v.extractLsb' 16 21 = 0#21 ∧ v.extractLsb' 37 8 = s.chip.member ∧ v.extractLsb' 45 19 = s.chip.modnum
      | .iter0 => v = t.bound.iter0
      | .iter1 => v = t.bound.iter1
      | .iter2 => v = t.bound.iter2
      | .iter3 => v = t.bound.iter3
      | .iter4 => v = t.bound.iter4
      | .iter5 => v = t.bound.iter5
      | .vrb => v = t.regs.vrb.setWidth 64
      | .loopst => match t.frame.loops.getLast? with
          | none => v = 0
          | some f => v.extractLsb' 0 3 = BitVec.ofNat 3 t.frame.loops.length ∧ v.extractLsb' 3 2 = f.drain ∧ v.getLsbD 5 = f.i ∧ v >>> 6 = 0
      | .lleft => v = match t.frame.loops.getLast? with
          | none => 0
          | some f => f.left
      | .launch => v = t.bound.launch.setWidth 64
      | .wave => v = t.bound.wave.setWidth 64
      | .tags => ∀ k < 64, v.getLsbD k = (decide (1 ≤ k ∧ k < 8) && (vget t.frame.tags (BitVec.ofNat 3 k)).isSome)
      | .pcnow => v = BitVec.ofNat 64 t.pc

/-- R89, R90: amode gives an address register its base, stride, modulus and mode and frees its queue binding, or raises class 2 and
leaves it; amov reads the address, or writes it as address and base. MODE 3 and bits in reserved fields are refused with class 1,
any other pair of classes of amov with class 2. -/
def Obligations.AddressRegisterWords : Prop :=
  (∀ (s : State) (h : Hdr) (o : AModeOp), XReady s h [.a o.d] [] →
    let b := s.tile.getS o.base
    let st := s.tile.getS o.stride
    let m := s.tile.getS o.modulus
    let good : Prop := b.toNat < 2 ^ 48 ∧ -(2 ^ 31) ≤ st.toInt ∧ st.toInt < 2 ^ 31 ∧ match o.mode with
      | .lin => m = 0
      | .circ => 1 ≤ m.toNat ∧ m.toNat ≤ 2 ^ 32 ∧ st.toInt.natAbs < m.toNat
      | .brev => 2 ≤ m.toNat ∧ m.toNat ≤ 2 ^ 24 ∧ (∃ k : Nat, m.toNat = 2 ^ k) ∧ (∃ k : Nat, st.toInt = 2 ^ k) ∧ st.toInt < m.toNat
    (good → ∃ r : ARegS, exec (.amode h o) s = .next (s.splitNext 1 fun t => t.setA o.d r) ∧
      r.addr.toNat = b.toNat ∧ r.base.toNat = b.toNat ∧ r.stride.toInt = st.toInt ∧ r.modulus.toNat = m.toNat ∧ r.mode = o.mode ∧
      r.bind = none) ∧
    (¬good → exec (.amode h o) s = .next (s.splitTrap 0 2 0 id))) ∧
  (∀ (s : State) (h : Hdr) (d : SReg) (a : AReg), XReady s h [.s d] [.a a] →
    exec (.amov h (.toS d a)) s = .next (s.splitNext 1 fun t => t.setS d ((t.getA a).addr.setWidth 64))) ∧
  (∀ (s : State) (h : Hdr) (d : AReg) (a : SReg), XReady s h [.a d] [] →
    exec (.amov h (.toA d a)) s = .next (s.splitNext 1 fun t =>
      t.setA d { t.getA d with addr := (s.tile.getS a).extractLsb' 0 48, base := (s.tile.getS a).extractLsb' 0 48 })) ∧
  (∀ f : Fields, f.eng = 0 → f.opc = 0x3C → (f.bits 15 2 = 3 ∨ f.bits 0 15 ≠ 0) → decodeFields f = .error .reserved) ∧
  (∀ f : Fields, f.eng = 0 → f.opc = 0x3D →
    (f.sb ≠ 0 ∨ f.sc ≠ 0 ∨ f.mod ≠ 0 → decodeFields f = .error .reserved) ∧
    (f.h.isX = true → f.sb = 0 → f.sc = 0 → f.mod = 0 →
      ¬((∃ d a, f.dst = sNum d ∧ f.sa = aNum a) ∨ ∃ d a, f.dst = aNum d ∧ f.sa = sNum a) → decodeFields f = .error .operand)) ∧
  DecErr.reserved.cls = 1 ∧ DecErr.operand.cls = 2

/-- R50, R54, R55, R73: an X word that its clocks, tags or holds do not let go leaves the state as it is; one that its predicate disables
only passes, in one clk (the model's choice for a word whose own time is longer: log entry 6). Each X word stands with the scalar and address
registers that it writes and the address registers that it reads; a bar is an X word until its other parts stand in their queues. -/
def Obligations.DisabledAndHeldXWords : Prop :=
  ∀ (s : State) (h : Hdr) (o : RRR) (ri : RRI) (rs : RRS) (u : RR) (bf : BfOp) (c : BrcOp) (p : BrpOp) (ls : LSetOp) (mh : MovHi) (am : AModeOp)
    (mv : AMovOp) (sp : SpecReg) (mf : MfsOp) (mt : MtsOp) (rq : RqrdOp) (n : RqSel) (d a b : SReg) (g : GReg) (i17 : BitVec 17) (i25 : BitVec 25)
    (i16 : BitVec 16) (mask : BitVec 7) (f : Bool) (lv : BarLevel) (k : BitVec 4),
    let alone (i : Instr) (ws rs : List RegRef) : Prop :=
      (s.tile.readyX s.clk h ws rs = false → exec i s = .next s) ∧
      (s.tile.readyX s.clk h ws rs = true → s.tile.sramUe = [] → (s.tile.effPredX h).getLsbD 0 = false →
        exec i s = .next (s.splitNext 1 id))
    (∀ i ∈ [Instr.add h o, .sub h o, .mul h o, .mulh h o, .mulhn h o, .div h o, .divn h o, .rem h o, .remn h o, .and h o, .or h o, .xor h o,
      .shl h o, .shr h o, .sar h o, .min h o, .max h o, .minn h o, .maxn h o, .seq h o, .slt h o, .sltn h o], alone i [.s o.d] []) ∧
    (∀ i ∈ [Instr.addi h ri, .andi h ri, .ori h ri, .xori h ri], alone i [.s ri.d] []) ∧
    (∀ i ∈ [Instr.shli h rs, .shri h rs, .sari h rs], alone i [.s rs.d] []) ∧
    (∀ i ∈ [Instr.clz h u, .popc h u], alone i [.s u.d] []) ∧
    (∀ i ∈ [Instr.bfx h bf, .bfi h bf], alone i [.s bf.d] []) ∧
    (∀ i ∈ [Instr.movi h d i25, .movs h d sp, .waita h d a f, .rwaite h d g, .rwaitf h d g], alone i [.s d] []) ∧
    (∀ i ∈ [Instr.nop h, .br h i17, .brc h c, .brp h p, .bri h a false, .ret h, .lset h ls, .loopb h i17, .lexit h, .waitt h a, .waits h mask,
      .mon h a, .moncl h, .rinit h g a b, .trap h f i16, .tret h, .mts h mt, .rqrel h n, .rqdrop h n, .icflush h a b, .halt h, .phase h a],
      alone i [] []) ∧
    alone (.bri h a true) [.s 31] [] ∧ alone (.call h i17) [.s 31] [] ∧ alone (.amode h am) [.a am.d] [] ∧
    alone (.mfs h mf) [.s mf.d] [] ∧ alone (.rqrd h rq) [.s rq.d, .s rq.c] [] ∧
    (match mh with
      | .mid d _ | .top d _ => alone (.movhi h mh) [.s d] []) ∧
    (match mv with
      | .toS d x => alone (.amov h mv) [.s d] [.a x]
      | .toA d _ => alone (.amov h mv) [.a d] []) ∧
    (s.tile.frame.barQueued = false → alone (.bar h lv k) [] [])

/-! ## Words that wait, and what lets them go (R92–R94, R260–R276) -/

/-- R92–R94, R262: waitt holds the splitter with its deadline and the command bound to its register; waits passes where no tag it names is
pending, and else holds the splitter with those that are; waita takes a standing WAKE, or a deadline that has passed, at once, and else sleeps. When CYC has reached its deadline the waitt of a strand that
runs lets the splitter go, or raises class 13 where the command it waits for has not completed; a waits lets it go once every tag it waits for
has been written, and is looked at as each turn begins; a sleeping waita returns 1 for a WAKE, and for a deadline without one 0, with .trap
class 23; before that none of them changes anything. -/
def Obligations.WaitsOnTimeTagsAndAlarms : Prop :=
  (∀ (s : State) (h : Hdr),
     let t := s.tile
     (XReady s h [] [] →
       (∀ a : SReg, exec (.waitt h a) s = .next (s.splitWait (.time (t.getS a) (if a = 0 then none else vget t.binds a)) id)) ∧
       (∀ mask : BitVec 7,
         ((∀ k < 7, mask.getLsbD k = true → vget t.frame.tags (BitVec.ofNat 3 (k + 1)) = none) →
           exec (.waits h mask) s = .next (s.splitNext 1 id)) ∧
         ((∃ k < 7, mask.getLsbD k = true ∧ vget t.frame.tags (BitVec.ofNat 3 (k + 1)) ≠ none) →
           ∃ ps : List (BitVec 3 × Nat), exec (.waits h mask) s = .next (s.splitWait (.tags ps) id) ∧
             ∀ (k : BitVec 3) (p : Nat), (k, p) ∈ ps ↔ k ≠ 0 ∧ mask.getLsbD (k.toNat - 1) = true ∧ vget t.frame.tags k = some p))) ∧
     (∀ d a : SReg, XReady s h [.s d] [] →
       let dl := t.getS a
       ∀ trap : Bool,
         (t.wake = true → exec (.waita h d a trap) s = .next (s.splitNext 1 fun t => { t with wake := false }.setS d 1)) ∧
         (t.wake = false → dl ≠ 0 → dl.toNat ≤ s.clk → exec (.waita h d a trap) s =
           .next (if trap then s.splitTrap 0 23 0 fun t => t.setS d 0 else s.splitNext 1 fun t => t.setS d 0)) ∧
         (t.wake = false → (dl = 0 ∨ s.clk < dl.toNat) → exec (.waita h d a trap) s = .next (s.splitWait (.alarm d dl trap) id)))) ∧
  -- what lets them go
  (∀ (s : State) (w : HeldWord), s.tile.frame.wait = some w →
     (∀ (dl : Word) (cmd : Option Nat), w.wait = .time dl cmd →
       ((BitVec.ofNat 64 s.clk).toNat < dl.toNat ∨ s.tile.active = false → exec .waittWake s = .next s) ∧
       (dl.toNat ≤ (BitVec.ofNat 64 s.clk).toNat → s.tile.active = true →
         ((∀ n, cmd = some n → s.tile.incomplete n = false) → exec .waittWake s = .next (s.onTile fun t => t.letGo s.clk w)) ∧
         (∀ n, cmd = some n → s.tile.incomplete n = true → exec .waittWake s = .next (s.onTile fun t => t.letFail s.clk w 13 0)))) ∧
     (∀ (d : SReg) (dl : Word) (trap : Bool), w.wait = .alarm d dl trap →
       (s.tile.active = false → exec .watchWake s = .next s ∧ exec .waitaDeadline s = .next s) ∧
       (s.tile.wake = true → s.tile.active = true → exec .watchWake s = .next (s.onTile fun t => ({ t with wake := false }.setS d 1).letGo s.clk w)) ∧
       (s.tile.wake = false → exec .watchWake s = .next s) ∧
       (s.tile.wake = true ∨ dl = 0 ∨ s.clk < dl.toNat → exec .waitaDeadline s = .next s) ∧
       (s.tile.wake = false → s.tile.active = true → dl ≠ 0 → dl.toNat ≤ s.clk → exec .waitaDeadline s =
         .next (s.onTile fun t => if trap then (t.setS d 0).letFail s.clk w 23 0 else (t.setS d 0).letGo s.clk w))) ∧
     (∀ (ps : List (BitVec 3 × Nat)) (now : Nat), w.wait = .tags ps →
       ((∃ x ∈ ps, vget s.tile.frame.tags x.1 = some x.2) → s.tile.wakeWaits now = s.tile) ∧
       ((∀ x ∈ ps, vget s.tile.frame.tags x.1 ≠ some x.2) →
         let u := s.tile.updFrame fun f => { f with wait := none, free := Nat.max now f.free }
         s.tile.wakeWaits now = if w.ue then u.raise u.cur w.ueCause none else u))) ∧
  (∀ (s : State) (u : Turn) (rest : List Turn), u.env = [] → u.tile = s.chip.focus → s.tile.pipe = [] → s.tile.promises = [] →
     s.tile.undelivered = [] → s.tile.ueNote = [] → (s.begin u rest).tile = s.tile.wakeWaits (s.clk + u.ticks))

/-- R260, R263: mon, its address translated and checked like a load, waits at its split for a block under recovery, passes where the tile already
watches the line, raises class 25 for a seventeenth line or a line of another member, and else waits until the home slice has registered it; moncl clears WAKE and the watched
lines. -/
def Obligations.MonitorsRegisterAndClear : Prop :=
  (∀ (s : State) (h : Hdr), XReady s h [] [] →
    (∀ (a : SReg) (k n : Nat) (more : List (Nat × Nat)),
      s.chip.checkSpan (.split s.chip.focus) 0 .read (s.tile.getS a).toNat 1 = (s.chip, .ok ((k, n) :: more)) →
      (2 ^ 48 ≤ k → exec (.mon h a) s = .next (s.splitTrap 0 25 0 id)) ∧
      (k < 2 ^ 48 → k / 128 ∈ s.tile.watch → exec (.mon h a) s = .next (s.splitNext 1 id)) ∧
      (k < 2 ^ 48 → k / 128 ∉ s.tile.watch → 16 ≤ s.tile.watch.length → exec (.mon h a) s = .next (s.splitTrap 0 25 0 id)) ∧
      (k < 2 ^ 48 → k / 128 ∉ s.tile.watch → s.tile.watch.length < 16 →
        exec (.mon h a) s = .next (s.splitWait (.mon (k / 128)) id))) ∧
    (∀ (a : SReg) (cls va : Nat), s.chip.checkSpan (.split s.chip.focus) 0 .read (s.tile.getS a).toNat 1 = (s.chip, .bad cls va) →
      exec (.mon h a) s = .next (s.splitTrap 0 cls (BitVec.ofNat 64 va) id)) ∧
    (∀ (a : SReg), s.chip.checkSpan (.split s.chip.focus) 0 .read (s.tile.getS a).toNat 1 = (s.chip, .absent) →
      exec (.mon h a) s = .next (s.splitTrap 0 25 0 id)) ∧
    (∀ (a : SReg) (ls : List (Nat × Nat)), s.chip.checkSpan (.split s.chip.focus) 0 .read (s.tile.getS a).toNat 1 = (s.chip, .busy ls) →
      ∃ c : Chip, exec (.mon h a) s = .next (s.withChip c) ∧ c.tile = s.tile ∧ c.mem = s.chip.mem) ∧
    (s.tile.watch = [] → exec (.moncl h) s = .next (s.splitNext 1 fun t => { t with wake := false })) ∧
    (s.tile.watch ≠ [] → exec (.moncl h) s = .next (s.splitWait .moncl id))) ∧
  (∀ (s : State) (w : HeldWord), s.tile.frame.wait = some w →
    (∀ line : Nat, w.wait = .mon line → exec .monitorRegistrationAck s = .next (s.withChip
      ((s.chip.watchBits s.chip.focus line true).upd fun t => { t with watch := t.watch ++ [line] }.letGo s.clk w))) ∧
    (w.wait = .moncl → ∃ c : Chip, exec .monclAcknowledgement s = .next (s.withChip c) ∧
      c.tile = { s.tile with watch := [], wake := false }.letGo s.clk w ∧ c.mem = s.chip.mem ∧
      (∀ n, n ≠ s.chip.focus → c.tileAt n = s.chip.tileAt n) ∧
      (∀ (line : Nat), line ∈ s.tile.watch → ∀ b ∈ [(buckets line).1, (buckets line).2],
        (getFilter c.filter b).getLsbD s.chip.focus.toNat = false)))

/-- R270, R272, R274, R276: rinit checks its operands and then waits for the owner's answer; rwaite and rwaitf raise class 25 for an
unconfigured register or beside eight claims, and else wait for a slot. The owner joins the strand to a ring of the same place and geometry, refuses
another geometry or a seventeenth ring with class 25, and else makes the ring with every slot EMPTY. -/
def Obligations.RingsRegisterAndWait : Prop :=
  (∀ (s : State) (h : Hdr) (g : GReg) (a b : SReg), XReady s h [] [] →
    let base := s.tile.getS a
    let geom := s.tile.getS b
    (∀ cls tval, rinitFate s.chip g base geom = some (cls, tval) → exec (.rinit h g a b) s = .next (s.splitTrap 0 cls tval id)) ∧
    (rinitFate s.chip g base geom = none → exec (.rinit h g a b) s = .next (s.splitWait (.rinit g base geom) id))) ∧
  (∀ (s : State) (h : Hdr) (d : SReg) (g : GReg), XReady s h [.s d] [] →
    let r := s.tile.getG g
    exec (.rwaite h d g) s = .next (if r.conf = false ∨ 8 ≤ r.prod.length then s.splitTrap 0 25 0 id else s.splitWait (.ringE d g) id) ∧
    exec (.rwaitf h d g) s = .next (if r.conf = false ∨ 8 ≤ r.cons.length then s.splitTrap 0 25 0 id else s.splitWait (.ringF d g) id)) ∧
  (∀ (s : State) (w : HeldWord) (g : GReg) (base geom : Word), s.tile.frame.wait = some w → w.wait = .rinit g base geom →
    let own := ringOwner s.chip.focus base
    let joins (t : Tile) : Tile := (t.setG g ⟨true, base, geom, [], []⟩).letGo s.clk w
    ((s.chip.tileAt own).fence.fenced = false ∨ own = s.chip.focus) →
    (∀ r : Ring, (s.chip.tileAt own).ringAt (ringBuf base) (ringOff base) = some r → exec .ringRegistrationAnswer s =
      .next (s.onTile fun t => if r.geom = geom then joins t else t.letFail s.clk w 25 0)) ∧
    ((s.chip.tileAt own).ringAt (ringBuf base) (ringOff base) = none →
      (16 ≤ (s.chip.tileAt own).rings.length → exec .ringRegistrationAnswer s = .next (s.onTile fun t => t.letFail s.clk w 25 0)) ∧
      ((s.chip.tileAt own).rings.length < 16 → exec .ringRegistrationAnswer s = .next (s.withChip
        ((s.chip.updAt own fun t => { t with rings := t.rings ++
          [⟨ringBuf base, ringOff base, geom, 0, 0, List.replicate (2 ^ geomLog geom) .empty⟩] }).upd joins)))))

/-- R272, R274: the owner grants a claim when the next slot of the ring is EMPTY, or FULL: the slot is claimed, its number joins the
register's list, the ring's count advances, and s[DST] gets the slot's address; until then the claim stands. -/
def Obligations.RingClaimsAreGrantedInOrder : Prop :=
  ∀ (s : State) (w : HeldWord) (d : SReg) (g : GReg) (prod : Bool) (q : Ring),
    s.tile.st = .running → s.tile.frame.wait = some w → w.wait = (if prod then .ringE d g else .ringF d g) →
    let r := s.tile.getG g
    let own := ringOwner s.chip.focus r.base
    let n := if prod then q.ph else q.ch
    ((s.chip.tileAt own).fence.fenced = false ∨ own = s.chip.focus) → .g g ∉ s.tile.sramUe →
    (s.chip.tileAt own).ringAt (ringBuf r.base) (ringOff r.base) = some q →
    (q.slots[n % q.slots.length]? ≠ some (if prod then .empty else .full) → exec .ringClaimGrant s = .next s) ∧
    (q.slots[n % q.slots.length]? = some (if prod then .empty else .full) →
      ∃ c : Chip, exec .ringClaimGrant s = .next (s.withChip c) ∧ c.mem = s.chip.mem ∧
        c.tile.getG g = (if prod then { r with prod := r.prod ++ [n] } else { r with cons := r.cons ++ [n] }) ∧
        (d ≠ 0 → c.tile.getS d = slotAddr r n) ∧ c.tile.frame.wait = none ∧
        (∀ m : SReg, m ≠ d → c.tile.getS m = s.tile.getS m) ∧
        ∀ x ∈ (c.tileAt own).rings, x.buf = q.buf → x.off = q.off → ∃ y ∈ (s.chip.tileAt own).rings, y.buf = q.buf ∧ y.off = q.off ∧
          x.slots = setAt y.slots (n % y.slots.length) (if prod then .pclaim else .cclaim) ∧
          x.ph = (if prod then y.ph + 1 else y.ph) ∧ x.ch = (if prod then y.ch else y.ch + 1))

/-! ## Barriers, marks, fences (R114, R115, R265–R268) -/

/-- R265–R268: the X part of a bar places the other two parts and holds the splitter; the L part issues once every older L access has
been performed; the S part, at the head of S with both parts complete, sends the arrival, which the team's instance records, and which raises class 24
where the instance has another level; the last arrival of the team opens the next generation at .t, and at .d or .p goes on to the die. There the
instance records it, raises class 24 in every waiting strand of a team that comes with another level, and with the last team that has not halted
whole opens the next generation in every team that has arrived, at .d; at .p once the other die has arrived too, on both dies. A release lets the
splitter go. -/
def Obligations.BarriersHoldUntilAllArrive : Prop :=
  (∀ (s : State) (h : Hdr) (lvl : BarLevel) (id : BitVec 4), XReady s h [] [] → s.tile.frame.barQueued = false →
    s.tile.frame.room [.l, .s] = true →
    ∃ p : QWord, p.what = .ok (.bar h lvl id) ∧ p.id = s.chip.nextId ∧ p.pc = s.tile.pc ∧
      exec (.bar h lvl id) s = .next (s.splitWait (.bar lvl id 0 false) fun t =>
        t.updFrame fun f => { f with l := f.l ++ [p], s := f.s ++ [p] })) ∧
  (∀ (s : State) (h : Hdr) (lvl : BarLevel) (id : BitVec 4) (w : QWord) (rest : List QWord), s.tile.frame.barQueued = true →
    QReady s .l (.bar h lvl id) .always (fun _ _ c => c.tile.frame.lf.isEmpty) w rest →
    exec (.bar h lvl id) s = .next (s.withChip (s.issued .l (.bar h lvl id) rest))) ∧
  (∀ (s : State) (h : Hdr) (lvl : BarLevel) (id : BitVec 4) (w : QWord) (rest : List QWord),
    s.tile.frame.s = w :: rest → w.what = .ok (.bar h lvl id) → s.tile.readyQ s.clk .s w h = true → s.tile.frame.sf = [] →
    (∀ x ∈ s.tile.frame.l, x.id ≠ w.id) →
    let c := s.chip.upd fun t => t.issue s.clk .s rest h
    exec (.barrierArrival s.tile.cur) s = .next (s.withChip (c.barArrive s.clk s.tile.cur lvl id)) ∧
    ∀ (x : Team) (hw : HeldWord), s.chip.teams.find? (fun y => y.no == s.tile.team) = some x → s.tile.frame.wait = some hw →
      let i := vget x.inst id
      (i.level ≠ none → i.level ≠ some lvl →
        c.barArrive s.clk s.tile.cur lvl id = c.upd fun t => t.barFault s.clk t.cur) ∧
      ((i.level = none ∨ i.level = some lvl) → lvl = .t → i.sent = false →
        let d := c.barArrive s.clk s.tile.cur lvl id
        d.tile.frame.wait = some { hw with wait := .bar .t id i.gen true } ∧
        vget (d.team x.no).inst id =
          (if x.mask &&& ~~~(i.arrived ||| rankBit s.chip.focus ||| x.gone) = 0 then ⟨i.gen + 1, none, 0, false⟩
           else { i with level := some .t, arrived := i.arrived ||| rankBit s.chip.focus })) ∧
      ((i.level = none ∨ i.level = some lvl) → lvl ≠ .t → i.sent = false → s.chip.multiWave (tileDie s.chip.focus) x.launch lvl = false →
        x.mask &&& ~~~(i.arrived ||| rankBit s.chip.focus ||| x.gone) = 0 →
        c.barArrive s.clk s.tile.cur lvl id =
          ((c.upd fun t => t.updFrame fun f => { f with wait := some { hw with wait := .bar lvl id i.gen true } }).updTeam s.tile.team fun y =>
            { y with inst := vset y.inst id { i with level := some lvl, arrived := i.arrived ||| rankBit s.chip.focus } }).dieArrive s.clk
              (tileDie s.chip.focus) s.tile.team id lvl)) ∧
  -- the die and the package
  (∀ (c : Chip) (now : Nat) (d : Bool) (no : Nat) (id : BitVec 4) (lvl : BarLevel) (b : LaunchBar), lvl ≠ .t →
    let l := (c.team no).launch
    c.launchBar d l = some b → (∃ x ∈ c.teams, x.no = no) →
    let i := vget b.inst id
    let e := c.dieArrive now d no id lvl
    let all := b.allIn (no :: i.arrived ++ b.gone)
    let gen (c : Chip) (k : Nat) : Nat := (vget (c.team k).inst id).gen
    let arrived (k : Nat) : Prop := (∃ x ∈ c.teams, x.no = k) ∧ (k = no ∨ (vget (c.team k).inst id).sent = true)
    (i.level ≠ none → i.level ≠ some lvl → e = c.teamFault now no id) ∧
    ((i.level = none ∨ i.level = some lvl) →
      (all = false → e.launchBar d l = some { b with inst := vset b.inst id ⟨some lvl, no :: i.arrived, false⟩ } ∧
        (vget (e.team no).inst id).sent = true ∧ ∀ k, gen e k = gen c k) ∧
      (all = true → lvl = .d → b.teams.Nodup → ∀ k ∈ b.teams, arrived k → gen e k = gen c k + 1) ∧
      (all = true → lvl = .p → c.dieArrived (!d) l id = false → ∀ k, gen e k = gen c k) ∧
      (all = true → lvl = .p → c.dieArrived (!d) l id = true → b.teams.Nodup →
        (∀ b', c.launchBar (!d) l = some b' → b'.teams.Nodup ∧ (∀ k ∈ b'.teams, k ∉ b.teams) ∧ no ∉ b'.teams) →
        (∀ k ∈ b.teams, arrived k → gen e k = gen c k + 1) ∧
        ∀ b', c.launchBar (!d) l = some b' → ∀ k ∈ b'.teams, arrived k → gen e k = gen c k + 1))) ∧
  (∀ (s : State) (w : HeldWord) (lvl : BarLevel) (id : BitVec 4) (gen : Nat), s.tile.frame.wait = some w → w.wait = .bar lvl id gen true →
    exec (.barrierRelease id) s =
      .next (if gen ≠ (vget (s.chip.team s.tile.team).inst id).gen then s.onTile fun t => t.letGo s.clk w else s)) ∧
  causeCode 24 0 = 192

/-- R114, R115: a mark puts one part into the L FIFO and one into the S FIFO, each when it stands at the head of its queue and issues; a
fence goes to the S FIFO; nothing else changes. They leave the FIFOs as soon as they are complete, and no sooner: a fence at the head of the S
FIFO, a mark at the heads of both, and at .x with no store unacknowledged; while they stand there, what is behind them waits
(MemoryStepsPerformAccesses). -/
def Obligations.MarksAndFencesEnterTheFifos : Prop :=
  (∀ (s : State) (i : Instr), (∃ h sc, i = .mark h sc ∨ i = .markS h sc) →
    let part (s : State) (q : Queue) (f : Fifo) (w : QWord) (rest : List QWord) : State :=
      s.withChip ((s.issued q i rest).pushAccess f (newAccess w .order [] [] [] 0 0))
    let other (s : State) (q : Queue) : Prop := ∀ w rest, s.tile.frame.queue q = w :: rest → w.what ≠ .ok i
    (∀ w rest, QReady s .l i .always (portRes .l) w rest → other s .s → exec i s = .next (part s .l .l w rest)) ∧
    (∀ w rest, QReady s .s i .always (portRes .s) w rest → other s .l → exec i s = .next (part s .s .s w rest)) ∧
    (∀ w rest w' rest', QReady s .l i .always (portRes .l) w rest → QReady (part s .l .l w rest) .s i .always (portRes .s) w' rest' →
      exec i s = .next (part (part s .l .l w rest) .s .s w' rest'))) ∧
  (∀ (s : State) (h : Hdr) (sc : Scope) (w : QWord) (rest : List QWord), QReady s .s (.fence h sc) .bit0 (portRes .s) w rest →
    exec (.fence h sc) s =
      .next (s.withChip ((s.issued .s (.fence h sc) rest).pushAccess .s (newAccess w .order [] [] [] 0 0)))) ∧
  (∀ (f : Frame) (n : Nat),
    let g := f.clearOrders n f.sf.length
    let atX (w : QWord) : Prop := ∃ h, w.what = .ok (.mark h .x) ∨ w.what = .ok (.markS h .x) ∨ w.what = .ok (.fence h .x)
    { g with lf := f.lf, sf := f.sf } = f ∧ ∃ ls ss, f.lf = ls ++ g.lf ∧ f.sf = ss ++ g.sf ∧ (∀ b ∈ ls ++ ss, b.cls = .order) ∧
      (∀ b ∈ ls, ∃ x ∈ ss, x.w.id = b.w.id) ∧ (∀ b ∈ ss, atX b.w → n = 0) ∧
      (∀ b ∈ ss, (∀ h sc, b.w.what ≠ .ok (.fence h sc)) → ∃ x ∈ ls, x.w.id = b.w.id) ∧
      ∀ x xs, g.sf = x :: xs → x.cls = .order → (atX x.w ∧ n ≠ 0) ∨
        ((∀ h sc, x.w.what ≠ .ok (.fence h sc)) ∧ ∀ l r, g.lf = l :: r → l.cls ≠ .order ∨ l.w.id ≠ x.w.id)) ∧
  (∀ (t : Tile) (k : FrameSel), t.clearOrders k = t.updFrameOf k fun f => f.clearOrders t.unacked f.sf.length)

/-! ## System words (R297–R304) -/

/-- R297, R298, R302: mfs reads and mts writes a system register, its RO fields apart; a handler-only register in user mode raises class 3
(code 31) and nothing is read or written; mfs.d is held until the older words of L, C and S have completed; mts of PHCFG inside a guarded phase raises
class 2. -/
def Obligations.SystemRegistersReadAndWrite : Prop :=
  (∀ (s : State) (h : Hdr) (o : MfsOp), XReady s h [.s o.d] [] →
    let t := s.tile
    let hidden : Prop := o.reg ∈ [SysReg.tcause, .tpc, .tepc, .tval, .tscr0, .tscr1, .rqstat, .tvrb, .troot] ∧ t.mode = .user
    (hidden → exec (.mfs h o) s = .next (s.splitTrap 7 3 0 id)) ∧
    (¬hidden → o.drain = true → t.lcsDone = false → exec (.mfs h o) s = .next s) ∧
    (¬hidden → (o.drain = false ∨ t.lcsDone = true) → ∃ v : Word, exec (.mfs h o) s = .next (s.splitNext 1 fun t => t.setS o.d v) ∧
      match o.reg with
      | .vflags => v = t.sys.vflags.setWidth 64
      | .vtrapen => v = t.sys.vtrapen.setWidth 64
      | .cst => v = t.sys.cst
      | .epol => v = if t.sys.uet then 1 else 0
      | .phcfg => v = t.sys.phcfg
      | .tcause => v = t.sys.tcause
      | .tpc => v = t.sys.tpc
      | .tepc => v = t.sys.tepc
      | .tval => v = t.sys.tval
      | .tvec => v = t.sys.tvec
      | .tscr0 => v = t.sys.tscr0
      | .tscr1 => v = t.sys.tscr1
      | .tvrb => v = t.sys.tvrb.setWidth 64
      | .troot => v = t.sys.troot
      | .rqstat => ∀ n : BitVec 5, v.getLsbD n.toNat = (vget t.replay n).isSome ∧
          v.getLsbD (32 + n.toNat) = (match vget t.replay n with | some e => e.dlv | none => false))) ∧
  (∀ (s : State) (h : Hdr) (o : MtsOp), XReady s h [] [] →
    let t := s.tile
    let x := t.getS o.a
    let hidden : Prop := o.reg ∈ [SysReg.tcause, .tpc, .tepc, .tval, .tscr0, .tscr1, .rqstat, .tvrb, .troot] ∧ t.mode = .user
    let writes (y : SysRegs) : Out := .next (s.splitNext 1 fun t => { t with sys := y })
    (hidden → exec (.mts h o) s = .next (s.splitTrap 7 3 0 id)) ∧
    (o.reg = .phcfg → t.phase ≠ none → exec (.mts h o) s = .next (s.splitTrap 7 2 0 id)) ∧
    (¬hidden → ¬(o.reg = .phcfg ∧ t.phase ≠ none) →
      match o.reg with
      | .vflags => exec (.mts h o) s = writes { t.sys with vflags := x.setWidth 5 }
      | .vtrapen => exec (.mts h o) s = writes { t.sys with vtrapen := x.setWidth 5 }
      | .epol => exec (.mts h o) s = writes { t.sys with uet := x.getLsbD 0 }
      | .tpc => exec (.mts h o) s = writes { t.sys with tpc := x }
      | .tscr0 => exec (.mts h o) s = writes { t.sys with tscr0 := x }
      | .tscr1 => exec (.mts h o) s = writes { t.sys with tscr1 := x }
      | .tvrb => exec (.mts h o) s = writes { t.sys with tvrb := x.setWidth 5 }
      | .cst => ∃ y : Word, exec (.mts h o) s = writes { t.sys with cst := y } ∧
          ∀ k < 64, y.getLsbD k = if k = 31 ∨ k = 63 then x.getLsbD k else t.sys.cst.getLsbD k
      | .phcfg => ∃ y : Word, exec (.mts h o) s = writes { t.sys with phcfg := y } ∧
          ∀ k < 64, y.getLsbD k = if k = 60 ∨ k = 61 ∨ k = 62 then t.sys.phcfg.getLsbD k else x.getLsbD k
      | .tcause | .tepc | .tval | .tvec | .rqstat | .troot => exec (.mts h o) s = .next (s.splitNext 1 id)))

/-- R302–R304: in user mode rqrd, rqrel and rqdrop raise class 3 (code 31); in handler mode rqrd reads an entry, 0 and 0 where it is not
valid; rqrel releases it, or drops it where its class is 26, once the handler's accesses have been performed; rqdrop drops it; both raise class 2 where
it is not valid. -/
def Obligations.ReplayQueueWords : Prop :=
  (∀ (s : State) (h : Hdr) (o : RqrdOp), XReady s h [.s o.d, .s o.c] [] →
    let t := s.tile
    (t.mode = .user → exec (.rqrd h o) s = .next (s.splitTrap 7 3 0 id)) ∧
    (t.mode = .handler →
      (vget t.replay (t.rqNumber o.n) = none → exec (.rqrd h o) s = .next (s.splitNext 1 fun t => (t.setS o.d 0).setS o.c 0)) ∧
      ∀ e, vget t.replay (t.rqNumber o.n) = some e → ∃ w : Word,
        exec (.rqrd h o) s = .next (s.splitNext 1 fun t => (t.setS o.d e.addr).setS o.c w) ∧
        w.getLsbD 63 = true ∧ w.extractLsb' 58 5 = e.cls ∧ w.extractLsb' 55 3 = e.eng ∧ w.extractLsb' 53 2 = e.queue ∧ w.getLsbD 52 = e.rel ∧
        w.extractLsb' 44 8 = e.opc ∧ w.extractLsb' 34 10 = 0#10 ∧ w.extractLsb' 32 2 = e.strm ∧ w.extractLsb' 24 8 = e.sub ∧
        w.extractLsb' 0 24 = e.elem)) ∧
  (∀ (s : State) (h : Hdr) (n : RqSel), XReady s h [] [] →
    let t := s.tile
    let k := t.rqNumber n
    (t.mode = .user → exec (.rqrel h n) s = .next (s.splitTrap 7 3 0 id) ∧ exec (.rqdrop h n) s = .next (s.splitTrap 7 3 0 id)) ∧
    (t.mode = .handler →
      (t.handlerPerformed = false → exec (.rqrel h n) s = .next s) ∧
      (vget t.replay k = none → exec (.rqdrop h n) s = .next (s.splitTrap 7 2 0 id) ∧
        (t.handlerPerformed = true → exec (.rqrel h n) s = .next (s.splitTrap 7 2 0 id))) ∧
      ∀ e, vget t.replay k = some e →
        exec (.rqdrop h n) s = .next (s.splitNext 1 fun t => t.dropEntry k) ∧
        (t.handlerPerformed = true → exec (.rqrel h n) s = .next (s.splitNext 1 fun t =>
          if e.cls = 26 then t.dropEntry k else { t with replay := vset t.replay k (some { e with rel := true }) })))) ∧
  (∀ (n : RqSel) (t : Tile), (t.rqNumber n).toNat = match n with | .imm k => k.toNat | .s a => (t.getS a).toNat % 32) ∧ causeCode 3 7 = 31

/-- R300, R301: icflush, once the older S accesses have been performed, forgets the cached lines that hold a byte of its range, all of them
for a length of 0; halt stops the splitter for good, and in handler mode drops every replay entry, the held causes, the user frame's unissued words and the
log of a guarded phase. -/
def Obligations.IcflushAndHalt : Prop :=
  ∀ (s : State) (h : Hdr), XReady s h [] [] →
    let t := s.tile
    (∀ a b : SReg,
      let lo := (t.getS a).toNat
      let n := (t.getS b).toNat
      (t.storesPerformed = false → exec (.icflush h a b) s = .next s) ∧
      (t.storesPerformed = true → ∃ keep : List (Nat × BitVec 1024),
        exec (.icflush h a b) s = .next (s.splitNext 1 fun t => { t with icache := keep }) ∧
        ∀ x, x ∈ keep ↔ x ∈ t.icache ∧ n ≠ 0 ∧ (x.1 * 128 + 128 ≤ lo ∨ lo + n ≤ x.1 * 128))) ∧
    (t.mode = .user → exec (.halt h) s = .next (s.splitWait .halted fun t => { t with st := .halting })) ∧
    (t.mode = .handler → ∃ f : Tile → Tile, exec (.halt h) s = .next (s.splitWait .halted f) ∧
      (f t).st = .halting ∧ (f t).held = [] ∧ (f t).phase = none ∧ (∀ n : BitVec 5, vget (f t).replay n = none) ∧
      (f t).user.l = [] ∧ (f t).user.c = [] ∧ (f t).user.s = [] ∧ (f t).user.a = [] ∧ (f t).regs = t.regs ∧
      (f t).sys.phcfg.getLsbD 62 = false ∧ (f t).sys.phcfg.getLsbD 60 = false)

/-! ## Traps (R288–R299, R382) -/

/-- R288, R290, R292, R293, R382: in user mode a cause is raised, of those of a clk the oldest in program order, and its trap is taken as the clk
ends: the user frame freezes in the next clk; TCAUSE, TEPC, TPC, TVAL and TVRB hold what it gives, the results in
flight are kept aside with the clk they still need, the handler frame is empty, and the splitter goes to TVEC in handler mode, four clk later (R292 says
typically; the model's choice: log entry 6); with TVEC 0 the strand ends. In handler mode a cause of the handler frame ends the strand, and one of the
user frame is held; so is one that meets mon, moncl or rinit in its exchange, or the cancellation of its phase. -/
def Obligations.TrapEntryFreezesTheUserFrame : Prop :=
  (∀ (t : Tile) (k : FrameSel) (c : Cause) (tpc : Option Nat), (t.st = .running ∨ t.st = .halting) →
    (t.mode = .user → t.exchanging = false → t.cancels c.id = false →
      (t.trap = none → t.raise k c tpc = { t with trap := some ⟨c, tpc, none⟩ }) ∧
      ∀ x, t.trap = some x → c.rq = none → x.cause.rq = none → t.held.length < 256 →
        let t' := t.raise k c tpc
        t'.regs = t.regs ∧ t'.sys = t.sys ∧ t'.mode = .user ∧ t'.pipe = t.pipe ∧
        (x.cause.id ≤ c.id → t'.trap = some x ∧ (∀ p, tpc = some p → t'.pc = p) ∧ (c.again = false → t'.held = t.held ++ [c])) ∧
        (c.id < x.cause.id → t'.trap = some ⟨c, tpc, none⟩ ∧ (∀ w, x.wait = some w → t'.user.wait = some w) ∧
          (x.wait = none → (∀ p, x.tpc = some p → t'.pc = p) ∧ (x.cause.again = false → t'.held = t.held ++ [x.cause])))) ∧
    (t.mode = .handler → k = .handler → t.raise k c tpc = { t with st := .ended c.code c.pc }) ∧
    ((t.mode = .handler ∧ k = .user) ∨ (t.mode = .user ∧ (t.exchanging = true ∨ t.cancels c.id = true)) → c.rq = none → t.held.length < 256 →
      t.raise k c tpc = { t with held := t.held ++ [c] })) ∧
  (∀ (t : Tile) (now : Nat) (x : Trap), (t.st = .running ∨ t.st = .halting) → t.trap = some x → t.freezing = false → t.exchanging = false →
    t.cancels x.cause.id = false →
    let c := x.cause
    t.endsClk = true ∧
    (t.sys.tvec = 0 → t.endClk now = { t with trap := none, st := .ended c.code c.pc }) ∧
    (t.sys.tvec ≠ 0 →
      let t' := t.endClk now
      t'.trap = none ∧ t'.mode = .handler ∧ t'.pc = t.sys.tvec.toNat ∧ t'.hand = .empty (now + 1 + 4) ∧ t'.user = t.user ∧ t'.regs = t.regs ∧
      t'.sys.tepc = BitVec.ofNat 64 c.pc ∧ t'.sys.tval = c.tval ∧ t'.sys.tvrb = t.regs.vrb ∧
      t'.sys.tpc = BitVec.ofNat 64 (match x.tpc with
        | some p => p
        | none => t.pc) ∧
      t'.sys.tcause.extractLsb' 0 8 = c.code ∧ t'.sys.tcause.getLsbD 21 = c.rq.isSome ∧
      (∀ n, c.rq = some n → t'.sys.tcause.extractLsb' 16 5 = n) ∧ t'.sys.tcause.getLsbD 22 = c.xw ∧
      t'.sys.vflags = t.sys.vflags ∧ t'.sys.vtrapen = t.sys.vtrapen ∧ t'.sys.tvec = t.sys.tvec ∧ t'.sys.tscr0 = t.sys.tscr0 ∧
      t'.sys.tscr1 = t.sys.tscr1 ∧
      (∀ r ∈ t'.pipe, r ∈ t.pipe ∧ r.snap = false) ∧
      (∀ r ∈ t.pipe, r.snap = true → ({ r with due := r.due - (now + 1) } : Result) ∈ t'.snap) ∧
      (∀ n, c.rq ≠ some n → vget t'.replay n = vget t.replay n)))

/-- R299: trap raises class 31 (code 255), trap.brk class 29 (code 239), with its immediate as TVAL and TPC at the next word. R295, R382: a
running strand in user mode, with no trap raised in the clk, raises its oldest undelivered cause, and takes its trap where no word of a queue can
issue any more in the clk; which tile of the module ends its clk first is the model's choice (log entry 74). -/
def Obligations.TrapWordsAndDelivery : Prop :=
  (∀ (s : State) (h : Hdr) (brk : Bool) (imm : BitVec 16), XReady s h [] [] →
    exec (.trap h brk imm) s = .next (s.split fun t => (t.stops s.clk).raise t.cur
      { code := if brk then 239 else 255, pc := t.pc, tval := imm.setWidth 64, rq := none, xw := true, id := s.chip.nextId } (some (t.pc + 1)))) ∧
  (∀ (s : State), s.tile.mode = .user → s.tile.st = .running → s.tile.exchanging = false → s.tile.cancelling = false → s.tile.trap = none →
    (s.tile.undelivered = [] → exec .trapEntry s = .next s) ∧
    (s.tile.undelivered ≠ [] → ∃ c ∈ s.tile.undelivered, (∀ d ∈ s.tile.undelivered, c.id ≤ d.id) ∧
      let raised (t : Tile) : Tile := { t with held := dropCause c t.held, trap := some ⟨c, none, none⟩ }
      ((∃ q ∈ [Queue.l, .c, .s, .a], s.tile.frame.headDue s.clk q = true) → exec .trapEntry s = .next (s.onTile raised)) ∧
      ((∀ q ∈ [Queue.l, .c, .s, .a], s.tile.frame.headDue s.clk q = false) →
        exec .trapEntry s = .next (s.onTile fun t => (raised t).takeTrap (s.clk + 1))))) ∧
  (∀ s : State, s.dueIssue = none →
    (∃ n, (s.look n).tile.endsClk = true ∧ ((s.chip.tileAt n).trap ≠ none ∨ (s.chip.tileAt n).freezing = true)) →
    ∃ n : TileId, (s.look n).tile.endsClk = true ∧
      s.due = some (((s.look n).onTile fun t => t.endClk s.clk).withChip
        { ((s.look n).onTile fun t => t.endClk s.clk).chip with focus := s.chip.focus }))

/-- R294, R302: tret in user mode raises class 3; in handler mode it is held until the handler frame has drained, and then the user frame
resumes: TPC and TVRB give the PC and VRB, each result kept aside is due as many clk after the return as it had left, and the handler frame is empty. The
machine's own return is the same. -/
def Obligations.TrapReturnResumesTheUserFrame : Prop :=
  ∀ (s : State) (h : Hdr), XReady s h [] [] →
    let t := s.tile
    let tr := s.clk + 1
    (t.mode = .user → exec (.tret h) s = .next (s.splitTrap 7 3 0 id)) ∧
    (t.mode = .handler → t.handlerDrained = false → exec (.tret h) s = .next s) ∧
    (t.mode = .handler → t.handlerDrained = true → t.phase = none →
      ∃ s' : State, exec (.tret h) s = .next s' ∧ s'.clk = s.clk ∧ s'.chip.mem = s.chip.mem ∧
        (∀ n, n ≠ s.chip.focus → s'.chip.tileAt n = s.chip.tileAt n) ∧
        let t' := s'.tile
        t'.mode = .user ∧ t'.pc = t.sys.tpc.toNat ∧ t'.regs = { t.regs with vrb := t.sys.tvrb } ∧ t'.snap = [] ∧ t'.hand = .empty 0 ∧
        t'.replay = t.replay ∧ t'.sys = t.sys ∧ t'.held = t.held ∧
        t'.user = { t.user with
          free := Nat.max (t.user.free + (tr - t.te)) tr
          nextL := t.user.nextL + (tr - t.te), nextC := t.user.nextC + (tr - t.te), nextS := t.user.nextS + (tr - t.te)
          nextA := t.user.nextA + (tr - t.te), portL := t.user.portL + (tr - t.te), portS := t.user.portS + (tr - t.te)
          busyV := t.user.busyV + (tr - t.te), busyK := t.user.busyK + (tr - t.te) } ∧
        (∀ r, r ∈ t'.pipe ↔ r ∈ t.pipe ∨ ∃ x ∈ t.snap, r = { x with due := x.due + tr })) ∧
    (∀ c : Chip, s.chip.fetchWord = (c, .word 0xE0200000000000000000) → t.canSplit s.clk = true → t.mode = .handler →
      XReady (s.withChip c) .zero [] [] → c.tile.mode = .handler → c.tile.handlerDrained = true →
      ∃ s' : State, exec .trapReturn s = .next s' ∧ exec (.tret .zero) (s.withChip c) = .next s' ∧ s'.tile.mode = .user ∧
        s'.tile.pc = c.tile.sys.tpc.toNat)

/-! ## Splitting and results (R47, R54, R66, R91, R129–R131, R217, R294) -/

/-- R47, R55, R72, R91: the splitter takes a queue word whose queues have room and whose tag is free: the word goes to the tail of each of its
queues with what its split captures, its tag becomes pending, its address register is bound to its queue, and the splitter goes on at the next PC in
the next clk; where the other queue holds its address register the word is discarded and class 2 is raised (with code 16 and TPC at the next word: log
entry 57). A word that does not decode goes marked to its queue, and at the head of the queue raises its class, with no token, tag or register
changed; one of CTRL or SYS raises its class at the split, with TPC at the word. -/
def Obligations.WordSplitQueuesTheWord : Prop :=
  ∀ (s : State) (c : Chip) (w : IWord), s.tile.canSplit s.clk = true → s.chip.fetchWord = (c, .word w) → c.tile.canSplit s.clk = true →
    let t := c.tile
    let queues (qs : List Queue) (p : QWord) (bound : Tile → Tile) (tag : BitVec 3) : Out :=
      .next (s.withChip ({ c with nextId := c.nextId + 1 }.upd fun t =>
        { (bound t).updFrame (fun f =>
          { qs.foldl (fun (f : Frame) q => f.setQueue q (f.queue q ++ [p])) f with
            free := s.clk + 1, tags := if tag = 0 then f.tags else vset f.tags tag (some p.id) }) with
          pc := t.pc + 1, quiet := s.clk }))
    let own (i : Instr) : Fifo := if queuesOf i = [.s] then .s else .l
    (∀ i : Instr, decode w = .ok i → isX i = false → t.frame.room (queuesOf i) = true → t.frame.tagPending i.hdr.sba = false → t.sramUe = [] →
      ∃ p : QWord, p.id = c.nextId ∧ p.born = s.clk ∧ p.raw = w ∧ p.what = .ok i ∧ p.pc = t.pc ∧ p.vrb = t.regs.vrb ∧ p.p4 = t.getP 4 ∧
        p.p5 = t.getP 5 ∧ p.p6 = t.getP 6 ∧ p.p7 = t.getP 7 ∧
        (∀ (k : BitVec 3) (n : Nat), (k, n) ∈ p.waits ↔ k ≠ 0 ∧ (k = i.hdr.sbc0 ∨ k = i.hdr.sbc1) ∧ vget t.frame.tags k = some n) ∧
        (postReg i = none → exec .wordSplit s = queues (queuesOf i) p id i.hdr.sba) ∧
        (∀ a, postReg i = some a →
          ((t.getA a).bind = none →
            exec .wordSplit s = queues (queuesOf i) p (fun t => t.setA a { t.getA a with bind := some (own i) }) i.hdr.sba) ∧
          ((t.getA a).bind = some (own i) → exec .wordSplit s = queues (queuesOf i) p id i.hdr.sba) ∧
          (∀ q, (t.getA a).bind = some q → q ≠ own i →
            exec .wordSplit s = .next (s.withChip ({ c with nextId := c.nextId + 1 }.upd fun t =>
              ({ t.updFrame (fun f => { f with free := s.clk + 1 }) with pc := t.pc + 1, quiet := s.clk } : Tile).raise t.cur
                { code := 16, pc := t.pc, tval := 0, rq := none, xw := false, id := c.nextId } none))))) ∧
    (∀ e : DecErr, decode w = .error e → queueOfEng (w.extractLsb' 77 3) ≠ .x → t.frame.room [queueOfEng (w.extractLsb' 77 3)] = true →
      ∃ p : QWord, p.id = c.nextId ∧ p.raw = w ∧ p.what = .bad e ∧ p.pc = t.pc ∧ p.waits = [] ∧
        exec .wordSplit s = queues [queueOfEng (w.extractLsb' 77 3)] p id 0) ∧
    (∀ e : DecErr, decode w = .error e → queueOfEng (w.extractLsb' 77 3) = .x →
      exec .wordSplit s = .next (s.withChip ({ c with nextId := c.nextId + 1 }.upd fun t => (t.stops s.clk).raise t.cur
        { code := causeCode e.cls (w.extractLsb' 77 3).toNat, pc := t.pc, tval := 0, rq := none, xw := true, id := c.nextId } (some t.pc)))) ∧
    (∀ (s : State) (q : Queue) (p : QWord) (rest : List QWord) (e : DecErr), s.tile.frame.queue q = p :: rest → p.what = .bad e →
      s.tile.active = true → s.tile.frame.nextOf q ≤ s.clk → p.born < s.clk →
      stepIssue q s = .next (s.onTile fun t =>
        ({ t.updFrame (fun f => (f.setQueue q rest).setNext q (s.clk + 1)) with quiet := s.clk } : Tile).raise t.cur
          { code := causeCode e.cls (p.raw.extractLsb' 77 3).toNat, pc := p.pc, tval := 0, rq := none, xw := false, id := p.id } none)) ∧
    causeCode 2 0 = 16

/-- R54, R129–R131, R294: a result of fixed latency lands at its clk, one kept aside by a trap at its clk after the return, one of variable
latency when its unit says; before that nothing changes. Landing writes the enabled bits of its registers, ORs its flags into VFLAGS and frees its
tag; where VTRAPEN enables a flag of it, class 17 follows (R154), and class 16 of a reclust only while CXEN is set (R187); what younger words have
written to the register in the same clk stands, the youngest last. The trap of a clk that has passed is taken at once (R292). A variable-latency result
whose register an issue of the clk has read lands in a later clk (R333). -/
def Obligations.ResultsLandAtTheirClk : Prop :=
  (∀ (s : State) (r : Result) (rest : List Result), s.tile.pipe = r :: rest → (∀ x ∈ rest, r.due ≤ x.due) →
    let ends (t : Tile) : Tile := if r.due < s.clk then t.takeTrap (r.due + 1) else t
    (s.clk < r.due → exec .resultWrite s = .next s) ∧
    (r.due ≤ s.clk → (∀ x ∈ rest, s.clk < x.due) → r.ue = none → r.cause = none → r.flags &&& s.tile.sys.vtrapen = 0 →
      exec .resultWrite s = .next (s.onTile fun t => ends (({ t with pipe := rest } : Tile).land r.due r)) ∧
      (s.tile.mode = .user → exec .snapshotWrite s = .next (s.onTile fun t => ends (({ t with pipe := rest } : Tile).land r.due r))) ∧
      (s.tile.mode = .handler → exec .snapshotWrite s = .next s)) ∧
    (r.due ≤ s.clk → (∀ x ∈ rest, s.clk < x.due) → r.ue = none → r.cause = none → r.flags &&& s.tile.sys.vtrapen ≠ 0 →
      exec .resultWrite s = .next (s.onTile fun t => ends ((({ t with pipe := rest } : Tile).land r.due r).raise r.frame
        { code := 138, pc := r.pc, tval := 0, rq := none, xw := false, id := r.id } none)))) ∧
  causeCode 17 2 = 138 ∧
  (∀ (s : State) (k : Nat) (r : Result), s.tile.vpend[k]? = some r →
    let late : Bool := s.tile.lateFor s.clk (resultRefs r)
    (s.clk ≤ r.due ∨ late = true → exec (.variableLatencyCompletion k) s = .next s) ∧
    (r.due < s.clk → late = false → r.ue = none → r.cause = none → r.flags &&& s.tile.sys.vtrapen = 0 →
      exec (.variableLatencyCompletion k) s = .next (s.onTile fun t => ({ t with vpend := dropAt t.vpend k } : Tile).land s.clk r)) ∧
    (∀ x : Cause, r.due < s.clk → late = false → r.ue = none → r.cause = some x → r.flags &&& s.tile.sys.vtrapen = 0 →
      let t := ({ s.tile with vpend := dropAt s.tile.vpend k } : Tile).land s.clk r
      exec (.variableLatencyCompletion k) s = .next (s.onTile fun _ =>
        if x.code = 134 ∧ t.sys.cst.getLsbD 31 = false then t else t.raise r.frame x none))) ∧
  (∀ (t : Tile) (clk : Nat) (r : Result),
    let t' := t.land clk r
    t'.sys.vflags = t.sys.vflags ||| r.flags ∧ t'.quiet = (if r.tag = 0 then t.quiet else clk) ∧ t'.pc = t.pc ∧
    (t.landClk = clk → t.landed.Pairwise (·.id ≤ ·.id) → t'.landClk = clk ∧ r ∈ t'.landed ∧ (∀ x ∈ t.landed, x ∈ t'.landed) ∧
      t'.landed.Pairwise (·.id ≤ ·.id)) ∧
    (∀ x y n mask a mask' a' mask'' a'', t.landClk = clk → t.landed = [x, y] → r.id < x.id → x.id < y.id → t.sramUe = [] →
      r.writes = [.v n mask a] → x.writes = [.v n mask' a'] → y.writes = [.v n mask'' a''] →
      ∀ b < 2048, (t'.getV n).getLsbD b = if mask''.getLsbD b then a''.getLsbD b else if mask'.getLsbD b then a'.getLsbD b
        else if mask.getLsbD b then a.getLsbD b else (t.getV n).getLsbD b) ∧
    (∀ x n mask y mask' y', t.landClk = clk → t.landed = [x] → r.id < x.id → t.sramUe = [] → r.writes = [.v n mask y] → x.writes = [.v n mask' y'] →
      ∀ b < 2048, (t'.getV n).getLsbD b =
        if mask'.getLsbD b then y'.getLsbD b else if mask.getLsbD b then y.getLsbD b else (t.getV n).getLsbD b)) ∧
  (∀ (t : Tile) (clk : Nat) (r : Result), t.landClk ≠ clk → t.sramUe = [] →
    let t' := t.land clk r
    t'.bufs = t.bufs ∧
    (r.writes = [] → t'.regs = t.regs ∧ t'.binds = t.binds ∧
      ∀ k, vget (t'.frameOf r.frame).tags k = if k = r.tag ∧ vget (t.frameOf r.frame).tags k = some r.id then none else vget (t.frameOf r.frame).tags k) ∧
    (∀ n mask x, r.writes = [.v n mask x] → t'.regs.s = t.regs.s ∧ t'.regs.p = t.regs.p ∧ (∀ m, m ≠ n → t'.getV m = t.getV m) ∧
      ∀ b < 2048, (t'.getV n).getLsbD b = if mask.getLsbD b then x.getLsbD b else (t.getV n).getLsbD b) ∧
    (∀ n x, r.writes = [.s n x] → t'.getS n = (if n = 0 then 0 else x) ∧ (∀ m, m ≠ n → t'.getS m = t.getS m) ∧ t'.regs.v = t.regs.v ∧
      t'.regs.p = t.regs.p) ∧
    (∀ n mask x, r.writes = [.p n mask x] → t'.regs.s = t.regs.s ∧ t'.regs.v = t.regs.v ∧ (∀ m, m ≠ n → t'.getP m = t.getP m) ∧
      ∀ b < 64, (t'.getP n).getLsbD b = if n = 0 then true else if mask.getLsbD b then x.getLsbD b else (t.getP n).getLsbD b))

/-- R217, R93: a promise that is due, of a word that consumed no zeros, reaches its register, which is then bound to its command, and frees its tag;
what a younger word has written there in its clk stands (R130). R66: with every queue still
for 65,536 clk and nothing outstanding, the oldest word that waits for a token or a queue register raises class 4. -/
def Obligations.PromisesAndTokenDeadlock : Prop :=
  (∀ (s : State) (p : Promise), s.tile.promises = [p] → p.cause = none → s.tile.pipe = [] →
    (s.clk < p.due → exec .promiseWrite s = .next s) ∧
    (∀ x y, p.due ≤ s.clk → s.tile.landClk = p.due → s.tile.landed = [x] → p.wid < x.id → x.writes = [.s p.d y] → p.d ≠ 0 → s.tile.trap = none →
      ∃ t' : Tile, exec .promiseWrite s = .next (s.onTile fun _ => t') ∧ t'.getS p.d = y ∧ vget t'.binds p.d = none) ∧
    (p.due ≤ s.clk → s.tile.landClk ≠ p.due → s.tile.trap = none → ∃ t' : Tile, exec .promiseWrite s = .next (s.onTile fun _ => t') ∧ t'.promises = [] ∧
      t'.getS p.d = (if p.d = 0 then 0 else p.value) ∧ (p.d ≠ 0 → vget t'.binds p.d = p.cmd) ∧
      (∀ n, n ≠ p.d → t'.getS n = s.tile.getS n ∧ vget t'.binds n = vget s.tile.binds n) ∧
      t'.regs.v = s.tile.regs.v ∧ t'.regs.p = s.tile.regs.p ∧ t'.pc = s.tile.pc ∧
      ∀ k, vget (t'.frameOf p.frame).tags k =
        if k = p.tag ∧ vget (s.tile.frameOf p.frame).tags k = some p.wid then none else vget (s.tile.frameOf p.frame).tags k)) ∧
  (∀ s : State, s.tile.st = .running →
    (s.clk < s.tile.quiet + 65536 ∨ s.tile.outstanding = true ∨ (∀ q ∈ [Queue.l, .c, .s], s.tile.stalled s.clk q = none) →
      exec .tokenDeadlock s = .next s) ∧
    (s.tile.quiet + 65536 ≤ s.clk → s.tile.outstanding = false → (∃ q ∈ [Queue.l, .c, .s], s.tile.stalled s.clk q ≠ none) →
      ∃ q ∈ [Queue.l, .c, .s], ∃ w i, s.tile.stalled s.clk q = some w ∧ w.what = .ok i ∧
        (∀ q' ∈ [Queue.l, .c, .s], ∀ w', s.tile.stalled s.clk q' = some w' → w.id ≤ w'.id) ∧
        exec .tokenDeadlock s = .next (s.onTile fun t => { t with quiet := s.clk }.raise t.cur
          { code := causeCode 4 (instrEng i), pc := w.pc, tval := 0, rq := none, xw := false, id := w.id } none)))

/-! ## The end and the pre-emption of a strand (R290, R301, R305, R331) -/

/-- R301, R290, R331: a halted strand whose work is all done, and one that a trap has ended, are retired: their monitors go, the harts of the
die are interrupted, for a strand that a trap has ended the first of them (which hart R290 leaves open: log entry 68), and no memory changes; a
halted strand with work left stands. -/
def Obligations.StrandsRetire : Prop :=
  ∀ s : State,
    let first := firstHart (tileDie s.chip.focus)
    let retires (i : Instr) (q : List (BitVec 3 × Irq)) : Prop := ∃ c : Chip, exec i s = .next (s.withChip c) ∧ c.tile.st = .retired ∧ c.tile.watch = [] ∧
      c.tile.wake = false ∧ c.mem = s.chip.mem ∧ c.irqs = s.chip.irqs ++ q
    (∀ w : HeldWord, s.tile.st = .halting → s.tile.frame.wait = some w → w.wait = .halted →
      (s.tile.drained = false → exec .strandRetirement s = .next s) ∧ (s.tile.drained = true → 
        retires .strandRetirement [(first, .halted), (first + 1, .halted), (first + 2, .halted), (first + 3, .halted)])) ∧
    (∀ code pc, s.tile.st = .ended code pc → retires .handlerFault [(first, .ended)]) ∧
    (s.tile.st = .running → exec .handlerFault s = .next s ∧ exec .strandRetirement s = .next s)

/-- R305, R334: a pre-emption freezes a running strand's frames, and its team's, as the clk ends, with code 247 in TCAUSE, once an exchange with a home
slice is over (R296); of one in user mode TPC and TVRB are where it resumes, and of
one in handler mode they keep where its tret resumes (log entry 66). When everything has drained or parked the strand is frozen and the die's first
hart is interrupted (log entry 68). -/
def Obligations.PreemptionFreezesTheStrand : Prop :=
  (∀ (t : Tile) (now : Nat), (t.st = .running ∨ t.st = .halting) → t.freezing = true → t.trap = none →
    (t.exchanging = true → t.endsClk = false) ∧
    (t.exchanging = false →
      let t' := t.endClk now
      t.endsClk = true ∧ t'.freezing = false ∧ t'.st = .preempting ∧ t'.tf = now + 1 ∧ t'.regs = t.regs ∧ t'.user = t.user ∧ t'.hand = t.hand ∧
      t'.mode = t.mode ∧
      (∀ r ∈ t'.pipe, r ∈ t.pipe ∧ r.snap = false) ∧
      (∀ r ∈ t.pipe, r.snap = true → ({ r with due := r.due - (now + 1) } : Result) ∈ t'.snap) ∧
      (t.mode = .user → t'.sys = { t.sys with tcause := 247, tpc := BitVec.ofNat 64 t.pc, tvrb := t.regs.vrb }) ∧
      (t.mode = .handler → t'.sys = { t.sys with tcause := 247 }))) ∧
  ∀ s : State,
    (s.tile.st = .running → ∃ c : Chip, exec .preemption s = .next (s.withChip c) ∧ c.tile = { s.tile with freezing := true } ∧ c.mem = s.chip.mem ∧
      ∀ n, n ≠ s.chip.focus → c.tileAt n = if s.tile.team ≠ 0 ∧ (s.chip.tileAt n).team = s.tile.team ∧ (s.chip.tileAt n).active = true then
        { s.chip.tileAt n with freezing := true } else s.chip.tileAt n) ∧
    (s.tile.st = .preempting → s.tile.pipe = [] → s.tile.vpend = [] → s.tile.promises = [] → s.tile.mat.queue = [] → s.tile.mat.ards = [] →
      s.tile.chan.settled = true → s.tile.unv.settled = true → s.tile.unacked = 0 → s.tile.accessesSettled s.chip.focus .user = true →
      s.tile.accessesSettled s.chip.focus .handler = true → s.chip.abortedLaunch s.tile.bound.launch = false →
      (s.tile.team = 0 ∨ (s.chip.team s.tile.team).lost = false) →
      ∃ c : Chip, exec .preemption s = .next (s.withChip c) ∧ c.tile = { s.tile with st := .preempted } ∧ c.mem = s.chip.mem ∧
        c.irqs = s.chip.irqs ++ [(firstHart (tileDie s.chip.focus), .frozen)])

/-! ## Guarded phases (R308–R313, R343) -/

/-- R309: a phase word places its parts and holds the splitter; when every part stands at the head of its queue, a token or a queue-register
entry left over raises class 2, an ill-formed configuration class 9; with EN 0 the splitter just goes on; with EN 1 a checkpoint is taken, ACT is set and
the splitter goes on. -/
def Obligations.PhasesOpenWithACheckpoint : Prop :=
  (∀ (s : State) (h : Hdr) (a : SReg), XReady s h [] [] → s.tile.frame.phaseQueued = false → s.tile.frame.room [.l, .c, .s, .a] = true →
    ∃ p : QWord, p.what = .ok (.phase h a) ∧ p.id = s.chip.nextId ∧ p.pc = s.tile.pc ∧
      exec (.phase h a) s = .next (s.splitWait (.phase (s.tile.getS a)) fun t =>
        t.updFrame fun f => { f with l := f.l ++ [p], c := f.c ++ [p], s := f.s ++ [p], a := f.a ++ [p] })) ∧
  (∀ (s : State) (w : HeldWord) (input : Word), s.tile.frame.wait = some w → w.wait = .phase input → s.tile.phaseReady s.clk w = true →
    s.tile.phase = none → s.tile.sramUe = [] →
    let cfg := phCfgOf s.tile.sys.phcfg
    (s.tile.frame.tokensEmpty = false → exec .phaseProceed s = .next (s.onTile fun t => t.phaseFault s.clk 2)) ∧
    (s.tile.frame.tokensEmpty = true →
      (cfg.en = false → exec .phaseProceed s = .next (s.onTile fun t => (t.popParts s.clk).letGo s.clk w)) ∧
      (cfg.en = true → cfg.ok = false → exec .phaseProceed s = .next (s.onTile fun t => t.phaseFault s.clk 9)) ∧
      (cfg.en = true → cfg.ok = true → s.tile.fillingHalf s.chip.focus cfg = true → exec .phaseProceed s = .next s) ∧
      (cfg.en = true → cfg.ok = true → s.tile.fillingHalf s.chip.focus cfg = false →
        ∃ t' : Tile, exec .phaseProceed s = .next (s.onTile fun _ => t'.letGo s.clk w) ∧ t'.regs = s.tile.regs ∧
          t'.sys = { s.tile.sys with phcfg := s.tile.sys.phcfg ||| 0x4000000000000000 } ∧
          ∃ x : PhaseState, t'.phase = some x ∧ x.s = s.tile.regs.s ∧ x.a = s.tile.regs.a ∧ x.vrb = s.tile.regs.vrb ∧ x.p4 = s.tile.getP 4 ∧
            x.p5 = s.tile.getP 5 ∧ x.p6 = s.tile.getP 6 ∧ x.p7 = s.tile.getP 7 ∧ x.loops = s.tile.frame.loops ∧ x.input = input ∧
            x.resume = w.pc + 1 ∧ x.log = [] ∧ x.cancel = false)))

/-- R309, R311, R313: the next phase word, or a halt in user mode behind which no word waits in a queue, commits the phase once its work is done and 400 clk have passed since its last
result: the stores of its log go to the S FIFO in their order, HALF turns, ACT and RERUN are cleared. -/
def Obligations.PhasesCommitTheirLog : Prop :=
  ∀ (s : State) (w : HeldWord) (p : PhaseState), s.tile.phase = some p → s.tile.frame.wait = some w → p.cancel = false →
    s.tile.active = true →
    (w.wait = .halted → (∃ q ∈ [Queue.l, .c, .s, .a], s.tile.frame.queue q ≠ []) → exec .phaseCommit s = .next s) ∧
    ((w.wait = .halted ∧ ∀ q ∈ [Queue.l, .c, .s, .a], s.tile.frame.queue q = []) ∨
      (∃ x, w.wait = .phase x ∧ s.tile.phaseReady s.clk w = true) → s.tile.sramUe = [] →
    (s.tile.frame.tokensEmpty = true →
      (s.tile.commitReady s.chip.focus s.clk p w.id = false → exec .phaseCommit s = .next s) ∧
      (s.tile.commitReady s.chip.focus s.clk p w.id = true →
        p.last + 400 ≤ s.clk ∧
        ∃ t' : Tile, exec .phaseCommit s = .next (s.onTile fun _ => t') ∧ t'.user = { s.tile.user with sf := s.tile.user.sf ++ p.log } ∧
          t'.phase = none ∧ t'.regs = s.tile.regs ∧
          ∀ k < 64, t'.sys.phcfg.getLsbD k = if k = 61 then !s.tile.sys.phcfg.getLsbD 61 else if k = 60 ∨ k = 62 then false
            else s.tile.sys.phcfg.getLsbD k)) ∧
    (s.tile.frame.tokensEmpty = false → exec .phaseCommit s = .next (s.onTile fun t => t.phaseFault s.clk 2)))

/-- R312, R343: a strike report is recorded as an event of KIND 5 in the tile's bank and asks an active phase to cancel. A phase that is to
cancel first loses its log and its replay entries, with the commands that have stopped for want of one; then, its issued words finished, it gets its
checkpoint back, and the command that fills its input half again goes ahead of every command that has not started; the splitter waits for it (log
entry 42). RERUN is set, or, where it was set, is cleared and class 20 is raised. -/
def Obligations.PhasesCancelToTheCheckpoint : Prop :=
  (∀ s : State, ∃ c : Chip, exec .strikeReport s = .next (s.withChip c) ∧ c.mem = s.chip.mem ∧
    (∀ p, s.tile.phase = some p → c.tile.phase = some { p with cancel := true }) ∧ (s.tile.phase = none → c.tile = s.tile) ∧
    ((getBank (s.chip.die (tileDie s.chip.focus)).banks (tileBank s.chip.focus)).v = false →
      (getBank (c.die (tileDie s.chip.focus)).banks (tileBank s.chip.focus)).v = true ∧
      (getBank (c.die (tileDie s.chip.focus)).banks (tileBank s.chip.focus)).ue = false ∧
      (getBank (c.die (tileDie s.chip.focus)).banks (tileBank s.chip.focus)).kind = 5)) ∧
  (∀ (s : State) (p : PhaseState), s.tile.phase = some p → s.tile.cancelling = true → s.tile.st = .running → .sys .phcfg ∉ s.tile.sramUe →
    let keeps (x : PhaseState) : Prop := s.tile.phaseEntries x ≠ [] ∨ (∃ y ∈ s.tile.chan.fifo, y.stuckIn x = true) ∨ x.log ≠ []
    let again : Cause := { code := causeCode 20 7, pc := p.resume, tval := 0, rq := none, xw := false, id := s.chip.nextId }
    let ends (t : Tile) : Tile := if s.tile.sys.phcfg.getLsbD 60 then t.raise .user again (some p.resume) else t
    (keeps p → ∃ t' : Tile, exec .phaseCancellation s = .next (s.onTile fun _ => t') ∧ t'.regs = s.tile.regs ∧
      t'.phase = some { p with log := [], fill := 0 } ∧ (∀ y ∈ t'.chan.fifo, y.stuckIn p = false) ∧
      ∀ n e, vget t'.replay n = some e → vget s.tile.replay n = some e ∧ match e.owner with
        | .access _ k _ | .command _ k => k < p.since) ∧
    (¬keeps p → s.tile.phaseQuiet p = false → exec .phaseCancellation s = .next s) ∧
    (¬keeps p → s.tile.phaseQuiet p = true → ∃ t' : Tile,
      exec .phaseCancellation s = .next (s.withChip ({ s.chip with nextId := s.chip.nextId + 1 }.upd fun _ => ends t')) ∧
      (∀ n : SReg, 1 ≤ n.toNat → n.toNat ≤ 15 → vget t'.regs.s n = vget p.s n) ∧
      (∀ n : SReg, 16 ≤ n.toNat → vget t'.regs.s n = vget s.tile.regs.s n) ∧ t'.regs.a = p.a ∧ t'.regs.vrb = p.vrb ∧
      vget t'.regs.p 4 = p.p4 ∧ vget t'.regs.p 5 = p.p5 ∧ vget t'.regs.p 6 = p.p6 ∧ vget t'.regs.p 7 = p.p7 ∧ t'.regs.v = s.tile.regs.v ∧
      t'.user.loops = p.loops ∧ t'.user.tok = s.tile.user.tok ∧ t'.user.tags = s.tile.user.tags ∧ t'.pc = p.resume ∧ t'.bufs = s.tile.bufs ∧
      t'.replay = s.tile.replay ∧ (∀ x ∈ t'.held, x ∈ s.tile.held ∧ x.id < p.since) ∧
      t'.user.wait = some ⟨s.chip.nextId, p.resume - 1, 0, .refill s.chip.nextId, false⟩ ∧
      (∃ (pre post : List Cmd) (x : Cmd), s.tile.chan.fifo = pre ++ post ∧ t'.chan.fifo = pre ++ x :: post ∧ (∀ y ∈ pre, y.st ≠ .queued) ∧
        (∀ y, post.head? = some y → y.st = .queued) ∧ x.id = s.chip.nextId ∧ x.st = .queued ∧ x.src = p.input ∧
        x.ins = .cpy .zero ⟨0, 0, 0, 0, .plain, .c, true, true, false, false, true, none⟩ ∧
        x.dst = 0x100000 + BitVec.ofNat 64 (128 *
          (if s.tile.sys.phcfg.getLsbD 61 then s.tile.sys.phcfg.extractLsb' 24 12 else s.tile.sys.phcfg.extractLsb' 36 12).toNat) ∧
        x.shape = BitVec.ofNat 64 (128 * (s.tile.sys.phcfg.extractLsb' 48 12).toNat)) ∧
      (∃ x : PhaseState, t'.phase = some x ∧ x.log = [] ∧ x.fill = 0 ∧ x.cancel = false) ∧
      (∀ k < 64, t'.sys.phcfg.getLsbD k = if k = 60 then !s.tile.sys.phcfg.getLsbD 60 else s.tile.sys.phcfg.getLsbD k)))

/-! ## Vector words (R126–R152) -/

/-- R132, R135: each floating word writes what the arithmetic of its format gives for its operands, element by element, in the mode of its RND
and SAT, with subnormals flushed outside an interlocked loop. What that arithmetic is on finite operands FloatResultsRoundOnce says, and on the
others FloatSpecialOperands. -/
def Obligations.VectorFloatArithmetic : Prop :=
  ∀ (s : State) (h : Hdr) (w : QWord) (rest : List QWord),
    let t := s.tile
    let flush := !w.imode
    let v (ty : Ty) (x : Nat) : FVal := (fmtOf ty).val flush x
    let at_ (ty : Ty) (a : VSrc) (e : Nat) : FVal := v ty (elemN (tyWidth ty) (t.vsrc w a) e)
    (∀ o : FBin,
      let answers (i : Instr) (lat occ : Nat) (f : Fmt → FMode → FVal → FVal → FRes) : Prop := QReady s .c i .lanes vecRes w rest →
        s.answersElements i w rest occ lat (tyWidth o.ty) o.d fun e =>
          f (fmtOf o.ty) ⟨o.rnd, o.sat, flush⟩ (at_ o.ty o.a e) (v o.ty (t.bElem w o.ty o.b e))
      answers (.fadd h o) 4 1 Fmt.add ∧ answers (.fsub h o) 4 1 (fun f md a b => f.add md a b.negate) ∧ answers (.fmul h o) 4 1 Fmt.mul ∧
      answers (.fdiv h o) 14 4 Fmt.div ∧
      (QReady s .c (.fscalb h o) .lanes vecRes w rest → s.answersElements (.fscalb h o) w rest 1 4 (tyWidth o.ty) o.d fun e =>
        (fmtOf o.ty).scalb ⟨o.rnd, o.sat, flush⟩ (at_ o.ty o.a e) (match o.b with
          | .imm i => i.toInt
          | .src b => (BitVec.ofNat (tyWidth o.ty) (elemN (tyWidth o.ty) (t.vsrc w b) e)).toInt))) ∧
    (∀ o : FTern,
      let answers (i : Instr) (f : Fmt → FMode → FVal → FVal → FVal → FRes) : Prop := QReady s .c i .lanes vecRes w rest →
        s.answersElements i w rest 1 4 (tyWidth o.ty) o.d fun e =>
          f (fmtOf o.ty) ⟨o.rnd, o.sat, flush⟩ (at_ o.ty o.a e) (v o.ty (t.bElem w o.ty o.b e)) (at_ o.ty o.c e)
      answers (.fma h o) Fmt.fma ∧ answers (.fms h o) (fun f md a b c => f.fma md a b c.negate) ∧
      answers (.fnma h o) (fun f md a b c => f.fma md a.negate b c)) ∧
    (∀ o : FUn,
      let answers (i : Instr) (lat occ : Nat) (f : Fmt → FMode → FVal → FRes) : Prop := QReady s .c i .lanes vecRes w rest →
        s.answersElements i w rest occ lat (tyWidth o.ty) o.d fun e => f (fmtOf o.ty) ⟨o.rnd, o.sat, flush⟩ (at_ o.ty o.a e)
      answers (.fsqrt h o) 14 4 Fmt.sqrt ∧ answers (.frcp h o) 8 2 Fmt.rcp ∧ answers (.frsq h o) 8 2 Fmt.rsq ∧
      answers (.fexp2 h o) 10 2 Fmt.exp2 ∧ answers (.flog2 h o) 10 2 Fmt.log2)

/-- R26, R132, R135: a NaN result is the canonical NaN, invalid being set for a signalling operand and for ∞ − ∞, 0 × ∞, 0 / 0, ∞ / ∞ and the
root or the logarithm of a negative number; a finite nonzero dividend over a zero, the reciprocal, the reciprocal root and the logarithm of a zero set
divide-by-zero; 2 to an integer and the logarithm of a power of two are exact. R133: the minimum and the maximum are one of the operands, a NaN beside a number
dropping out. -/
def Obligations.FloatSpecialOperands : Prop :=
  ∀ (f : Fmt) (md : FMode),
    let nan (nv : Bool) : FRes := ⟨f.nan, if nv then 16 else 0⟩
    let inf (n : Bool) (fl : FFlags) : FRes := ⟨if md.sat then f.maxFin n else f.inf n, fl⟩
    (∀ (sn : Bool) (x : FVal), f.add md (.nan sn) x = nan (sn || x.isSnan) ∧ f.add md x (.nan sn) = nan (sn || x.isSnan) ∧
      f.mul md (.nan sn) x = nan (sn || x.isSnan) ∧ f.mul md x (.nan sn) = nan (sn || x.isSnan) ∧
      f.div md (.nan sn) x = nan (sn || x.isSnan) ∧ f.div md x (.nan sn) = nan (sn || x.isSnan) ∧ f.sqrt md (.nan sn) = nan sn ∧
      f.exp2 md (.nan sn) = nan sn ∧ f.log2 md (.nan sn) = nan sn ∧ f.rsq md (.nan sn) = nan sn ∧ ∀ k : Int, f.scalb md (.nan sn) k = nan sn) ∧
    (∀ (n : Bool) (k : Int), f.scalb md (.inf n) k = inf n 0) ∧
    (∀ n : Bool, f.add md (.inf n) (.inf (!n)) = nan true ∧ f.add md (.inf n) (.inf n) = inf n 0 ∧
      (∀ (k : Bool) (e : Int), f.mul md (.inf n) (.fin k 0 e) = nan true ∧ f.mul md (.fin k 0 e) (.inf n) = nan true ∧
        (∀ x : FVal, f.fma md (.inf n) (.fin k 0 e) x = nan true ∧ f.fma md (.fin k 0 e) (.inf n) x = nan true)) ∧
      (∀ k : Bool, f.mul md (.inf n) (.inf k) = inf (n != k) 0 ∧ f.div md (.inf n) (.inf k) = nan true) ∧
      (∀ (k : Bool) (m : Nat) (e d : Int), f.div md (.fin n 0 e) (.fin k 0 d) = nan true ∧
        (m ≠ 0 → f.div md (.fin n m e) (.fin k 0 d) = inf (n != k) 8 ∧ f.sqrt md (.fin true m e) = nan true ∧
          f.log2 md (.fin true m e) = nan true ∧ f.rsq md (.fin true m e) = nan true)) ∧
      (∀ e : Int, f.sqrt md (.fin n 0 e) = ⟨if n then 2 ^ (f.eb + f.fb) else 0, 0⟩ ∧ f.log2 md (.fin n 0 e) = inf true 8 ∧
        f.rsq md (.fin n 0 e) = inf n 8)) ∧
    f.sqrt md (.inf false) = inf false 0 ∧ f.sqrt md (.inf true) = nan true ∧ f.exp2 md (.inf true) = ⟨0, 0⟩ ∧ f.log2 md (.inf false) = inf false 0 ∧
    f.exp2 md (.inf false) = inf false 0 ∧ f.log2 md (.inf true) = nan true ∧ f.rsq md (.inf false) = ⟨0, 0⟩ ∧ f.rsq md (.inf true) = nan true ∧
    (∀ sn : Bool, f.rcp md (.nan sn) = nan sn) ∧
    (∀ (n : Bool) (e : Int), f.rcp md (.inf n) = ⟨if n then 2 ^ (f.eb + f.fb) else 0, 0⟩ ∧ f.rcp md (.fin n 0 e) = inf n 8) ∧
    (∀ (k : Nat) (e : Int), f.log2 md (.fin false (2 ^ k) e) = f.ofInt md (e + k)) ∧ f.ofInt md 0 = ⟨0, 0⟩ ∧
    (f ∈ [fmtF32, fmtF16, fmtBf16] → ∀ (z e : Int) (m : Nat), 1 - (2 ^ (f.eb - 1) - 1) ≤ z → z ≤ 2 ^ (f.eb - 1) - 1 → -149 ≤ e →
      m * 2 ^ e.toNat = z.natAbs * 2 ^ (-e).toNat →
      f.exp2 md (.fin (decide (z < 0)) m e) = ⟨(z + (2 ^ (f.eb - 1) - 1)).toNat * 2 ^ f.fb, 0⟩) ∧
    -- R133: the lesser or the greater operand, −0 below +0; a NaN beside a number drops out
    (f ∈ [fmtF32, fmtF16, fmtBf16] → ∀ (isMax : Bool) (x y : Nat), x < 2 ^ (1 + f.eb + f.fb) → y < 2 ^ (1 + f.eb + f.fb) →
      let a := f.val false x
      let b := f.val false y
      let r := f.minMax isMax false x y
      let key (z : Nat) : Int := if z < 2 ^ (f.eb + f.fb) then z else 2 ^ (f.eb + f.fb) - 1 - (z : Int)
      r.fl = (if a.isSnan = true ∨ b.isSnan = true then 16 else 0) ∧
      (a.isNan = true → b.isNan = true → r.bits = f.nan) ∧ (a.isNan = true → b.isNan = false → r.bits = y) ∧
      (a.isNan = false → b.isNan = true → r.bits = x) ∧
      (a.isNan = false → b.isNan = false → (r.bits = x ∨ r.bits = y) ∧
        key r.bits = if isMax then max (key x) (key y) else min (key x) (key y)))

/-- R27–R30, R132, R135: the sum, the product, the product and sum in one, the quotient, a scaling by a power of two, the reciprocal, a converted
integer and a converted value of finite operands are the exact result rounded once, with overflow, underflow and inexact as it comes out; an exact
zero has the sign that R27 gives; a value converted to an integer type is rounded once and clamped to its range. So are the root and the reciprocal
root, which the binary digits of the exact result decide, and 2^x and log2 x, where 200 of them decide it (that they always do is log entry 9).
R40: so is a finite accumulator with the exact value of a block, which is an infinity from 2^128 − 2^103 up. -/
def Obligations.FloatResultsRoundOnce : Prop :=
  ∀ (f : Fmt) (md : FMode), f ∈ [fmtF32, fmtF16, fmtBf16] →
    let sg (n : Bool) (x : Nat) : Int := if n then -x else x
    let zero (n : Bool) : FRes := ⟨if n then 2 ^ (f.eb + f.fb) else 0, 0⟩
    -- S · 2^e, with the sign of an exact zero
    let rounds (S e : Int) (n : Bool) (r : FRes) : Prop :=
      (S = 0 → r = zero n) ∧ (S ≠ 0 → f.Rounds md (decide (S < 0)) (S.natAbs * 2 ^ e.toNat) (2 ^ (-e).toNat) r)
    let sumSign (n k : Bool) : Bool := if n = k then n else md.rnd == .rdn
    (∀ (n1 n2 n3 : Bool) (m1 m2 m3 : Nat) (e1 e2 e3 : Int),
      (∀ e : Int, e ≤ e1 → e ≤ e2 →
        rounds (sg n1 (m1 * 2 ^ (e1 - e).toNat) + sg n2 (m2 * 2 ^ (e2 - e).toNat)) e (sumSign n1 n2) (f.add md (.fin n1 m1 e1) (.fin n2 m2 e2))) ∧
      rounds (sg (n1 != n2) (m1 * m2)) (e1 + e2) (n1 != n2) (f.mul md (.fin n1 m1 e1) (.fin n2 m2 e2)) ∧
      (∀ e : Int, e ≤ e1 + e2 → e ≤ e3 →
        rounds (sg (n1 != n2) (m1 * m2 * 2 ^ (e1 + e2 - e).toNat) + sg n3 (m3 * 2 ^ (e3 - e).toNat)) e (sumSign (n1 != n2) n3)
          (f.fma md (.fin n1 m1 e1) (.fin n2 m2 e2) (.fin n3 m3 e3))) ∧
      (m1 ≠ 0 → m2 ≠ 0 → f.Rounds md (n1 != n2) (m1 * 2 ^ (e1 - e2).toNat) (m2 * 2 ^ (e2 - e1).toNat) (f.div md (.fin n1 m1 e1) (.fin n2 m2 e2))) ∧
      (m2 ≠ 0 → f.div md (.fin n1 0 e1) (.fin n2 m2 e2) = zero (n1 != n2)) ∧
      rounds (sg n1 m1) e1 n1 (f.finish md (.fin n1 m1 e1)) ∧
      (∀ k : Int, rounds (sg n1 m1) (e1 + k) n1 (f.scalb md (.fin n1 m1 e1) k)) ∧
      (m1 ≠ 0 → f.Rounds md n1 (2 ^ (-e1).toNat) (m1 * 2 ^ e1.toNat) (f.rcp md (.fin n1 m1 e1)))) ∧
    -- an irrational result lies between q and q + 1 units of 2^−N; the values between are no numbers of the format, and no halves of two
    (∀ (m N q : Nat) (e : Int), m ≠ 0 → 2 ^ (f.fb + 3) ≤ q →
      let num := m * 2 ^ e.toNat
      let den := 2 ^ (-e).toNat
      let is (exact : Prop) (r : FRes) : Prop :=
        (exact → f.Rounds md false q (2 ^ N) r) ∧ (¬exact → f.Rounds md false (2 * q + 1) (2 ^ (N + 1)) r)
      (q ^ 2 * den ≤ num * 4 ^ N → num * 4 ^ N < (q + 1) ^ 2 * den → is (q ^ 2 * den = num * 4 ^ N) (f.sqrt md (.fin false m e))) ∧
      (q ^ 2 * num ≤ den * 4 ^ N → den * 4 ^ N < (q + 1) ^ 2 * num → is (q ^ 2 * num = den * 4 ^ N) (f.rsq md (.fin false m e)))) ∧
    -- 2^x for x = z / 2^b that is no integer, where the numbers on both sides of these units round alike
    (∀ (b m N q : Nat) (z e : Int) (r : FRes), -149 ≤ e → m * 2 ^ e.toNat * 2 ^ b = z.natAbs * 2 ^ (-e).toNat → z % 2 ^ b ≠ 0 →
      2 ^ (f.fb + 3) ≤ q → q < 2 ^ 200 → q ^ 2 ^ b * 2 ^ (-z).toNat ≤ 2 ^ z.toNat * 2 ^ (N * 2 ^ b) →
      2 ^ z.toNat * 2 ^ (N * 2 ^ b) < (q + 1) ^ 2 ^ b * 2 ^ (-z).toNat →
      f.Rounds md false (2 * q - 1) (2 ^ (N + 1)) r → f.Rounds md false (2 * q + 3) (2 ^ (N + 1)) r →
      f.exp2 md (.fin (decide (z < 0)) m e) = r) ∧
    -- log2 of m · 2^e between p and p + 1 units of 2^−N; its magnitude between q and q + 1
    (∀ (m N q : Nat) (p e : Int) (r : FRes), m < 2 ^ (f.fb + 1) → (∀ k, m ≠ 2 ^ k) → 2 ^ (f.fb + 3) ≤ q → q < 2 ^ 200 →
      q = (if p < 0 then (-p - 1).toNat else p.toNat) →
      2 ^ (p - e * 2 ^ N).toNat ≤ m ^ 2 ^ N * 2 ^ (e * 2 ^ N - p).toNat →
      m ^ 2 ^ N * 2 ^ (e * 2 ^ N - (p + 1)).toNat < 2 ^ (p + 1 - e * 2 ^ N).toNat →
      f.Rounds md (decide (p < 0)) (2 * q - 1) (2 ^ (N + 1)) r → f.Rounds md (decide (p < 0)) (2 * q + 3) (2 ^ (N + 1)) r →
      f.log2 md (.fin false m e) = r) ∧
    (∀ z : Int, rounds z 0 false (f.ofInt md z)) ∧
    (∀ (signed : Bool) (w m : Nat) (n : Bool) (e : Int), w ∈ [8, 16, 32, 64] →
      let lo : Int := if signed then -(2 ^ (w - 1)) else 0
      let hi : Int := if signed then 2 ^ (w - 1) - 1 else 2 ^ w - 1
      ∃ q : Nat, roundedTo md.rnd n (m * 2 ^ e.toNat) (2 ^ (-e).toNat) 0 q false ∧
        floatToInt signed w md.rnd (.fin n m e) =
          if sg n q < lo then (BitVec.ofInt w lo, 16) else if hi < sg n q then (BitVec.ofInt w hi, 16)
          else (BitVec.ofInt w (sg n q), if q * 2 ^ (-e).toNat = m * 2 ^ e.toNat then 0 else 1)) ∧
    -- R40, R206: a matrix block, with the exact sum S of its code products, onto a finite accumulator
    (∀ (acc m wa wb ea eb : Nat) (S e : Int) (n : Bool), fmtF32.val false acc = .fin n m e → acc < 2 ^ 32 →
      let step := blockStep acc S wa wb ea eb
      let x : Int := (2 - wa) + (2 - wb) + (ea - 127) + (eb - 127)
      let big : Prop := (2 ^ 25 - 1) * 2 ^ (103 - x).toNat ≤ S.natAbs * 2 ^ (x - 103).toNat
      (ea = 255 ∨ eb = 255 → step = ⟨0x7FC00000, 16⟩) ∧
      (ea ≠ 255 → eb ≠ 255 →
        (S = 0 → step = ⟨if m = 0 then 0 else acc, 0⟩) ∧
        (S ≠ 0 → big → step = ⟨if S < 0 then 0xFF800000 else 0x7F800000, 4⟩) ∧
        (S ≠ 0 → ¬big → ∀ d : Int, d ≤ e → d ≤ x →
          let T : Int := sg n (m * 2 ^ (e - d).toNat) + S * 2 ^ (x - d).toNat
          (T = 0 → step = ⟨0, 0⟩) ∧
          (T ≠ 0 → fmtF32.Rounds ⟨.rne, false, false⟩ (decide (T < 0)) (T.natAbs * 2 ^ d.toNat) (2 ^ (-d).toNat) step))))

/-- R133, R134, R136–R138: minimum, maximum, sign edits, class, compares into a predicate, and conversions, which pair a wide element with the
narrow one that H picks and keep the other narrow elements of an enabled lane, which in a queue register's entry are 0 (log entry 35). A compare of 64-bit elements goes
by the predicate bit of each lane (log entry 75). What a compare's conditions, a class and a conversion are: the eight conditions by value with
−0 = +0, a NaN making all but ne and un false; the ten class bits; a NaN converted to an integer is 0 and an infinity the end of the range, both
invalid, and in a floating type the canonical NaN and the infinity, or the largest finite number. -/
def Obligations.VectorMinMaxSignsComparesConversions : Prop :=
  -- R136
  (∀ (k : FCond) (a b : FVal), (a.isNan = true ∨ b.isNan = true → fcmpHolds k a b = decide (k = .ne ∨ k = .un))) ∧
  (∀ (k : FCond) (n1 n2 : Bool) (m1 m2 : Nat) (e1 e2 e : Int), e ≤ e1 → e ≤ e2 →
    let sg (n : Bool) (x : Nat) : Int := if n then -x else x
    let holds (x y : Int) : Bool := match k with
      | .eq => decide (x = y)
      | .ne => decide (x ≠ y)
      | .lt => decide (x < y)
      | .le => decide (x ≤ y)
      | .gt => decide (y < x)
      | .ge => decide (y ≤ x)
      | .un => false
      | .or => true
    fcmpHolds k (.fin n1 m1 e1) (.fin n2 m2 e2) = holds (sg n1 (m1 * 2 ^ (e1 - e).toNat)) (sg n2 (m2 * 2 ^ (e2 - e).toNat)) ∧
    fcmpHolds k (.inf n1) (.fin n2 m2 e2) = holds (sg n1 1) 0 ∧ fcmpHolds k (.fin n1 m1 e1) (.inf n2) = holds 0 (sg n2 1) ∧
    fcmpHolds k (.inf n1) (.inf n2) = holds (sg n1 1) (sg n2 1)) ∧
  -- R137
  (∀ f ∈ [fmtF32, fmtF16, fmtBf16], ∀ x < 2 ^ (1 + f.eb + f.fb),
    let neg : Prop := 2 ^ (f.eb + f.fb) ≤ x
    let ex := x / 2 ^ f.fb % 2 ^ f.eb
    let fr := x % 2 ^ f.fb
    f.classBit x = if ex = 2 ^ f.eb - 1 then (if fr = 0 then (if neg then 0 else 7) else if fr < 2 ^ (f.fb - 1) then 8 else 9)
      else if ex = 0 then (if fr = 0 then (if neg then 3 else 4) else if neg then 2 else 5)
      else if neg then 1 else 6) ∧
  -- R29, R138
  (∀ (src dst : Ty) (md : FMode) (x : Nat), tyFloat src = true →
    let v := (fmtOf src).val md.flush x
    let lo : Int := if tySigned dst then -(2 ^ (tyWidth dst - 1)) else 0
    let hi : Int := if tySigned dst then 2 ^ (tyWidth dst - 1) - 1 else 2 ^ tyWidth dst - 1
    (tyFloat dst = true →
      (v.isNan = true → fcvtBits src dst md x = ⟨(fmtOf dst).nan, if v.isSnan then 16 else 0⟩) ∧
      (∀ n, v = .inf n → fcvtBits src dst md x = ⟨if md.sat then (fmtOf dst).maxFin n else (fmtOf dst).inf n, 0⟩) ∧
      (∀ n m e, v = .fin n m e → fcvtBits src dst md x = (fmtOf dst).finish md (.fin n m e))) ∧
    (tyFloat dst = false →
      (v.isNan = true → fcvtBits src dst md x = ⟨0, 16⟩) ∧
      (∀ n, v = .inf n → fcvtBits src dst md x = ⟨(BitVec.ofInt (tyWidth dst) (if n then lo else hi)).toNat, 16⟩) ∧
      (∀ n m e, v = .fin n m e → fcvtBits src dst md x =
        ⟨(floatToInt (tySigned dst) (tyWidth dst) md.rnd v).1.toNat, (floatToInt (tySigned dst) (tyWidth dst) md.rnd v).2⟩))) ∧
  (∀ (src dst : Ty) (md : FMode) (x : Nat), icvtBits src dst md x = (fmtOf dst).ofInt md (intOf src x)) ∧
  ∀ (s : State) (h : Hdr) (w : QWord) (rest : List QWord),
    let t := s.tile
    let flush := !w.imode
    (∀ o : VBin,
      let a (e : Nat) := elemN (tyWidth o.ty) (t.vsrc w o.a) e
      let b (e : Nat) := t.bElem w o.ty o.b e
      let answers (i : Instr) (f : Nat → FRes) : Prop := QReady s .c i .lanes vecRes w rest →
        s.answersElements i w rest 1 2 (tyWidth o.ty) o.d f
      answers (.fmin h o) (fun e => (fmtOf o.ty).minMax false flush (a e) (b e)) ∧
      answers (.fmax h o) (fun e => (fmtOf o.ty).minMax true flush (a e) (b e)) ∧
      answers (.fcpys h o) (fun e => ⟨a e % 2 ^ (tyWidth o.ty - 1) + b e / 2 ^ (tyWidth o.ty - 1) * 2 ^ (tyWidth o.ty - 1), 0⟩)) ∧
    (∀ o : VUn,
      let a (e : Nat) := elemN (tyWidth o.ty) (t.vsrc w o.a) e
      let answers (i : Instr) (f : Nat → Nat) : Prop := QReady s .c i .lanes vecRes w rest →
        s.answersElements i w rest 1 2 (tyWidth o.ty) o.d fun e => ⟨f e, 0⟩
      answers (.fabs h o) (fun e => a e % 2 ^ (tyWidth o.ty - 1)) ∧
      answers (.fneg h o) (fun e => (a e + 2 ^ (tyWidth o.ty - 1)) % 2 ^ tyWidth o.ty) ∧
      answers (.fclass h o) (fun e => 2 ^ (fmtOf o.ty).classBit (a e))) ∧
    (∀ o : FCmpOp, QReady s .c (.fcmp h o) .lanes vecRes w rest →
      let v (x : Nat) : FVal := (fmtOf o.ty).val flush x
      let k (j : Nat) := if tyWidth o.ty = 64 then j / 2 else j * (32 / tyWidth o.ty) + o.sel.toNat
      let x (j : Nat) : FVal := v (elemN (tyWidth o.ty) (t.vsrc w o.a) (k j))
      let y (j : Nat) : FVal := v (t.bElem w o.ty o.b (k j))
      let p := t.effPred w h
      ∃ (r : Word) (fl : FFlags), exec (.fcmp h o) s = .next (s.vecDone (.fcmp h o) w rest 1 2 [.p o.d p r] fl) ∧
        (∀ j < 64, p.getLsbD j = true → r.getLsbD j = fcmpHolds o.cond (x j) (y j)) ∧
        ∀ b, fl.getLsbD b = true ↔ b = 4 ∧ ∃ j < 64, p.getLsbD j = true ∧ ((x j).isSnan = true ∨ (y j).isSnan = true)) ∧
    (∀ o : ICmpOp, QReady s .c (.icmp h o) .lanes vecRes w rest →
      let k (j : Nat) := if tyWidth o.ty = 64 then j / 2 else j * (32 / tyWidth o.ty) + o.sel.toNat
      let x (j : Nat) : Int := intOf o.ty (elemN (tyWidth o.ty) (t.vsrc w o.a) (k j))
      let y (j : Nat) : Int := intOf o.ty (t.bElem w o.ty o.b (k j))
      let p := t.effPred w h
      ∃ r : Word, exec (.icmp h o) s = .next (s.vecDone (.icmp h o) w rest 1 (if tyWidth o.ty = 64 then 2 else 1) [.p o.d p r] 0) ∧
        ∀ j < 64, p.getLsbD j = true → (r.getLsbD j = true ↔ match o.cond with
          | .eq => x j = y j
          | .ne => x j ≠ y j
          | .lt => x j < y j
          | .le => x j ≤ y j
          | .gt => y j < x j
          | .ge => y j ≤ x j)) ∧
    (∀ o : CvtOp,
      let ws := tyWidth o.sty
      let wd := tyWidth o.ty
      let wide := max ws wd
      let ratio := wide / min ws wd
      let p := t.effPred w h
      let answers (i : Instr) (f : FMode → Nat → FRes) : Prop := QReady s .c i .lanes vecRes w rest →
        let res (j : Nat) : FRes := f ⟨o.rnd, o.sat, flush⟩ (elemN ws (t.vsrc w o.a) (if ws < wd then j * ratio + o.h.toNat else j))
        ∃ (mask val : VWord) (fl : FFlags),
          exec i s = .next (s.vecDone i w rest 1 3 [match o.d with | .v n => .v (physV w.vrb n) mask val | .qo n => .qo n w.id val] fl) ∧
          ∀ j < 2048 / wide,
            (∀ b < wide, mask.getLsbD (wide * j + b) = p.getLsbD (laneOf wide j)) ∧
            (p.getLsbD (laneOf wide j) = false → elemN wide val j = 0) ∧
            (p.getLsbD (laneOf wide j) = true →
              (ws ≤ wd → elemN wd val j = (res j).bits % 2 ^ wd) ∧
              (wd < ws → o.h.toNat < ratio → elemN wd val (j * ratio + o.h.toNat) = (res j).bits % 2 ^ wd ∧
                ∀ k < ratio, k ≠ o.h.toNat → elemN wd val (j * ratio + k) = match o.d with
                  | .v n => elemN wd (t.getV (physV w.vrb n)) (j * ratio + k)
                  | .qo _ => 0))
      answers (.fcvt h o) (fun md a => fcvtBits o.sty o.ty md a) ∧ answers (.icvt h o) (fun md a => icvtBits o.sty o.ty md a))

/-- R139: the integer words compute exactly, element by element, and reduce once; shifts take the whole amount. -/
def Obligations.VectorIntegerArithmetic : Prop :=
  ∀ (s : State) (h : Hdr) (w : QWord) (rest : List QWord),
    let t := s.tile
    let lat (ty : Ty) : Nat := if tyWidth ty = 64 then 2 else 1
    (∀ o : VBinSat,
      let a (e : Nat) : Int := intOf o.ty (elemN (tyWidth o.ty) (t.vsrc w o.a) e)
      let b (e : Nat) : Int := intOf o.ty (t.bElem w o.ty o.b e)
      let answers (i : Instr) (n : Nat) (f : Nat → Int) : Prop := QReady s .c i .lanes vecRes w rest →
        s.answersElements i w rest 1 n (tyWidth o.ty) o.d fun e => ⟨reduced o.ty o.sat (f e), 0⟩
      answers (.iadd h o) (lat o.ty) (fun e => a e + b e) ∧ answers (.isub h o) (lat o.ty) (fun e => a e - b e) ∧
      answers (.imul h o) 3 (fun e => a e * b e)) ∧
    (∀ o : VTernSat, QReady s .c (.imad h o) .lanes vecRes w rest →
      s.answersElements (.imad h o) w rest 1 3 (tyWidth o.ty) o.d fun e =>
        ⟨reduced o.ty o.sat (intOf o.ty (elemN (tyWidth o.ty) (t.vsrc w o.a) e) * intOf o.ty (t.bElem w o.ty o.b e) +
          intOf o.ty (elemN (tyWidth o.ty) (t.vsrc w o.c) e)), 0⟩) ∧
    (∀ o : VUnSat, QReady s .c (.iabs h o) .lanes vecRes w rest →
      s.answersElements (.iabs h o) w rest 1 (lat o.ty) (tyWidth o.ty) o.d fun e =>
        ⟨reduced o.ty o.sat (intOf o.ty (elemN (tyWidth o.ty) (t.vsrc w o.a) e)).natAbs, 0⟩) ∧
    (∀ o : VUn, QReady s .c (.inot h o) .lanes vecRes w rest →
      s.answersElements (.inot h o) w rest 1 (lat o.ty) (tyWidth o.ty) o.d fun e =>
        ⟨2 ^ tyWidth o.ty - 1 - elemN (tyWidth o.ty) (t.vsrc w o.a) e, 0⟩) ∧
    (∀ o : VBin,
      let n := tyWidth o.ty
      let a (e : Nat) : Nat := elemN n (t.vsrc w o.a) e
      let b (e : Nat) : Nat := t.bElem w o.ty o.b e
      let k (e : Nat) : Nat := match o.b with
        | .imm i => i.toNat
        | .src x => elemN n (t.vsrc w x) e
      let answers (i : Instr) (lat : Nat) (f : Nat → Nat) : Prop := QReady s .c i .lanes vecRes w rest →
        s.answersElements i w rest 1 lat n o.d fun e => ⟨f e, 0⟩
      answers (.imulh h o) 3 (fun e => (BitVec.ofInt n (intOf o.ty (a e) * intOf o.ty (b e) / 2 ^ n)).toNat) ∧
      answers (.imin h o) (lat o.ty) (fun e => reduced o.ty false (min (intOf o.ty (a e)) (intOf o.ty (b e)))) ∧
      answers (.imax h o) (lat o.ty) (fun e => reduced o.ty false (max (intOf o.ty (a e)) (intOf o.ty (b e)))) ∧
      answers (.iand h o) (lat o.ty) (fun e => a e &&& b e) ∧
      answers (.ior h o) (lat o.ty) (fun e => a e ||| b e) ∧
      answers (.ixor h o) (lat o.ty) (fun e => a e ^^^ b e) ∧
      answers (.ishl h o) (lat o.ty) (fun e => a e * 2 ^ k e % 2 ^ n) ∧
      answers (.ishr h o) (lat o.ty) (fun e => a e / 2 ^ k e) ∧
      answers (.isar h o) (lat o.ty) (fun e => (BitVec.ofInt n ((BitVec.ofNat n (a e)).toInt / 2 ^ k e)).toNat))

/-- R140–R144, R149, R150: sel, movv, bcast, iota, perm, shfl, digit and the order keys fill their elements; extr reads one element into a
scalar. okeyi brings back every number that okey maps. -/
def Obligations.LaneMovesAndKeys : Prop :=
  (∀ (s : State) (h : Hdr) (w : QWord) (rest : List QWord),
    let t := s.tile
    let lane (a : VSrc) (e : Nat) : Nat := elemN 32 (t.vsrc w a) e
    let answers (i : Instr) (lat : Nat) (d : VDst) (f : Nat → Nat) : Prop := QReady s .c i .lanes vecRes w rest →
      s.answersElements i w rest 1 lat 32 d fun e => ⟨f e, 0⟩
    (∀ o : SelOp, answers (.sel h o) 1 o.d fun e => if (t.predOf w o.p).getLsbD e then lane o.a e else lane o.b e) ∧
    (∀ o : MovvOp, answers (.movv h o) 1 o.d (lane o.a)) ∧
    (∀ o : PermOp, answers (.perm h o) 2 o.d fun e =>
      let x := lane o.b e
      if 2 ^ 31 ≤ x then 0 else if x % 128 < 64 then lane o.a (x % 128) else lane o.c (x % 128 - 64)) ∧
    (∀ o : ShflOp, answers (.shfl h o) 2 o.d fun e =>
      let k := (t.ssrc o.cnt).toNat
      match o.kind with
      | .rot => lane o.a ((e + k) % 64)
      | .dn => if e + k < 64 then lane o.a (e + k) else 0
      | .up => if k ≤ e then lane o.a (e - k) else 0
      | .xor => lane o.a (e ^^^ (k % 64))) ∧
    (∀ o : BcastOp, QReady s .c (.bcast h o) .lanes vecRes w rest →
      s.answersElements (.bcast h o) w rest 1 1 (tyWidth o.ty) o.d fun _ => ⟨match o.a with
        | .s n => (t.getS n).toNat % 2 ^ tyWidth o.ty
        | .imm i => immBits o.ty i, 0⟩) ∧
    (∀ o : IotaOp, QReady s .c (.iota h o) .lanes vecRes w rest →
      s.answersElements (.iota h o) w rest 1 1 (tyWidth o.ty) o.d fun e =>
        ⟨reduced o.ty o.sat ((if tySigned o.ty then (t.getS o.a).toInt else (t.getS o.a).toNat) + e * (match o.step with
          | .s n => (t.getS n).toInt
          | .imm i => if tySigned o.ty ∨ tyFloat o.ty then i.toInt else i.toNat)), 0⟩) ∧
    (∀ o : DigitOp, QReady s .c (.digit h o) .lanes vecRes w rest →
      s.answersElements (.digit h o) w rest 1 1 (tyWidth o.ty) o.d fun e =>
        let x := elemN (tyWidth o.ty) (t.vsrc w o.a) e
        let top := o.pos.toNat + o.len.toNat
        ⟨if top = tyWidth o.ty ∨ x / 2 ^ top = (t.ssrc o.pre).toNat % 2 ^ (tyWidth o.ty - top) then x / 2 ^ o.pos.toNat % 2 ^ o.len.toNat
          else 256, 0⟩) ∧
    (∀ o : VUn, ∀ p ∈ [(Instr.okey h o, okeyBits o.ty), (Instr.okeyi h o, okeyiBits o.ty)], QReady s .c p.1 .lanes vecRes w rest →
      s.answersElements p.1 w rest 1 1 (tyWidth o.ty) o.d fun e => ⟨p.2 (elemN (tyWidth o.ty) (t.vsrc w o.a) e), 0⟩) ∧
    (∀ o : ExtrOp, QReady s .c (.extr h o) .bit0 vecRes w rest →
      let x := BitVec.ofNat (tyWidth o.ty) (elemN (tyWidth o.ty) (t.vsrc w o.a) ((t.ssrc o.i).toNat % (2048 / tyWidth o.ty)))
      exec (.extr h o) s = .next (s.vecDone (.extr h o) w rest 1 2
        [.s o.d (if tySigned o.ty then x.signExtend 64 else x.setWidth 64)] 0))) ∧
  (∀ (ty : Ty) (x : Nat), x < 2 ^ tyWidth ty →
    (tyFloat ty = false → okeyiBits ty (okeyBits ty x) = x ∧ okeyBits ty x < 2 ^ tyWidth ty) ∧
    (tyFloat ty = true → ((fmtOf ty).val false x).isNan = true → okeyBits ty x = 0 ∧ okeyiBits ty 0 = (fmtOf ty).nan) ∧
    (tyFloat ty = true → ((fmtOf ty).val false x).isNan = false → okeyiBits ty (okeyBits ty x) = x ∧ 0 < okeyBits ty x))

/-- R41, R42, R145–R148, R151, R152: reductions over the tree of the present elements, which level by level combines element i with element i + h;
scans, each present element combined with the result before it; topk ranks them by key; vhist counts digits; both raise
class 2 at issue for an operand out of range; pcnt counts and the predicate words combine predicate bits. -/
def Obligations.ReductionsScansAndPredicates : Prop :=
  ∀ (s : State) (h : Hdr) (w : QWord) (rest : List QWord),
    let t := s.tile
    -- element e, if it is present; a term combined with nothing; one combination
    let el (ty : Ty) (a : VSrc) (e : Nat) : Option Nat :=
      if (t.effPred w h).getLsbD (laneOf (tyWidth ty) e) then some (elemN (tyWidth ty) (t.vsrc w a) e) else none
    let lone (ty : Ty) (x : Nat) : FRes :=
      let f := fmtOf ty
      if tyFloat ty = false then ⟨x, 0⟩
      else if (f.val false x).isNan then ⟨f.nan, if (f.val false x).isSnan then 16 else 0⟩
      else ⟨if w.imode = false ∧ x / 2 ^ f.fb % 2 ^ f.eb = 0 then x / 2 ^ (f.eb + f.fb) * 2 ^ (f.eb + f.fb) else x, 0⟩
    let comb (ty : Ty) (k : RedK) (md : FMode) (x y : Nat) : FRes :=
      let f := fmtOf ty
      let ends (r : FRes) : FRes :=
        ⟨if md.sat ∧ r.bits = f.inf false then f.maxFin false else if md.sat ∧ r.bits = f.inf true then f.maxFin true else r.bits, r.fl⟩
      match k with
      | .add => f.add md (f.val md.flush x) (f.val md.flush y)
      | .max => if tyFloat ty then ends (f.minMax true md.flush x y) else ⟨if intOf ty x < intOf ty y then y else x, 0⟩
      | .min => if tyFloat ty then ends (f.minMax false md.flush x y) else ⟨if intOf ty y < intOf ty x then y else x, 0⟩
    let empty (ty : Ty) (k : RedK) : Nat := match k with
      | .add => 0
      | .max => if tyFloat ty then (fmtOf ty).inf true else reduced ty true (-(2 ^ 64))
      | .min => if tyFloat ty then (fmtOf ty).inf false else reduced ty true (2 ^ 64)
    (∀ o : RdOp,
      let n := tyWidth o.ty
      let xs := (t.present w h o.ty o.a).map Prod.snd
      let answers (i : Instr) (lat : Nat) (k : RedK) : Prop := QReady s .c i .always vecRes w rest →
        let r := reduceTerms o.ty k ⟨o.rnd, o.sat, !w.imode⟩ (presentElems t w h o.ty o.a)
        exec i s = .next (s.vecDone i w rest 2 lat [match o.d with
          | .s d => .s d (if tySigned o.ty then (BitVec.ofNat n r.bits).signExtend 64 else (BitVec.ofNat n r.bits).setWidth 64)
          | .v d => .v (physV w.vrb d) (BitVec.allOnes 2048) (BitVec.ofNat 2048 r.bits)
          | .qo d => .qo d w.id (BitVec.ofNat 2048 r.bits)] r.fl) ∧
        (tyFloat o.ty = false → r.fl = 0 ∧ match k with
          | .add => r.bits = reduced o.ty o.sat (xs.foldl (fun a x => a + intOf o.ty x) 0)
          | .max => if xs = [] then r.bits = reduced o.ty true (-(2 ^ 64)) else r.bits ∈ xs ∧ ∀ x ∈ xs, intOf o.ty x ≤ intOf o.ty r.bits
          | .min => if xs = [] then r.bits = reduced o.ty true (2 ^ 64) else r.bits ∈ xs ∧ ∀ x ∈ xs, intOf o.ty r.bits ≤ intOf o.ty x) ∧
        -- floating: the empty result; a lone term; the tree
        (tyFloat o.ty = true →
          let md : FMode := ⟨o.rnd, o.sat, !w.imode⟩
          (xs = [] → r = ⟨empty o.ty k, 0⟩) ∧ (∀ x, xs = [x] → r = lone o.ty x) ∧
          (2 ≤ xs.length → ∃ (T : Nat → Nat → Option Nat) (depth : Nat), 2 ^ depth = 2048 / n ∧ (∀ e, T 0 e = el o.ty o.a e) ∧
            (∀ j < depth, ∀ i < 2 ^ (depth - j - 1), T (j + 1) i = match T j i, T j (i + 2 ^ (depth - j - 1)) with
              | some x, some y => some (comb o.ty k md x y).bits
              | none, y => y
              | x, none => x) ∧
            T depth 0 = some r.bits ∧
            ∀ b, r.fl.getLsbD b = true ↔ ∃ j < depth, ∃ i < 2 ^ (depth - j - 1), ∃ x y, T j i = some x ∧
              T j (i + 2 ^ (depth - j - 1)) = some y ∧ (comb o.ty k md x y).fl.getLsbD b = true))
      answers (.rdadd h o) (if tyFloat o.ty then 12 else 7) .add ∧ answers (.rdmax h o) 7 .max ∧ answers (.rdmin h o) 7 .min) ∧
    (∀ o : ScanOp, QReady s .c (.scan h o) .always vecRes w rest → ∃ (v : VWord) (fl : FFlags),
      exec (.scan h o) s = .next (s.vecDone (.scan h o) w rest 4 16 [match o.d with
        | .v d => .v (physV w.vrb d) (BitVec.allOnes 2048) v
        | .qo d => .qo d w.id v] fl) ∧
      (tyFloat o.ty = false → o.op = .add → fl = 0 ∧ ∀ e < 2048 / tyWidth o.ty, elemN (tyWidth o.ty) v e =
        reduced o.ty o.sat (((t.present w h o.ty o.a).filter fun x => x.1 ≤ e).foldl (fun a x => a + intOf o.ty x.2) 0)) ∧
      -- floating and extremal: T e, what stands before element e
      (tyFloat o.ty = true ∨ o.op ≠ .add →
        let md : FMode := ⟨o.rnd, o.sat, !w.imode⟩
        let k : RedK := match o.op with | .add => .add | .max => .max | .min => .min
        let step (p : Option Nat) (x : Nat) : FRes := match p with
          | none => lone o.ty x
          | some y => comb o.ty k md x y
        ∃ T : Nat → Option Nat, T 0 = none ∧
          (∀ e, T (e + 1) = match el o.ty o.a e with
            | none => T e
            | some x => some (step (T e) x).bits) ∧
          (∀ e < 2048 / tyWidth o.ty, elemN (tyWidth o.ty) v e = (T (e + 1)).getD (empty o.ty k) % 2 ^ tyWidth o.ty) ∧
          ∀ b, fl.getLsbD b = true ↔ ∃ e < 2048 / tyWidth o.ty, ∃ x, el o.ty o.a e = some x ∧ (step (T e) x).fl.getLsbD b = true)) ∧
    (∀ o : TopkOp, QReady s .c (.topk h o) .always vecRes w rest →
      let k := (t.ssrc o.k).toNat
      ((k < 1 ∨ 64 < k) → exec (.topk h o) s = .next (s.withChip ((s.issued .c (.topk h o) rest).issueFault w h.sba 2 2 0))) ∧
      (1 ≤ k → k ≤ 64 → ∃ (m : List (Nat × Nat)) (ix ks : VWord),
        m.Perm ((t.present w h o.ty o.a).filterMap fun x =>
          if tyFloat o.ty && ((fmtOf o.ty).val false x.2).isNan then none else some (okeyBits o.ty x.2, x.1)) ∧
        m.Pairwise (fun a b => b.1 < a.1 ∨ (a.1 = b.1 ∧ a.2 < b.2)) ∧
        exec (.topk h o) s = .next (s.withChip (((s.issued .c (.topk h o) rest).takeV s.clk 4).later s.clk w h.sba
          [.v (physV w.vrb o.d) (BitVec.allOnes 2048) ix, .v (physV w.vrb o.c) (BitVec.allOnes 2048) ks] none)) ∧
        ∀ j < 64, match m[j]? with
          | some x => if j < k then elemN 32 ix j = x.2 ∧ elemN 32 ks j = x.1 % 2 ^ 32 else elemN 32 ix j = 0xFFFFFFFF ∧ elemN 32 ks j = 0
          | none => elemN 32 ix j = 0xFFFFFFFF ∧ elemN 32 ks j = 0)) ∧
    (∀ o : VhistOp, QReady s .c (.vhist h o) .always vecRes w rest →
      let g := (t.ssrc o.g).toNat
      (3 < g → exec (.vhist h o) s = .next (s.withChip ((s.issued .c (.vhist h o) rest).issueFault w h.sba 2 2 0))) ∧
      (g ≤ 3 → ∃ v : VWord,
        exec (.vhist h o) s = .next (s.withChip (((s.issued .c (.vhist h o) rest).takeV s.clk 4).later s.clk w h.sba
          [.v (physV w.vrb o.d) (BitVec.allOnes 2048) v] none)) ∧
        ∀ j < 64, elemN 32 v j =
          ((if o.acc then elemN 32 (t.getV (physV w.vrb o.d)) j else 0) +
            (t.present w h o.ty o.a).countP (fun x => x.2 == 64 * g + j)) % 2 ^ 32)) ∧
    (∀ o : PcntOp, QReady s .c (.pcnt h o) .always vecRes w rest →
      exec (.pcnt h o) s = .next (s.vecDone (.pcnt h o) w rest 1 2
        [.s o.d (BitVec.ofNat 64 ((List.range 64).countP fun k => (t.predOf w o.a).getLsbD k && (t.effPred w h).getLsbD k))] 0)) ∧
    (∀ (i : Instr) (d : PReg) (x : Word),
      ((∃ o : PBinOp, d = o.d ∧ ((i = .pand h o ∧ x = t.predOf w o.a &&& t.predOf w o.b) ∨ (i = .por h o ∧ x = t.predOf w o.a ||| t.predOf w o.b) ∨
          (i = .pxor h o ∧ x = t.predOf w o.a ^^^ t.predOf w o.b))) ∨
        ∃ o : PUnOp, d = o.d ∧ i = .pnot h o ∧ x = ~~~(t.predOf w o.a)) →
      QReady s .c i .lanes vecRes w rest → exec i s = .next (s.vecDone i w rest 1 1 [.p d (t.effPred w h) x] 0))

/-! ## Loads, stores and atomics at issue (R96–R109, R208–R214, R253–R259, R270–R276) -/

/-- R98, R101: the address that each form gives, and the next address of an address register in its linear, circular and bit-reversed modes. -/
def Obligations.AddressFormsAndPostIncrement : Prop :=
  ∀ (t : Tile) (r x : SReg) (a : AReg) (imm : BitVec 12) (sc : BitVec 2),
    t.addrBase (.off r imm) = .glob (t.getS r + BitVec.ofInt 64 imm.toInt) ∧
    (∃ va, t.addrBase (.post a) = .glob va ∧ va.toNat = (t.getA a).addr.toNat) ∧
    t.addrBase (.sp r imm) = .sp ⟨(t.getS r).extractLsb' 20 44, ((t.getS r).toNat % 2 ^ 20 : Nat) + imm.toInt⟩ ∧
    (∃ p, t.addrBase (.spPost a) = .sp p ∧ p.hi.toNat = (t.getA a).addr.toNat / 2 ^ 20 ∧ p.off = ((t.getA a).addr.toNat % 2 ^ 20 : Nat)) ∧
    t.addrBase (.idx r x false sc) = .glob (t.getS r + BitVec.ofNat 64 ((t.getS x).toNat * 2 ^ sc.toNat)) ∧
    t.addrBase (.idx r x true sc) =
      .sp ⟨(t.getS r).extractLsb' 20 44, ((t.getS r).toNat % 2 ^ 20 : Nat) + (t.getS x).toInt * 2 ^ sc.toNat⟩ ∧
    ((t.advance a).getA a = { t.getA a with addr := (postInc (t.getA a)) }) ∧
    (∀ b, b ≠ a → (t.advance a).getA b = t.getA b) ∧
    (∀ g : ARegS, (g.mode = .lin → postInc g = g.addr + BitVec.ofInt 48 g.stride.toInt) ∧
      (g.mode = .circ → g.modulus ≠ 0 → ∃ k : Nat, (k : Int) = ((g.addr.toNat : Int) - g.base.toNat + g.stride.toInt) % g.modulus.toNat ∧
        k < g.modulus.toNat ∧ postInc g = g.base + BitVec.ofNat 48 k) ∧
      (∀ k n : Nat, g.mode = .brev → g.stride.toNat = 2 ^ k → g.modulus.toNat = 2 ^ (k + n) →
        let c := (g.addr - g.base).toNat / 2 ^ k
        ∃ x r : Nat, x < 2 ^ n ∧ r < 2 ^ n ∧ (∀ j < n, x.testBit j = c.testBit (n - 1 - j)) ∧
          (∀ j < n, r.testBit j = ((x + 1) % 2 ^ n).testBit (n - 1 - j)) ∧ postInc g = g.base + BitVec.ofNat 48 (2 ^ k * r)))

/-- R96, R100–R102, R108: a scalar load whose address passes its checks enters the L FIFO with one element and takes its port for one clk; a
scalar store enters the S FIFO with the low bytes of its register, or, a global one in a guarded phase, the log; a scratchpad address that fails a check
raises its class, and its address register has advanced all the same. What an element reads or writes of global memory is cut where a line ends
(R107). -/
def Obligations.ScalarLoadsAndStoresIssue : Prop :=
  ∀ (s : State) (h : Hdr) (w : QWord) (rest : List QWord),
    let own := s.chip.focus
    let t := s.tile
    (∀ (at_ n : Nat) (va : Word), 0 < n → va.toNat + n ≤ 2 ^ 64 →
      let ps := cutPiece ⟨at_, .glob va, n⟩
      (ps.flatMap fun p => (List.range p.n).map (p.at_ + ·)) = (List.range n).map (at_ + ·) ∧
      ∀ p ∈ ps, ∃ x : Word, p.place = .glob x ∧ 0 < p.n ∧ x.toNat + at_ = va.toNat + p.at_ ∧ x.toNat / 128 = (x.toNat + p.n - 1) / 128) ∧
    (∀ (b : Buf) (at_ n off : Nat) (k : TileId), cutPiece ⟨at_, .buf k b off, n⟩ = [⟨at_, .buf k b off, n⟩]) ∧
    (∀ (i : Instr) (addr : Addr) (sz : Nat),
      ((∃ o : SLdOp, addr = o.addr ∧ ((i = .ldb h o ∧ sz = 1) ∨ (i = .ldh h o ∧ sz = 2) ∨ (i = .ldw h o ∧ sz = 4))) ∨
        ∃ o : DLdOp, addr = o.addr ∧ i = .ldd h o ∧ sz = 8) →
      QReady s .l i .bit0 (portRes .l) w rest →
      let b := t.addrBase addr
      let a : Access := newAccess w (accessClass [⟨0, b, 0, sz⟩]) [oneUnit 0 ⟨0, elemPlace own b, sz⟩] [] [] 8 0
      ((∀ p, b = .sp p → spFail s.chip own lsAllow p sz sz = none) →
        exec i s = .next (s.entered .l .l i w rest (addrPost addr) 1 [] a)) ∧
      (∀ p k cls, b = .sp p → spFail s.chip own lsAllow p sz sz = some (k, cls) →
        exec i s = .next (s.refusedAt .l i w rest (addrPost addr) cls 1 p.word))) ∧
    (∀ (i : Instr) (addr : Addr) (sz : Nat) (x : Word),
      ((∃ o : SStOp, addr = o.addr ∧ x = t.getS o.d ∧ ((i = .stb h o ∧ sz = 1) ∨ (i = .sth h o ∧ sz = 2) ∨ (i = .stw h o ∧ sz = 4))) ∨
        ∃ o : DStOp, addr = o.addr ∧ i = .std h o ∧ sz = 8 ∧ x = match o.d with | .s n => t.getS n | .p n => t.predOf w n) →
      QReady s .s i .bit0 (portRes .s) w rest →
      let b := t.addrBase addr
      let cls := accessClass [⟨0, b, 0, sz⟩]
      let a : Access := newAccess w cls [oneUnit 0 ⟨0, elemPlace own b, sz⟩] (toBytes sz x) [] 0 sz
      ((∀ p, b = .sp p → spFail s.chip own lsAllow p sz sz = none) →
        (t.inPhase = false ∨ (cls ≠ .g ∧ cls ≠ .peer) → exec i s = .next (s.entered .s .s i w rest (addrPost addr) 1 [] a)) ∧
        (∀ p, t.inPhase = true → cls = .g → t.phase = some p →
          exec i s = .next (s.logged .s i w rest (addrPost addr) 1 4 16 p a)) ∧
        (t.inPhase = true → cls = .peer →
          exec i s = .next (s.withChip (((s.advanced .s i rest (addrPost addr)).upd fun t => t.takePort .s (s.clk + 1)).issueFault w 0 21 4 0)))) ∧
      (∀ p k cls, b = .sp p → spFail s.chip own lsAllow p sz sz = some (k, cls) →
        exec i s = .next (s.refusedAt .s i w rest (addrPost addr) cls 4 p.word)))

/-- R103, R104, R108: each enabled element of a vector load or store has its own address; with every scratchpad element passing its checks the
access enters its FIFO, a contiguous global one in line parts; else the check of lowest order, at its first element, raises its class. -/
def Obligations.VectorLoadsAndStoresIssue : Prop :=
  ∀ (s : State) (h : Hdr) (w : QWord) (rest : List QWord),
    let own := s.chip.focus
    let t := s.tile
    -- the enabled elements of sz bytes, element e at `f e`
    let elems (sz : Nat) (f : Nat → Base) : List Elem :=
      ((List.range (256 / sz)).filter fun e => (t.effPred w h).getLsbD (laneOf (8 * sz) e)).map fun e => ⟨e, f e, e * sz, sz⟩
    let units (contig : Bool) (es : List Elem) : List MUnit := if contig then joinLines (elemUnits own es) else elemUnits own es
    let loads (i : Instr) (d : VLdDst) (adv : Option AReg) (contig : Bool) (es : List Elem) : Prop :=
      QReady s .l i .lanes (portRes .l) w rest →
        (worstFail s.chip own es = none → exec i s = .next (s.entered .l .l i w rest adv
          (portClk (accessClass es) contig (units contig es)) (match d with | .v _ => [] | .qi n => [.qi n])
          (newAccess w (accessClass es) (units contig es) [] [] 256 0))) ∧
        (∀ cls tval, worstFail s.chip own es = some (cls, tval) → exec i s = .next (s.refusedAt .l i w rest adv cls 1 tval))
    let stores (i : Instr) (d : VStSrc) (adv : Option AReg) (contig : Bool) (es : List Elem) : Prop :=
      QReady s .s i .lanes (portRes .s) w rest →
        let n := portClk (accessClass es) contig (units contig es)
        let a := newAccess w (accessClass es) (units contig es) (toBytes 256 (t.vstSrc w d)) [] 0 256
        (worstFail s.chip own es = none →
          (t.inPhase = false ∨ (accessClass es ≠ .g ∧ accessClass es ≠ .peer) → exec i s = .next (s.entered .s .s i w rest adv n [] a)) ∧
          (∀ p, t.inPhase = true → accessClass es = .g → t.phase = some p → exec i s = .next (s.logged .s i w rest adv n 4 264 p a)) ∧
          (t.inPhase = true → accessClass es = .peer →
            exec i s = .next (s.withChip (((s.advanced .s i rest adv).upd fun t => t.takePort .s (s.clk + n)).issueFault w 0 21 4 0)))) ∧
        (∀ cls tval, worstFail s.chip own es = some (cls, tval) → exec i s = .next (s.refusedAt .s i w rest adv cls 4 tval))
    let gather (base : SReg) (idx : VReg) (sp sgn : Bool) (sc : BitVec 2) (e : Nat) : Base :=
      let x : BitVec 32 := (t.getV (physV w.vrb idx)).extractLsb' (32 * e) 32
      (if sp then Base.sp (spPlace (t.getS base) 0) else Base.glob (t.getS base)).add ((if sgn then x.toInt else x.toNat) * 2 ^ sc.toNat)
    (∀ o : VLdOp, loads (.ldv h o) o.d (gAddrPost o.addr) true
      (elems (2 ^ o.ew.toNat) fun e => (t.gBase o.addr).add (e * 2 ^ o.ew.toNat))) ∧
    (∀ o : VLdSOp, loads (.ldvs h o) o.d (gAddrPost o.addr) false
      (elems (2 ^ o.ew.toNat) fun e => (t.gBase o.addr).add (e * (t.getS o.stride).toInt))) ∧
    (∀ o : BLdOp, loads (.lds h o) o.d (spAddrPost o.addr) true
      (elems (2 ^ o.ew.toNat) fun e => (t.spBase o.addr).add (e * 2 ^ o.ew.toNat))) ∧
    (∀ o : BLdSOp, loads (.ldss h o) o.d (spAddrPost o.addr) false
      (elems (2 ^ o.ew.toNat) fun e => (t.spBase o.addr).add (e * (t.getS o.stride).toInt))) ∧
    (∀ o : GLdOp, loads (.ldg h o) o.d none false (elems 4 (gather o.base o.idx o.sp o.sgn o.sc))) ∧
    (∀ o : VStOp, stores (.stv h o) o.d (gAddrPost o.addr) true
      (elems (2 ^ o.ew.toNat) fun e => (t.gBase o.addr).add (e * 2 ^ o.ew.toNat))) ∧
    (∀ o : VStSOp, stores (.stvs h o) o.d (gAddrPost o.addr) false
      (elems (2 ^ o.ew.toNat) fun e => (t.gBase o.addr).add (e * (t.getS o.stride).toInt))) ∧
    (∀ o : BStOp, stores (.sts h o) o.d (spAddrPost o.addr) true
      (elems (2 ^ o.ew.toNat) fun e => (t.spBase o.addr).add (e * 2 ^ o.ew.toNat))) ∧
    (∀ o : BStSOp, stores (.stss h o) o.d (spAddrPost o.addr) false
      (elems (2 ^ o.ew.toNat) fun e => (t.spBase o.addr).add (e * (t.getS o.stride).toInt))) ∧
    (∀ o : GStOp, stores (.stg h o) o.d none false (elems 4 (gather o.base o.idx o.sp o.sgn o.sc)))

/-- R105, R106, R171, R172, R208–R211, R238: ldmx and stmx have one element a block; a tile load or store whose shape, footprint and register
group pass has one element, the whole of it; kvlook starts at its table's header, or raises class 7 for a bit above bit 47 of its address; coded lines have one element a line; pref only advances. Which pages count for a tile's class 11 at its issue is log entry 19. -/
def Obligations.BlockTileAndLineAccessesIssue : Prop :=
  ∀ (s : State) (h : Hdr) (w : QWord) (rest : List QWord),
    let own := s.chip.focus
    let t := s.tile
    (∀ o : MxOp,
      let sz := 4 * mxWidth o.fmt + 1
      let es : List Elem := (List.range (o.n.toNat + 1)).map fun b => ⟨b, (t.mxBase o.addr).add (b * sz), b * sz, sz⟩
      let us := elemUnits own es
      (QReady s .l (.ldmx h o) .bit0 (portRes .l) w rest →
        exec (.ldmx h o) s = .next (s.entered .l .l (.ldmx h o) w rest (mxAddrPost o.addr) (portClk .g true us) []
          (newAccess w .g us [] [] 264 0))) ∧
      (QReady s .s (.stmx h o) .bit0 (portRes .s) w rest → ∃ data : List Byte,
        let len := (o.n.toNat + 1) * sz
        let n := portClk .g true us
        let a := newAccess w .g us data [] 0 len
        (t.inPhase = false → exec (.stmx h o) s = .next (s.entered .s .s (.stmx h o) w rest (mxAddrPost o.addr) n [] a)) ∧
        (∀ p, t.inPhase = true → t.phase = some p →
          exec (.stmx h o) s = .next (s.logged .s (.stmx h o) w rest (mxAddrPost o.addr) n 4 (8 + (len + 7) / 8 * 8) p a)) ∧ data.length = (o.n.toNat + 1) * sz ∧
        ∀ b < o.n.toNat + 1, data.getD (b * sz + 4 * mxWidth o.fmt) 0 = (t.getS o.scale).extractLsb' (8 * b) 8)) ∧
    (∀ o : TileOp,
      let ld := s.advanced .l (.ldt h o) rest (gAddrPost o.addr)
      let st := s.advanced .s (.stt h o) rest (gAddrPost o.addr)
      let us (sh : TileShape) (base : Word) : List MUnit :=
        [⟨0, (List.range sh.rows).map fun r => ⟨r * sh.rb, .glob (base + BitVec.ofInt 64 (r * sh.stride)), sh.rb⟩, [], .todo⟩]
      (QReady s .l (.ldt h o) .bit0 (portRes .l) w rest →
        (∀ c cls, tileCheck o 1 t ld = (c, .error cls) → exec (.ldt h o) s = .next (s.withChip (c.issueFault w h.sba cls 1 0))) ∧
        (∀ c sh base, tileCheck o 1 t ld = (c, .ok (sh, base)) → exec (.ldt h o) s =
          .next (s.withChip ((c.upd fun t => t.takePort .l (s.clk + portClk .g true (us sh base))).pushAccess .l
            (newAccess w .g (us sh base) [] [] (sh.regs * 256) 0))))) ∧
      (QReady s .s (.stt h o) .bit0 (portRes .s) w rest →
        (∀ c cls, tileCheck o 4 t st = (c, .error cls) → exec (.stt h o) s = .next (s.withChip (c.issueFault w h.sba cls 4 0))) ∧
        (∀ c sh base, tileCheck o 4 t st = (c, .ok (sh, base)) →
          let a := newAccess w .g (us sh base) ((List.range sh.regs).flatMap fun j => toBytes 256 (t.getV (groupReg w.vrb o.d j))) [] 0
            (sh.rows * sh.rb)
          let d := c.upd fun t => t.takePort .s (s.clk + portClk .g true (us sh base))
          exec (.stt h o) s = .next (s.withChip
            (if t.inPhase then d.logStore w 4 (16 + (sh.rows * sh.rb + 7) / 8 * 8) a else d.pushAccess .s a))))) ∧
    (∀ (o : TileOp) (c : Chip) (eng : Nat),
      let x := t.getS o.shape
      let rows := (x.extractLsb' 43 9).toNat
      let rb := (x.extractLsb' 32 11).toNat
      (x.extractLsb' 52 12 ≠ 0#12 ∨ rows = 0 ∨ 256 < rows ∨ rb = 0 ∨ 1024 < rb → (tileCheck o eng t c).2 = .error 2) ∧
      (x.extractLsb' 52 12 = 0#12 → 1 ≤ rows → rows ≤ 256 → 1 ≤ rb → rb ≤ 1024 → 4096 < rows * rb → (tileCheck o eng t c).2 = .error 11) ∧
      (∀ sh base, (tileCheck o eng t c).2 = .ok (sh, base) → sh.rows = rows ∧ sh.rb = rb ∧ sh.stride = (x.extractLsb' 0 32).toInt ∧
        sh.regs = (rows * rb + 255) / 256 ∧ rows * rb ≤ 4096 ∧ o.d.toNat % 32 + sh.regs ≤ 32)) ∧
    (∀ o : RRR, QReady s .l (.kvlook h o) .bit0 (portRes .l) w rest →
      ((t.getS o.a).extractLsb' 48 16 ≠ 0#16 → exec (.kvlook h o) s = .next (s.refusedAt .l (.kvlook h o) w rest none 7 1 (t.getS o.a))) ∧
      ((t.getS o.a).extractLsb' 48 16 = 0#16 → exec (.kvlook h o) s =
        .next (s.entered .l .l (.kvlook h o) w rest none 1 [] (newAccess w .g [⟨0, [⟨0, .glob (t.getS o.a), 16⟩], [], .todo⟩] []
          [t.getS o.a, 1, 0, t.getS o.b, 0, 0, 0, t.getS o.a] 8 0)))) ∧
    (∀ o : IxLdOp, QReady s .l (.ixld h o) .bit0 (portRes .l) w rest →
      (∀ cls tv, ixCheck t o.desc o.addr = .error (cls, tv) →
        exec (.ixld h o) s = .next (s.refusedAt .l (.ixld h o) w rest (gAddrPost o.addr) cls 1 tv)) ∧
      (∀ d lines va, ixCheck t o.desc o.addr = .ok (d, lines, va) → exec (.ixld h o) s =
        .next (s.entered .l .l (.ixld h o) w rest (gAddrPost o.addr) (portClk .g true (lineUnits lines va)) []
          (newAccess w .g (lineUnits lines va) [] [t.getS o.desc, 0] 0 0)))) ∧
    (∀ o : IxStOp, QReady s .s (.ixst h o) .bit0 (portRes .s) w rest →
      (∀ cls tv, ixCheck t o.desc o.addr = .error (cls, tv) →
        exec (.ixst h o) s = .next (s.refusedAt .s (.ixst h o) w rest (gAddrPost o.addr) cls 4 tv)) ∧
      (∀ d lines va, ixCheck t o.desc o.addr = .ok (d, lines, va) →
        let us := lineUnits lines va
        let n := portClk .g true us
        let a := newAccess w .g us
          ((List.range lines).flatMap fun l => codedLine l d.n d.w d.cbid.toNat d.etag.toNat (t.index d)) [] 0 (lines * 128)
        (t.inPhase = false → exec (.ixst h o) s = .next (s.entered .s .s (.ixst h o) w rest (gAddrPost o.addr) n [] a)) ∧
        (∀ p, t.inPhase = true → t.phase = some p →
          exec (.ixst h o) s = .next (s.logged .s (.ixst h o) w rest (gAddrPost o.addr) n 4 (8 + lines * 128) p a)))) ∧
    (∀ o : PrefOp, QReady s .l (.pref h o) .bit0 (portRes .l) w rest → exec (.pref h o) s =
      .next (s.withChip ((s.advanced .l (.pref h o) rest (gAddrPost o.addr)).upd fun t => t.takePort .l (s.clk + 1))))

/-- R253, R254, R259, R273, R275, R311: an atomic raises class 21 in a guarded phase and class 5 for an address that is not a multiple of its
size, and else enters the S FIFO, a vector reduction with an element for each enabled lane; rpub enters S, or raises class 21 in a guarded phase, and
rfree enters L, each as a ring access. The order of an atomic's checks is log entry 55. -/
def Obligations.AtomicsAndRingWordsIssue : Prop :=
  ∀ (s : State) (h : Hdr) (w : QWord) (rest : List QWord),
    let t := s.tile
    let bytes (w64 : Bool) : Nat := if w64 then 8 else 4
    let one (i : Instr) (k : Pred) (a : Word) (sz : Nat) (data : List Byte) : Prop := QReady s .s i k (portRes .s) w rest →
      (t.inPhase = true → exec i s = .next (s.refusedAt .s i w rest none 21 4 0)) ∧
      (t.inPhase = false → a.toNat % sz ≠ 0 → exec i s = .next (s.refusedAt .s i w rest none 5 4 a)) ∧
      (t.inPhase = false → a.toNat % sz = 0 →
        exec i s = .next (s.entered .s .s i w rest none 1 [] (newAccess w .g [⟨0, [⟨0, .glob a, sz⟩], [], .todo⟩] data [] 8 0)))
    (∀ o : AtomOpnd, one (.atom h o) .bit0 (t.getS o.a) (bytes o.w64) (toBytes 8 (t.getS o.b))) ∧
    (∀ o : AcasOp, one (.acas h o) .bit0 (t.getS o.a) (bytes o.w64) (toBytes 8 (t.getS o.b) ++ toBytes 8 (t.getS o.c))) ∧
    (∀ (o : RedOpnd) (n : SReg), o.d = .s n → one (.red h o) .bit0 (t.getS o.a) (bytes o.w64) (toBytes 8 (t.getS n))) ∧
    (∀ (o : RedOpnd) (n : VReg), o.d = .v n → QReady s .s (.red h o) .lanes (portRes .s) w rest → t.inPhase = true →
      exec (.red h o) s = .next (s.refusedAt .s (.red h o) w rest none 21 4 0)) ∧
    (∀ (o : RedOpnd) (n : VReg) (e : Nat), o.d = .v n → QReady s .s (.red h o) .lanes (portRes .s) w rest → t.inPhase = false →
      (t.getS o.a).toNat % 4 ≠ 0 → e < 64 → (t.effPred w h).getLsbD e = true → (∀ j < e, (t.effPred w h).getLsbD j = false) →
      exec (.red h o) s = .next (s.refusedAt .s (.red h o) w rest none 5 4 (t.getS o.a + BitVec.ofNat 64 (4 * e)))) ∧
    (∀ (o : RedOpnd) (n : VReg), o.d = .v n → QReady s .s (.red h o) .lanes (portRes .s) w rest → t.inPhase = false →
      (t.getS o.a).toNat % 4 = 0 →
      let us : List MUnit := ((List.range 64).filter fun e => (t.effPred w h).getLsbD e).map fun e =>
        ⟨e, [⟨e * 4, .glob (t.getS o.a + BitVec.ofNat 64 (4 * e)), 4⟩], [], .todo⟩
      exec (.red h o) s = .next (s.entered .s .s (.red h o) w rest none (portClk .g false us) []
        (newAccess w .g us (toBytes 256 (t.getV (physV w.vrb n))) [] 8 0))) ∧
    (∀ g : GReg,
      (QReady s .s (.rpub h g) .bit0 (portRes .s) w rest →
        (t.inPhase = false → exec (.rpub h g) s = .next (s.entered .s .s (.rpub h g) w rest none 1 [] (newAccess w .ring [] [] [] 0 0))) ∧
        (t.inPhase = true → exec (.rpub h g) s = .next (s.withChip ((s.issued .s (.rpub h g) rest).issueFault w 0 21 4 0)))) ∧
      (QReady s .l (.rfree h g) .bit0 (portRes .l) w rest →
        exec (.rfree h g) s = .next (s.entered .l .l (.rfree h g) w rest none 1 [] (newAccess w .ring [] [] [] 0 0))))

/-! ## Code words (R157–R191) -/

/-- R161–R169: the codebook words, each at its issue. A word that fails its checks raises its class with the code engine's code; cbld enters the L
FIFO with the header's extent, cbst the S FIFO (or a guarded phase's log) with the image; cbget and cbdec give the enabled lanes their entries; cbput,
cbcnt and cbdedup replace the register with TAG one more; cbenc writes the nearest entry's number to each enabled index of its window. The order of
a word's checks is log entry 55, when planes are read and written log entry 16, what a logged image writes into the log's rows log entry 26. -/
def Obligations.CodebookWords : Prop :=
  ∀ (s : State) (h : Hdr) (w : QWord) (rest : List QWord),
    let t := s.tile
    let p := t.effPred w h
    let k (i : Instr) (n : Nat) : Chip := (s.issued .c i rest).takeK s.clk n
    let fails (i : Instr) (cls : Nat) (tval : Word) : Prop :=
      exec i s = .next (s.withChip ((s.issued .c i rest).issueFault w h.sba cls 6 tval))
    let lanes (i : Instr) (d : VDst) (lat n : Nat) (f : Nat → Nat) : Prop := ∃ mask val : VWord,
      (∀ e < 2048 / n, ∀ b < n, mask.getLsbD (n * e + b) = p.getLsbD (laneOf n e)) ∧
      (∀ e < 2048 / n, elemN n val e = if p.getLsbD (laneOf n e) then f e % 2 ^ n else 0) ∧
      exec i s = .next (s.withChip ((k i 1).result s.clk lat w h.sba
        [match d with | .v r => .v (physV w.vrb r) mask val | .qo r => .qo r w.id val] 0))
    let base (o : CbMemOp) : Base := if o.sp then .sp (spPlace (t.getS o.a) 0) else .glob (t.getS o.a)
    let cls (o : CbMemOp) : AClass := if o.sp then .ab else .g
    (∀ o : CbMemOp, QReady s .c (.cbld h o) .bit0 (fun now w c => codeRes (fun _ => [o.d]) now w c && decide (c.tile.frame.lf.length < 32)) w rest →
      (cbSpFail s.chip (base o) 8 = none → exec (.cbld h o) s = .next (s.withChip ((k (.cbld h o) 1).pushAccess .l
        (newAccess w (cls o) [⟨0, [⟨0, elemPlace s.chip.focus (base o), 8⟩], [], .todo⟩] [] [] 1032 0)))) ∧
      (∀ c tv, cbSpFail s.chip (base o) 8 = some (c, tv) → fails (.cbld h o) c tv)) ∧
    (∀ o : CbMemOp, QReady s .c (.cbst h o) .bit0 (fun now w c => codeRes (fun _ => [o.d]) now w c && decide (c.tile.frame.sf.length < 32)) w rest →
      let r := t.getCb o.d
      let img := cbImage r
      let a := newAccess w (cls o) [oneUnit 0 ⟨0, elemPlace s.chip.focus (base o), img.length⟩] img [] 0 img.length
      img.length = 8 + r.count.toNat * (if r.ty = .f32 ∨ r.ty = .i32 then 4 else 2) ∧
      (r.count = 0 → fails (.cbst h o) 2 0) ∧
      (∀ c tv, r.count ≠ 0 → cbSpFail s.chip (base o) img.length = some (c, tv) → fails (.cbst h o) c tv) ∧
      (r.count ≠ 0 → cbSpFail s.chip (base o) img.length = none → t.inPhase = false ∨ o.sp = true →
        exec (.cbst h o) s = .next (s.withChip ((k (.cbst h o) 1).pushAccess .s a))) ∧
      (∀ ph, r.count ≠ 0 → o.sp = false → t.inPhase = true → t.phase = some ph →
        exec (.cbst h o) s = .next (s.withChip (if logRoom t < ph.fill + (8 + (img.length + 7) / 8 * 8)
          then (k (.cbst h o) 1).issueFault w 0 21 6 0
          else ((k (.cbst h o) 1).upd fun t => t.logRecord s.chip.freeCnt ph (8 + (img.length + 7) / 8 * 8) a).tickFree)))) ∧
    (∀ o : CbGetOp, QReady s .c (.cbget h o) .lanes (codeRes fun _ => [o.a]) w rest →
      lanes (.cbget h o) o.d 2 32 fun e => (elem 32 (t.getCb o.a).entry (64 * o.q.toNat + e)).toNat) ∧
    (∀ o : CbPutOp, QReady s .c (.cbput h o) .lanes (codeRes fun _ => [o.d]) w rest → ∃ (r : Codebook) (ws : List Nat),
      exec (.cbput h o) s = .next (s.withChip ((k (.cbput h o) 1).codeResult s.clk 2 w h.sba [.cb o.d r ws] 0)) ∧
      r = { t.getCb o.d with entry := r.entry, tag := (t.getCb o.d).tag + 1 } ∧
      ∀ e < 256, elem 32 r.entry e =
        if e / 64 = o.q.toNat ∧ p.getLsbD (e % 64) = true ∧ e < (t.getCb o.d).count.toNat then
          (if cbSize (t.getCb o.d).ty = 2 then (elem 32 (t.vsrc w o.a) (e % 64)) &&& 0xFFFF else elem 32 (t.vsrc w o.a) (e % 64))
        else elem 32 (t.getCb o.d).entry e) ∧
    (∀ d a ty, QReady s .c (.cbcnt h (.set d a ty)) .bit0 (codeRes fun _ => [d]) w rest →
      let n := (t.getS a).toNat
      (n < 1 ∨ 256 < n → fails (.cbcnt h (.set d a ty)) 2 0) ∧
      (1 ≤ n ∧ n ≤ 256 → ∃ (r : Codebook) (ws : List Nat),
        exec (.cbcnt h (.set d a ty)) s = .next (s.withChip ((k (.cbcnt h (.set d a ty)) 1).codeResult s.clk 1 w h.sba [.cb d r ws] 0)) ∧
        r = { t.getCb d with entry := r.entry, count := BitVec.ofNat 9 n, ty := ty, tag := (t.getCb d).tag + 1, remap := 0, rlen := 0 } ∧
        ∀ e < 256, elem 32 r.entry e = if e < n then
          (if cbSize ty = 2 then elem 32 (t.getCb d).entry e &&& 0xFFFF else elem 32 (t.getCb d).entry e) else 0)) ∧
    (∀ d a, QReady s .c (.cbcnt h (.rd d a)) .bit0 (codeRes fun _ => [a]) w rest → ∃ x : Word,
      exec (.cbcnt h (.rd d a)) s = .next (s.withChip ((k (.cbcnt h (.rd d a)) 1).codeResult s.clk 1 w h.sba [.s d x] 0)) ∧
      x.toNat = (t.getCb a).tag.toNat + (t.getCb a).count.toNat * 2 ^ 8 + (cbTyCode (t.getCb a).ty).toNat * 2 ^ 17) ∧
    (∀ d a b, QReady s .c (.cbcnt h (.rt d a b)) .bit0 (codeRes fun _ => [a]) w rest → ∃ x : Word,
      exec (.cbcnt h (.rt d a b)) s = .next (s.withChip ((k (.cbcnt h (.rt d a b)) 1).codeResult s.clk 1 w h.sba [.s d x] 0)) ∧
      x.extractLsb' 12 52 = (t.getS b).extractLsb' 12 52 ∧ x.extractLsb' 8 4 = a ∧ x.extractLsb' 0 8 = (t.getCb a).tag) ∧
    (∀ r, QReady s .c (.cbdedup h r) .bit0 (codeRes fun _ => [r]) w rest → ∃ (kept : List Nat) (g : Nat → Nat) (x : Codebook) (ws : List Nat),
      let old := t.getCb r
      exec (.cbdedup h r) s = .next (s.withChip ((k (.cbdedup h r) 24).codeResult s.clk 24 w h.sba [.cb r x ws] 0)) ∧
      x = { old with
        entry := x.entry, count := BitVec.ofNat 9 kept.length, tag := old.tag + 1, remap := x.remap, rlen := old.count
        rfrom := old.tag, rto := old.tag + 1 } ∧
      (old.count.toNat ≤ 256 →
        List.Sublist kept old.entries ∧ kept.Pairwise (fun a b => sameEntry old.ty a b = false) ∧
        (∀ e < old.count.toNat, g e < kept.length ∧ sameEntry old.ty (kept.getD (g e) 0) (elem 32 old.entry e).toNat = true ∧
          ∀ j < g e, sameEntry old.ty (kept.getD j 0) (elem 32 old.entry e).toNat = false) ∧
        (∀ e < 256, elem 8 x.remap e = if e < old.count.toNat then BitVec.ofNat 8 (g e) else 0) ∧
        ∀ e < 256, elem 32 x.entry e = BitVec.ofNat 32 (kept.getD e 0))) ∧
    (∀ o : CbEncOp, QReady s .c (.cbenc h o) .lanes (codeRes (descReg o.b)) w rest →
      (∀ c, encCheck t o.b o.c true = .error c → fails (.cbenc h o) c 0) ∧
      (∀ d r, encCheck t o.b o.c true = .ok (d, r) →
        let e0 := (t.getS o.c).toNat
        let on (e : Nat) : Bool := decide (e0 ≤ e ∧ e < e0 + cbLanes r.ty ∧ e < d.n) && p.getLsbD (laneOf (8 * cbSize r.ty) (e - e0))
        exec (.cbenc h o) s = .next (s.withChip (((k (.cbenc h o) 2).upd fun u => u.writePlanes d.prow d.n d.w fun e =>
          if on e then nearest (r.entries.map (cbVal r.ty)) (cbVal r.ty (elemN (8 * cbSize r.ty) (t.vsrc w o.a) (e - e0))) else t.index d e).codeResult
            s.clk 8 w h.sba [.s o.d (BitVec.ofNat 64 ((List.range (cbLanes r.ty)).countP fun j => on (e0 + j)))] 0)))) ∧
    (∀ o : CbDecOp, QReady s .c (.cbdec h o) .lanes (codeRes (descReg o.a)) w rest →
      (∀ c, encCheck t o.a o.b false = .error c → fails (.cbdec h o) c 0) ∧
      (∀ d r, encCheck t o.a o.b false = .ok (d, r) →
        let e0 := (t.getS o.b).toNat
        lanes (.cbdec h o) o.d 6 (8 * cbSize r.ty) fun j => if e0 + j < d.n then (elem 32 r.entry (t.index d (e0 + j))).toNat else 0)) ∧
    -- R168: the nearest entry is the least of those at the least distance; a NaN takes the first NaN entry
    (∀ (vals : List CVal) (z e : Int) (i : Nat), i < vals.length → (vals.getD i .nan).isNan = false →
      let j := nearest vals (.num z e)
      j < vals.length ∧ (vals.getD j .nan).isNan = false ∧ distLt (cvDist z e (vals.getD i .nan)) (cvDist z e (vals.getD j .nan)) = false ∧
      (i < j → distLt (cvDist z e (vals.getD j .nan)) (cvDist z e (vals.getD i .nan)) = true)) ∧
    (∀ (vals : List CVal) (i : Nat), i < vals.length → (vals.getD i .nan).isNan = true →
      (vals.getD (nearest vals .nan) (.num 0 0)).isNan = true ∧ nearest vals .nan ≤ i)

/-- R167, R170, R182–R187: the words on index planes and the basin, each at its issue. A word that fails its checks raises its class; else it holds
the code unit for a clk for each 2,048 indices, rewrites its planes at once (log entry 16), and its register results land when the unit says (its figures, log entry 6; the order of the checks, log
entry 55); where reclust exceeds its bound it carries class 16, which stands if CXEN is set when it completes
(ResultsLandAtTheirClk). What reclust makes of the basin: the runs of its sorted live entries, by distinct value or, where these do not fit, cut where
the cumulative count reaches each K-th part; each run's first member or its rounded mean; the map of every index; the greatest and the mean square
error, rounded up. -/
def Obligations.IndexPlaneAndBasinWords : Prop :=
  ∀ (s : State) (h : Hdr) (w : QWord) (rest : List QWord),
    let t := s.tile
    let b := t.regs.basin
    let k (i : Instr) (n : Nat) : Chip := (s.issued .c i rest).takeK s.clk n
    let pass (n : Nat) : Nat := (n + 2047) / 2048
    let fails (i : Instr) (cls : Nat) : Prop := exec i s = .next (s.withChip ((s.issued .c i rest).issueFault w h.sba cls 6 0))
    let overlap (d e : Desc) : Prop := d.prow * 128 < e.prow * 128 + e.bytes ∧ e.prow * 128 < d.prow * 128 + d.bytes
    -- R159, R160: the descriptor's fields and its first checks
    (∀ x : Word, let d := descOf x
      d.prow = x.toNat / 2 ^ 40 % 2 ^ 12 ∧ d.n = x.toNat / 2 ^ 16 % 2 ^ 23 ∧ d.w = x.toNat / 2 ^ 12 % 16 ∧ d.cbid.toNat = x.toNat / 2 ^ 8 % 16 ∧
      d.etag.toNat = x.toNat % 256 ∧
      (d.fate = none ↔ x.toNat / 2 ^ 52 = 0 ∧ x.getLsbD 39 = false ∧ 1 ≤ d.n ∧ d.n ≤ 4194304 ∧ 1 ≤ d.w ∧ d.w ≤ 12 ∧
        d.prow * 128 + d.w * ((d.n + 1023) / 1024) * 128 ≤ 524288) ∧
      (d.resv = false → d.word = x)) ∧
    -- ixremap (R167)
    (∀ o : IxRemapOp, QReady s .c (.ixremap h o) .bit0 (codeRes fun _ => [o.a]) w rest →
      let d := descOf (t.getS o.b)
      let r := t.getCb o.a
      let ok : Prop := d.cbid = o.a ∧ r.rlen ≠ 0 ∧ d.etag = r.rfrom ∧ r.tag = r.rto
      (∀ c, d.fate = some c → fails (.ixremap h o) c) ∧ (d.fate = none → 8 < d.w → fails (.ixremap h o) 15) ∧
      (d.fate = none → d.w ≤ 8 → ¬ok → fails (.ixremap h o) 14) ∧
      (d.fate = none → d.w ≤ 8 → ok →
        let w2 := if o.n then min d.w (max 1 (ceilLog2 r.count.toNat)) else d.w
        exec (.ixremap h o) s = .next (s.withChip (((k (.ixremap h o) (pass d.n)).upd fun u => u.writePlanes d.prow d.n w2 fun e =>
          if t.index d e < r.rlen.toNat then (elem 8 r.remap (t.index d e)).toNat else 0).later
            s.clk w h.sba [.s o.d { d with w := w2, etag := r.tag }.word] none)))) ∧
    -- ixmov (R170)
    (∀ o : RRR, QReady s .c (.ixmov h o) .bit0 (tagRes o.a) w rest →
      let d := descOf (t.getS o.a)
      let d0 := descOf (t.getS o.b)
      let e : Desc := { d0 with n := d.n, cbid := d.cbid, etag := d.etag }
      let cur : Prop := d.etag = if d.w ≤ 8 then (t.getCb d.cbid).tag else b.tag
      (∀ c, d.fate = some c → fails (.ixmov h o) c) ∧
      (d.fate = none → (∀ c, d0.fate = some c → fails (.ixmov h o) c) ∧
        (d0.fate = none → (¬cur → fails (.ixmov h o) 14) ∧ (cur → e.w < d.w → fails (.ixmov h o) 2) ∧
          (cur → d.w ≤ e.w → 524288 < e.prow * 128 + e.bytes → fails (.ixmov h o) 9) ∧
          (cur → d.w ≤ e.w → e.prow * 128 + e.bytes ≤ 524288 → d.prow ≠ e.prow → overlap d e → fails (.ixmov h o) 12) ∧
          (cur → d.w ≤ e.w → e.prow * 128 + e.bytes ≤ 524288 → d.prow = e.prow ∨ ¬overlap d e →
            exec (.ixmov h o) s = .next (s.withChip (((k (.ixmov h o) (pass d.n)).upd fun u =>
              u.writePlanes e.prow d.n e.w (t.index d)).later s.clk w h.sba [.s o.d e.word] none)))))) ∧
    -- cbpair (R181)
    (∀ o : CbPairOp, QReady s .c (.cbpair h o) .bit0 (basinRes fun _ => [o.a, o.b]) w rest →
      let x := t.getCb o.a
      let y := t.getCb o.b
      let n := x.count.toNat * y.count.toNat
      (n = 0 ∨ x.ty ≠ y.ty → fails (.cbpair h o) 2) ∧
      (n ≠ 0 → x.ty = y.ty → (x.ty = .i32 → o.rnd ≠ .rne → fails (.cbpair h o) 1) ∧
        (x.ty ≠ .i32 ∨ o.rnd = .rne → (4096 < n → fails (.cbpair h o) 15) ∧
          (n ≤ 4096 → ∃ (bs : Basin) (ws : List Nat),
            exec (.cbpair h o) s = .next (s.withChip ((k (.cbpair h o) ((n + 63) / 64)).codeResult s.clk (8 + (n + 63) / 64) w h.sba
              [.basin bs ws] 0)) ∧
            bs = { b with
              entry := bs.entry, count := BitVec.ofNat 13 n, m := x.count, nb := y.count, ty := x.ty, acb := o.a, atag := x.tag
              bcb := o.b, btag := y.tag, tag := b.tag + 1 } ∧
            ∀ i < x.count.toNat, ∀ j < y.count.toNat,
              bs.ent (i * y.count.toNat + j) = pairOp x.ty o.op o.rnd o.sat (elem 32 x.entry i).toNat (elem 32 y.entry j).toNat % 2 ^ 32)))) ∧
    -- ixpair (R182)
    (∀ o : IxPairOp, QReady s .c (.ixpair h o) .bit0 (basinRes fun _ => []) w rest →
      let x := descOf (t.getS o.a)
      let y := descOf (t.getS o.b)
      let wp := max 9 (ceilLog2 b.count.toNat)
      let d : Desc := { descOf (t.getS o.c) with n := x.n, w := wp, cbid := 0, etag := b.tag, resv := false }
      let cur : Prop := b.count ≠ 0 ∧ x.cbid = b.acb ∧ x.etag = b.atag ∧ y.cbid = b.bcb ∧ y.etag = b.btag
      (∀ c, x.fate = some c → fails (.ixpair h o) c) ∧ (∀ c, x.fate = none → y.fate = some c → fails (.ixpair h o) c) ∧
      (x.fate = none → y.fate = none → (8 < x.w ∨ 8 < y.w ∨ x.n ≠ y.n → fails (.ixpair h o) 2) ∧
        (x.w ≤ 8 → y.w ≤ 8 → x.n = y.n → (524288 < d.prow * 128 + d.bytes → fails (.ixpair h o) 9) ∧
          (d.prow * 128 + d.bytes ≤ 524288 → (¬cur → fails (.ixpair h o) 14) ∧ (cur → overlap d x ∨ overlap d y → fails (.ixpair h o) 12) ∧
            (cur → ¬overlap d x → ¬overlap d y →
              exec (.ixpair h o) s = .next (s.withChip (((k (.ixpair h o) (pass x.n)).upd fun u => u.writePlanes d.prow x.n wp fun e =>
                if t.index x e < b.m.toNat ∧ t.index y e < b.nb.toNat then t.index x e * b.nb.toNat + t.index y e else 0).later
                  s.clk w h.sba [.s o.d d.word] none))))))) ∧
    -- ixhist (R183)
    (∀ o : RR, QReady s .c (.ixhist h o) .bit0 (basinRes (descReg o.a)) w rest →
      let d := descOf (t.getS o.a)
      let cur : Prop := d.etag = if d.w ≤ 8 then (t.getCb d.cbid).tag else b.tag
      (∀ c, d.fate = some c → fails (.ixhist h o) c) ∧ (d.fate = none → ¬cur → fails (.ixhist h o) 14) ∧
      (d.fate = none → cur → ∃ (bs : Basin) (ws : List Nat),
        exec (.ixhist h o) s = .next (s.withChip ((k (.ixhist h o) (pass d.n)).later s.clk w h.sba
          [.basin bs ws, .s o.d (BitVec.ofNat 64 d.n)] none)) ∧
        bs = { b with hist := bs.hist, hb := decide (9 ≤ d.w), htag := if 9 ≤ d.w then b.tag else b.htag } ∧
        ∀ x < 4096, bs.cnt x = (List.range d.n).countP fun e => t.index d e == x)) ∧
    -- bsget (R184)
    (∀ (a : SReg) (i : Instr) (d : VDst) (f : Nat → Nat),
      ((i = .bsget h (.e d a) ∧ f = b.ent) ∨ (i = .bsget h (.h d a) ∧ f = b.cnt) ∨ (i = .bsget h (.r d a) ∧ f = fun x => (elem 8 b.bremap x).toNat)) →
      QReady s .c i .lanes (basinRes fun _ => []) w rest →
      let e0 := (t.getS a).toNat
      let p := t.effPred w h
      (4096 ≤ e0 → fails i 2) ∧ (e0 < 4096 → e0 % 64 ≠ 0 → fails i 5) ∧
      (e0 < 4096 → e0 % 64 = 0 → ∃ mask val : VWord,
        (∀ e < 64, ∀ j < 32, mask.getLsbD (32 * e + j) = p.getLsbD e) ∧ (∀ e < 64, elemN 32 val e = if p.getLsbD e then f (e0 + e) else 0) ∧
        exec i s = .next (s.withChip ((k i 1).result s.clk 2 w h.sba
          [match d with | .v r => .v (physV w.vrb r) mask val | .qo r => .qo r w.id val] 0)))) ∧
    (∀ d, QReady s .c (.bsget h (.cst d)) .bit0 (basinRes fun _ => []) w rest →
      exec (.bsget h (.cst d)) s = .next (s.withChip ((k (.bsget h (.cst d)) 1).result s.clk 1 w h.sba [.s d t.sys.cst] 0))) ∧
    (∀ d, QReady s .c (.bsget h (.st d)) .bit0 (basinRes fun _ => []) w rest → ∃ x : Word,
      exec (.bsget h (.st d)) s = .next (s.withChip ((k (.bsget h (.st d)) 1).result s.clk 1 w h.sba [.s d x] 0)) ∧
      x.toNat = b.tag.toNat + b.htag.toNat * 2 ^ 8 + (if b.hb then 2 ^ 16 else 0) + (cbTyCode b.ty).toNat * 2 ^ 17 + b.count.toNat * 2 ^ 19 +
        b.m.toNat * 2 ^ 32 + b.nb.toNat * 2 ^ 41) ∧
    -- reclust (R185–R187)
    (∀ o : ReclustOp, QReady s .c (.reclust h o) .bit0 (basinRes fun _ => [o.d]) w rest →
      let d := descOf (t.getS o.a)
      let bound := (bits (t.getS o.b) 0 32).toNat
      let bv := fmtF32.val false bound
      let cur : Prop := d.etag = b.tag ∧ b.hb = true ∧ b.htag = b.tag
      let bad : Prop := bv.isNan = true ∨ (bv.neg = true ∧ bv.isZero = false) ∨ ∀ i < b.count.toNat, b.cnt i = 0
      (∀ c, d.fate = some c → fails (.reclust h o) c) ∧ (d.fate = none → d.w < 9 → fails (.reclust h o) 2) ∧
      (d.fate = none → 9 ≤ d.w → ¬cur → fails (.reclust h o) 14) ∧ (d.fate = none → 9 ≤ d.w → cur → bad → fails (.reclust h o) 2) ∧
      (d.fate = none → 9 ≤ d.w → cur → ¬bad →
        let f := foldBasin b o.k.toNat
        let n := f.outs.length
        let r := t.getCb o.d
        let w2 := max 1 (ceilLog2 n)
        ∃ (cst : Word) (cause : Option Cause) (ent : BitVec 8192) (map : BitVec 32768) (ws ws' : List Nat),
          exec (.reclust h o) s = .next (s.withChip (((k (.reclust h o) (pass d.n)).upd fun u => u.writePlanes d.prow d.n w2 fun e =>
            f.map.toArray.getD (t.index d e) 0).later s.clk w h.sba
              [.cb o.d { r with entry := ent, count := BitVec.ofNat 9 n, ty := b.ty, rlen := 0, remap := 0, tag := r.tag + 1 } ws,
               .basin { b with bremap := map, rcnt := BitVec.ofNat 9 n, hb := false, tag := b.tag + 1 } ws',
               .s o.c { d with w := w2, cbid := o.d, etag := r.tag + 1 }.word, .cst 0xFFFFFFFF7FFFFFFF cst] cause)) ∧
          (cause.isSome = true ↔ cst.getLsbD 63 = true) ∧
          -- R187: the errors of the live entries that are no NaN, in units of 2^d
          (let pair (i : Nat) : CVal × CVal := (cbVal b.ty (b.ent i), cbVal b.ty (f.outs.getD (f.map.getD i 0) 0))
            let lives := (List.range b.count.toNat).filter fun i => b.cnt i != 0 && !(pair i).1.isNan
            let far (i : Nat) : Bool := match pair i with
              | (.num _ _, .num _ _) => false
              | (.inf m, .inf n) => m != n
              | _ => true
            let maxErr := (cst.extractLsb' 32 31).toNat
            let rmsErr := (cst.extractLsb' 0 31).toNat
            ((∃ i ∈ lives, far i = true) → maxErr = 0x7F800000 ∧ rmsErr = 0x7F800000 ∧ (cst.getLsbD 63 = true ↔ bv ≠ .inf false)) ∧
            ((∀ i ∈ lives, far i = false) → ∀ d : Int,
              (∀ i ∈ lives, ∀ z e, (pair i).1 = .num z e ∨ (pair i).2 = .num z e → d ≤ e) →
              let err (i : Nat) : Nat := match pair i with
                | (.num x e, .num y g) => (x * 2 ^ (e - d).toNat - y * 2 ^ (g - d).toNat).natAbs
                | _ => 0
              let most := (lives.map err).foldl max 0
              let up (num den : Nat) (x : Nat) : Prop := ∃ fl, fmtF32.Rounds ⟨.rup, false, false⟩ false num den ⟨x, fl⟩
              (most = 0 → maxErr = 0) ∧ (most ≠ 0 → up (most * 2 ^ d.toNat) (2 ^ (-d).toNat) maxErr) ∧
              (bv = .inf false → cst.getLsbD 63 = false) ∧
              (∀ n m e, bv = .fin n m e → d ≤ e → (cst.getLsbD 63 = true ↔ m * 2 ^ (e - d).toNat < most)) ∧
              let total := ((List.range b.count.toNat).map b.cnt).sum
              let num := (lives.map fun i => b.cnt i * err i ^ 2).sum * 2 ^ (2 * d).toNat
              let den := total * 2 ^ (-(2 * d)).toNat
              (num = 0 → rmsErr = 0) ∧
              ∀ N q : Nat, 2 ^ 26 ≤ q → q ^ 2 * den ≤ num * 4 ^ N → num * 4 ^ N < (q + 1) ^ 2 * den →
                (q ^ 2 * den = num * 4 ^ N → up q (2 ^ N) rmsErr) ∧ (q ^ 2 * den ≠ num * 4 ^ N → up (2 * q + 1) (2 ^ (N + 1)) rmsErr))) ∧
          (∀ c, cause = some c → c.code = 16 * 8 + 6 ∧ c.pc = w.pc ∧ c.xw = false) ∧
          (n ≤ 256 → (∀ e < 256, elem 32 ent e = BitVec.ofNat 32 (f.outs.getD e 0)) ∧ ∀ i < 4096, elem 8 map i = BitVec.ofNat 8 (f.map.getD i 0)))) ∧
    -- R186: P, the live entries that are no NaN in the order of their values; D, one run for each value; R, the runs
    (∀ (b : Basin) (K : Nat), 2 ≤ K → b.count.toNat ≤ 4096 →
      let f := foldBasin b K
      let val (i : Nat) : CVal := cbVal b.ty (b.ent i)
      let nan := (List.range b.count.toNat).any fun i => b.cnt i != 0 && (val i).isNan
      let kn := if nan then K - 1 else K
      ∃ (P : List Nat) (D R : List (List Nat)),
        P.Nodup ∧ (∀ i, i ∈ P ↔ i < b.count.toNat ∧ b.cnt i ≠ 0 ∧ (val i).isNan = false) ∧
        P.Pairwise (fun i j => (val i).lt (val j) = true ∨ ((val j).lt (val i) = false ∧ i < j)) ∧
        D.flatten = P ∧ (∀ r ∈ D, r ≠ [] ∧ ∀ i ∈ r, ∀ j ∈ r, (val i).lt (val j) = false) ∧
        D.Pairwise (fun r r' => ∀ i ∈ r, ∀ j ∈ r', (val i).lt (val j) = true) ∧
        (D.length ≤ kn → R = D) ∧
        (kn < D.length →
          let S (p : Nat) : Nat := ((P.take p).map b.cnt).sum
          ∃ cut : Nat → Nat, cut 0 = 0 ∧
            (∀ j < kn, (j + 1) * S P.length ≤ kn * S (cut (j + 1)) ∧ ∀ p < cut (j + 1), kn * S p < (j + 1) * S P.length) ∧
            R = ((List.range kn).map fun j => (P.drop (cut j)).take (cut (j + 1) - cut j)).filter fun r => !r.isEmpty) ∧
        f.outs.length = R.length + (if nan then 1 else 0) ∧ (nan = true → f.outs[R.length]? = some (fmtOf (cbElemTy b.ty)).nan) ∧
        (∀ (r i : Nat) (l : List Nat), R[r]? = some (i :: l) →
          let out := f.outs.getD r 0
          let same : Prop := ∀ j ∈ l, (val i).lt (val j) = false ∧ (val j).lt (val i) = false
          let has (n : Bool) : Prop := ∃ j ∈ i :: l, val j = .inf n
          (same → out = b.ent i) ∧
          (¬same → (has true → has false → out = (fmtOf (cbElemTy b.ty)).nan) ∧ (∀ n, has n → ¬has (!n) → out = (fmtOf (cbElemTy b.ty)).inf n) ∧
            (¬has true → ¬has false → ∀ d : Int, d ≤ 0 → (∀ j ∈ i :: l, ∀ z e, val j = .num z e → d ≤ e) →
              let S : Int := ((i :: l).map fun j => match val j with | .num z e => b.cnt j * z * 2 ^ (e - d).toNat | _ => 0).sum
              let T := ((i :: l).map b.cnt).sum * 2 ^ (-d).toNat
              (b.ty = .i32 → ∃ q : Int, out = (BitVec.ofInt 32 q).toNat ∧ 2 * (q * T - S).natAbs ≤ T ∧ (2 * (q * T - S).natAbs = T → q % 2 = 0)) ∧
              (b.ty ≠ .i32 → (S = 0 → out = 0) ∧
                (S ≠ 0 → ∃ fl, (fmtOf (cbElemTy b.ty)).Rounds ⟨.rne, false, false⟩ (decide (S < 0)) S.natAbs T ⟨out, fl⟩))))) ∧
        f.map.length = 4096 ∧ ∀ i < 4096,
          let m := f.map.getD i 0
          (b.count.toNat ≤ i → m = 0) ∧
          (i < b.count.toNat → (val i).isNan = true → m = if nan then R.length else 0) ∧
          (i < b.count.toNat → (val i).isNan = false →
            (∀ r l, R[r]? = some l → i ∈ l → m = r) ∧
            (b.cnt i = 0 → R = [] → m = 0) ∧
            (b.cnt i = 0 → R ≠ [] →
              (∀ r l, R[r]? = some l → (∃ j ∈ l, (val j).lt (val i) = false) → m ≤ r) ∧
              ((∃ l, R[m]? = some l ∧ ∃ j ∈ l, (val j).lt (val i) = false) ∨
                (m + 1 = R.length ∧ ∀ l ∈ R, ∀ j ∈ l, (val j).lt (val i) = true)))))


/-! ## The matrix engine (R192–R207) -/

/-- R195–R198, R202–R206: a matrix word whose checks pass enters the engine's queue with its operands as they stand, and one whose checks fail
raises its class with the engine's code; the oldest command starts, takes its K-steps and completes, and an ard takes its snapshot. -/
def Obligations.MatrixWordsAndCommands : Prop :=
  (∀ (s : State) (h : Hdr) (w : QWord) (rest : List QWord),
    let t := s.tile
    let push (i : Instr) (a b c : Word) (l : Option Codebook) (val : VWord) (mask : Word) : Prop :=
      exec i s = .next (s.withChip ((s.issued .c i rest).upd fun t => { t with mat := { t.mat with queue := t.mat.queue ++
        [⟨w, (s.tile.user.lf ++ s.tile.user.sf ++ s.tile.hand.lf ++ s.tile.hand.sf).map fun a => a.w.id, s.tile.cur, a, b, c, l, val, mask,
          false, 0, 0, none⟩] } }))
    let fails (i : Instr) (cls : Nat) : Prop := exec i s = .next (s.withChip ((s.issued .c i rest).issueFault w h.sba cls 3 0))
    let mma (i : Instr) (o : MmaOp) : Prop := QReady s .c i .bit0 (matRes o.cb) w rest →
      (∀ cls, mmaFate t o = some cls → fails i cls) ∧
      (mmaFate t o = none →
        (o.cb = none → push i (t.getS o.a) (t.getS o.b) 0 none 0 0) ∧
        (∀ r, o.cb = some r → push i (t.getS o.a) (t.getS o.b) (t.getS r) (some (t.getCb (descOf (t.getS r)).cbid)) 0 0))
    (∀ o : MmaOp, mma (.mma h o) o) ∧ (∀ o : MmawOp, mma (.mmaw h o) o.m) ∧
    -- R197 for a plain B: reserved bits and block ranges, then offsets, then the scratchpad's bounds
    (∀ o : MmaOp, o.cb = none →
      let a := mdescOf (t.getS o.a)
      let b := mdescOf (t.getS o.b)
      let ok2 : Prop := a.resv = false ∧ b.resv = false ∧ a.k0 + o.ks.toNat ≤ a.kt ∧ b.k0 + o.ks.toNat ≤ b.kt
      let ok5 : Prop := 8 ∣ a.poff ∧ 8 ∣ a.soff ∧ 8 ∣ b.poff ∧ 8 ∣ b.soff
      let ok9 : Prop := a.poff + 256 * (a.kt + 1) * mxWidth o.wa ≤ 524288 ∧ a.soff + 64 * (a.kt + 1) ≤ 524288 ∧
        b.poff + 256 * (b.kt + 1) * mxWidth o.wb ≤ 1048576 ∧ b.soff + 64 * (b.kt + 1) ≤ 1048576
      (¬ok2 → mmaFate t o = some 2) ∧ (ok2 → ¬ok5 → mmaFate t o = some 5) ∧ (ok2 → ok5 → ¬ok9 → mmaFate t o = some 9) ∧
      (ok2 → ok5 → ok9 → mmaFate t o = none)) ∧
    (∀ mask, QReady s .c (.aclr h mask) .bit0 (matRes none) w rest → push (.aclr h mask) 0 0 0 none 0 0) ∧
    (∀ o : AwrOp, QReady s .c (.awr h o) .lanes (matRes none) w rest → push (.awr h o) 0 0 0 none (t.vsrc w o.a) (t.effPred w h)) ∧
    (∀ o : AdrnOp, QReady s .c (.adrn h o) .bit0 (matRes none) w rest →
      (∀ cls, adrnFate (mdescOf (t.getS o.a)) o.fmt = some cls → fails (.adrn h o) cls) ∧
      (adrnFate (mdescOf (t.getS o.a)) o.fmt = none → push (.adrn h o) (t.getS o.a) 0 0 none 0 0)) ∧
    (∀ o : MstatOp, QReady s .c (.mstat h o) .bit0 (matRes none) w rest → push (.mstat h o) 0 0 0 none 0 0) ∧
    (∀ o : ArdOp, QReady s .c (.ard h o) .lanes anyRes w rest → ∃ after : Option Nat,
      exec (.ard h o) s = .next (s.withChip ((s.issued .c (.ard h o) rest).upd fun t =>
        let u := t.updFrame fun f => reserveRegs f w.id (match o.d with | .qo n => [.qo n] | .v _ => [])
        { u with mat := { u.mat with ards := u.mat.ards ++ [⟨w, u.cur, s.tile.effPred w h, after, none⟩] } })) ∧
      (after = none ↔ ∀ m ∈ t.mat.queue, o.acc ∉ m.tiles) ∧
      ∀ id, after = some id → ∃ l m r, t.mat.queue = l ++ m :: r ∧ m.w.id = id ∧ o.acc ∈ m.tiles ∧ ∀ n ∈ r, o.acc ∉ n.tiles)) ∧
  -- MATRIX_COMMAND_START
  (∀ (s : State) (m : MatCmd) (rest : List MatCmd), s.tile.mat.queue = m :: rest → m.started = false → s.tile.performs = true →
    s.tile.ardWaits m = false →
    exec .matrixCommandStart s = .next (s.onTile fun t =>
      let u := t.setHead { m with started := true }
      match m.mma with
      | some o => if o.za then u.clearAcc o.acc else u
      | none => u)) ∧
  -- K_STEP_COMPLETION: every element of the tile takes BlockStep (R40) on the step's codes and scales
  (∀ (s : State) (m : MatCmd) (rest : List MatCmd) (o : MmaOp), s.tile.mat.queue = m :: rest → m.mma = some o → m.started = true →
    s.tile.performs = true → m.done < m.total → s.tile.sramUe = [] → s.tile.bufs.xb.wf = true →
    let t := s.tile
    let a := mdescOf m.a
    let b := mdescOf m.b
    let wa := mxWidth o.wa
    let wb := mxWidth o.wb
    let code (f : Buf) (d : MDesc) (n r x : Nat) : Int := (BitVec.ofNat n ((List.range (n / 2)).map fun k =>
      (elem 2 (ofBytes 64 (t.readBuf f (d.poff + 8 * d.bt * k + 512 * (d.k0 + m.done) + 8 * r) 8) : Word) x).toNat * 4 ^ k).sum).toInt
    let scale (f : Buf) (d : MDesc) (r : Nat) : Nat := ((t.bufs.get f).get (d.soff + 64 * (d.k0 + m.done) + r)).toNat
    let bcode (j x : Nat) : Int := match m.latched with
      | none => code .wb b wb j x
      | some r =>
        let e := t.index (descOf m.c) (2048 * (b.k0 + m.done) + 32 * j + x)
        if e < r.count.toNat then (elem 32 r.entry e).toInt else 0
    let acc (t : Tile) (i j : Nat) : BitVec 32 := ofBytes 32 (t.readBuf .xb (accOff o.acc + 4 * (64 * i + j)) 4)
    let r (i j : Nat) : FRes := blockStep (acc t i j).toNat ((List.range 32).map fun x => code .ab a wa i x * bcode j x).sum wa wb
      (scale .ab a i) (scale .wb b j)
    ∃ (u : Tile) (fl : FFlags), exec .kStepCompletion s = .next (s.onTile fun _ => u) ∧
      u = { t with bufs := { t.bufs with xb := u.bufs.xb }, sys := { t.sys with mflags := t.sys.mflags ||| fl }
                   mat := { t.mat with queue := { m with done := m.done + 1, fl := m.fl ||| fl } :: rest } } ∧
      (∀ k, fl.getLsbD k = true ↔ ∃ i < 64, ∃ j < 64, (r i j).fl.getLsbD k = true) ∧
      (∀ i < 64, ∀ j < 64, acc u i j = BitVec.ofNat 32 (r i j).bits) ∧
      ∀ k, (k < accOff o.acc ∨ accOff o.acc + 16384 ≤ k) → u.bufs.xb.get k = t.bufs.xb.get k) ∧
  -- MATRIX_COMMAND_COMPLETION: the oldest command has its effect, writes its register and its tag, and leaves its report with its tiles
  (∀ (s : State) (m : MatCmd) (rest : List MatCmd), s.tile.mat.queue = m :: rest → m.started = true → s.tile.performs = true →
    m.total ≤ m.done → m.ue = none → s.tile.sramUe = [] →
    let t := s.tile
    let done (h : Hdr) (i : Instr) (f : Tile → Tile) (ws : List RegWrite) (rep : Word) : Prop := m.w.what = .ok i → i.hdr = h →
      (t.lateFor s.clk (ws.map writeRef) = true → exec .matrixCommandCompletion s = .next s) ∧ (t.lateFor s.clk (ws.map writeRef) = false →
      exec .matrixCommandCompletion s = .next (s.onTile fun t =>
        let u := f t
        ({ u with quiet := s.clk, mat := { u.mat with queue := rest, report := m.tiles.foldl (fun v k => vset v k rep) u.mat.report } } : Tile).land
          s.clk { id := m.w.id, frame := m.frame, pc := m.w.pc, due := s.clk, writes := ws, flags := 0, tag := h.sba, ue := none, cause := none
                  snap := false }))
    let rep : Word := BitVec.ofNat 64 (m.fl.toNat * 65536 + m.total % 256 * 256 + m.done % 256)
    let zero (t : Tile) (k : BitVec 4) : Tile := t.writeBuf .xb (accOff k) (List.replicate 16384 0)
    (∀ h o, done h (.mma h o) id [] rep) ∧ (∀ h o, done h (.mmaw h o) id [.s o.d rep] rep) ∧
    (∀ h mask, done h (.aclr h mask) (fun t =>
      (((List.range 16).filter fun k => mask.getLsbD k).map (BitVec.ofNat 4)).foldl zero t) [] 0) ∧
    (∀ h o, done h (.awr h o) (fun t => ((List.range 64).filter fun k => m.mask.getLsbD k).foldl (fun t k =>
      t.writeBuf .xb (accOff o.acc + 4 * (if o.col then 64 * k + o.idx.toNat else 64 * o.idx.toNat + k)) (toBytes 4 (elem 32 m.val k))) t) [] 0) ∧
    (∀ h o, done h (.adrn h o) (fun t =>
      let d := drainWrites o (mdescOf m.a) (wordsOf (s.tile.readBuf .xb (accOff o.acc) 16384))
      let u := d.1.foldl (fun t x => t.writeBuf .ab x.1 x.2) t
      let u := { u with sys := { u.sys with mflags := u.sys.mflags ||| d.2 } }
      if o.za then zero u o.acc else u) [] 0) ∧
    (∀ h o, done h (.mstat h o) (fun t => if o.clr then { t with sys := { t.sys with mflags := 0 } } else t)
      [.s o.d (t.sys.mflags.setWidth 64)] 0)) ∧
  -- ARD_SNAPSHOT: the line as it stands, under the word's predicate, with the tile's report
  (∀ (s : State) (r : ArdReq) (more : List ArdReq) (h : Hdr) (o : ArdOp), s.tile.mat.ards = r :: more → r.w.what = .ok (.ard h o) →
    s.tile.ardReady r = true → r.ue = none → s.tile.performs = true → s.tile.sramUe = [] → ∃ (mask val : VWord) (rep : Word),
    exec .ardSnapshot s = .next (s.onTile fun t => { t with
      mat := { t.mat with ards := more }
      vpend := t.vpend ++ [⟨r.w.id, r.frame, r.w.pc, s.clk, [dstWrite o.d r.w mask val, .s o.c rep], 0, h.sba, none, none, false⟩] }) ∧
    (∀ e < 64, ∀ j < 32, mask.getLsbD (32 * e + j) = r.mask.getLsbD e) ∧
    (∀ k < 64, elem 32 val k = if r.mask.getLsbD k then
      ofBytes 32 (s.tile.readBuf .xb (accOff o.acc + 4 * (if o.col then 64 * k + o.idx.toNat else 64 * o.idx.toNat + k)) 4) else 0) ∧
    (r.after = none → rep = vget s.tile.mat.report o.acc) ∧
    (∀ id m, r.after = some id → s.tile.mat.queue.find? (fun m => m.w.id == id) = some m →
      rep.getLsbD 63 = true ∧ (rep.extractLsb' 0 8).toNat = m.done % 256 ∧ (rep.extractLsb' 8 8).toNat = m.total % 256 ∧
        rep.extractLsb' 16 5 = m.fl) ∧
    (∀ id, r.after = some id → s.tile.mat.queue.find? (fun m => m.w.id == id) = none → rep = vget s.tile.mat.report o.acc))


/-! ## Commands (R216–R235, R241–R251, R277–R286) -/

/-- R216, R217, R221, R225, R226, R235, R244, R246, R247, R250, R277, R278: a command word whose checks pass enters its FIFO with its operands and
promises a clk no earlier than four after its issue (which one is a free value, log entry 10), due in s[DST] two clk later and bound to it; one
that fails a check raises its class and enters none; a member's commands on a group are numbered as it issues them; cpyq gives the clk of its
issue or, while its command is not complete, a later one. What a collective word that names no member or root does to its instance is log entry
41, the order of a word's checks log entry 55. -/
def Obligations.CommandWordsEnterTheirFifo : Prop :=
  ∀ (s : State) (h : Hdr) (w : QWord) (rest : List QWord),
    let t := s.tile
    let promised (u : Tile) (d : SReg) (v : Nat) (cmd : Option Nat) : Tile :=
      { u with promises := u.promises ++ [⟨s.clk + 2, u.cur, w.id, d, BitVec.ofNat 64 v, cmd, h.sba, none⟩] }
    let pushed (i : Instr) (ring : Option GReg) (e : CmdEng) (d : SReg) (src dst res shape : Word) (inst : Option Nat) (prom : Nat) : Chip :=
      (s.issued .a i rest).upd fun u => promised (u.updEngine e fun g => { g with lastPromise := prom, fifo := g.fifo ++ [{
        id := w.id, frame := t.cur, pc := w.pc, ins := i, src := src, dst := dst, res := res, shape := shape
        ring := ring.map fun r => (r, t.getG r)
        st := .queued, orphan := false, rdone := [], wdone := [], counted := [], buf := [], out := [], ready := false, at_ := none, parked := none, dropped := false
        sent := false, inst := inst, ue := none, issued := s.clk, since := 0 }] }) d prom (some w.id)
    let drawn (c : Chip) : Chip := { c with freeCnt := c.freeCnt + 1 }
    let chan (i : Instr) (ring : Option GReg) (d : SReg) (src dst res shape : Word) (inst : Option Nat) (g : Chip → Chip) : Prop := ∃ prom, s.clk + 4 ≤ prom ∧
      exec i s = .next (s.withChip (drawn (g (pushed i ring .chan d src dst res shape inst prom))))
    let fails (i : Instr) (c : Chip) (cls : Nat) (tval : Word) : Prop := exec i s = .next (s.withChip (c.issueFault w h.sba cls 5 tval))
    -- cpy
    (∀ o : CpyOp, QReady s .a (.cpy h o) .bit0 (cmdRes .chan) w rest →
      let f := cpyFate s.chip t o (t.getS o.a) (t.getS o.b) (t.getS o.d) (t.getS o.c)
      (∀ cls tval, f = some (cls, tval) → fails (.cpy h o) (s.issued .a (.cpy h o) rest) cls tval) ∧
      (f = none → chan (.cpy h o) o.ring o.d (t.getS o.a) (t.getS o.b) (t.getS o.d) (t.getS o.c) none id)) ∧
    -- cpyf
    (∀ o : CpyfOp, QReady s .a (.cpyf h o) .bit0 (cmdRes .chan) w rest →
      let src := t.getS o.a
      let n := (t.getS o.b).toNat
      let k := (t.getS o.c).toNat
      let ok : Prop := 1 ≤ n ∧ n ≤ 16777216 ∧ 1 ≤ k ∧ k ≤ 255
      let fails := fails (.cpyf h o) (s.issued .a (.cpyf h o) rest)
      (¬ok → fails 2 0) ∧ (ok → 2 ^ 48 ≤ src.toNat → fails 7 src) ∧ (ok → src.toNat < 2 ^ 48 → t.chan.disabled = true → fails 28 0) ∧
      (ok → src.toNat < 2 ^ 48 → t.chan.disabled = false →
        chan (.cpyf h o) o.ring o.d src (t.getS o.b) 0 (t.getS o.c) none id)) ∧
    -- cpyq
    (∀ o : RR, QReady s .a (.cpyq h o) .bit0 phaseRes w rest →
      let answers (v : Nat) (cmd : Option Nat) (g : Chip → Chip) : Prop := exec (.cpyq h o) s = .next (s.withChip
        (g ((s.issued .a (.cpyq h o) rest).upd fun u => promised u o.d v cmd)))
      (vget t.binds o.a = none → answers s.clk none id) ∧
      (∀ k, vget t.binds o.a = some k →
        (t.incomplete k = false → answers s.clk (some k) id) ∧
        (t.incomplete k = true → ∃ v, s.clk < v ∧ answers v (some k) drawn))) ∧
    -- unv and patclr
    (∀ (i : Instr) (d a : SReg) (r : Word) (dur : Nat) (ring : Option GReg),
      ((∃ o : UnvOp, i = .unv h o ∧ d = o.d ∧ a = o.a ∧ r = 0 ∧ dur = t.unv.running ∧ ring = o.fl.ring) ∨
        ∃ o : PatclrOp, i = .patclr h o ∧ d = o.d ∧ a = o.a ∧ r = t.getS o.b ∧
          dur = 40 + (((r.toNat / 2 ^ 28 % 128) + 1) * (r.toNat % 2 ^ 14 + 1) + 63) / 64 ∧ ring = o.fl.ring) →
      QReady s .a i .bit0 (cmdRes .unveil) w rest →
      let x := t.getS a
      let fails := fails i (s.issued .a i rest)
      let prom := max (s.clk + 4) t.unv.pending + dur
      (2 ^ 42 ≤ r.toNat → fails 2 0) ∧ (r.toNat < 2 ^ 42 → 2 ^ 48 ≤ x.toNat → fails 7 x) ∧
      (r.toNat < 2 ^ 42 → x.toNat < 2 ^ 48 → t.unv.disabled = true → fails 28 0) ∧
      (r.toNat < 2 ^ 42 → x.toNat < 2 ^ 48 → t.unv.disabled = false →
        exec i s = .next (s.withChip (pushed i ring .unveil d x r 0 0 none prom)))) ∧
    -- cred, cmc and cbar
    (∀ (i : Instr) (d : SReg) (src dst shape : Word) (n : Nat) (reads : Prop) (ring : Option GReg),
      ((∃ o : CredOp, i = .cred h o ∧ d = o.d ∧ src = t.getS o.a ∧ dst = t.getS o.b ∧ shape = t.getS o.c ∧ ring = o.fl.ring ∧ reads = True ∧
          n = (if o.op = .smx then 8 else 0) + 4 * (shape.toNat % 2 ^ 32)) ∨
        (∃ o : CmcOp, i = .cmc h o ∧ d = o.d ∧ src = t.getS o.a ∧ dst = t.getS o.b ∧ shape = t.getS o.c ∧ ring = o.fl.ring ∧
          reads = (∃ g, s.chip.group t.bound.launch (collGrp shape) = some g ∧ s.chip.memberIndex g s.chip.focus = some (collRoot shape)) ∧
          n = shape.toNat % 2 ^ 32) ∨
        (∃ o : CbarOp, i = .cbar h o ∧ d = o.d ∧ src = 0 ∧ dst = 0 ∧ shape = t.getS o.a ∧ ring = o.fl.ring ∧ reads = False ∧ n = 0)) →
      QReady s .a i .bit0 (cmdRes .chan) w rest →
      let k := collGrp shape
      let inst := s.chip.nextInst t (s.chip.group t.bound.launch k) k
      let fails := fails i
      let c := s.issued .a i rest
      let bump (c : Chip) : Chip := c.countInst t.bound.launch k
      (∀ g m, s.chip.group t.bound.launch k = some g → s.chip.memberIndex g s.chip.focus = some m →
        inst = ((g.members[m]?).map Member.issued).getD 0 ∧
        ∃ g', (bump s.chip).group t.bound.launch k = some g' ∧ g'.members[m]? = (g.members[m]?).map fun q => { q with issued := q.issued + 1 }) ∧
      let meets : Prop := reads ∧ src ≠ dst ∧ (Region.mk (.glob src) n).meets (Region.mk (.glob dst) n) = true
      (collBad i shape = true → fails c 2 0) ∧ (collBad i shape = false → meets → fails c 12 0) ∧
      (collBad i shape = false → ¬meets →
        (s.chip.group t.bound.launch k = none → fails c 26 0) ∧
        (∀ g, s.chip.group t.bound.launch k = some g →
          let far : Prop := (∃ o, i = .cmc h o) ∧ g.members.length ≤ collRoot shape
          (s.chip.memberIndex g s.chip.focus = none ∨ far → fails (bump (c.setColl
            { (s.chip.coll g.launch g.grp inst).getD (Coll.dead g.launch g.grp inst) with failed := true })) 26 0) ∧
          (∀ m, s.chip.memberIndex g s.chip.focus = some m → ¬far →
            (t.chan.disabled = true → fails c 28 0) ∧
            (t.chan.disabled = false → chan i ring d src dst 0 shape (some inst) bump)))))

/-- R34–R38, R222, R224, R227–R230, R233, R235, R243–R249, R277, R279–R283, R366, R381: the command at the head of a FIFO starts, acquires, reads and
writes its parts, and leaves when its outputs have been performed or sent; a cpyf gives lines their counts; an Unveil command reads its state block
and computes its outputs: the commits in rank order, their OUT and CLIST entries, the mask bits that they clear, the header, the counters and the
dirty words of the patina; a contribution joins its instance, a later one combined into it by its operation, of a cmc the root's alone. What a cpy
puts at its destination: the bytes, the narrowed elements, the blocks packed or in planes, the residues, the transposed elements, the planes of the
lines, the lines of the planes. How a round's source is read, and when, is log entry 27; that commands' sent writes come late, log entry 43. -/
def Obligations.CommandsRunToCompletion : Prop :=
  (∀ (s : State) (eng : CmdEng) (x : Cmd) (rest : List Cmd), (s.tile.engine eng).fifo = x :: rest →
    let own := s.chip.focus
    -- COMMAND_START
    (x.st = .queued → eng = .chan ∨ s.chip.blockTaken x = false →
      exec (.commandStart eng) s = .next (s.onTile fun t => t.setCmd eng { x with st := .started, since := s.clk })) ∧
    -- COMMAND_ACQUIRE
    (x.st = .started → (cmdFlags x.ins).acq = true → s.tile.cmdOlderOpen x = false → (cmdFlags x.ins).scope ≠ .x ∨ s.tile.unacked = 0 →
      exec (.commandAcquire eng) s = .next (s.onTile fun t => t.setCmd eng { x with st := .acquired })) ∧
    -- COMMAND_ACCESS: a part of a plain cpy's global source in this module's memory
    (∀ (k n k0 : Nat) (off : Nat) (va : Word) (d : Chip) (h : Hdr) (o : CpyOp), eng = .chan →
      s.tile.chan.owes [(⟨0, .glob va, n⟩, [(k0, n)])] = false →
      x.ins = .cpy h o → o.kind = .plain → x.inst = none → x.runs s.tile (false, k) = true → k ∉ x.rdone →
      (srcParts 0 (cpySrc own o x))[k]? = some ⟨off, .glob va, n⟩ → s.chip.checkSpan (.word own x.id) 5 .read va.toNat n = (d, .ok [(k0, n)]) →
      keyRemote k0 = false → s.chip.ueLines = [] → s.chip.blockLost = [] →
      ∃ (c : Chip) (y : Cmd), exec (.commandAccess eng false k) s = .next (s.withChip c) ∧ c.mem = s.chip.mem ∧
        c.tile.chan.fifo = y :: rest ∧ y = { x with rdone := k :: x.rdone, counted := y.counted, buf := y.buf, parked := none, at_ := none } ∧
        (∀ l, l ∈ y.counted ↔ l ∈ x.counted ∨ l ∈ linesOf k0 n) ∧
        (∀ j < n, y.buf.getD (off + j) 0 = s.byteAt (k0 + j)) ∧ (∀ j, j < off ∨ off + n ≤ j → y.buf.getD j 0 = x.buf.getD j 0)) ∧
    -- COMMAND_ACCESS: an output put into global memory of this module, its source read before it; the writes that earlier commands have sent
    -- are numbered before it, and none of them still owes a byte that it writes
    (∀ (k k0 : Nat) (va : Word) (d : Chip) (p : NeedOp), x.inst = none → x.runs s.tile (true, k) = true →
      (s.tile.engine eng).owes [(p.op.piece, [(k0, p.op.data.length)])] = false → p.checks x k = [p.op.piece] →
      k ∉ x.wdone → (cmdOps s.chip x)[k]? = some p → p.canWrite x (cmdParts s.chip x) = true → p.op.place = .glob va → p.op.kind = .put →
      s.chip.checkSpan (.word own x.id) 5 .write va.toNat p.op.data.length = (d, .ok [(k0, p.op.data.length)]) → keyRemote k0 = false →
      s.chip.ueLines = [] → s.memOk →
      ∃ (c : Chip), exec (.commandAccess eng true ((s.tile.engine eng).late.length + k)) s = .next (s.withChip c) ∧
        (c.tile.engine eng).fifo = { x with wdone := k :: x.wdone, parked := none, at_ := none } :: rest ∧
        (∀ j < p.op.data.length, c.mem.get (k0 + j) = p.op.data.getD j 0) ∧
        ∀ y, y < k0 ∨ k0 + p.op.data.length ≤ y → c.mem.get y = s.byteAt y) ∧
    -- COMMAND_COMPLETION: every output performed; with no release and nothing to acknowledge, the command leaves
    (x.dropped = false → cmdKnown s.chip x = true → (∀ k < (cmdOps s.chip x).length, k ∈ x.wdone) →
      x.runs s.tile (true, (cmdOps s.chip x).length) = true → (cmdFlags x.ins).ring = none → x.ring = none → x.ue = none →
      ((cmdFlags x.ins).rel = false ∨ (cmdFlags x.ins).scope ≠ .x ∨ (s.tile.engine eng).unacked = 0) →
      exec (.commandCompletion eng) s = .next (s.onTile fun t =>
        { (t.freeIf x.parked).updEngine eng (fun g => { g with
            fifo := rest
            lastRun := match x.ins with | .unv .. => s.clk - x.since + 1 | _ => g.lastRun }) with quiet := s.clk }))) ∧
  -- CPYF_LINE_FILL
  (∀ (s : State) (x : Cmd) (rest : List Cmd) (h : Hdr) (o : CpyfOp) (l k0 : Nat) (d : Chip), s.tile.chan.fifo = x :: rest → x.ins = .cpyf h o →
    x.runs s.tile (false, x.rdone.length) = true → (linesOf x.src.toNat x.dst.toNat)[x.rdone.length]? = some l →
    s.chip.checkSpan (.word s.chip.focus x.id) 5 .read (l * 128) 128 = (d, .ok [(k0, 128)]) → keyRemote k0 = false → s.chip.ueLines = [] →
    ∃ c, exec .cpyfLineFill s = .next (s.withChip c) ∧ c.mem = s.chip.mem ∧ (k0 / 128, x.shape.toNat) ∈ c.counts ∧ k0 / 128 ∉ c.dirty ∧
      c.tile.chan.fifo = { x with rdone := x.rdone.length :: x.rdone, parked := none, at_ := none } :: rest) ∧
  -- UNVEIL_STATE_BLOCK_READ: a block that passes every check; a round reads its layer table too
  (∀ (s : State) (x : Cmd) (rest : List Cmd) (k0 : Nat) (c1 c2 : Chip) (sp : List (Nat × Nat)), s.tile.unv.fifo = x :: rest → x.sent = false →
    x.runs s.tile (false, 0) = true → s.chip.ueLines = [] → s.chip.blockLost = [] →
    s.chip.checkSpan (.word s.chip.focus x.id) 5 .read x.src.toNat 128 = (c1, .ok [(k0, 128)]) →
    s.tile.unv.owes [(⟨0, .glob x.src, 128⟩, [(k0, 128)])] = false →
    let bs := s.chip.mem.read k0 128
    let u := ublockOf bs
    let passes (c : Chip) (tab : List Byte) : Prop := exec .unveilStateBlockRead s = .next (s.withChip (c.upd fun t =>
      (t.freeIf x.parked).setCmd .unveil { x with sent := true, buf := bs ++ tab, parked := none, at_ := none }))
    ublockFate x bs = none → c1.checkRegions x.id (cmdRegions x u) = (c2, .ok sp) →
      ((∃ h o, x.ins = .patclr h o) → passes c2 []) ∧
      ((∃ h o, x.ins = .unv h o) → u.layers = 0 → passes c2 []) ∧
      ((∃ h o, x.ins = .unv h o) → ∀ (c3 : Chip) (k1 : Nat),
        c2.checkSpan (.word s.chip.focus x.id) 5 .read u.ltab.toNat (4 * u.layers) = (c3, .ok [(k1, 4 * u.layers)]) →
        s.tile.unv.owes [(⟨0, .glob u.ltab, 4 * u.layers⟩, [(k1, 4 * u.layers)])] = false →
        badLayer (s.chip.mem.read k1 (4 * u.layers)) u.layers = none → passes c3 (s.chip.mem.read k1 (4 * u.layers)))) ∧
  -- UNVEIL_ROUND and PATCLR_CLEAR: the outputs from what has been read
  (∀ (s : State) (x : Cmd) (rest : List Cmd), s.tile.unv.fifo = x :: rest → x.sent = true → x.ready = false → x.dropped = false →
    (∀ k < (unveilParts x).length, k ∈ x.rdone) →
    ((∃ h o, x.ins = .unv h o) →
      exec .unveilRound s = .next (s.onTile fun t => t.setCmd .unveil { x with ready := true, out := unveilOuts x.buf })) ∧
    ((∃ h o, x.ins = .patclr h o) →
      exec .patclrClear s = .next (s.onTile fun t => t.setCmd .unveil { x with ready := true, out := patclrOuts x.buf x.dst }) ∧
      ∀ op ∈ patclrOuts x.buf x.dst, op.kind = .clr ∧ op.data.length = 8)) ∧
  -- R241–R245: a round on the stream of its block, table, mask, confidences, candidates and counters: C, the commits in rank order; P, the
  -- patina after them, commit by commit and layer by layer
  (∀ buf : List Byte,
    let u := ublockOf buf
    let num (off n : Nat) : Nat := (ofBytes 64 ((buf.drop off).take n) : Word).toNat
    let conf := 640 + 8 * ((u.n + 63) / 64)
    let masked := (List.range u.n).filter fun p => (num (640 + 8 * (p / 64)) 8).testBit (p % 64)
    let m := masked.length
    let cc := if m = 0 then 0 else max 1 ((u.share * m + 65535) / 65536)
    let key (p : Nat) : Nat := okeyBits .f16 (num (conf + 2 * p) 2)
    let before (p q : Nat) : Prop := key q < key p ∨ (key q = key p ∧ p < q)
    let puts (base : Word) (off n v : Nat) : OutOp := ⟨.glob (base + BitVec.ofNat 64 off), .put, toBytes n (BitVec.ofNat 64 v), 1, 0⟩
    let bit (k : OutKind) (base : Word) (i : Nat) : Prop := ∃ op ∈ unveilOuts buf, op.kind = k ∧ op.place = .glob (base + BitVec.ofNat 64 (8 * (i / 64))) ∧
      op.data.length = 8 ∧ (ofBytes 64 op.data : Word).getLsbD (i % 64) = true
    u.n ≤ 65536 → u.share < 65536 → 2 ≤ u.blog → u.layers ≤ 128 →
    ∃ (C : List Nat) (P : Patina), C.length = cc ∧ (∀ p ∈ C, p ∈ masked) ∧ C.Pairwise before ∧ (∀ p ∈ C, ∀ q ∈ masked, q ∉ C → before p q) ∧
      P = C.foldl (fun p b => (List.range u.layers).foldl (fun p l =>
        p.layer (fun k => num (conf + 6 * u.n + 2 * k) 2) u.nb l (num (128 + 4 * l) 4 / 2 ^ 16 % 2 ^ 8) (num (128 + 4 * l) 4 % 2 ^ 16) (b / 2 ^ u.blog)) p)
        ⟨[], [], []⟩ ∧
      (∀ j p, C[j]? = some p → puts u.out (4 * p) 4 (num (conf + 2 * u.n + 4 * p) 4) ∈ unveilOuts buf ∧ puts u.clist (8 + 4 * j) 4 p ∈ unveilOuts buf) ∧
      puts u.clist 0 8 ((m - cc) * 2 ^ 32 + cc) ∈ unveilOuts buf ∧ (∀ x ∈ P.cnt, puts u.pcnt (2 * x.1) 2 x.2 ∈ unveilOuts buf) ∧
      (∀ i < 65536, bit .clr u.mask i ↔ i ∈ C) ∧
      (∀ l < u.layers, ∀ b < u.nb, bit .set u.dirty (64 * u.dw * l + b) ↔ (l, b) ∈ P.dirty) ∧
      (unveilOuts buf).length = 2 * cc + 1 + P.cnt.length + ((unveilOuts buf).countP fun op => decide (op.kind = .clr)) +
        (unveilOuts buf).countP fun op => decide (op.kind = .set)) ∧
  (∀ (p : Patina) (base : Nat → Nat) (nb l r theta b : Nat), b < nb →
    let q := p.layer base nb l r theta b
    let near (k : Nat) : Prop := k ≠ b ∧ k < nb ∧ b ≤ k + r ∧ k ≤ b + r
    let next (k : Nat) : Nat := min (p.getCnt base (l * nb + k) + 1) 65535
    q.getCnt base (l * nb + b) = 0 ∧ (∀ k, near k → q.getCnt base (l * nb + k) = if theta ≤ next k then 0 else next k) ∧
    (∀ x, (∀ k, x = l * nb + k → k ≠ b ∧ ¬near k) → q.getCnt base x = p.getCnt base x) ∧
    ∀ l' k, (l', k) ∈ q.dirty ↔ (l', k) ∈ p.dirty ∨ (l' = l ∧ (k = b ∨ (near k ∧ theta ≤ next k)))) ∧
  -- R222: what a cpy that passes its checks puts at its destination and as its residue
  (∀ (own : TileId) (o : CpyOp) (x : Cmd) (src dst res : Nat), cpySizes o.kind x.shape = some (src, dst, res) →
    let n := (x.shape.extractLsb' 0 32).toNat
    let rows := (x.shape.extractLsb' 32 16).toNat
    let place (a : Word) : Place := CpyArg.place own ⟨o.dsp, a, 0, true, 0⟩
    let covers (ops : List NeedOp) (p : Place) (bs : List Byte) : Prop :=
      (∀ q ∈ ops, ∃ d, q.op.kind = .put ∧ q.op.place = p.add d ∧ d + q.op.data.length ≤ bs.length ∧
        ∀ j < q.op.data.length, q.op.data.getD j 0 = bs.getD (d + j) 0) ∧
      ∀ b < bs.length, ∃ q ∈ ops, ∃ d, q.op.place = p.add d ∧ d ≤ b ∧ b < d + q.op.data.length
    let word (bs : List Byte) (off n : Nat) : Nat := (ofBytes 64 ((bs.drop off).take n) : Word).toNat
    let f32 (k : Nat) : FVal := fmtF32.val false (word x.buf (4 * k) 4)
    let rnd : Rnd := match (x.shape.extractLsb' 51 2).toNat with
      | 0 => .rne
      | 1 => .rtz
      | 2 => .rdn
      | _ => .rup
    let nf := (x.shape.extractLsb' 54 2).toNat
    let g := if nf = 1 then fmtF16 else fmtBf16
    let block (c : Nat) : MxBlock := quantiseMx 8 ((List.range 32).map fun j => f32 (32 * c + j))
    -- element k narrowed, as a value
    let narrow (k : Nat) : FVal := if nf = 2 then
        (let b := block (k / 32)
          if b.scale = 255 then .nan false else .fin (decide (b.codes.getD (k % 32) 0 < 0)) (b.codes.getD (k % 32) 0).natAbs (b.scale - 133))
      else g.val false (g.finish ⟨rnd, x.shape.getLsbD 50, false⟩ (f32 k)).bits
    x.buf.length ≤ src →
    (o.kind = .plain → ∃ bs, covers (cpyOps own o x) (place x.dst) bs ∧ bs.length = n ∧ ∀ j < n, bs.getD j 0 = x.buf.getD j 0) ∧
    (o.kind = .cvt ∨ o.kind = .ef → ∃ l r bs, cpyOps own o x = l ++ r ∧ covers l (place x.dst) bs ∧ (o.kind = .cvt → r = []) ∧
      (nf ≠ 2 → bs.length = 2 * n ∧ ∀ k < n, word bs (2 * k) 2 = (g.finish ⟨rnd, x.shape.getLsbD 50, false⟩ (f32 k)).bits) ∧
      (nf = 2 → bs.length = 33 * (n / 32) ∧ ∀ c < n / 32,
        (o.dsp = false → (∀ j < 32, bs.getD (33 * c + j) 0 = BitVec.ofInt 8 ((block c).codes.getD j 0)) ∧
          bs.getD (33 * c + 32) 0 = BitVec.ofNat 8 (block c).scale) ∧
        (o.dsp = true → (∀ k < 4, ∀ j < 32, ∀ i < 2, (word bs (8 * (n / 32) * k + 8 * c) 8).testBit (2 * j + i) =
            (BitVec.ofInt 8 ((block c).codes.getD j 0)).getLsbD (2 * k + i)) ∧
          bs.getD (n + c) 0 = BitVec.ofNat 8 (block c).scale)) ∧
      (o.kind = .ef → ∃ zs, covers r (place x.res) zs ∧ zs.length = 2 * n ∧ ∀ k < n,
        let z := word zs (2 * k) 2
        let rf := if x.shape.getLsbD 53 then fmtF16 else fmtBf16
        ((f32 k).isNan = true ∨ (narrow k).isNan = true → z = rf.nan) ∧
        (∀ s, f32 k = .inf s → narrow k = .inf s → z = 0) ∧
        (∀ s a p e, f32 k = .fin a p e → narrow k = .inf s → z = rf.inf (!s)) ∧ (∀ s a p e, f32 k = .inf s → narrow k = .fin a p e → z = rf.inf s) ∧
        (∀ a p e b q h d, f32 k = .fin a p e → narrow k = .fin b q h → d ≤ e → d ≤ h →
          let S : Int := (if a then -1 else 1) * (p * 2 ^ (e - d).toNat) - (if b then -1 else 1) * (q * 2 ^ (h - d).toNat)
          (S = 0 → z = if rnd = .rdn then 2 ^ 15 else 0) ∧
          (S ≠ 0 → ∃ fl, rf.Rounds ⟨rnd, false, false⟩ (decide (S < 0)) (S.natAbs * 2 ^ d.toNat) (2 ^ (-d).toNat) ⟨z, fl⟩)))) ∧
    (o.kind = .tps → ∃ bs, covers (cpyOps own o x) (place x.dst) bs ∧ bs.length = src ∧ ∀ r < rows, ∀ q < n,
      let es := 2 ^ (x.shape.extractLsb' 53 2).toNat
      ∀ j < es, bs.getD ((q * rows + r) * es + j) 0 = x.buf.getD ((r * n + q) * es + j) 0) ∧
    (let d := descOf x.shape
      let cap := 960 / d.w
      let row := (d.n + 1023) / 1024 * 128
      (o.kind = .pln → ∃ bs, covers (cpyOps own o x) (place x.dst) bs ∧ bs.length = d.w * row ∧ ∀ p < d.w, ∀ e < row * 8,
        (bs.getD (p * row + e / 8) 0).getLsbD (e % 8) =
          (decide (e < d.n) && (ofBytes 960 (((x.buf.drop (128 * (e / cap))).take 128).drop 8)).getLsbD (d.w * (e % cap) + p))) ∧
      (o.kind = .pak → covers (cpyOps own o x) (place x.dst) ((List.range ((d.n + cap - 1) / cap)).flatMap fun l =>
        codedLine l d.n d.w d.cbid.toNat d.etag.toNat fun e => planeIndex (fun k => x.buf.getD k 0) ((d.n + 1023) / 1024) d.w e)))) ∧
  -- R36–R39: a coded line; an index of planes held as bytes
  (∀ (l n w cbid tag : Nat) (idx : Nat → Nat), w ∈ [1, 2, 3, 4, 5, 6, 8] → l * (960 / w) < n → cbid < 16 → tag < 256 →
    let bs := codedLine l n w cbid tag idx
    let cap := 960 / w
    let count := min cap (n - l * cap)
    bs.length = 128 ∧ (ofBytes 64 (bs.take 8) : Word).toNat = tag + cbid * 2 ^ 8 + w * 2 ^ 12 + count * 2 ^ 16 +
      (if n ≤ (l + 1) * cap then 2 ^ 26 else 0) + (if l = 0 then 2 ^ 27 else 0) + (crc8 (bs.drop 8)).toNat * 2 ^ 32 ∧
    ∀ i < cap, (ofBytes 960 (bs.drop 8) : BitVec 960).toNat / 2 ^ (w * i) % 2 ^ w = if i < count then idx (l * cap + i) % 2 ^ w else 0) ∧
  (∀ (bs : Nat → Byte) (rows w e : Nat), planeIndex bs rows w e < 2 ^ w ∧
    ∀ p < w, (planeIndex bs rows w e).testBit p = (bs ((p * rows + e / 1024) * 128 + e % 1024 / 8)).getLsbD (e % 8)) ∧
  crc8 ("123456789".toUTF8.toList.map fun b => BitVec.ofNat 8 b.toNat) = 0xF4 ∧
  -- R35
  (∀ (w : Nat) (xs : List FVal), w ∈ [4, 6, 8] →
    let b := quantiseMx w xs
    let lim : Int := 2 ^ (w - 1) - 1
    ((∃ x ∈ xs, x.isNan = true ∨ x.isInf = true) → b.codes = List.replicate xs.length 0 ∧ b.scale = 255) ∧
    ((∀ x ∈ xs, x.isZero = true) → b.codes = List.replicate xs.length 0 ∧ b.scale = 0) ∧
    (∀ X : Int, (∀ x ∈ xs, ∃ (n : Bool) (m : Nat) (k : Int), x = .fin n m k ∧ m * 2 ^ (k - X - 1).toNat < 2 ^ (X + 1 - k).toNat) →
      (∃ (n : Bool) (m : Nat) (k : Int), FVal.fin n m k ∈ xs ∧ 2 ^ (X - k).toNat ≤ m * 2 ^ (k - X).toNat) →
      b.scale = (max (X + 127) 0).toNat ∧ b.codes.length = xs.length ∧ ∀ (j : Nat) (n : Bool) (m : Nat) (k : Int), xs[j]? = some (.fin n m k) →
        let E : Int := k + w - 2 + 127 - b.scale
        ∃ q : Nat, roundedTo .rne false (m * 2 ^ E.toNat) (2 ^ (-E).toNat) 0 q false ∧
          b.codes[j]? = some (max (-lim) (min lim (if n then -(q : Int) else q))))) ∧
  -- CONTRIBUTION_ARRIVAL: from the tile in focus, and from a member of another module
  (∀ (s : State) (x : Cmd) (rest : List Cmd) (g : Group) (k inst : Nat), s.tile.chan.fifo = x :: rest → s.chip.collOf x = some (g, inst) →
    x.inst = some inst → s.chip.memberIndex g s.chip.focus = some k → x.sent = false →
    let parts := srcParts 0 (collSrc s.chip x)
    x.runs s.tile (false, parts.length) = true → (∀ j < parts.length, j ∈ x.rdone) →
    exec (.contributionArrival none) s = .next (s.withChip (((s.chip.upd fun t => t.setCmd .chan { x with sent := true }).checkLost g inst).contribute g inst k
      (collKind x.ins).1 (collKind x.ins).2 (collCount x.shape) (collRoot x.shape)
      (if parts = [] then [] else streamWords x.buf (collBytes x.ins x.shape))))) ∧
  (∀ (s : State) (m : Contribution) (g : Group) (q : Member), s.chip.group s.tile.bound.launch m.group = some g →
    g.members[m.index]? = some q → q.module ≠ s.chip.member →
    (s.chip.refLost = true ∨ q.halted = true → exec (.contributionArrival (some m)) s = .next s) ∧
    (s.chip.refLost = false → q.halted = false → exec (.contributionArrival (some m)) s = .next (s.withChip
      (s.chip.contribute g m.inst m.index m.kind m.op m.count m.root m.data)))) ∧
  -- R284, R366, R381: an instance fails for a member that is lost, or that has halted before it arrived
  (∀ (c : Chip) (g : Group) (inst : Nat),
    let here := ((c.coll g.launch g.grp inst).map Coll.arrived).getD []
    let bad : Prop := ∃ m ∈ g.members.zipIdx, c.memberLost m.1 = true ∨ (m.1.halted = true ∧ m.2 ∉ here)
    (¬bad → c.checkLost g inst = c) ∧
    (bad → ∃ z, (c.checkLost g inst).coll g.launch g.grp inst = some z ∧ z.failed = true) ∧
    ∀ m : Member, c.memberLost m = true ↔ c.refLost = true ∨
      (m.module = c.member ∧ ∃ n, m.tile = some n ∧ (c.tileAt n).fence.fenced = true ∧ m.halted = false) ∨
      (m.module ≠ c.member ∧ (c.die (tileDie c.focus)).domain.getLsbD m.module.toNat = false)) ∧
  -- R279, R42: the first contribution opens the instance, a NaN that stands alone in it canonical; a later one of the same shape is combined
  -- into it, each index once
  (∀ (c : Chip) (g : Group) (inst k : Nat) (op : BitVec 3) (n root : Nat) (data : List (BitVec 32)),
    (c.coll g.launch g.grp inst = none → (c.contribute g inst k 0 op n root data).coll g.launch g.grp inst =
      some ⟨g.launch, g.grp, inst, [k], 0, op, n, root,
        if op = 1 then data else data.map fun x => if 0x7F800000 < x.toNat % 2 ^ 31 then 0x7FC00000#32 else x, false⟩) ∧
    (∀ y : Coll, c.coll g.launch g.grp inst = some y → k ∈ y.arrived → c.contribute g inst k 0 op n root data = c) ∧
    (∀ y : Coll, c.coll g.launch g.grp inst = some y → k ∉ y.arrived → y.failed = false → y.kind = 0 → y.op = op → y.count = n → y.root = root →
      ∃ z, (c.contribute g inst k 0 op n root data).coll g.launch g.grp inst = some z ∧ z.arrived = k :: y.arrived ∧ z.failed = false ∧
        (op = 1 → ∀ j < min y.data.length data.length, z.data.getD j 0 = y.data.getD j 0 + data.getD j 0) ∧
        (op = 0 → ∀ j < min y.data.length data.length, z.data.getD j 0 =
          BitVec.ofNat 32 (fmtF32.add ⟨.rne, false, false⟩ (fmtF32.val false (y.data.getD j 0).toNat) (fmtF32.val false (data.getD j 0).toNat)).bits) ∧
        (op = 2 ∨ op = 3 → ∀ j < min y.data.length data.length, z.data.getD j 0 =
          BitVec.ofNat 32 (fmtF32.minMax (decide (op = 2)) false (y.data.getD j 0).toNat (data.getD j 0).toNat).bits) ∧
        -- R280: triples m, s, v of one length; of two zeros m has the first's sign (log entry 83)
        (op = 4 → ∀ (m1 m2 : BitVec 32) (u v : List (BitVec 32)), y.data = m1 :: u → data = m2 :: v → u.length = v.length →
          let val (b : BitVec 32) : FVal := fmtF32.val false b.toNat
          let rne : FMode := ⟨.rne, false, false⟩
          let m := if (val m1).lt (val m2) then m2 else m1
          let factor (a : FVal) : FVal :=
            if (a.lt (val m)) = false then .fin false 1 0
            else if a = .inf true then .fin false 0 0
            else fmtF32.val false (fmtF32.exp2 rne (fmtF32.val false (fmtF32.add rne a (val m).negate).bits)).bits
          let term (a f : FVal) : FVal := match a, f with
            | .fin n p e, .fin k q h => .fin (n != k) (p * q) (e + h)
            | a, _ => a
          (((val m1).isNan = true ∨ (val m2).isNan = true) → z.data = List.replicate (u.length + 1) 0x7FC00000) ∧
          ((val m1).isNan = false → (val m2).isNan = false → val m = .inf true → z.data = 0xFF800000 :: List.replicate u.length 0) ∧
          ((val m1).isNan = false → (val m2).isNan = false → val m ≠ .inf true → z.data.length = u.length + 1 ∧ z.data.head? = some m ∧
            ∀ j < u.length,
              let f1 := factor (val m1)
              let f2 := factor (val m2)
              let a := term (val (u.getD j 0)) f1
              let b := term (val (v.getD j 0)) f2
              z.data.getD (j + 1) 0 = BitVec.ofNat 32 (if f2.isZero then fmtF32.finish rne a else if f1.isZero then fmtF32.finish rne b
                else fmtF32.add rne a b).bits)))) ∧
  -- R281: of a cmc the root's data stands, whenever it arrives; a root that is no member fails it
  (∀ (c : Chip) (g : Group) (inst k n root : Nat) (data : List (BitVec 32)),
    (c.coll g.launch g.grp inst = none → (c.contribute g inst k 1 0 n root data).coll g.launch g.grp inst =
      some ⟨g.launch, g.grp, inst, [k], 1, 0, n, root, data, decide (g.members.length ≤ root)⟩) ∧
    (∀ y : Coll, c.coll g.launch g.grp inst = some y → k ∉ y.arrived → y.failed = false → y.kind = 1 → y.op = 0 → y.count = n → y.root = root →
      (c.contribute g inst k 1 0 n root data).coll g.launch g.grp inst =
        some { y with arrived := k :: y.arrived, data := if k = root then data else y.data }))


/-! ## The machine performs accesses (R110–R125, R255, R314–R345) -/

/-- R102, R107, R110–R112, R114, R115, R117–R122, R125, R123, R212–R214, R255, R257, R314–R316, R337, R344: an access is performed exactly where its
strand's accesses may be, it is the oldest of its class in its FIFO, no mark or fence and no atomic with .acq is before it, and, if it
releases, nothing older is unperformed; else the steps leave the state. An address is checked in the order of R117: class 7 from 2^48 up, its
translation, the region, the permissions. A unit of an access that passes its checks reads or writes exactly its bytes; the units that a contiguous word has in one line are performed in one step; one that fails a check parks in the lowest free
replay entry; an atomic writes what its operation gives over the old value; a unit in another member's memory is performed by its own step
alone; an answer writes its registers and its tag; counts, evictions, walks and recoveries change no byte but those of a lost block. Which parts
of a word a step performs is log entry 23; that a cached translation is used while it stands, log entry 24; which store an acknowledgement counts
for, log entry 28; that every eviction ends a count, log entry 38; which of two failing parts
of an element is reported, log entry 59. -/
def Obligations.MemoryStepsPerformAccesses : Prop :=
  -- R110, R114, R115, R257, R349
  (∀ (s : State) (fr : FrameSel) (q : Fifo) (k : Nat) (a : Access), ((s.tile.frameOf fr).fifo q)[k]? = some a →
    let t := s.tile
    let f := t.frameOf fr
    let ord : Instr → Sys2Proof.Ord × Scope
      | .atom _ o => (o.ord, o.scope)
      | .acas _ o => (o.ord, o.scope)
      | .red _ o => (o.ord, o.scope)
      | _ => (.none, .p)
    let acq (i : Instr) : Prop := (ord i).1 = .acq ∨ (ord i).1 = .ar
    let rel (i : Instr) : Prop := (ord i).1 = .rel ∨ (ord i).1 = .ar
    let older (w : QWord) : Prop := w.id < a.w.id
    (t.canPerform fr q k a = false → exec (.tileOperationPerform fr q k) s = .next s ∧ ∀ e, exec (.accessPerform fr q k e) s = .next s ∧
      exec (.remoteRequest fr q k e) s = .next s ∧ (q = .s → exec (.atomicStep fr k e) s = .next s)) ∧
    (t.canPerform fr q k a = true ↔
      t.fence.fenced = false ∧ (t.st = .running ∨ t.st = .halting ∨ t.st = .preempting) ∧ a.cls ≠ .order ∧
      (∀ b ∈ (f.fifo q).take k, b.cls ≠ a.cls ∧ b.cls ≠ .order) ∧ (a.cls = .ring → (f.fifo q).take k = []) ∧
      (∀ b ∈ f.sf, older b.w → ¬acq b.w.ins) ∧ (∀ w ∈ f.s, older w → ¬acq w.ins) ∧
      (rel a.w.ins → (∀ b ∈ f.lf ++ f.sf, ¬older b.w) ∧ (∀ w ∈ f.l ++ f.s, ¬older w) ∧
        (∀ w ∈ f.c, older w → ∀ h o, w.ins ≠ .cbld h o ∧ w.ins ≠ .cbst h o) ∧ ((ord a.w.ins).2 = .x → t.unacked = 0)))) ∧
  -- R98, R117, R314–R316: nodes 0 to level, the entries on the way, and what the last of them gives
  (∀ (c : Chip) (who : Waiter) (eng : Nat) (kind : AccKind) (va n : Nat),
    let gets (r : Res) : Prop := ∃ d, c.checkPage who eng kind va n = (d, r) ∧ d.mem = c.mem
    let root := (c.tileAt who.tile).sys.troot
    let tlb := (c.die (tileDie who.tile)).tlb
    let hits (e : Tlb) : Prop := (e.asid = none ∨ e.asid = some (root.extractLsb' 48 12)) ∧
      va / 2 ^ (43 - 9 * e.level) = e.base / 2 ^ (43 - 9 * e.level)
    -- a leaf of some level: the region, the permissions, the way to the member
    let checked (level : Nat) (p : Word) : Prop :=
      let pa : BitVec 56 := p.extractLsb' 12 44 ++ 0#12 + BitVec.ofNat 56 (va % 2 ^ (43 - 9 * level))
      let off := pa.toNat % 2 ^ 48
      let allowed : Bool := match kind with
        | .read => p.getLsbD 2
        | .write => p.getLsbD 3
        | .atomic => p.getLsbD 2 && p.getLsbD 3
        | .fetch => p.getLsbD 4
      let stuck := (linesOf (c.key pa) n).filter fun l => c.ueBlocks.contains (l / 8)
      (0xFF0000000000 ≤ off → off < 0xFF0100000000 → gets (.bad 3 va)) ∧
      (640 * 2 ^ 30 ≤ off → off < 0xFF0000000000 ∨ 0xFF0100000000 ≤ off → gets (.bad 7 va)) ∧
      (off < 640 * 2 ^ 30 → (allowed = false → gets (.bad 7 va)) ∧
        (allowed = true → (c.reaches (tileDie who.tile) pa = false → gets .absent) ∧
          (c.reaches (tileDie who.tile) pa = true → gets (if stuck = [] then .ok [(c.key pa, n)] else .busy (stuck.map fun l => (l, 19))))))
    (2 ^ 48 ≤ va → c.checkPage who eng kind va n = (c, .bad 7 va)) ∧
    (∀ e, va < 2 ^ 48 → 1 ≤ e.level → e.level ≤ 3 → (∃ before after, tlb = before ++ e :: after ∧ ∀ x ∈ before, 1 ≤ x.level ∧ x.level ≤ 3 ∧ ¬hits x) →
      hits e → checked e.level e.pte) ∧
    (∀ (node : Nat → BitVec 56) (level : Nat), va < 2 ^ 48 → level < 4 → (∀ e ∈ tlb, 1 ≤ e.level ∧ e.level ≤ 3 ∧ ¬hits e) →
      let at_ (l : Nat) : Nat := (node l).toNat % 2 ^ 48 + 8 * (va / 2 ^ (43 - 9 * l) % (if l = 0 then 32 else 512))
      let p (l : Nat) : Word := ofBytes 64 (c.mem.read (at_ l) 8)
      let inHbm (l : Nat) : Prop := (node l).toNat / 2 ^ 48 = c.member.toNat ∧ (node l).toNat % 2 ^ 48 < 640 * 2 ^ 30
      let held (l : Nat) : Prop := at_ l / 1024 ∈ c.ueBlocks
      let lost (l : Nat) : Prop := at_ l / 128 ∈ c.ueLines ∨ (at_ l / 128, who) ∈ c.blockLost
      let leaf (l : Nat) : Prop := (p l).getLsbD 1 = true
      let absent (l : Nat) : Prop := (p l).getLsbD 0 = false ∨ (p l).toNat / 2 ^ 56 ≠ 0 ∨ (p l).toNat / 2 ^ 8 % 16 ≠ 0 ∨ (p l).getLsbD 5 = true ∨
        ((p l).getLsbD 6 = true ∧ ¬leaf l) ∨ (leaf l ∧ l = 0) ∨ (¬leaf l ∧ l = 3) ∨ (leaf l ∧ (p l).toNat / 2 ^ 12 % 2 ^ (31 - 9 * l) ≠ 0)
      node 0 = root.extractLsb' 0 44 ++ 0#12 →
      (∀ l < level, inHbm l ∧ ¬held l ∧ ¬lost l ∧ ¬absent l ∧ ¬leaf l ∧ node (l + 1) = (p l).extractLsb' 12 44 ++ 0#12) →
      (¬inHbm level → gets (.bad 7 va)) ∧
      (inHbm level → (held level → gets (.busy [(at_ level / 128, 8)])) ∧
        (¬held level → (lost level → gets (.bad 8 va)) ∧
          (¬lost level → (absent level → gets (.bad 6 va)) ∧
            (¬absent level → leaf level →
              let foreign : Prop := (p level).getLsbD 6 = true ∧ (p level).extractLsb' 48 8 ≠ c.member
              (foreign → gets (.bad 7 va)) ∧ (¬foreign → checked level (p level))))))) ∧
    -- bytes of one page, and of two: a fault of the first comes first (log entry 59)
    (0 < n → va % 65536 + n ≤ 65536 → c.checkSpan who eng kind va n = c.checkPage who eng kind va n) ∧
    (∀ m d r, 0 < m → m ≤ 65536 → (va + n) % 65536 = 0 → 0 < n → n ≤ 65536 → c.checkPage who eng kind va n = (d, r) →
      c.checkSpan who eng kind va (n + m) = match r with
        | .bad cls x => (d, .bad cls x)
        | r => ((d.checkPage who eng kind (va + n) m).1, r.and (d.checkPage who eng kind (va + n) m).2))) ∧
  (∀ (s : State) (fr : FrameSel) (q : Fifo) (k e j : Nat) (l : Option Nat) (a : Access) (u : MUnit) (i : Instr),
    let own := s.chip.focus
    let eng := instrEng i
    a.w.what = .ok i → ((s.tile.frameOf fr).fifo q)[k]? = some a → s.tile.canPerform fr q k a = true → a.cls ≠ .ring →
    (if oneStep i then j = e else a.parts[e]? = some ([j], l)) → a.units[j]? = some u → u.left = [] → s.tile.unitReady own q a j u = true →
    s.memOk → s.chip.ueLines = [] → s.tile.sramUe = [] →
    let left (c : Chip) : Prop := a.units = [u] → List.Sublist ((c.tile.frameOf fr).fifo q) (dropAt ((s.tile.frameOf fr).fifo q) k)
    let same (c : Chip) : Prop := ∀ x, c.mem.get x = s.byteAt x
    let answered (c : Chip) (f : List Byte → Prop) : Prop := a.units = [u] → ∃ b, (c.tile.frameOf fr).ans = (s.tile.frameOf fr).ans ++ [b] ∧ b.w = a.w ∧ f b.got
    let outside (ps : List (Piece × List (Nat × Nat))) (x : Nat) : Prop := ∀ p ∈ ps, ∀ r ∈ p.2, x < r.1 ∨ r.1 + r.2 ≤ x
    -- a plain store of one piece of global memory, of this module or, by REMOTE_REQUEST alone, of another
    (∀ (at_ n k0 : Nat) (va : Word) (d : Chip), q = .s → (match i with
        | .stb .. | .sth .. | .stw .. | .std .. | .stv .. | .stvs .. | .stg .. | .stmx .. => True
        | _ => False) →
      u.pieces = [⟨at_, .glob va, n⟩] → at_ + n ≤ a.data.length → s.chip.checkSpan (.word own a.w.id) eng .write va.toNat n = (d, .ok [(k0, n)]) →
      let wrote (c : Chip) : Prop := (∀ j < n, c.mem.get (k0 + j) = a.data.getD (at_ + j) 0) ∧
        (∀ x, x < k0 ∨ k0 + n ≤ x → c.mem.get x = s.byteAt x) ∧ c.host = s.chip.host ∧ left c
      (keyRemote k0 = false → (∃ c, exec (.accessPerform fr q k e) s = .next (s.withChip c) ∧ wrote c ∧ ∀ l ∈ linesOf k0 n, l ∈ c.dirty) ∧
        exec (.remoteRequest fr q k e) s = .next s) ∧
      (keyRemote k0 = true → (∃ c, exec (.remoteRequest fr q k e) s = .next (s.withChip c) ∧ wrote c ∧ c.tile.unacked = s.tile.unacked + 1) ∧
        exec (.accessPerform fr q k e) s = .next s)) ∧
    -- a plain store to a buffer
    (∀ (at_ n off : Nat) (m : TileId) (b : Buf), q = .s → (match i with
        | .stb .. | .sth .. | .stw .. | .std .. | .sts .. | .stss .. | .stg .. => True
        | _ => False) →
      u.pieces = [⟨at_, .buf m b off, n⟩] → at_ + n ≤ a.data.length → (s.chip.tileAt m).fence.fenced = false ∨ m = own →
      (s.chip.tileAt m).sramUe = [] → ((s.chip.tileAt m).bufs.get b).wf = true →
      ∃ c, exec (.accessPerform fr q k e) s = .next (s.withChip c) ∧ same c ∧ left c ∧
        (∀ j < n, ((c.tileAt m).bufs.get b).get (off + j) = a.data.getD (at_ + j) 0) ∧
        ∀ x, x < off ∨ off + n ≤ x → ((c.tileAt m).bufs.get b).get x = ((s.chip.tileAt m).bufs.get b).get x) ∧
    -- a plain load of one piece of this module's memory
    (∀ (at_ n k0 : Nat) (va : Word) (d : Chip), q = .l → (match i with
        | .ldb .. | .ldh .. | .ldw .. | .ldd .. | .ldv .. | .ldvs .. | .ldg .. | .ldmx .. => True
        | _ => False) →
      u.pieces = [⟨at_, .glob va, n⟩] → at_ + n ≤ a.got.length → s.chip.checkSpan (.word own a.w.id) eng .read va.toNat n = (d, .ok [(k0, n)]) →
      keyRemote k0 = false → ∃ c, exec (.accessPerform fr q k e) s = .next (s.withChip c) ∧ same c ∧ left c ∧
        answered c fun got => ∀ j < n, got.getD (at_ + j) 0 = s.byteAt (k0 + j)) ∧
    -- a unit of the user frame that fails a check of R117 parks
    (∀ (cls va : Nat) (d : Chip) (n : BitVec 5), fr = .user → perfKind i = .plain → (∀ h o, i ≠ .kvlook h o) →
      s.chip.resolvePieces (.word own a.w.id) eng (accKind i q) u.pieces = (d, .bad cls va) → u.st = .todo → s.tile.freeEntry = some n →
      ∃ (c : Chip) (dlv : Bool), exec (.accessPerform fr q k e) s = .next (s.withChip c) ∧ same c ∧
        vget c.tile.replay n = some { newEntry i cls 0 u.no (BitVec.ofNat 64 va) a.w.pc (.access q a.w.id u.no) with dlv := dlv } ∧
        (∀ m, m ≠ n → vget c.tile.replay m = vget s.tile.replay m) ∧
        ((c.tile.frameOf .user).fifo q)[k]? = some (a.setUnit j { u with st := .parked n })) ∧
    -- an atomic of one element
    (∀ (n k0 : Nat) (va : Word) (d : Chip) (f : Nat → Nat), q = .s →
      let x := (ofBytes 64 (a.data.take n) : Word).toNat
      let y := (ofBytes 64 ((a.data.drop 8).take n) : Word).toNat
      let old := (ofBytes 64 (s.chip.mem.read k0 n) : Word).toNat
      ((∃ h o, i = .atom h o ∧ f = fun v => atomOp o.op (8 * n) v x) ∨ ∃ h o, i = .acas h o ∧ f = fun v => if v = x then y else v) →
      u.pieces = [⟨0, .glob va, n⟩] → n = 4 ∨ n = 8 → s.chip.checkSpan (.word own a.w.id) eng .atomic va.toNat n = (d, .ok [(k0, n)]) →
      keyRemote k0 = false → ∃ c, exec (.atomicStep fr k e) s = .next (s.withChip c) ∧ left c ∧
        c.mem.read k0 n = toBytes n (BitVec.ofNat 64 (f old)) ∧ (∀ x, x < k0 ∨ k0 + n ≤ x → c.mem.get x = s.byteAt x) ∧
        answered c fun got => got = toBytes 8 (BitVec.ofNat 64 old)) ∧
    -- a tile operation whose pages are all in this module is performed whole in one step
    (∀ (ps : List (Piece × List (Nat × Nat))) (d : Chip), e = 0 → perfKind i = .tile →
      s.chip.resolvePieces (.word own a.w.id) eng (accKind i q) u.pieces = (d, .ok ps) → anyRemote ps = false →
      ∃ c, exec (.tileOperationPerform fr q k) s = .next (s.withChip c) ∧ left c ∧ (q = .l → same c) ∧
        ∀ x, outside ps x → c.mem.get x = s.byteAt x)) ∧
  -- ACCESS_PERFORM on the part of a contiguous store that lies in one line of this module's memory: every unit in it, in one step
  (∀ (s : State) (fr : FrameSel) (k e : Nat) (a : Access) (us : List Nat) (l : Nat) (d : Chip) (ps : List (Piece × List (Nat × Nat))),
    joins a.w.ins = true → a.cls = .g → ((s.tile.frameOf fr).fifo .s)[k]? = some a → s.tile.canPerform fr .s k a = true →
    a.parts[e]? = some (us, some l) → s.chip.ueLines = [] → s.tile.sramUe = [] → s.memOk →
    -- every unit of the part has passed its checks before, or passes them now
    us.foldl (Chip.checkUnit fr .s k a.w.id) (s.chip, false) = (d, false) → d.tile.canPerform fr .s k a = true →
    (∃ b, ((d.tile.frameOf fr).fifo .s)[k]? = some b ∧ b.w = a.w ∧ b.data = a.data ∧
      ps = (us.flatMap fun i => ((b.units[i]?).map MUnit.left).getD []).filter fun p => p.1.line == some l) → ps ≠ [] → anyRemote ps = false →
    ∃ c, exec (.accessPerform fr .s k e) s = .next (s.withChip c) ∧ c.mem = (d.writePieces ps a.data).mem ∧
      ∀ x, (∀ p ∈ ps, ∀ r ∈ p.2, x < r.1 ∨ r.1 + r.2 ≤ x) → c.mem.get x = s.byteAt x) ∧
  -- ACCESS_RESPONSE
  (∀ (s : State) (k j : Nat) (fr : FrameSel) (a : Access), s.tile.answerAt k = some (fr, j, a) → s.tile.performs = true →
    s.tile.lateFor s.clk (resultRefs (a.result s.tile fr s.clk)) = false → a.ue = none →
    a.refused = none → (∀ u ∈ a.units, u.st ≠ .refused) →
    let writes (i : Instr) (sba : BitVec 3) (ws : List RegWrite) : Prop := a.w.what = .ok i →
      exec (.accessResponse k) s = .next (s.onTile fun t =>
        ({ t.updFrameOf fr fun f => { f with ans := dropAt f.ans j } with quiet := if isLoad i then s.clk else t.quiet } : Tile).land s.clk
          { id := a.w.id, frame := fr, pc := a.w.pc, due := s.clk, writes := ws, flags := 0, tag := sba, ue := none, cause := none, snap := false })
    let x (n : Nat) : BitVec (8 * n) := ofBytes (8 * n) (a.got.take n)
    (∀ h o, writes (.ldb h o) h.sba [.s o.d (if o.sx then (x 1).signExtend 64 else (x 1).setWidth 64)]) ∧
    (∀ h o, writes (.ldh h o) h.sba [.s o.d (if o.sx then (x 2).signExtend 64 else (x 2).setWidth 64)]) ∧
    (∀ h o, writes (.ldw h o) h.sba [.s o.d (if o.sx then (x 4).signExtend 64 else (x 4).setWidth 64)]) ∧
    (∀ h o n, o.d = .s n → writes (.ldd h o) h.sba [.s n (x 8)]) ∧
    (∀ h o n, o.d = .p n → writes (.ldd h o) h.sba [.p n (BitVec.allOnes 64) (x 8)]) ∧
    (∀ h o, writes (.atom h o) h.sba [.s o.d (x 8)]) ∧ (∀ h o, writes (.acas h o) h.sba [.s o.d (x 8)]) ∧
    (∀ h o n, o.d = .v n → writes (.ldv h o) h.sba [.v (physV a.w.vrb n) (ofBytes 2048 (a.mask 256)) (ofBytes 2048 a.got)])) ∧
  -- an answer to a fenced tile is discarded and counted
  (∀ (s : State) (k j : Nat) (fr : FrameSel) (a : Access), s.tile.answerAt k = some (fr, j, a) → s.tile.fence.fenced = true →
    exec (.accessResponse k) s = .next (s.withChip ((s.chip.upd fun t => t.updFrameOf fr fun f =>
      { f with ans := dropAt f.ans j }).updDie (tileDie s.chip.focus) fun d => { d with orphcnt := d.orphcnt + 1 }))) ∧
  (∀ s : State,
    -- OWNER_ACKNOWLEDGEMENT: of the strand's stores, then of the copy channel's, then of the Unveil engine's
    (s.tile.unacked ≠ 0 → ∃ c, exec .ownerAcknowledgement s = .next (s.withChip c) ∧ c.tile.unacked = s.tile.unacked - 1 ∧ c.mem = s.chip.mem ∧
      (c.die (tileDie s.chip.focus)).orphcnt = (s.chip.die (tileDie s.chip.focus)).orphcnt + (if s.tile.fence.fenced then 1 else 0)) ∧
    (s.tile.unacked = 0 → s.tile.chan.unacked ≠ 0 → exec .ownerAcknowledgement s = .next (s.onTile fun t =>
      { t with chan := { t.chan with unacked := t.chan.unacked - 1 } })) ∧
    (s.tile.unacked = 0 → s.tile.chan.unacked = 0 → exec .ownerAcknowledgement s = .next (s.onTile fun t =>
      { t with unv := { t.unv with unacked := t.unv.unacked - 1 } })) ∧
    -- READ_COUNT_EXPIRY and LINE_EVICTION
    (∀ l, (l, 0) ∈ s.chip.counts → exec (.readCountExpiry l) s = .next (s.withChip { s.chip with
      counts := s.chip.counts.filter (fun x => x.1 != l), dirty := s.chip.dirty.filter (· != l) })) ∧
    (∀ l, l < 2 ^ 41 → l ∉ s.chip.ueLines → exec (.lineEviction l) s = .next (s.withChip { s.chip with
      counts := s.chip.counts.filter (fun x => x.1 != l), dirty := s.chip.dirty.filter (· != l) })) ∧
    -- PAGE_TABLE_WALK changes no byte; a cached translation is used as it stands
    (∀ va : BitVec 48, (∃ c, exec (.pageTableWalk va) s = .next (s.withChip c) ∧ c.mem = s.chip.mem ∧ c.tile = s.tile) ∧
      ((∃ x ∈ (s.chip.die (tileDie s.chip.focus)).tlb, x.hits (bits s.tile.sys.troot 48 12) va.toNat = true) →
        exec (.pageTableWalk va) s = .next s)) ∧
    -- COMPRESSED_BLOCK_RECOVERY
    (∀ (pa : BitVec 56) (t : BlockTry),
      let b := (pa.extractLsb' 0 48).toNat / 1024
      (b ∉ s.chip.ueBlocks → exec (.compressedBlockRecovery pa t) s = .next s) ∧
      (b ∈ s.chip.ueBlocks → ∃ c, exec (.compressedBlockRecovery pa t) s = .next (s.withChip c) ∧
        c.ueBlocks = s.chip.ueBlocks.filter (· != b) ∧ c.blockWait = s.chip.blockWait.filter (fun x => x.1 / 8 != b) ∧
        (t.rereadOk = true → c.mem = s.chip.mem ∧ c.blockLost = s.chip.blockLost) ∧
        -- the replica holds what the block holds
        (t.rereadOk = false → t.replicaOk = true → s.memOk → s.chip.ueLines = [] →
          ∀ r, (s.chip.replica (s.chip.member ++ BitVec.ofNat 48 (b * 1024))).2 = some r → c.blockLost = s.chip.blockLost ∧
            (∀ x, x / 1024 ≠ b → c.mem.get x = s.byteAt x) ∧
            ∀ y < 1024, c.mem.get (b * 1024 + y) =
              if (b * 1024 + y) / 128 ∈ s.chip.dirty then s.byteAt (b * 1024 + y) else s.byteAt (s.chip.key r + y)) ∧
        -- no replica: zeros, which those that wait for them will consume, and an entry of the bad-chunk list where there is room
        (t.rereadOk = false → s.memOk → s.chip.ueLines = [] → (s.chip.replica (s.chip.member ++ BitVec.ofNat 48 (b * 1024))).2 = none →
          let ch := hbmChannel (b * 1024)
          let x := s.chip.die (decide (128 ≤ ch))
          let entry : BitVec 56 := (x.bcbase ++ 0#3) + BitVec.ofNat 56 (8 * (x.bchead.toNat % 2 ^ x.bclog.toNat))
          let listed : Prop := (x.bchead - x.bctail).toNat ≠ 2 ^ x.bclog.toNat ∧ s.chip.ownHbm entry = true
          let inEntry (y : Nat) : Prop := s.chip.key entry ≤ y ∧ y < s.chip.key entry + 8
          (∀ y, ¬(listed ∧ inEntry y) → c.mem.get y = if y / 1024 = b ∧ y / 128 ∉ s.chip.dirty then 0 else s.byteAt y) ∧
          (listed → c.mem.read (s.chip.key entry) 8 = toBytes 8 (BitVec.ofNat 64 (b % 2 ^ 38 * 2 ^ 10 + s.chip.member.toNat * 2 ^ 48 + ch % 128))) ∧
          ∀ x ∈ s.chip.blockWait, x.1 / 8 = b → x.1 ∉ s.chip.dirty → ¬(listed ∧ x.1 = s.chip.key entry / 128) → (x.1, x.2.1) ∈ c.blockLost))))


/-! ## Contexts, commits, launches (R307, R320–R331, R359, R363) -/

/-- R320–R323, R326–R330, R359, R363: CSCTL.GO and the image written to CSAVE; the commit, its refusals in the order of ERR, and the start of its
strands with the bind record's values; a commit that R326 forbids the firmware is none (log entry 69); the host's signal; a launch record taken, CIDX passed; a completion record written and announced. The layout inside an image is log
entry 21, the order of ERR log entry 30, when the firmware reads its queues log entry 44. -/
def Obligations.ContextsCommitsAndLaunches : Prop :=
  ∀ s : State,
    -- CSCTL_GO and CONTEXT_IMAGE_DONE
    (s.tile.st = .preempted → s.tile.cs.busy = false →
      exec .csctlGo s = .next (s.onTile fun t => { t with cs := { t.cs with busy := true, done := false } })) ∧
    (s.tile.st = .preempted → s.tile.cs.busy = true → s.memOk → s.chip.ueLines = [] → s.tile.sramUe = [] → s.chip.ownHbm s.tile.saveAddr = true →
      let bs := imageOf s.chip.member s.chip.focus s.tile
      let k0 := (s.tile.saveAddr.extractLsb' 0 48).toNat
      ∃ c, exec .contextImageDone s = .next (s.withChip c) ∧ c.mem.read k0 bs.length = bs ∧
        (∀ x, x < k0 ∨ k0 + bs.length ≤ x → c.mem.get x = s.byteAt x) ∧
        c.tile = { s.tile.emptied with cs := { s.tile.cs with busy := false, done := true, len := BitVec.ofNat 32 bs.length } } ∧
        c.saved = ⟨s.chip.focus, s.tile.saveAddr, bs, s.tile⟩ :: s.chip.saved.filter fun y => y.addr != s.tile.saveAddr) ∧
    -- CCOMMIT of records none of which names an image
    (∀ (die : Bool) (cl : BitVec 4) (val : Word), s.chip.stopped = false →
      let k := clusterNo die cl
      let mask : BitVec 8 := val.extractLsb' 0 8
      let bank := val.getLsbD 8
      let recs := s.chip.named k mask bank
      (∀ r ∈ recs, slotRst r.2 = false) →
      let busy : Prop := ∃ r < 8, mask.getLsbD r = true ∧ ((s.chip.runMask k ||| s.chip.dispatching k).getLsbD r = true ∨
        (s.chip.tileAt (tileOfRank k (BitVec.ofNat 3 r))).cs.busy = true)
      let void : Prop := ∃ r ∈ recs, slotV r.2 = false ∨ slotWord r.2 4 &&& 0xF000F00000000000 ≠ 0
      let unlike : Prop := ∃ r ∈ recs, slotTmask r.2 ≠ mask ∨ ∃ q ∈ recs, slotLaunch r.2 ≠ slotLaunch q.2
      let fenced : Prop := ∃ r < 8, mask.getLsbD r = true ∧ (s.chip.tileAt (tileOfRank k (BitVec.ofNat 3 r))).fence.fenced = true
      let refused (e : BitVec 8) : Prop := exec (.ccommit die cl val) s = .next (s.withChip { s.chip with
        clusters := vset s.chip.clusters k { vget s.chip.clusters k with err := e } })
      (mask = 0 → refused 1) ∧ (mask ≠ 0 → busy → refused 2) ∧ (mask ≠ 0 → ¬busy → void → refused 3) ∧
      (mask ≠ 0 → ¬busy → ¬void → unlike → refused 4) ∧ (mask ≠ 0 → ¬busy → ¬void → ¬unlike → fenced → refused 5) ∧
      -- without LOOSE a cluster is bound anew only once no strand runs on it, or is about to
      let loose : Prop := (∀ r < 8, (s.chip.runMask k).getLsbD r = true →
        s.chip.looseLaunch (s.chip.tileAt (tileOfRank k (BitVec.ofNat 3 r))).bound.launch = true) ∧
        ∀ x ∈ (s.chip.die die).dispatch, x.cluster = cl → ∀ y ∈ x.recs, s.chip.looseLaunch (slotLaunch y.2) = true
      (mask ≠ 0 → ¬busy → ¬void → ¬unlike → ¬fenced → ¬loose → exec (.ccommit die cl val) s = .next s) ∧
      (mask ≠ 0 → ¬busy → ¬void → ¬unlike → ¬fenced → loose → ∃ c, exec (.ccommit die cl val) s = .next (s.withChip c) ∧
        (vget c.clusters k).err = 0 ∧ c.teamCnt = s.chip.teamCnt + 1 ∧ c.mem = s.chip.mem ∧ c.tile = s.tile ∧
        (c.die die).dispatch = (s.chip.die die).dispatch ++ [⟨cl, mask, bank, s.chip.teamCnt + 1, s.chip.teamCnt + 1, recs, []⟩])) ∧
    -- STRAND_START of fresh strands on tiles that are not fenced: PC, TVEC, TROOT and s1 to s7 from the record, bind values elsewhere
    (∀ (die : Bool) (cl : BitVec 4) (x : Dispatch), (s.chip.die die).dispatch.find? (fun y => y.cluster == cl) = some x → x.images = [] →
      (x.recs.map Prod.fst).Nodup → (∀ r ∈ x.recs, (s.chip.tileAt (tileOfRank (clusterNo die cl) r.1)).fence.fenced = false) →
      ∃ c, exec (.strandStart die cl) s = .next (s.withChip c) ∧ c.mem = s.chip.mem ∧
        (vget c.clusters (clusterNo die cl)).att = x.mask ∧ (c.die die).dispatch = (s.chip.die die).dispatch.erase x ∧
        ∀ r ∈ x.recs, let t := c.tileAt (tileOfRank (clusterNo die cl) r.1)
          t.st = .running ∧ t.mode = .user ∧ t.team = x.team ∧ t.pc = (slotWord r.2 2).toNat ∧ t.sys.tvec = slotWord r.2 3 ∧
          t.sys.troot = slotWord r.2 4 &&& 0x0FFF0FFFFFFFFFFF ∧ (∀ k : Nat, 1 ≤ k → k ≤ 7 → t.getS (BitVec.ofNat 5 k) = slotWord r.2 (10 + k)) ∧
          (∀ k : SReg, 8 ≤ k.toNat → t.getS k = 0) ∧ (∀ k, t.getV k = 0) ∧ t.bound.launch = slotLaunch r.2 ∧ t.icache = []) ∧
    -- LAUNCH_QUEUE_SIGNAL
    (∀ hart iid, iid ≠ 0 → (hart, iid) ∉ s.chip.imsic →
      exec (.launchQueueSignal hart iid) s = .next (s.withChip { s.chip with imsic := s.chip.imsic ++ [(hart, iid)] })) ∧
    -- LAUNCH_RECORD: no record to take; a record below PIDX, taken as it was found; one changed since (log entry 1)
    (∀ (die : Bool) (p : BitVec 3),
      let q := s.chip.pair die p
      let at_ (x : BitVec 56) : Nat := s.chip.key x
      let cidx := (ofBytes 64 (s.chip.mem.read (at_ (q.header + 8)) 8) : Word).toNat
      let r := s.chip.mem.read (at_ (q.recordAt cidx)) 128
      let ready : Prop := s.chip.firmwareRuns = true ∧ q.en = true ∧ (∀ x ∈ s.chip.imsic, x.2 ≠ q.iid) ∧ s.chip.ueLines = [] ∧
        s.chip.ueBlocks = []
      (s.chip.firmwareRuns = false ∨ q.en = false → exec (.launchRecord die p) s = .next s) ∧
      (s.chip.queueStuck die p = true → exec (.launchRecord die p) s = .next s) ∧
      (ready → q.pidx.toNat ≤ cidx → exec (.launchRecord die p) s = .next s) ∧
      (ready → cidx < q.pidx.toNat → q.pidx.toNat - cidx ≤ 2 ^ q.q.toNat → q.seen.head? = some r → s.memOk → s.chip.ownHbm (q.header + 8) = true →
        ∃ (c : Chip) (l : Launch), exec (.launchRecord die p) s = .next (s.withChip c) ∧ c.launchCnt = s.chip.launchCnt + 1 ∧
          c.launches = s.chip.launches ++ [l] ∧ l.num = BitVec.ofNat 32 s.chip.launchCnt ∧ l.src = some (die, p) ∧
          l.word0 = ofBytes 64 (r.take 8) ∧ (recReserved (recWords 16 r) = true → l = Launch.empty l.num (recWords 16 r) l.src 2) ∧
          c.mem.read (at_ (q.header + 8)) 8 = toBytes 8 (BitVec.ofNat 64 (cidx + 1)) ∧
          ∀ x, x < at_ (q.header + 8) ∨ at_ (q.header + 8) + 8 ≤ x → c.mem.get x = s.byteAt x) ∧
      (ready → cidx < q.pidx.toNat → q.pidx.toNat - cidx ≤ 2 ^ q.q.toNat → q.seen.head? ≠ some r →
        exec (.launchRecord die p) s = .fault .launchRewritten)) ∧
    -- COMPLETION_RECORD: the record at CQTAIL, CQTAIL one more, the vector raised or left pending
    (∀ (die : Bool) (p : BitVec 3) (l : Launch), s.chip.launches.find? (fun l => l.src == some (die, p) && l.finished) = some l →
      let q := s.chip.pair die p
      s.chip.firmwareRuns = true → q.en = true → (q.cqtail - q.cqhead).toNat ≠ 2 ^ q.cqlog.toNat → s.chip.host.wf = true → ∃ c,
      exec (.completionRecord die p) s = .next (s.withChip c) ∧ c.mem = s.chip.mem ∧
      (c.pair die p).cqtail = q.cqtail + 1 ∧ c.launches = s.chip.launches.filter (fun x => x.num != l.num) ∧
      (let k0 := q.cqbase.toNat * 16 + 16 * (q.cqtail.toNat % 2 ^ q.cqlog.toNat);
        c.host.read k0 16 = toBytes 8 (0#16 ++ l.cause.getD 0 ++ l.status ++ l.word0.extractLsb' 0 32 : Word) ++
          toBytes 8 (BitVec.ofNat 64 l.ended) ∧ ∀ x, x < k0 ∨ k0 + 16 ≤ x → c.host.get x = s.chip.host.get x) ∧
      (64 ≤ q.vec.toNat → c.msixSent = s.chip.msixSent) ∧
      (q.vec.toNat < 64 → (vget (s.chip.die die).msix (BitVec.ofNat 7 (2 * q.vec.toNat + 1))).getLsbD 32 = false →
        c.msixSent = s.chip.msixSent ++ [(die, q.vec)]))


/-! ## Fencing (R346–R355) -/

/-- R346–R355: a tile sends a heartbeat to its neighbours at the start of a period, once, a fenced one whose self-test has passed its appeals; it counts
its neighbours' heartbeats by period and votes against one it suspects; a vote is recorded by the subject's neighbours; a majority fences its
subject; a notice closes a port; self-test, appeals and readmit votes make a fenced tile READY; READMIT and FORCE. How
flits arrive and are judged is log entry 31, which way north lies log entry 22; what its traffic counts in a period, SELFOK and what of a routed flit is malformed are log entry 72. -/
def Obligations.FencingAndReturn : Prop :=
  (∀ s : State,
    let c := s.chip
    let me := c.focus
    let k := periodOf s.clk
    let f := s.tile.fence.toPeriod k
    -- a port that lets a flit through
    let hears (src : Dir) (m : TileId) : Prop := meshNext me src = some m ∧ s.tile.fence.fenced = false ∧ (f.at src).closed = false
    -- HEARTBEAT
    (∀ src m flit crcOk, hears src m → ∃ c', exec (.heartbeat src flit crcOk) s = .next (s.withChip c') ∧ c'.mem = c.mem ∧
      (∀ d, d ≠ src → c'.tile.fence.at d = f.at d) ∧
      let x := f.at src
      let y := c'.tile.fence.at src
      let good : Prop := crcOk = true ∧ flitType flit = 1 ∧ flit.extractLsb' 40 8 = m &&& 0x7F ∧ flit.getLsbD 15 = true ∧
        (∀ q, x.seq = some q → flitSeq flit = q + 1)
      y.flNow = x.flNow + 1 ∧ y.hbNow = x.hbNow + (if crcOk = false ∨ flitType flit = 1 then 1 else 0) ∧
        (good → y.okNow = x.okNow + 1 ∧ y.badNow = x.badNow) ∧
      (¬good → y.okNow = x.okNow ∧ (if crcOk = true ∧ flitType flit ∈ [2, 3, 4, 5] then y = { x with flNow := y.flNow } else y.badNow = true))) ∧
    -- a flit at a closed port only counts as an orphan
    (∀ src m flit crcOk, meshNext me src = some m → s.tile.fence.fenced = false → (f.at src).closed = true →
      exec (.heartbeat src flit crcOk) s = .next (s.withChip
        ({ c with flits := c.flits.erase (me, flit) }.updFence me fun _ => f).orphan)) ∧
    -- HEARTBEAT_PERIOD
    (let around (p : Dir × TileId → Bool) : List TileId := ((meshAround me).filter p).map Prod.snd
      let flit (ty info : Word) : Word := ty * 2 ^ 56 + (me &&& 0x7F).setWidth 64 * (2 ^ 40 + 2 ^ 32) + BitVec.ofNat 64 (k % 65536 * 65536) + info
      let kept := (c.dropFlits me).flits
      (k < s.tile.fence.sent → exec .heartbeatPeriod s = .next (s.withChip (c.updFence me fun _ => f))) ∧
      (s.tile.fence.sent ≤ k → s.tile.fence.fenced = true →
        exec .heartbeatPeriod s = .next (s.withChip ({ c with flits := kept ++
          if f.test = true ∧ f.bin ≠ 3 then (around fun x => (c.view x.2 (dirBack x.1)).closed).map (fun n => (n, flit 4 (f.bin.setWidth 64 * 2 ^ 13)))
          else [] }.updFence me fun _ => { f with sent := k + 1 }))) ∧
      (s.tile.fence.sent ≤ k → s.tile.fence.fenced = false → ∃ c' info, exec .heartbeatPeriod s = .next (s.withChip c') ∧ info < 65536 ∧
        info.extractLsb' 13 2 = f.bin ∧ (c'.isFenced me = true ∨ ∀ n ∈ around fun x => !(f.at x.1).closed, (n, flit 1 info) ∈ c'.flits))) ∧
    (s.tile.fence.fenced = false → s.tile.fence.sent ≤ k → ∃ c', exec .heartbeatPeriod s = .next (s.withChip c') ∧ c'.mem = c.mem ∧
      ∀ d m, meshNext me d = some m → (f.at d).closed = false → c.isFenced m = false →
        (((f.at d).ok1 = 0 ∧ (f.at d).ok2 = 0 ∧ (f.at d).ok3 = 0) ∨ 4 < (f.at d).hbLast ∨ (f.at d).badLast = true ∨
          (c.die (tileDie me)).rthr.toNat < (f.at d).flLast + Config.traffic k m.toNat) →
        c'.isFenced m = true ∨ vget (c'.view me d).votes (dirNum (dirBack d)) = some k) ∧
    -- VOTE and READMIT_VOTE
    (∀ src m flit (q v : TileId) (d g : Dir) (p : Nat), hears src m → flitSrc (tileDie me) flit = some q → flitSubj (tileDie me) flit = some v →
      dirTo me v = some d → dirTo v q = some g → periodWith k (flitSeq flit) = some p → c.isFenced q = false →
      (flitType flit = 2 → ∃ c', exec (.vote src flit) s = .next (s.withChip c') ∧ vget (c'.view me d).votes (dirNum g) = some p) ∧
      (flitType flit = 5 → ∃ c', exec (.readmitVote src flit) s = .next (s.withChip c') ∧ vget (c'.view me d).rvotes (dirNum g) = some p)) ∧
    -- a malformed one counts against the neighbour on its port
    (∀ src m flit, hears src m → (flitSrc (tileDie me) flit = none ∨ flitSubj (tileDie me) flit = none ∨
        ∃ q v, flitSrc (tileDie me) flit = some q ∧ flitSubj (tileDie me) flit = some v ∧ (q = me ∨ dirTo v q = none ∨ dirTo me v = none)) →
      ∀ i, i = .vote src flit ∨ i = .fenceNotice src flit ∨ i = .readmitVote src flit →
      ∃ c', exec i s = .next (s.withChip c') ∧ (c'.view me src).badNow = true) ∧
    -- FENCE_NOTICE
    (∀ src m flit (v : TileId) (d : Dir), hears src m → flitType flit = 3 → flitSubj (tileDie me) flit = some v → c.isFenced v = true →
      dirTo me v = some d → ∃ c', exec (.fenceNotice src flit) s = .next (s.withChip c') ∧ (c'.view me d).closed = true ∧ c'.isFenced v = true) ∧
    -- SELF_TEST_COMPLETION
    (s.tile.fence.fenced = true → s.tile.fence.testing = true →
      let after (g : Fence → Fence) : State := s.onTile fun t => { t with fence := g t.fence }
      exec (.selfTestCompletion true) s = .next (after fun f => { f with test := true, testing := false }) ∧
      (s.tile.fence.bin = 2 → exec (.selfTestCompletion false) s = .next (after fun f => { f with bin := 3, testing := false })) ∧
      (s.tile.fence.bin ≠ 2 → exec (.selfTestCompletion false) s = .next (after fun f => { f with bin := f.bin + 1 }))) ∧
    -- APPEAL: the third valid one in three periods in a row, of a tile that has passed its self-test and is not retired, casts a readmit vote
    (∀ src m flit crcOk, meshNext me src = some m → s.tile.fence.fenced = false → (f.at src).closed = true →
      let good : Prop := crcOk = true ∧ flitType flit = 4 ∧ flitSrc (tileDie me) flit = some m ∧ flitSubj (tileDie me) flit = some m ∧
        (∀ q, (f.at src).seq = some q → flitSeq flit = q + 1) ∧ (c.tileAt m).fence.test = true ∧ (c.tileAt m).fence.bin ≠ 3
      ∃ c', exec (.appeal src flit crcOk) s = .next (s.withChip c') ∧
        (¬good ∨ (f.at src).apNow ≠ 0 → (c'.view me src).appeals = 0 ∧ (c'.view me src).rvotes = (f.at src).rvotes) ∧
        (good → (f.at src).apNow = 0 → (f.at src).appeals < 2 → (c'.view me src).apNow = 1 ∧ (c'.view me src).rvotes = (f.at src).rvotes) ∧
        (good → (f.at src).apNow = 0 → 2 ≤ (f.at src).appeals → vget (c'.view me src).rvotes (dirNum (dirBack src)) = some k)) ∧
    -- READMIT: only a READY tile returns, unbound, in its bin, its neighbours' ports open
    (s.tile.fence.fenced = false ∨ s.tile.fence.ready = false ∨ s.tile.fence.bin = 3 → exec .readmit s = .next s) ∧
    (s.tile.fence.fenced = true → s.tile.fence.ready = true → s.tile.fence.bin ≠ 3 → ∃ c', exec .readmit s = .next (s.withChip c') ∧ c'.mem = c.mem ∧
      c'.tile.fence.fenced = false ∧ c'.tile.fence.cause = 0 ∧ c'.tile.fence.ready = false ∧ c'.tile.fence.bin = s.tile.fence.bin ∧
      c'.tile.st = .absent ∧ c'.tile.bufs = s.tile.bufs ∧ ∀ x ∈ meshAround me, (c'.view x.2 (dirBack x.1)).closed = false) ∧
    -- FORCE
    (c.isFenced me = true → exec .force s = .next s) ∧
    (c.isFenced me = false → ∃ c', exec .force s = .next (s.withChip c') ∧ c'.mem = c.mem ∧ c'.isFenced me = true ∧ c'.tile.fence.cause = 3 ∧
      c'.tile.runs = false ∧ ∀ x ∈ meshAround me, (c'.view x.2 (dirBack x.1)).closed = true)) ∧
  -- R348–R350: a majority of the neighbours that are not fenced closes a port and fences its subject, whose strand stops; notices go out
  (∀ (c : Chip) (F : Nat) (n v : TileId) (d : Dir), dirTo n v = some d →
    (c.holdsMajority (periodOf F) n v Neighbour.votes = true → (c.view n d).closed = false → let c' := c.judge F n v
      c'.isFenced v = true ∧ (c'.view n d).closed = true ∧ (∀ x ∈ meshAround v, x.2 ≠ n → ∃ w, (x.2, w) ∈ c'.flits ∧ flitType w = 3 ∧
          flitSrc (tileDie v) w = some n ∧ flitSubj (tileDie v) w = some v) ∧
        (c.isFenced v = false → (c'.tileAt v).runs = false ∧ (c'.tileAt v).fence.cause = if (c.view n d).silent then 1 else 2)) ∧
    (c.holdsMajority (periodOf F) n v Neighbour.votes = false ∨ (c.view n d).closed = true → c.judge F n v = c)) ∧
  -- R350: what the tile has on the mesh is dropped and counted (log entry 72)
  (∀ (c : Chip) (F : Nat) (v : TileId) (cause : BitVec 2), c.isFenced v = false →
    ((c.fenceTile F v cause).die (tileDie v)).orphcnt = (c.die (tileDie v)).orphcnt +
      BitVec.ofNat 32 ((c.tileAt v).onMesh v + (c.flits.length - (c.dropFlits v).flits.length))) ∧
  -- R353: each fence steps the bin up, to B3 at most, and short of B3 starts the self-test
  (∀ (c : Chip) (F : Nat) (v : TileId) (cause : BitVec 2), c.isFenced v = false →
    let x := (c.tileAt v).fence
    let y := ((c.fenceTile F v cause).tileAt v).fence
    y.fenced = true ∧ y.cause = cause ∧ (x.bin = 3 → y.bin = 3 ∧ y.testing = false) ∧
      (x.bin ≠ 3 → y.bin = x.bin + 1 ∧ (y.testing = true ↔ y.bin ≠ 3)))


/-! ## Management (R5, R19, R339–R345, R351, R356–R371, R377, R379) -/

/-- R19, R340, R345, R351, R357, R360, R363–R366, R368–R371, R377, R379: the registers with a step of their own, translation invalidations, the
firmware load and the fuses, attestation and sealing, BAR2, the fabric's ports and clock, the thermal stop, power. What the fuses hold at first
and what power up leaves is log entry 5, the layout of what the spec names without one log entries 32, 45, 47, 48 and 51, what a thermal stop
does to launches log entry 71. -/
def Obligations.ManagementSteps : Prop :=
  ∀ s : State,
    let c := s.chip
    let now (c' : Chip) : Host.Outcome State Machine.Fault Refusal := .next (s.withChip c')
    let onDie (d : Bool) (f : Die → Die) : Chip := c.updDie d f
    let firm (f : Firm) : Chip := { c with firm := f }
    -- ORPHCNT_READ and BCLOST_READ: the count is the answer, and clears
    (∀ d, ∃ c', exec (.orphcntRead d) s = now c' ∧ c' = { onDie d (fun x => { x with orphcnt := 0 }) with answer := c'.answer } ∧
      (ofBytes 64 c'.answer : Word) = (c.die d).orphcnt.setWidth 64) ∧
    (∀ d, ∃ c', exec (.bclostRead d) s = now c' ∧ c' = { onDie d (fun x => { x with bclost := 0 }) with answer := c'.answer } ∧
      (ofBytes 64 c'.answer : Word) = (c.die d).bclost.setWidth 64) ∧
    -- BSTAT_WRITE
    (∀ d (n : BitVec 11) val, 1553 ≤ n.toNat → exec (.bstatWrite d n val) s = now c) ∧
    (∀ d (n : BitVec 11) val, n.toNat < 1553 → ∃ c', exec (.bstatWrite d n val) s = now c' ∧
      let x := getBank (c.die d).banks n.toNat
      let y := getBank (c'.die d).banks n.toNat
      y.count = val.extractLsb' 0 32 ∧ y.ovf = (x.ovf && !val.getLsbD 61) ∧ y.v = (x.v && !val.getLsbD 63) ∧
        (val.getLsbD 63 = false → y.ue = x.ue ∧ y.kind = x.kind ∧ y.addr = x.addr ∧ y.synd = x.synd ∧ y.tnum = x.tnum ∧ y.code = x.code) ∧
        ∀ m, m ≠ n.toNat → getBank (c'.die d).banks m = getBank (c.die d).banks m) ∧
    -- MEMBERCFG_WRITE
    (∀ val : Word, c.lock = true ∨ c.anyBound = true ∨ 192 ≤ (val.extractLsb' 37 8).toNat → exec (.membercfgWrite val) s = now c) ∧
    (∀ val : Word, c.lock = false → c.anyBound = false → (val.extractLsb' 37 8).toNat < 192 → exec (.membercfgWrite val) s =
      now { c with modnum := val.extractLsb' 45 19, member := val.extractLsb' 37 8, lock := val.getLsbD 0 }) ∧
    -- QUEUE_PAIR_ENABLE
    (∀ d p val, exec (.queuePairEnable d p val) s = now (c.updPair d p fun q =>
      if q.en then { q with en := val.getLsbD 0 }
      else { q with lqbase := val.extractLsb' 7 49, en := val.getLsbD 0 && decide (4 ≤ q.q.toNat ∧ q.q.toNat ≤ 16), pidx := 0, seen := [] })) ∧
    -- TINVC_GO and INVALIDATION_COMPLETE
    (∀ (d : Bool) (val : Word), let x := c.die d
      let c1 := onDie d fun x => { x with glb := val.getLsbD 17, all := val.getLsbD 16, asid := val.extractLsb' 0 12 }
      let v : Inval := ⟨x.tinva, x.tinvl, val.getLsbD 17, val.getLsbD 16, val.extractLsb' 0 12⟩
      (val.getLsbD 63 = false → exec (.tinvcGo d val) s = now c1) ∧
      (val.getLsbD 63 = true → ∃ c', exec (.tinvcGo d val) s = now c' ∧ c'.invalBusy = true ∧ c'.mem = c.mem ∧
        ∀ b, ((c.die b).inval = none → (c'.die b).inval = some v ∧ (c'.die b).waiting = (c.die b).waiting) ∧
          ((c.die b).inval ≠ none → (c'.die b).inval = (c.die b).inval ∧ (c'.die b).waiting = (c.die b).waiting ++ [v]))) ∧
    (∀ d, (c.die d).inval = none → exec (.invalidationComplete d) s = now c) ∧
    (∀ d v, (c.die d).inval = some v → ∃ c', exec (.invalidationComplete d) s = now c' ∧ c'.mem = c.mem ∧ (c'.die d).inval = (c.die d).waiting.head? ∧
      ∀ e : Tlb, e ∈ (c'.die d).tlb ↔ e ∈ (c.die d).tlb ∧ ¬((match e.asid with
          | none => v.glb = true
          | some a => v.all = true ∨ a = v.asid) ∧
        (v.pages = 0 ∨ (e.base < (v.va.toNat + v.pages.toNat) * 65536 ∧ v.va.toNat * 65536 < e.base + pageBytes e.level)))) ∧
    -- FWCTL_GO and FIRMWARE_LOAD_COMPLETION
    (c.firm.st = 1 ∨ c.firm.st = 2 → exec .fwctlGo s = now c) ∧
    (c.firm.st ≠ 1 → c.firm.st ≠ 2 → exec .fwctlGo s = now (firm { c.firm with st := 1, err := 0 })) ∧
    (c.firm.st ≠ 1 → exec .firmwareLoadCompletion s = now c) ∧
    (c.firm.st = 1 → c.ueLines = [] →
      let h := c.mem.read (c.key (c.firm.fwaddr ++ 0#12)) 512
      let n := if hdrLen h ≤ 2 ^ 28 then hdrLen h else 0
      let payload := c.mem.read (c.key ((c.firm.fwaddr ++ 0#12) + 512)) n
      let e := c.firm.imageErr h payload
      (e ≠ 0 → exec .firmwareLoadCompletion s = now (firm { c.firm with st := 3, err := e })) ∧
      (e = 0 → ∃ f : Firm, exec .firmwareLoadCompletion s = now (firm f) ∧ f.st = 2 ∧ f.err = 0 ∧ f.svn = ofBytes 32 ((h.drop 8).take 4) ∧
        f.slot = ofBytes 8 ((h.drop 12).take 1) ∧
        -- every hart of both dies starts at ENTRY, which counts from the payload
        (∀ k, vget f.harts k = some (c.firm.fwaddr ++ 0#12 + 512 + ofBytes 56 ((h.drop 24).take 8))) ∧ f.keys = c.firm.keys ∧ f.floor = c.firm.floor ∧ f.vlock = c.firm.vlock)) ∧
    -- the fuses: an empty slot is enrolled once, at an enrolled slot's request or, before VLOCK, the vendor's; the rest at an enrolled slot's
    (∀ by_ : Signer, let own := c.firm.enrolled by_
      let no := now (firm { c.firm with accepted := false })
      (∀ k hash, vget c.firm.keys k = .empty → own = true ∨ (by_ = .vendor ∧ c.firm.vlock = false) →
        exec (.enrolKey k hash by_) s = now (firm { c.firm with keys := vset c.firm.keys k (.enrolled hash), accepted := true })) ∧
      (∀ k hash, vget c.firm.keys k ≠ .empty ∨ (own = false ∧ (by_ ≠ .vendor ∨ c.firm.vlock = true)) → exec (.enrolKey k hash by_) s = no) ∧
      (∀ k, own = false ∨ by_ = .owner k → exec (.revokeSlot k by_) s = no) ∧
      (∀ k, own = true → by_ ≠ .owner k → ∃ f : Firm, exec (.revokeSlot k by_) s = now (firm f) ∧
        f = { c.firm with keys := f.keys, accepted := true } ∧ (∃ h, vget f.keys k = .revoked h) ∧ ∀ m, m ≠ k → vget f.keys m = vget c.firm.keys m) ∧
      (∀ x, own = false → exec (.raiseSvnFloor x by_) s = no) ∧
      (∀ x : BitVec 32, own = true → exec (.raiseSvnFloor x by_) s =
        now (firm { c.firm with floor := if c.firm.floor.toNat < x.toNat then x else c.firm.floor, accepted := true })) ∧
      (own = false → exec (.setVlock by_) s = no) ∧ (own = true → exec (.setVlock by_) s = now (firm { c.firm with vlock := true, accepted := true }))) ∧
    -- ATTESTATION_REQUEST: the report's fields in their places; SEAL_REQUEST
    (∀ nonce, ∃ r sig : List Byte, exec (.attestationRequest nonce) s = now { c with answer := r ++ sig } ∧ r.length = 156 ∧ sig.length = 132 ∧
      r.take 64 = toBytes 64 nonce ∧ (r.drop 64).take 64 = toBytes 64 c.firm.hash ∧ (r.drop 128).take 4 = toBytes 4 c.firm.svn ∧
      r.getD 132 0 = c.firm.slot ∧ r.getD 134 0 = (if c.firm.vlock then 1 else 0) ∧ (r.drop 136).take 4 = toBytes 4 c.firm.floor ∧
      sig = toBytes 132 (Config.identitySign (Config.sha512 r))) ∧
    (∀ r : SealReq,
      let sig := Config.sealSign (Config.sha512 (toBytes 64 r.srcHash ++ toBytes 1 r.level ++ toBytes 8 r.loader ++ r.image))
      (r.verify = false → exec (.sealRequest r) s = now { c with answer := toBytes 132 sig }) ∧
      (r.verify = true → ∃ ok : Bool, exec (.sealRequest r) s = now (firm { c.firm with accepted := ok }) ∧
        (ok = true ↔ r.sig = sig ∧ r.level = 1 ∧ r.srcHash = r.wantHash ∧ r.loader = r.wantLoader))) ∧
    -- BAR2_ACCESS
    (∀ (off : BitVec 40), c.ueBlocks = [] → c.ueLines = [] → s.memOk →
      let o := off.toNat
      (∀ len, exec (.bar2Access off (.read len)) s = now { c with
        answer := c.mem.read o (min len (Config.hbmBytes - o)) ++ List.replicate (len - min len (Config.hbmBytes - o)) 0xFF }) ∧
      ∀ data : List Byte, ∃ c', exec (.bar2Access off (.write data)) s = now c' ∧
        (∀ j < data.length, o + j < Config.hbmBytes → c'.mem.get (o + j) = data.getD j 0) ∧
        ∀ x, x < o ∨ o + data.length ≤ x ∨ Config.hbmBytes ≤ x → c'.mem.get x = s.byteAt x) ∧
    -- REGISTER_WRITE: some registers of their own effect; offsets that are not listed; a record being dispatched (R331)
    (∀ (off : BitVec 32) (val : Word), let d := off.getLsbD 31
      let o := off.toNat % 2 ^ 31
      (o = 0x300000 → exec (.registerWrite off val) s = now (onDie d fun x => { x with rtbase := val.extractLsb' 3 53 })) ∧
      (o = 0x310400 → exec (.registerWrite off val) s = now (onDie d fun x => { x with rthr := val.extractLsb' 0 16 })) ∧
      (o = 0x400000 → exec (.registerWrite off val) s = now (onDie d fun x => { x with tinva := val.extractLsb' 16 32 })) ∧
      (o = 0x500000 → exec (.registerWrite off val) s = now (firm { c.firm with fwaddr := val.extractLsb' 12 44 })) ∧
      (o = 0 ∨ o = 8 ∨ o = 0x10 → exec (.registerWrite off val) s = now c) ∧
      (0x20000000 ≤ o → exec (.registerWrite off val) s = now c) ∧
      (0x100000 ≤ o → o < 0x110000 → c.beingDispatched d (BitVec.ofNat 8 ((o - 0x100000) / 256)) = true →
        exec (.registerWrite off val) s = .fault .bindRewritten)) ∧
    -- BRODNIS_PORT_TRAINING, CLOCK_REFERENCE_LOSS, TIME_BEACON
    (∀ d (p : BitVec 4) up, p.toNat < 9 → ∃ c', exec (.brodnisPortTraining d p up) s = now c' ∧ c' = onDie d (fun x => { x with ports := (c'.die d).ports }) ∧
      ∀ k < 9, (c'.die d).ports.getLsbD k = if k = p.toNat then up else (c.die d).ports.getLsbD k) ∧
    (∃ c', exec .clockReferenceLoss s = now c' ∧ c' = { c with refLost := true, joined := false, colls := c'.colls } ∧
      c'.colls.length = c.colls.length ∧ ∀ (k : Nat) (x : Coll), c.colls[k]? = some x →
        ∃ y, c'.colls[k]? = some y ∧ y = { x with failed := y.failed } ∧ (y.failed = true ↔ x.failed = true ∨
          ((∃ g ∈ c.groups, g.launch = x.launch) ∧
            ¬∃ g ∈ c.groups, g.launch = x.launch ∧ g.grp = x.grp ∧ ∀ m < g.members.length, m ∈ x.arrived))) ∧
    (∀ val, (c.joined = true ∨ c.anyBound = true → exec (.timeBeacon val) s = .next s) ∧
      (c.joined = false → c.anyBound = false →
        exec (.timeBeacon val) s = .next { s with clk := max s.clk val, chip := { c with joined := true, refLost := false } })) ∧
    -- THERMAL_STOP: every running strand is frozen as the clk ends (PreemptionFreezesTheStrand), the launches concerned get STATUS 1, and no commit is acted on from then
    (∀ d, c.stopped = true → exec (.thermalStop d) s = now c) ∧
    (∀ d, c.stopped = false → ∃ c', exec (.thermalStop d) s = now c' ∧ c'.stopped = true ∧ c'.mem = c.mem ∧
      (∀ n, let t := c.tileAt n; (t.st = .running ∨ t.st = .halting → c'.tileAt n = { t with freezing := true }) ∧
        (t.st ≠ .running → t.st ≠ .halting → c'.tileAt n = t)) ∧
      ∀ l ∈ c.launches, (∃ n, (c.tileAt n).runs = true ∧ (c.tileAt n).bound.launch = l.num) →
        ∃ m ∈ c'.launches, m.num = l.num ∧ m.status = (if l.status = 0 then 1 else l.status)) ∧
    (∀ d cl val, c.stopped = true → exec (.ccommit d cl val) s = now c) ∧
    -- POWER_UP: the module as reset leaves it; fuses and host memory stand
    (∃ c', exec .powerUp s = now c' ∧ c'.tiles = Chip.reset.tiles ∧ c'.mem = [] ∧ c'.host = c.host ∧ c'.die0 = Chip.reset.die0 ∧
      c'.die1 = Chip.reset.die1 ∧ c'.firm = { Firm.reset with vlock := c.firm.vlock, floor := c.firm.floor, keys := c.firm.keys })


/-! ## The whole machine -/

/-- R19: CYC never runs backward. A turn of the agenda, taken, lets its clk pass, and at most one more for a word that it splits, unless it is a
time beacon's; what is due first is done in the clk that it is due in; while words stand in queues the clk of a turn pass one at
a time, and a clk that is a multiple of 2^18 is not passed while a strand runs (log entry 74). That a step is a turn's act is log entry 1, the default
turn log entry 2. -/
def Obligations.CycNeverRunsBackward : Prop :=
  ∀ s t : State, step s = .next t →
    s.clk ≤ t.clk ∧
    (∀ u rest, s.agenda = u :: rest →
      (s.takes u → t.agenda = rest ∧ s.clk + u.ticks ≤ t.clk ∧ ((∀ v, u.act ≠ .event (.timeBeacon v)) → t.clk ≤ s.clk + u.ticks + 1)) ∧
      (u.ticks ≠ 0 → s.due ≠ none → t.agenda = s.agenda ∧ t.clk = s.clk) ∧
      (s.due = none → s.busy = true → s.toBound ≤ u.ticks → s.toBound = 1 ∨ s.anyQueued = false →
        t.agenda = { u with ticks := u.ticks - s.toBound } :: rest ∧ t.clk = s.clk + s.toBound ∧ 2 ^ 18 ∣ t.clk) ∧
      (s.due = none → 1 < u.ticks → s.anyQueued = true → s.busy = false ∨ s.toBound ≠ 1 → t = { s with clk := s.clk + 1, agenda := { u with ticks := u.ticks - 1 } :: rest })) ∧
    (s.agenda = [] → (t.agenda = [] ∨ (s.toBound = 1 ∧ t.agenda = [{ s.defaultTurn with ticks := 0 }])) ∧ (s.due ≠ none → t.clk = s.clk) ∧ (s.due = none → s.clk + 1 ≤ t.clk ∧ t.clk ≤ s.clk + 2))

/-- HBM and host memory stand in their one canonical form after every step that starts from such memories, so that equal memories are equal
data, whatever the act and the happenings beside it. -/
def Obligations.StepKeepsMemoriesCanonical : Prop :=
  ∀ s t : State, s.memOk → step s = .next t → t.memOk

/-- What reset leaves: both memories in their canonical form and no byte written (what a byte reads as is log entry 3); no strand on any tile; every tile at its bind values and not
fenced (log entry 4); no bind record, translation, bank or launch; the registers of R345, R351, R363, R364, R368 and R371 at their reset
values. CYC 0 and empty fuses are the model's choice (log entry 5). -/
def Obligations.ResetLeavesAnIdleModule : Prop :=
  State.reset.memOk ∧ (∀ k, State.reset.byteAt k = Config.ramByte) ∧ State.reset.agenda = [] ∧
  (∀ n : TileId, let t := State.reset.chip.tileAt n
    t.st = .absent ∧ t.mode = .user ∧ t.fence.fenced = false ∧ (∀ k, t.getS k = 0) ∧ (∀ k, k ≠ 0 → t.getP k = 0) ∧ t.getP 0 = BitVec.allOnes 64 ∧
      (∀ k, t.getV k = 0) ∧ (∀ k, t.getCb k = .zero) ∧ t.regs.basin = .zero ∧ t.sys.tvec = 0 ∧ t.sys.vflags = 0 ∧ t.sys.mflags = 0 ∧
      (∀ k, vget t.replay k = none) ∧ t.wake = false ∧ t.watch = [] ∧ ∀ b, t.bufs.get b = []) ∧
  (∀ d : Bool, let x := State.reset.chip.die d
    (∀ e, slotV (vget x.slots e) = false) ∧ x.tlb = [] ∧ x.inval = none ∧ x.banks = [] ∧ x.rtbase = 0 ∧ x.rtfirst = 0 ∧ x.rtcount = 0 ∧ x.bcbase = 0 ∧
      x.bclog = 0 ∧ x.bchead = 0 ∧ x.bctail = 0 ∧ x.bclost = 0 ∧ x.rthr = 0x1000 ∧ x.orphcnt = 0 ∧ x.tinva = 0 ∧ x.tinvl = 0 ∧
      (∀ p, (vget x.pairs p).en = false ∧ (vget x.pairs p).cqtail = 0 ∧ (vget x.pairs p).cqhead = 0) ∧ x.ports = 0 ∧ x.domain = 0) ∧
  State.reset.chip.firm.fwaddr = 0 ∧ State.reset.chip.firm.st = 0 ∧ State.reset.chip.lock = false ∧
  State.reset.clk = 0 ∧ (∀ k, vget State.reset.chip.firm.keys k = .empty) ∧
  (∀ h, vget State.reset.chip.firm.harts h = none) ∧ State.reset.chip.launches = [] ∧ State.reset.chip.teams = [] ∧ State.reset.chip.flits = []

/-- The frame of every instruction word: no word changes a byte of HBM or of host memory, or the clk, by itself (its accesses do, later); a
scalar word changes at most its destination register and the splitter's state; any other X word at most the scalar and address registers that it
names, the stage predicates and VRB where it is a loop's, VRB where it is tret, and of the buffers, the replay entries and the engines' commands
only what a word drops that drops entries; a word of the L and S queues at most the address register it
advances; a word of the vector, matrix, copy and code units no register at its issue; only a code word, or a store that a guarded phase logs, changes a byte of the tile's buffers, and those of AB alone. -/
def Obligations.WordsKeepWhatTheyDoNotName : Prop :=
  ∀ (s t : State) (i : Instr), exec i s = .next t →
    (i.eng ≠ none → t.chip.mem = s.chip.mem ∧ t.chip.host = s.chip.host ∧ t.clk = s.clk ∧ t.agenda = s.agenda ∧
      t.chip.focus = s.chip.focus ∧ t.chip.die0.slots = s.chip.die0.slots ∧ t.chip.firm = s.chip.firm) ∧
    (s.tile.sramUe = [] →
      let f := s.tile
      let g := t.tile
      -- a phase counts the clk of its last result (R309)
      let samePhase : Prop := g.phase = f.phase ∨ ∃ p, f.phase = some p ∧ g.phase = some { p with last := s.clk }
      let still : Prop := g.bufs = f.bufs ∧ g.replay = f.replay ∧ g.watch = f.watch ∧ g.wake = f.wake ∧ g.mat = f.mat ∧ g.chan = f.chan ∧
        g.unv = f.unv ∧ samePhase ∧ g.pipe = f.pipe ∧ g.vpend = f.vpend ∧ g.rings = f.rings ∧ g.st = f.st ∧ g.mode = f.mode
      let divides (h : Hdr) (d : SReg) : Prop := ∃ o : RRR, o.d = d ∧ i ∈ [Instr.div h o, .divn h o, .rem h o, .remn h o]
      let scalar (h : Hdr) (d : SReg) : Prop :=
        (∃ o : RRR, o.d = d ∧ i ∈ [Instr.add h o, .sub h o, .mul h o, .mulh h o, .mulhn h o, .and h o, .or h o, .xor h o, .shl h o, .shr h o, .sar h o,
            .min h o, .max h o, .minn h o, .maxn h o, .seq h o, .slt h o, .sltn h o]) ∨
          (∃ o : RRI, o.d = d ∧ i ∈ [Instr.addi h o, .andi h o, .ori h o, .xori h o]) ∨ (∃ o : RRS, o.d = d ∧ i ∈ [Instr.shli h o, .shri h o, .sari h o]) ∨
          (∃ o : RR, o.d = d ∧ i ∈ [Instr.clz h o, .popc h o]) ∨ (∃ o : BfOp, o.d = d ∧ i ∈ [Instr.bfx h o, .bfi h o]) ∨ (∃ imm, i = .movi h d imm) ∨
          (∃ imm, i = .movhi h (.mid d imm)) ∨ (∃ imm, i = .movhi h (.top d imm)) ∨ ∃ r, i = .movs h d r
      (∀ (h : Hdr) (d : SReg), scalar h d →
        still ∧ g.sys = f.sys ∧ (∀ m, m ≠ d → g.getS m = f.getS m) ∧ g.regs = { f.regs with s := g.regs.s }) ∧
      (∀ (h : Hdr) (d : SReg), divides h d →
        (∀ m, m ≠ d → g.getS m = f.getS m) ∧ g.regs = { f.regs with s := g.regs.s } ∧ g.sys.vflags = f.sys.vflags) ∧
      (i.eng = some .ctrl ∨ i.eng = some .sys →
        let dst : List SReg := match i with
          | .waita _ d _ _ => [d]
          | .bri _ _ true => [31]
          | .call _ _ => [31]
          | .mfs _ o => [o.d]
          | .rqrd _ o => [o.d, o.c]
          | .amov _ (.toS d _) => [d]
          | _ => []
        let adst : Option AReg := match i with
          | .amode _ o => some o.d
          | .amov _ (.toA d _) => some d
          | _ => none
        let drops : Prop := (∃ h n, i = .rqrel h n) ∨ (∃ h n, i = .rqdrop h n) ∨ ∃ h, i = .halt h
        g.regs = { f.regs with s := g.regs.s, a := g.regs.a, p := g.regs.p, vrb := g.regs.vrb } ∧
        ((∀ h d, ¬scalar h d ∧ ¬divides h d) → ∀ m, m ∉ dst → g.getS m = f.getS m) ∧ (∀ r, adst ≠ some r → g.getA r = f.getA r) ∧
        (∀ k : PReg, k.toNat < 4 → g.getP k = f.getP k) ∧
        ((∀ h o imm, i ≠ .lset h o ∧ i ≠ .loopb h imm ∧ i ≠ .lexit h) → g.regs.p = f.regs.p) ∧
        ((∀ h imm, i ≠ .loopb h imm ∧ i ≠ .tret h) → g.regs.vrb = f.regs.vrb) ∧
        g.watch = f.watch ∧ g.rings = f.rings ∧ g.mat = f.mat ∧ g.bufs = { f.bufs with ab := g.bufs.ab } ∧
        (¬drops → g.bufs = f.bufs ∧ g.replay = f.replay ∧ g.chan = f.chan ∧ g.unv = f.unv)) ∧
      (∀ h : Hdr, i = .nop h → still ∧ g.sys = f.sys ∧ g.regs = f.regs) ∧
      (∀ (h : Hdr) (imm : BitVec 17) (o : BrcOp) (p : BrpOp), i ∈ [Instr.br h imm, .brc h o, .brp h p] →
        g.regs = f.regs ∧ g.bufs = f.bufs ∧ g.watch = f.watch ∧ g.wake = f.wake ∧ g.mat = f.mat ∧ g.chan = f.chan ∧ g.unv = f.unv ∧
          samePhase) ∧
      (i.eng = some .load ∨ i.eng = some .store → g.regs = { f.regs with a := g.regs.a } ∧ (∀ r, postReg i ≠ some r → g.getA r = f.getA r) ∧
        (i.eng = some .load ∨ f.inPhase = false → g.bufs = f.bufs) ∧ g.bufs = { f.bufs with ab := g.bufs.ab } ∧
        ∀ p, f.phase = some p → f.bufs.ab.wf = true →
          let log := (f.sys.phcfg.extractLsb' 12 12).toNat * 128
          ∀ x, x < log + p.fill ∨ log + (f.sys.phcfg.extractLsb' 0 12).toNat * 128 ≤ x → g.bufs.ab.get x = f.bufs.ab.get x) ∧
      (i.eng = some .vec ∨ i.eng = some .mat ∨ i.eng = some .async → g.regs = f.regs ∧ g.bufs = f.bufs) ∧
      (i.eng = some .code → g.regs = f.regs ∧ g.bufs = { f.bufs with ab := g.bufs.ab }))
end

