-- ==== Sys2Proof/Laws/Memory.lean ====
section
/-! SUPPORT. Memory: the canonical form, that every operation keeps it, a read after a write. -/

namespace Sys2Proof.Machine

/-! ## The canonical form -/

/-- Every key of a memory lies above a bound. -/
def Memory.above (n : Nat) (m : Memory) : Prop := ∀ x ∈ m, n < x.1

theorem Memory.wf_cons {k : Nat} {b : Byte} {r : Memory} :
    Memory.wf ((k, b) :: r) = true ↔ b ≠ Config.ramByte ∧ Memory.above k r ∧ Memory.wf r = true := by
  induction r generalizing k b with
  | nil => simp [Memory.wf, Memory.above]
  | cons x r ih =>
    obtain ⟨k', b'⟩ := x
    have ih' := @ih k' b'
    constructor
    · intro h
      simp only [Memory.wf, Bool.and_eq_true, decide_eq_true_eq, bne_iff_ne] at h
      obtain ⟨⟨hb, hk⟩, hr⟩ := h
      refine ⟨hb, ?_, hr⟩
      obtain ⟨_, ha, _⟩ := ih'.mp hr
      intro y hy
      rcases List.mem_cons.mp hy with rfl | hy
      · exact hk
      · exact Nat.lt_trans hk (ha y hy)
    · rintro ⟨hb, ha, hr⟩
      simp only [Memory.wf, Bool.and_eq_true, decide_eq_true_eq, bne_iff_ne]
      exact ⟨⟨hb, ha (k', b') (List.mem_cons_self ..)⟩, hr⟩

@[simp] theorem Memory.wf_nil : Memory.wf [] = true := rfl

theorem Memory.wf_tail {x : Host.Cell} {r : Memory} (h : Memory.wf (x :: r) = true) : Memory.wf r = true :=
  (Memory.wf_cons.mp h).2.2

/-- Below its keys a memory reads as memory that nothing has written. -/
theorem Memory.get_above {m : Memory} {n a : Nat} (h : Memory.above n m) (ha : a ≤ n) : m.get a = Config.ramByte := by
  cases m with
  | nil => rfl
  | cons x r =>
    have hx := h x (List.mem_cons_self ..)
    simp only [Memory.get]
    rw [if_neg (by omega), if_pos (by omega)]

theorem Memory.above_cons {n k : Nat} {y : Byte} {r : Memory} : Memory.above n ((k, y) :: r) ↔ n < k ∧ Memory.above n r := by
  simp [Memory.above]

theorem Memory.above_set {m : Memory} {n a : Nat} {b : Byte} (h : Memory.above n m) (ha : n < a) : Memory.above n (m.set a b) := by
  induction m with
  | nil =>
    rw [Memory.set]
    split
    · exact h
    · exact Memory.above_cons.mpr ⟨ha, h⟩
  | cons x r ih =>
    obtain ⟨k, y⟩ := x
    obtain ⟨hk, hr⟩ := Memory.above_cons.mp h
    rw [Memory.set]
    split
    · split
      · exact h
      · exact Memory.above_cons.mpr ⟨ha, h⟩
    · split
      · split
        · exact hr
        · exact Memory.above_cons.mpr ⟨ha, hr⟩
      · exact Memory.above_cons.mpr ⟨hk, ih hr⟩

/-- A byte written keeps the canonical form. -/
theorem Memory.wf_set {m : Memory} (h : m.wf = true) (a : Nat) (b : Byte) : (m.set a b).wf = true := by
  induction m with
  | nil =>
    simp only [Memory.set]
    split
    · rfl
    · simpa [Memory.wf] using ‹_›
  | cons x r ih =>
    obtain ⟨k, y⟩ := x
    obtain ⟨hy, ha, hr⟩ := Memory.wf_cons.mp h
    simp only [Memory.set]
    split
    · split
      · exact h
      · rename_i hak hb
        refine Memory.wf_cons.mpr ⟨hb, ?_, h⟩
        intro z hz
        rcases List.mem_cons.mp hz with rfl | hz
        · exact hak
        · exact Nat.lt_trans hak (ha z hz)
    · split
      · split
        · exact hr
        · rename_i hak hb
          subst hak
          exact Memory.wf_cons.mpr ⟨hb, ha, hr⟩
      · exact Memory.wf_cons.mpr ⟨hy, Memory.above_set ha (by omega), ih hr⟩

/-- Bytes written keep the canonical form. -/
theorem Memory.wf_write {m : Memory} (h : m.wf = true) (a : Nat) (bs : List Byte) : (m.write a bs).wf = true := by
  induction bs generalizing m a with
  | nil => exact h
  | cons b r ih => exact ih (Memory.wf_set h a b) (a + 1)

/-! ## A read after a write -/

theorem Memory.get_set_same {m : Memory} (h : m.wf = true) (a : Nat) (b : Byte) : (m.set a b).get a = b := by
  induction m with
  | nil =>
    simp only [Memory.set]
    split
    · rename_i hb; exact hb.symm
    · simp [Memory.get]
  | cons x r ih =>
    obtain ⟨k, y⟩ := x
    obtain ⟨_, ha, hr⟩ := Memory.wf_cons.mp h
    simp only [Memory.set]
    split
    · rename_i hak
      split
      · rename_i hb
        simp only [Memory.get]
        rw [if_neg (by omega), if_pos hak, hb]
      · simp [Memory.get]
    · split
      · rename_i hak
        subst hak
        split
        · rename_i hb
          rw [Memory.get_above ha (Nat.le_refl _), hb]
        · simp [Memory.get]
      · rename_i h1 h2
        simp only [Memory.get]
        rw [if_neg (by omega), if_neg h1]
        exact ih hr

theorem Memory.get_set_other {m : Memory} (h : m.wf = true) (a : Nat) (b : Byte) (x : Nat) (hx : x ≠ a) :
    (m.set a b).get x = m.get x := by
  induction m with
  | nil =>
    simp only [Memory.set]
    split
    · rfl
    · simp only [Memory.get]
      rw [if_neg (by omega)]
      split <;> rfl
  | cons z r ih =>
    obtain ⟨k, y⟩ := z
    obtain ⟨_, ha, hr⟩ := Memory.wf_cons.mp h
    simp only [Memory.set]
    split
    · rename_i hak
      split
      · rfl
      · simp only [Memory.get]
        rw [if_neg (by omega)]
        split
        · rename_i hxa
          rw [if_neg (by omega), if_pos (by omega)]
        · rfl
    · split
      · rename_i hak
        subst hak
        split
        · simp only [Memory.get]
          rw [if_neg (Ne.symm hx)]
          split
          · exact Memory.get_above ha (by omega)
          · rfl
        · simp only [Memory.get]
          rw [if_neg (Ne.symm hx), if_neg (Ne.symm hx)]
      · simp only [Memory.get, ih hr]

/-- Outside the bytes written, memory reads as before. -/
theorem Memory.get_write_other {m : Memory} (h : m.wf = true) (a : Nat) (bs : List Byte) (x : Nat)
    (hx : x < a ∨ a + bs.length ≤ x) : (m.write a bs).get x = m.get x := by
  induction bs generalizing m a with
  | nil => rfl
  | cons b r ih =>
    simp only [List.length_cons] at hx
    rw [Memory.write, ih (Memory.wf_set h a b) (a + 1) (by omega)]
    exact Memory.get_set_other h a b x (by omega)

/-- Byte i of the bytes written stands at its place. -/
theorem Memory.get_write_at {m : Memory} (h : m.wf = true) (a : Nat) (bs : List Byte) (i : Nat) (hi : i < bs.length) :
    (m.write a bs).get (a + i) = bs[i] := by
  induction bs generalizing m a i with
  | nil => simp at hi
  | cons b r ih =>
    rw [Memory.write]
    cases i with
    | zero =>
      have := Memory.get_write_other (Memory.wf_set h a b) (a + 1) r a (by omega)
      exact this.trans (Memory.get_set_same h a b)
    | succ i =>
      have := ih (Memory.wf_set h a b) (a + 1) i (by simpa using hi)
      rw [show a + (i + 1) = a + 1 + i by omega, this]
      simp

@[simp] theorem Memory.length_read (m : Memory) (a n : Nat) : (m.read a n).length = n := by simp [Memory.read]

theorem Memory.getElem_read (m : Memory) (a n i : Nat) (h : i < n) : (m.read a n)[i]'(by simpa using h) = m.get (a + i) := by
  simp [Memory.read]

/-! ## The tiles' buffers -/

theorem Buffers.get_set_same (b : Buffers) (k : Buf) (m : Memory) : (b.set k m).get k = m := by cases k <;> rfl
theorem Buffers.get_set_other (b : Buffers) (k j : Buf) (m : Memory) (h : j ≠ k) : (b.set k m).get j = b.get j := by
  cases k <;> cases j <;> first | rfl | exact absurd rfl h

/-- A buffer written keeps the canonical form of every buffer. -/
theorem Tile.wf_writeBuf (t : Tile) (h : ∀ k, (t.bufs.get k).wf = true) (b : Buf) (off : Nat) (bs : List Byte) (k : Buf) :
    ((t.writeBuf b off bs).bufs.get k).wf = true := by
  by_cases hk : k = b
  · subst hk
    simp only [Tile.writeBuf, Buffers.get_set_same]
    exact Memory.wf_write (h k) off bs
  · simp only [Tile.writeBuf, Buffers.get_set_other _ _ _ _ hk]
    exact h k

theorem State.reset_mem_wf : State.reset.chip.mem.wf = true := rfl

end Sys2Proof.Machine
end

