-- ==== Sys2Proof/Laws/PerInstr.lean ====
section
/-! SUPPORT. For each instruction: the header of its word is its header and the ENG of its word the number of its engine (R45); a step of the
machine that no word names has neither word nor engine. -/

namespace Sys2Proof.Laws.WordFields
open Sys2Proof Sys2Proof.Machine

/-- The word of an instruction carries its header and its engine's number; an instruction has a word just where it has an engine. -/
def Statement (i : Instr) : Prop :=
  (∀ f : Fields, i.fields? = some f → f.h = i.hdr ∧ f.eng.toNat = instrEng i) ∧ i.fields?.isSome = i.eng.isSome

/-- A word whose fields are known. -/
theorem word {i : Instr} (f : Fields) (e : Eng) (hf : i.fields? = some f) (he : i.eng = some e) (hh : f.h = i.hdr)
    (hn : f.eng.toNat = engNum e) : Statement i :=
  ⟨fun g hg => by
    rw [hf] at hg
    obtain rfl := Option.some.inj hg
    exact ⟨hh, by simp [instrEng, he, hn]⟩, by simp [hf, he]⟩

/-- A step of the machine. -/
theorem event {i : Instr} (hf : i.fields? = none) (he : i.eng = none) : Statement i :=
  ⟨fun g hg => by simp [hf] at hg, by simp [hf, he]⟩

theorem nop (a0 : Hdr) : Statement (.nop a0) := word _ _ rfl rfl rfl rfl
theorem br (a0 : Hdr) (a1 : BitVec 17) : Statement (.br a0 a1) := word _ _ rfl rfl rfl rfl
theorem brc (a0 : Hdr) (a1 : BrcOp) : Statement (.brc a0 a1) := word _ _ rfl rfl rfl rfl
theorem brp (a0 : Hdr) (a1 : BrpOp) : Statement (.brp a0 a1) := word _ _ rfl rfl rfl rfl
theorem bri (a0 : Hdr) (a1 : SReg) (a2 : Bool) : Statement (.bri a0 a1 a2) := word _ _ rfl rfl rfl rfl
theorem call (a0 : Hdr) (a1 : BitVec 17) : Statement (.call a0 a1) := word _ _ rfl rfl rfl rfl
theorem ret (a0 : Hdr) : Statement (.ret a0) := word _ _ rfl rfl rfl rfl
theorem movi (a0 : Hdr) (a1 : SReg) (a2 : BitVec 25) : Statement (.movi a0 a1 a2) := word _ _ rfl rfl rfl rfl
theorem movhi (a0 : Hdr) (a1 : MovHi) : Statement (.movhi a0 a1) := by cases a1 <;> exact word _ _ rfl rfl rfl rfl
theorem add (a0 : Hdr) (a1 : RRR) : Statement (.add a0 a1) := word _ _ rfl rfl rfl rfl
theorem sub (a0 : Hdr) (a1 : RRR) : Statement (.sub a0 a1) := word _ _ rfl rfl rfl rfl
theorem addi (a0 : Hdr) (a1 : RRI) : Statement (.addi a0 a1) := word _ _ rfl rfl rfl rfl
theorem mul (a0 : Hdr) (a1 : RRR) : Statement (.mul a0 a1) := word _ _ rfl rfl rfl rfl
theorem mulh (a0 : Hdr) (a1 : RRR) : Statement (.mulh a0 a1) := word _ _ rfl rfl rfl rfl
theorem mulhn (a0 : Hdr) (a1 : RRR) : Statement (.mulhn a0 a1) := word _ _ rfl rfl rfl rfl
theorem div (a0 : Hdr) (a1 : RRR) : Statement (.div a0 a1) := word _ _ rfl rfl rfl rfl
theorem divn (a0 : Hdr) (a1 : RRR) : Statement (.divn a0 a1) := word _ _ rfl rfl rfl rfl
theorem rem (a0 : Hdr) (a1 : RRR) : Statement (.rem a0 a1) := word _ _ rfl rfl rfl rfl
theorem remn (a0 : Hdr) (a1 : RRR) : Statement (.remn a0 a1) := word _ _ rfl rfl rfl rfl
theorem and (a0 : Hdr) (a1 : RRR) : Statement (.and a0 a1) := word _ _ rfl rfl rfl rfl
theorem or (a0 : Hdr) (a1 : RRR) : Statement (.or a0 a1) := word _ _ rfl rfl rfl rfl
theorem xor (a0 : Hdr) (a1 : RRR) : Statement (.xor a0 a1) := word _ _ rfl rfl rfl rfl
theorem andi (a0 : Hdr) (a1 : RRI) : Statement (.andi a0 a1) := word _ _ rfl rfl rfl rfl
theorem ori (a0 : Hdr) (a1 : RRI) : Statement (.ori a0 a1) := word _ _ rfl rfl rfl rfl
theorem xori (a0 : Hdr) (a1 : RRI) : Statement (.xori a0 a1) := word _ _ rfl rfl rfl rfl
theorem shl (a0 : Hdr) (a1 : RRR) : Statement (.shl a0 a1) := word _ _ rfl rfl rfl rfl
theorem shr (a0 : Hdr) (a1 : RRR) : Statement (.shr a0 a1) := word _ _ rfl rfl rfl rfl
theorem sar (a0 : Hdr) (a1 : RRR) : Statement (.sar a0 a1) := word _ _ rfl rfl rfl rfl
theorem shli (a0 : Hdr) (a1 : RRS) : Statement (.shli a0 a1) := word _ _ rfl rfl rfl rfl
theorem shri (a0 : Hdr) (a1 : RRS) : Statement (.shri a0 a1) := word _ _ rfl rfl rfl rfl
theorem sari (a0 : Hdr) (a1 : RRS) : Statement (.sari a0 a1) := word _ _ rfl rfl rfl rfl
theorem min (a0 : Hdr) (a1 : RRR) : Statement (.min a0 a1) := word _ _ rfl rfl rfl rfl
theorem max (a0 : Hdr) (a1 : RRR) : Statement (.max a0 a1) := word _ _ rfl rfl rfl rfl
theorem minn (a0 : Hdr) (a1 : RRR) : Statement (.minn a0 a1) := word _ _ rfl rfl rfl rfl
theorem maxn (a0 : Hdr) (a1 : RRR) : Statement (.maxn a0 a1) := word _ _ rfl rfl rfl rfl
theorem clz (a0 : Hdr) (a1 : RR) : Statement (.clz a0 a1) := word _ _ rfl rfl rfl rfl
theorem popc (a0 : Hdr) (a1 : RR) : Statement (.popc a0 a1) := word _ _ rfl rfl rfl rfl
theorem bfx (a0 : Hdr) (a1 : BfOp) : Statement (.bfx a0 a1) := word _ _ rfl rfl rfl rfl
theorem bfi (a0 : Hdr) (a1 : BfOp) : Statement (.bfi a0 a1) := word _ _ rfl rfl rfl rfl
theorem seq (a0 : Hdr) (a1 : RRR) : Statement (.seq a0 a1) := word _ _ rfl rfl rfl rfl
theorem slt (a0 : Hdr) (a1 : RRR) : Statement (.slt a0 a1) := word _ _ rfl rfl rfl rfl
theorem sltn (a0 : Hdr) (a1 : RRR) : Statement (.sltn a0 a1) := word _ _ rfl rfl rfl rfl
theorem lset (a0 : Hdr) (a1 : LSetOp) : Statement (.lset a0 a1) := word _ _ rfl rfl rfl rfl
theorem loopb (a0 : Hdr) (a1 : BitVec 17) : Statement (.loopb a0 a1) := word _ _ rfl rfl rfl rfl
theorem lexit (a0 : Hdr) : Statement (.lexit a0) := word _ _ rfl rfl rfl rfl
theorem movs (a0 : Hdr) (a1 : SReg) (a2 : SpecReg) : Statement (.movs a0 a1 a2) := word _ _ rfl rfl rfl rfl
theorem amode (a0 : Hdr) (a1 : AModeOp) : Statement (.amode a0 a1) := word _ _ rfl rfl rfl rfl
theorem amov (a0 : Hdr) (a1 : AMovOp) : Statement (.amov a0 a1) := by cases a1 <;> exact word _ _ rfl rfl rfl rfl
theorem waitt (a0 : Hdr) (a1 : SReg) : Statement (.waitt a0 a1) := word _ _ rfl rfl rfl rfl
theorem waits (a0 : Hdr) (a1 : BitVec 7) : Statement (.waits a0 a1) := word _ _ rfl rfl rfl rfl
theorem waita (a0 : Hdr) (a1 : SReg) (a2 : SReg) (a3 : Bool) : Statement (.waita a0 a1 a2 a3) := word _ _ rfl rfl rfl rfl
theorem rwaite (a0 : Hdr) (a1 : SReg) (a2 : GReg) : Statement (.rwaite a0 a1 a2) := word _ _ rfl rfl rfl rfl
theorem rwaitf (a0 : Hdr) (a1 : SReg) (a2 : GReg) : Statement (.rwaitf a0 a1 a2) := word _ _ rfl rfl rfl rfl
theorem mon (a0 : Hdr) (a1 : SReg) : Statement (.mon a0 a1) := word _ _ rfl rfl rfl rfl
theorem moncl (a0 : Hdr) : Statement (.moncl a0) := word _ _ rfl rfl rfl rfl
theorem bar (a0 : Hdr) (a1 : BarLevel) (a2 : BitVec 4) : Statement (.bar a0 a1 a2) := word _ _ rfl rfl rfl rfl
theorem rinit (a0 : Hdr) (a1 : GReg) (a2 : SReg) (a3 : SReg) : Statement (.rinit a0 a1 a2 a3) := word _ _ rfl rfl rfl rfl
theorem ldb (a0 : Hdr) (a1 : SLdOp) : Statement (.ldb a0 a1) := word _ _ rfl rfl rfl rfl
theorem ldh (a0 : Hdr) (a1 : SLdOp) : Statement (.ldh a0 a1) := word _ _ rfl rfl rfl rfl
theorem ldw (a0 : Hdr) (a1 : SLdOp) : Statement (.ldw a0 a1) := word _ _ rfl rfl rfl rfl
theorem ldd (a0 : Hdr) (a1 : DLdOp) : Statement (.ldd a0 a1) := word _ _ rfl rfl rfl rfl
theorem ldv (a0 : Hdr) (a1 : VLdOp) : Statement (.ldv a0 a1) := word _ _ rfl rfl rfl rfl
theorem ldvs (a0 : Hdr) (a1 : VLdSOp) : Statement (.ldvs a0 a1) := word _ _ rfl rfl rfl rfl
theorem ldg (a0 : Hdr) (a1 : GLdOp) : Statement (.ldg a0 a1) := word _ _ rfl rfl rfl rfl
theorem lds (a0 : Hdr) (a1 : BLdOp) : Statement (.lds a0 a1) := word _ _ rfl rfl rfl rfl
theorem ldss (a0 : Hdr) (a1 : BLdSOp) : Statement (.ldss a0 a1) := word _ _ rfl rfl rfl rfl
theorem ldmx (a0 : Hdr) (a1 : MxOp) : Statement (.ldmx a0 a1) := word _ _ rfl rfl rfl rfl
theorem ldt (a0 : Hdr) (a1 : TileOp) : Statement (.ldt a0 a1) := word _ _ rfl rfl rfl rfl
theorem kvlook (a0 : Hdr) (a1 : RRR) : Statement (.kvlook a0 a1) := word _ _ rfl rfl rfl rfl
theorem ixld (a0 : Hdr) (a1 : IxLdOp) : Statement (.ixld a0 a1) := word _ _ rfl rfl rfl rfl
theorem pref (a0 : Hdr) (a1 : PrefOp) : Statement (.pref a0 a1) := word _ _ rfl rfl rfl rfl
theorem rfree (a0 : Hdr) (a1 : GReg) : Statement (.rfree a0 a1) := word _ _ rfl rfl rfl rfl
theorem mark (a0 : Hdr) (a1 : Scope) : Statement (.mark a0 a1) := word _ _ rfl rfl rfl rfl
theorem markS (a0 : Hdr) (a1 : Scope) : Statement (.markS a0 a1) := word _ _ rfl rfl rfl rfl
theorem fadd (a0 : Hdr) (a1 : FBin) : Statement (.fadd a0 a1) := word _ _ rfl rfl rfl rfl
theorem fsub (a0 : Hdr) (a1 : FBin) : Statement (.fsub a0 a1) := word _ _ rfl rfl rfl rfl
theorem fmul (a0 : Hdr) (a1 : FBin) : Statement (.fmul a0 a1) := word _ _ rfl rfl rfl rfl
theorem fma (a0 : Hdr) (a1 : FTern) : Statement (.fma a0 a1) := word _ _ rfl rfl rfl rfl
theorem fms (a0 : Hdr) (a1 : FTern) : Statement (.fms a0 a1) := word _ _ rfl rfl rfl rfl
theorem fnma (a0 : Hdr) (a1 : FTern) : Statement (.fnma a0 a1) := word _ _ rfl rfl rfl rfl
theorem fmin (a0 : Hdr) (a1 : VBin) : Statement (.fmin a0 a1) := word _ _ rfl rfl rfl rfl
theorem fmax (a0 : Hdr) (a1 : VBin) : Statement (.fmax a0 a1) := word _ _ rfl rfl rfl rfl
theorem fabs (a0 : Hdr) (a1 : VUn) : Statement (.fabs a0 a1) := word _ _ rfl rfl rfl rfl
theorem fneg (a0 : Hdr) (a1 : VUn) : Statement (.fneg a0 a1) := word _ _ rfl rfl rfl rfl
theorem fcpys (a0 : Hdr) (a1 : VBin) : Statement (.fcpys a0 a1) := word _ _ rfl rfl rfl rfl
theorem fdiv (a0 : Hdr) (a1 : FBin) : Statement (.fdiv a0 a1) := word _ _ rfl rfl rfl rfl
theorem fsqrt (a0 : Hdr) (a1 : FUn) : Statement (.fsqrt a0 a1) := word _ _ rfl rfl rfl rfl
theorem frcp (a0 : Hdr) (a1 : FUn) : Statement (.frcp a0 a1) := word _ _ rfl rfl rfl rfl
theorem frsq (a0 : Hdr) (a1 : FUn) : Statement (.frsq a0 a1) := word _ _ rfl rfl rfl rfl
theorem fexp2 (a0 : Hdr) (a1 : FUn) : Statement (.fexp2 a0 a1) := word _ _ rfl rfl rfl rfl
theorem flog2 (a0 : Hdr) (a1 : FUn) : Statement (.flog2 a0 a1) := word _ _ rfl rfl rfl rfl
theorem fcmp (a0 : Hdr) (a1 : FCmpOp) : Statement (.fcmp a0 a1) := word _ _ rfl rfl rfl rfl
theorem fclass (a0 : Hdr) (a1 : VUn) : Statement (.fclass a0 a1) := word _ _ rfl rfl rfl rfl
theorem fcvt (a0 : Hdr) (a1 : CvtOp) : Statement (.fcvt a0 a1) := word _ _ rfl rfl rfl rfl
theorem fscalb (a0 : Hdr) (a1 : FBin) : Statement (.fscalb a0 a1) := word _ _ rfl rfl rfl rfl
theorem icvt (a0 : Hdr) (a1 : CvtOp) : Statement (.icvt a0 a1) := word _ _ rfl rfl rfl rfl
theorem iadd (a0 : Hdr) (a1 : VBinSat) : Statement (.iadd a0 a1) := word _ _ rfl rfl rfl rfl
theorem isub (a0 : Hdr) (a1 : VBinSat) : Statement (.isub a0 a1) := word _ _ rfl rfl rfl rfl
theorem imul (a0 : Hdr) (a1 : VBinSat) : Statement (.imul a0 a1) := word _ _ rfl rfl rfl rfl
theorem imulh (a0 : Hdr) (a1 : VBin) : Statement (.imulh a0 a1) := word _ _ rfl rfl rfl rfl
theorem imad (a0 : Hdr) (a1 : VTernSat) : Statement (.imad a0 a1) := word _ _ rfl rfl rfl rfl
theorem imin (a0 : Hdr) (a1 : VBin) : Statement (.imin a0 a1) := word _ _ rfl rfl rfl rfl
theorem imax (a0 : Hdr) (a1 : VBin) : Statement (.imax a0 a1) := word _ _ rfl rfl rfl rfl
theorem iabs (a0 : Hdr) (a1 : VUnSat) : Statement (.iabs a0 a1) := word _ _ rfl rfl rfl rfl
theorem iand (a0 : Hdr) (a1 : VBin) : Statement (.iand a0 a1) := word _ _ rfl rfl rfl rfl
theorem ior (a0 : Hdr) (a1 : VBin) : Statement (.ior a0 a1) := word _ _ rfl rfl rfl rfl
theorem ixor (a0 : Hdr) (a1 : VBin) : Statement (.ixor a0 a1) := word _ _ rfl rfl rfl rfl
theorem inot (a0 : Hdr) (a1 : VUn) : Statement (.inot a0 a1) := word _ _ rfl rfl rfl rfl
theorem ishl (a0 : Hdr) (a1 : VBin) : Statement (.ishl a0 a1) := word _ _ rfl rfl rfl rfl
theorem ishr (a0 : Hdr) (a1 : VBin) : Statement (.ishr a0 a1) := word _ _ rfl rfl rfl rfl
theorem isar (a0 : Hdr) (a1 : VBin) : Statement (.isar a0 a1) := word _ _ rfl rfl rfl rfl
theorem icmp (a0 : Hdr) (a1 : ICmpOp) : Statement (.icmp a0 a1) := word _ _ rfl rfl rfl rfl
theorem sel (a0 : Hdr) (a1 : SelOp) : Statement (.sel a0 a1) := word _ _ rfl rfl rfl rfl
theorem movv (a0 : Hdr) (a1 : MovvOp) : Statement (.movv a0 a1) := word _ _ rfl rfl rfl rfl
theorem bcast (a0 : Hdr) (a1 : BcastOp) : Statement (.bcast a0 a1) := by obtain ⟨d, x, t⟩ := a1; cases x <;> exact word _ _ rfl rfl rfl rfl
theorem extr (a0 : Hdr) (a1 : ExtrOp) : Statement (.extr a0 a1) := word _ _ rfl rfl rfl rfl
theorem iota (a0 : Hdr) (a1 : IotaOp) : Statement (.iota a0 a1) := word _ _ rfl rfl rfl rfl
theorem perm (a0 : Hdr) (a1 : PermOp) : Statement (.perm a0 a1) := word _ _ rfl rfl rfl rfl
theorem shfl (a0 : Hdr) (a1 : ShflOp) : Statement (.shfl a0 a1) := word _ _ rfl rfl rfl rfl
theorem rdadd (a0 : Hdr) (a1 : RdOp) : Statement (.rdadd a0 a1) := word _ _ rfl rfl rfl rfl
theorem rdmax (a0 : Hdr) (a1 : RdOp) : Statement (.rdmax a0 a1) := word _ _ rfl rfl rfl rfl
theorem rdmin (a0 : Hdr) (a1 : RdOp) : Statement (.rdmin a0 a1) := word _ _ rfl rfl rfl rfl
theorem scan (a0 : Hdr) (a1 : ScanOp) : Statement (.scan a0 a1) := word _ _ rfl rfl rfl rfl
theorem topk (a0 : Hdr) (a1 : TopkOp) : Statement (.topk a0 a1) := word _ _ rfl rfl rfl rfl
theorem vhist (a0 : Hdr) (a1 : VhistOp) : Statement (.vhist a0 a1) := word _ _ rfl rfl rfl rfl
theorem okey (a0 : Hdr) (a1 : VUn) : Statement (.okey a0 a1) := word _ _ rfl rfl rfl rfl
theorem okeyi (a0 : Hdr) (a1 : VUn) : Statement (.okeyi a0 a1) := word _ _ rfl rfl rfl rfl
theorem digit (a0 : Hdr) (a1 : DigitOp) : Statement (.digit a0 a1) := word _ _ rfl rfl rfl rfl
theorem pcnt (a0 : Hdr) (a1 : PcntOp) : Statement (.pcnt a0 a1) := word _ _ rfl rfl rfl rfl
theorem pand (a0 : Hdr) (a1 : PBinOp) : Statement (.pand a0 a1) := word _ _ rfl rfl rfl rfl
theorem por (a0 : Hdr) (a1 : PBinOp) : Statement (.por a0 a1) := word _ _ rfl rfl rfl rfl
theorem pxor (a0 : Hdr) (a1 : PBinOp) : Statement (.pxor a0 a1) := word _ _ rfl rfl rfl rfl
theorem pnot (a0 : Hdr) (a1 : PUnOp) : Statement (.pnot a0 a1) := word _ _ rfl rfl rfl rfl
theorem mma (a0 : Hdr) (a1 : MmaOp) : Statement (.mma a0 a1) := word _ _ rfl rfl rfl rfl
theorem mmaw (a0 : Hdr) (a1 : MmawOp) : Statement (.mmaw a0 a1) := word _ _ rfl rfl rfl rfl
theorem aclr (a0 : Hdr) (a1 : BitVec 16) : Statement (.aclr a0 a1) := word _ _ rfl rfl rfl rfl
theorem ard (a0 : Hdr) (a1 : ArdOp) : Statement (.ard a0 a1) := word _ _ rfl rfl rfl rfl
theorem awr (a0 : Hdr) (a1 : AwrOp) : Statement (.awr a0 a1) := word _ _ rfl rfl rfl rfl
theorem adrn (a0 : Hdr) (a1 : AdrnOp) : Statement (.adrn a0 a1) := word _ _ rfl rfl rfl rfl
theorem mstat (a0 : Hdr) (a1 : MstatOp) : Statement (.mstat a0 a1) := word _ _ rfl rfl rfl rfl
theorem stb (a0 : Hdr) (a1 : SStOp) : Statement (.stb a0 a1) := word _ _ rfl rfl rfl rfl
theorem sth (a0 : Hdr) (a1 : SStOp) : Statement (.sth a0 a1) := word _ _ rfl rfl rfl rfl
theorem stw (a0 : Hdr) (a1 : SStOp) : Statement (.stw a0 a1) := word _ _ rfl rfl rfl rfl
theorem std (a0 : Hdr) (a1 : DStOp) : Statement (.std a0 a1) := word _ _ rfl rfl rfl rfl
theorem stv (a0 : Hdr) (a1 : VStOp) : Statement (.stv a0 a1) := word _ _ rfl rfl rfl rfl
theorem stvs (a0 : Hdr) (a1 : VStSOp) : Statement (.stvs a0 a1) := word _ _ rfl rfl rfl rfl
theorem stg (a0 : Hdr) (a1 : GStOp) : Statement (.stg a0 a1) := word _ _ rfl rfl rfl rfl
theorem sts (a0 : Hdr) (a1 : BStOp) : Statement (.sts a0 a1) := word _ _ rfl rfl rfl rfl
theorem stss (a0 : Hdr) (a1 : BStSOp) : Statement (.stss a0 a1) := word _ _ rfl rfl rfl rfl
theorem stmx (a0 : Hdr) (a1 : MxOp) : Statement (.stmx a0 a1) := word _ _ rfl rfl rfl rfl
theorem stt (a0 : Hdr) (a1 : TileOp) : Statement (.stt a0 a1) := word _ _ rfl rfl rfl rfl
theorem ixst (a0 : Hdr) (a1 : IxStOp) : Statement (.ixst a0 a1) := word _ _ rfl rfl rfl rfl
theorem atom (a0 : Hdr) (a1 : AtomOpnd) : Statement (.atom a0 a1) := word _ _ rfl rfl rfl rfl
theorem acas (a0 : Hdr) (a1 : AcasOp) : Statement (.acas a0 a1) := word _ _ rfl rfl rfl rfl
theorem red (a0 : Hdr) (a1 : RedOpnd) : Statement (.red a0 a1) := word _ _ rfl rfl rfl rfl
theorem rpub (a0 : Hdr) (a1 : GReg) : Statement (.rpub a0 a1) := word _ _ rfl rfl rfl rfl
theorem fence (a0 : Hdr) (a1 : Scope) : Statement (.fence a0 a1) := word _ _ rfl rfl rfl rfl
theorem cpy (a0 : Hdr) (a1 : CpyOp) : Statement (.cpy a0 a1) := word _ _ rfl rfl rfl rfl
theorem cpyf (a0 : Hdr) (a1 : CpyfOp) : Statement (.cpyf a0 a1) := word _ _ rfl rfl rfl rfl
theorem cpyq (a0 : Hdr) (a1 : RR) : Statement (.cpyq a0 a1) := word _ _ rfl rfl rfl rfl
theorem cred (a0 : Hdr) (a1 : CredOp) : Statement (.cred a0 a1) := word _ _ rfl rfl rfl rfl
theorem cmc (a0 : Hdr) (a1 : CmcOp) : Statement (.cmc a0 a1) := word _ _ rfl rfl rfl rfl
theorem cbar (a0 : Hdr) (a1 : CbarOp) : Statement (.cbar a0 a1) := word _ _ rfl rfl rfl rfl
theorem unv (a0 : Hdr) (a1 : UnvOp) : Statement (.unv a0 a1) := word _ _ rfl rfl rfl rfl
theorem patclr (a0 : Hdr) (a1 : PatclrOp) : Statement (.patclr a0 a1) := word _ _ rfl rfl rfl rfl
theorem cbld (a0 : Hdr) (a1 : CbMemOp) : Statement (.cbld a0 a1) := word _ _ rfl rfl rfl rfl
theorem cbst (a0 : Hdr) (a1 : CbMemOp) : Statement (.cbst a0 a1) := word _ _ rfl rfl rfl rfl
theorem cbget (a0 : Hdr) (a1 : CbGetOp) : Statement (.cbget a0 a1) := word _ _ rfl rfl rfl rfl
theorem cbput (a0 : Hdr) (a1 : CbPutOp) : Statement (.cbput a0 a1) := word _ _ rfl rfl rfl rfl
theorem cbcnt (a0 : Hdr) (a1 : CbCntOp) : Statement (.cbcnt a0 a1) := by cases a1 <;> exact word _ _ rfl rfl rfl rfl
theorem cbdedup (a0 : Hdr) (a1 : CReg) : Statement (.cbdedup a0 a1) := word _ _ rfl rfl rfl rfl
theorem ixremap (a0 : Hdr) (a1 : IxRemapOp) : Statement (.ixremap a0 a1) := word _ _ rfl rfl rfl rfl
theorem cbenc (a0 : Hdr) (a1 : CbEncOp) : Statement (.cbenc a0 a1) := word _ _ rfl rfl rfl rfl
theorem cbdec (a0 : Hdr) (a1 : CbDecOp) : Statement (.cbdec a0 a1) := word _ _ rfl rfl rfl rfl
theorem ixmov (a0 : Hdr) (a1 : RRR) : Statement (.ixmov a0 a1) := word _ _ rfl rfl rfl rfl
theorem cbpair (a0 : Hdr) (a1 : CbPairOp) : Statement (.cbpair a0 a1) := word _ _ rfl rfl rfl rfl
theorem ixpair (a0 : Hdr) (a1 : IxPairOp) : Statement (.ixpair a0 a1) := word _ _ rfl rfl rfl rfl
theorem ixhist (a0 : Hdr) (a1 : RR) : Statement (.ixhist a0 a1) := word _ _ rfl rfl rfl rfl
theorem reclust (a0 : Hdr) (a1 : ReclustOp) : Statement (.reclust a0 a1) := word _ _ rfl rfl rfl rfl
theorem bsget (a0 : Hdr) (a1 : BsGetOp) : Statement (.bsget a0 a1) := by cases a1 <;> exact word _ _ rfl rfl rfl rfl
theorem trap (a0 : Hdr) (a1 : Bool) (a2 : BitVec 16) : Statement (.trap a0 a1 a2) := word _ _ rfl rfl rfl rfl
theorem tret (a0 : Hdr) : Statement (.tret a0) := word _ _ rfl rfl rfl rfl
theorem mfs (a0 : Hdr) (a1 : MfsOp) : Statement (.mfs a0 a1) := word _ _ rfl rfl rfl rfl
theorem mts (a0 : Hdr) (a1 : MtsOp) : Statement (.mts a0 a1) := word _ _ rfl rfl rfl rfl
theorem rqrd (a0 : Hdr) (a1 : RqrdOp) : Statement (.rqrd a0 a1) := word _ _ rfl rfl rfl rfl
theorem rqrel (a0 : Hdr) (a1 : RqSel) : Statement (.rqrel a0 a1) := word _ _ rfl rfl rfl rfl
theorem rqdrop (a0 : Hdr) (a1 : RqSel) : Statement (.rqdrop a0 a1) := word _ _ rfl rfl rfl rfl
theorem phase (a0 : Hdr) (a1 : SReg) : Statement (.phase a0 a1) := word _ _ rfl rfl rfl rfl
theorem icflush (a0 : Hdr) (a1 : SReg) (a2 : SReg) : Statement (.icflush a0 a1 a2) := word _ _ rfl rfl rfl rfl
theorem halt (a0 : Hdr) : Statement (.halt a0) := word _ _ rfl rfl rfl rfl
theorem resultWrite : Statement .resultWrite := event rfl rfl
theorem accessPerform (a0 : FrameSel) (a1 : Fifo) (a2 : Nat) (a3 : Nat) : Statement (.accessPerform a0 a1 a2 a3) := event rfl rfl
theorem remoteRequest (a0 : FrameSel) (a1 : Fifo) (a2 : Nat) (a3 : Nat) : Statement (.remoteRequest a0 a1 a2 a3) := event rfl rfl
theorem variableLatencyCompletion (a0 : Nat) : Statement (.variableLatencyCompletion a0) := event rfl rfl
theorem accessResponse (a0 : Nat) : Statement (.accessResponse a0) := event rfl rfl
theorem atomicStep (a0 : FrameSel) (a1 : Nat) (a2 : Nat) : Statement (.atomicStep a0 a1 a2) := event rfl rfl
theorem tileOperationPerform (a0 : FrameSel) (a1 : Fifo) (a2 : Nat) : Statement (.tileOperationPerform a0 a1 a2) := event rfl rfl
theorem watchWake : Statement .watchWake := event rfl rfl
theorem tokenDeadlock : Statement .tokenDeadlock := event rfl rfl
theorem trapEntry : Statement .trapEntry := event rfl rfl
theorem handlerFault : Statement .handlerFault := event rfl rfl
theorem trapReturn : Statement .trapReturn := event rfl rfl
theorem snapshotWrite : Statement .snapshotWrite := event rfl rfl
theorem waittWake : Statement .waittWake := event rfl rfl
theorem waitaDeadline : Statement .waitaDeadline := event rfl rfl
theorem monitorRegistrationAck : Statement .monitorRegistrationAck := event rfl rfl
theorem barrierArrival (a0 : FrameSel) : Statement (.barrierArrival a0) := event rfl rfl
theorem barrierRelease (a0 : BitVec 4) : Statement (.barrierRelease a0) := event rfl rfl
theorem ringRegistrationAnswer : Statement .ringRegistrationAnswer := event rfl rfl
theorem ringClaimGrant : Statement .ringClaimGrant := event rfl rfl
theorem promiseWrite : Statement .promiseWrite := event rfl rfl
theorem commandStart (a0 : CmdEng) : Statement (.commandStart a0) := event rfl rfl
theorem commandAcquire (a0 : CmdEng) : Statement (.commandAcquire a0) := event rfl rfl
theorem commandAccess (a0 : CmdEng) (a1 : Bool) (a2 : Nat) : Statement (.commandAccess a0 a1 a2) := event rfl rfl
theorem commandCompletion (a0 : CmdEng) : Statement (.commandCompletion a0) := event rfl rfl
theorem cpyfLineFill : Statement .cpyfLineFill := event rfl rfl
theorem readCountExpiry (a0 : Nat) : Statement (.readCountExpiry a0) := event rfl rfl
theorem unveilStateBlockRead : Statement .unveilStateBlockRead := event rfl rfl
theorem unveilRound : Statement .unveilRound := event rfl rfl
theorem patclrClear : Statement .patclrClear := event rfl rfl
theorem contributionArrival (a0 : Option Contribution) : Statement (.contributionArrival a0) := event rfl rfl
theorem matrixCommandStart : Statement .matrixCommandStart := event rfl rfl
theorem kStepCompletion : Statement .kStepCompletion := event rfl rfl
theorem matrixCommandCompletion : Statement .matrixCommandCompletion := event rfl rfl
theorem ardSnapshot : Statement .ardSnapshot := event rfl rfl
theorem phaseProceed : Statement .phaseProceed := event rfl rfl
theorem phaseCommit : Statement .phaseCommit := event rfl rfl
theorem phaseCancellation : Statement .phaseCancellation := event rfl rfl
theorem strikeReport : Statement .strikeReport := event rfl rfl
theorem pageTableWalk (a0 : BitVec 48) : Statement (.pageTableWalk a0) := event rfl rfl
theorem compressedBlockRecovery (a0 : BitVec 56) (a1 : BlockTry) : Statement (.compressedBlockRecovery a0 a1) := event rfl rfl
theorem strandRetirement : Statement .strandRetirement := event rfl rfl
theorem preemption : Statement .preemption := event rfl rfl
theorem csctlGo : Statement .csctlGo := event rfl rfl
theorem ccommit (a0 : Bool) (a1 : BitVec 4) (a2 : Word) : Statement (.ccommit a0 a1 a2) := event rfl rfl
theorem strandStart (a0 : Bool) (a1 : BitVec 4) : Statement (.strandStart a0 a1) := event rfl rfl
theorem launchRecord (a0 : Bool) (a1 : BitVec 3) : Statement (.launchRecord a0 a1) := event rfl rfl
theorem launchQueueSignal (a0 : BitVec 3) (a1 : BitVec 11) : Statement (.launchQueueSignal a0 a1) := event rfl rfl
theorem completionRecord (a0 : Bool) (a1 : BitVec 3) : Statement (.completionRecord a0 a1) := event rfl rfl
theorem heartbeatPeriod : Statement .heartbeatPeriod := event rfl rfl
theorem heartbeat (a0 : Dir) (a1 : Word) (a2 : Bool) : Statement (.heartbeat a0 a1 a2) := event rfl rfl
theorem vote (a0 : Dir) (a1 : Word) : Statement (.vote a0 a1) := event rfl rfl
theorem fenceNotice (a0 : Dir) (a1 : Word) : Statement (.fenceNotice a0 a1) := event rfl rfl
theorem selfTestCompletion (a0 : Bool) : Statement (.selfTestCompletion a0) := event rfl rfl
theorem appeal (a0 : Dir) (a1 : Word) (a2 : Bool) : Statement (.appeal a0 a1 a2) := event rfl rfl
theorem readmitVote (a0 : Dir) (a1 : Word) : Statement (.readmitVote a0 a1) := event rfl rfl
theorem readmit : Statement .readmit := event rfl rfl
theorem force : Statement .force := event rfl rfl
theorem orphcntRead (a0 : Bool) : Statement (.orphcntRead a0) := event rfl rfl
theorem bclostRead (a0 : Bool) : Statement (.bclostRead a0) := event rfl rfl
theorem bstatWrite (a0 : Bool) (a1 : BitVec 11) (a2 : Word) : Statement (.bstatWrite a0 a1 a2) := event rfl rfl
theorem membercfgWrite (a0 : Word) : Statement (.membercfgWrite a0) := event rfl rfl
theorem queuePairEnable (a0 : Bool) (a1 : BitVec 3) (a2 : Word) : Statement (.queuePairEnable a0 a1 a2) := event rfl rfl
theorem tinvcGo (a0 : Bool) (a1 : Word) : Statement (.tinvcGo a0 a1) := event rfl rfl
theorem invalidationComplete (a0 : Bool) : Statement (.invalidationComplete a0) := event rfl rfl
theorem fwctlGo : Statement .fwctlGo := event rfl rfl
theorem enrolKey (a0 : BitVec 2) (a1 : BitVec 512) (a2 : Signer) : Statement (.enrolKey a0 a1 a2) := event rfl rfl
theorem revokeSlot (a0 : BitVec 2) (a1 : Signer) : Statement (.revokeSlot a0 a1) := event rfl rfl
theorem raiseSvnFloor (a0 : BitVec 32) (a1 : Signer) : Statement (.raiseSvnFloor a0 a1) := event rfl rfl
theorem setVlock (a0 : Signer) : Statement (.setVlock a0) := event rfl rfl
theorem attestationRequest (a0 : BitVec 512) : Statement (.attestationRequest a0) := event rfl rfl
theorem bar2Access (a0 : BitVec 40) (a1 : BusReq) : Statement (.bar2Access a0 a1) := event rfl rfl
theorem clockReferenceLoss : Statement .clockReferenceLoss := event rfl rfl
theorem thermalStop (a0 : Bool) : Statement (.thermalStop a0) := event rfl rfl
theorem powerUp : Statement .powerUp := event rfl rfl
theorem registerWrite (a0 : BitVec 32) (a1 : Word) : Statement (.registerWrite a0 a1) := event rfl rfl
theorem wordSplit : Statement .wordSplit := event rfl rfl
theorem lineEviction (a0 : Nat) : Statement (.lineEviction a0) := event rfl rfl
theorem ownerAcknowledgement : Statement .ownerAcknowledgement := event rfl rfl
theorem monclAcknowledgement : Statement .monclAcknowledgement := event rfl rfl
theorem contextImageDone : Statement .contextImageDone := event rfl rfl
theorem firmwareLoadCompletion : Statement .firmwareLoadCompletion := event rfl rfl
theorem brodnisPortTraining (a0 : Bool) (a1 : BitVec 4) (a2 : Bool) : Statement (.brodnisPortTraining a0 a1 a2) := event rfl rfl
theorem timeBeacon (a0 : Nat) : Statement (.timeBeacon a0) := event rfl rfl
theorem sealRequest (a0 : SealReq) : Statement (.sealRequest a0) := event rfl rfl

end Sys2Proof.Laws.WordFields
end

