-- ==== Sys2Proof/Laws/State.lean ====
section
/-! SUPPORT. One small lemma for each field under each update of the state: what a write leaves unchanged, and what it changes. -/

namespace Sys2Proof.Machine

/-! ## The module under an update of one tile -/

@[simp] theorem Chip.setTileAt_focus (c : Chip) (n : TileId) (t : Tile) : (c.setTileAt n t).focus = c.focus := rfl
@[simp] theorem Chip.setTileAt_freeCnt (c : Chip) (n : TileId) (t : Tile) : (c.setTileAt n t).freeCnt = c.freeCnt := rfl
@[simp] theorem Chip.setTileAt_nextId (c : Chip) (n : TileId) (t : Tile) : (c.setTileAt n t).nextId = c.nextId := rfl
@[simp] theorem Chip.setTileAt_mem (c : Chip) (n : TileId) (t : Tile) : (c.setTileAt n t).mem = c.mem := rfl
@[simp] theorem Chip.setTileAt_counts (c : Chip) (n : TileId) (t : Tile) : (c.setTileAt n t).counts = c.counts := rfl
@[simp] theorem Chip.setTileAt_filter (c : Chip) (n : TileId) (t : Tile) : (c.setTileAt n t).filter = c.filter := rfl
@[simp] theorem Chip.setTileAt_dirty (c : Chip) (n : TileId) (t : Tile) : (c.setTileAt n t).dirty = c.dirty := rfl
@[simp] theorem Chip.setTileAt_ueLines (c : Chip) (n : TileId) (t : Tile) : (c.setTileAt n t).ueLines = c.ueLines := rfl
@[simp] theorem Chip.setTileAt_ueBlocks (c : Chip) (n : TileId) (t : Tile) : (c.setTileAt n t).ueBlocks = c.ueBlocks := rfl
@[simp] theorem Chip.setTileAt_blockWait (c : Chip) (n : TileId) (t : Tile) : (c.setTileAt n t).blockWait = c.blockWait := rfl
@[simp] theorem Chip.setTileAt_blockLost (c : Chip) (n : TileId) (t : Tile) : (c.setTileAt n t).blockLost = c.blockLost := rfl
@[simp] theorem Chip.setTileAt_compressed (c : Chip) (n : TileId) (t : Tile) : (c.setTileAt n t).compressed = c.compressed := rfl
@[simp] theorem Chip.setTileAt_flits (c : Chip) (n : TileId) (t : Tile) : (c.setTileAt n t).flits = c.flits := rfl
@[simp] theorem Chip.setTileAt_modnum (c : Chip) (n : TileId) (t : Tile) : (c.setTileAt n t).modnum = c.modnum := rfl
@[simp] theorem Chip.setTileAt_member (c : Chip) (n : TileId) (t : Tile) : (c.setTileAt n t).member = c.member := rfl
@[simp] theorem Chip.setTileAt_lock (c : Chip) (n : TileId) (t : Tile) : (c.setTileAt n t).lock = c.lock := rfl
@[simp] theorem Chip.setTileAt_joined (c : Chip) (n : TileId) (t : Tile) : (c.setTileAt n t).joined = c.joined := rfl
@[simp] theorem Chip.setTileAt_refLost (c : Chip) (n : TileId) (t : Tile) : (c.setTileAt n t).refLost = c.refLost := rfl
@[simp] theorem Chip.setTileAt_stopped (c : Chip) (n : TileId) (t : Tile) : (c.setTileAt n t).stopped = c.stopped := rfl
@[simp] theorem Chip.setTileAt_clusters (c : Chip) (n : TileId) (t : Tile) : (c.setTileAt n t).clusters = c.clusters := rfl
@[simp] theorem Chip.setTileAt_teams (c : Chip) (n : TileId) (t : Tile) : (c.setTileAt n t).teams = c.teams := rfl
@[simp] theorem Chip.setTileAt_teamCnt (c : Chip) (n : TileId) (t : Tile) : (c.setTileAt n t).teamCnt = c.teamCnt := rfl
@[simp] theorem Chip.setTileAt_saved (c : Chip) (n : TileId) (t : Tile) : (c.setTileAt n t).saved = c.saved := rfl
@[simp] theorem Chip.setTileAt_resumed (c : Chip) (n : TileId) (t : Tile) : (c.setTileAt n t).resumed = c.resumed := rfl
@[simp] theorem Chip.setTileAt_launches (c : Chip) (n : TileId) (t : Tile) : (c.setTileAt n t).launches = c.launches := rfl
@[simp] theorem Chip.setTileAt_launchCnt (c : Chip) (n : TileId) (t : Tile) : (c.setTileAt n t).launchCnt = c.launchCnt := rfl
@[simp] theorem Chip.setTileAt_groups (c : Chip) (n : TileId) (t : Tile) : (c.setTileAt n t).groups = c.groups := rfl
@[simp] theorem Chip.setTileAt_colls (c : Chip) (n : TileId) (t : Tile) : (c.setTileAt n t).colls = c.colls := rfl
@[simp] theorem Chip.setTileAt_firm (c : Chip) (n : TileId) (t : Tile) : (c.setTileAt n t).firm = c.firm := rfl
@[simp] theorem Chip.setTileAt_imsic (c : Chip) (n : TileId) (t : Tile) : (c.setTileAt n t).imsic = c.imsic := rfl
@[simp] theorem Chip.setTileAt_irqs (c : Chip) (n : TileId) (t : Tile) : (c.setTileAt n t).irqs = c.irqs := rfl
@[simp] theorem Chip.setTileAt_host (c : Chip) (n : TileId) (t : Tile) : (c.setTileAt n t).host = c.host := rfl
@[simp] theorem Chip.setTileAt_msixSent (c : Chip) (n : TileId) (t : Tile) : (c.setTileAt n t).msixSent = c.msixSent := rfl
@[simp] theorem Chip.setTileAt_answer (c : Chip) (n : TileId) (t : Tile) : (c.setTileAt n t).answer = c.answer := rfl
@[simp] theorem Chip.setTileAt_die0 (c : Chip) (n : TileId) (t : Tile) : (c.setTileAt n t).die0 = c.die0 := rfl
@[simp] theorem Chip.setTileAt_die1 (c : Chip) (n : TileId) (t : Tile) : (c.setTileAt n t).die1 = c.die1 := rfl
@[simp] theorem Chip.setTile_focus (c : Chip) (t : Tile) : (c.setTile t).focus = c.focus := rfl
@[simp] theorem Chip.setTile_freeCnt (c : Chip) (t : Tile) : (c.setTile t).freeCnt = c.freeCnt := rfl
@[simp] theorem Chip.setTile_nextId (c : Chip) (t : Tile) : (c.setTile t).nextId = c.nextId := rfl
@[simp] theorem Chip.setTile_mem (c : Chip) (t : Tile) : (c.setTile t).mem = c.mem := rfl
@[simp] theorem Chip.setTile_counts (c : Chip) (t : Tile) : (c.setTile t).counts = c.counts := rfl
@[simp] theorem Chip.setTile_filter (c : Chip) (t : Tile) : (c.setTile t).filter = c.filter := rfl
@[simp] theorem Chip.setTile_dirty (c : Chip) (t : Tile) : (c.setTile t).dirty = c.dirty := rfl
@[simp] theorem Chip.setTile_ueLines (c : Chip) (t : Tile) : (c.setTile t).ueLines = c.ueLines := rfl
@[simp] theorem Chip.setTile_ueBlocks (c : Chip) (t : Tile) : (c.setTile t).ueBlocks = c.ueBlocks := rfl
@[simp] theorem Chip.setTile_blockWait (c : Chip) (t : Tile) : (c.setTile t).blockWait = c.blockWait := rfl
@[simp] theorem Chip.setTile_blockLost (c : Chip) (t : Tile) : (c.setTile t).blockLost = c.blockLost := rfl
@[simp] theorem Chip.setTile_compressed (c : Chip) (t : Tile) : (c.setTile t).compressed = c.compressed := rfl
@[simp] theorem Chip.setTile_flits (c : Chip) (t : Tile) : (c.setTile t).flits = c.flits := rfl
@[simp] theorem Chip.setTile_modnum (c : Chip) (t : Tile) : (c.setTile t).modnum = c.modnum := rfl
@[simp] theorem Chip.setTile_member (c : Chip) (t : Tile) : (c.setTile t).member = c.member := rfl
@[simp] theorem Chip.setTile_lock (c : Chip) (t : Tile) : (c.setTile t).lock = c.lock := rfl
@[simp] theorem Chip.setTile_joined (c : Chip) (t : Tile) : (c.setTile t).joined = c.joined := rfl
@[simp] theorem Chip.setTile_refLost (c : Chip) (t : Tile) : (c.setTile t).refLost = c.refLost := rfl
@[simp] theorem Chip.setTile_stopped (c : Chip) (t : Tile) : (c.setTile t).stopped = c.stopped := rfl
@[simp] theorem Chip.setTile_clusters (c : Chip) (t : Tile) : (c.setTile t).clusters = c.clusters := rfl
@[simp] theorem Chip.setTile_teams (c : Chip) (t : Tile) : (c.setTile t).teams = c.teams := rfl
@[simp] theorem Chip.setTile_teamCnt (c : Chip) (t : Tile) : (c.setTile t).teamCnt = c.teamCnt := rfl
@[simp] theorem Chip.setTile_saved (c : Chip) (t : Tile) : (c.setTile t).saved = c.saved := rfl
@[simp] theorem Chip.setTile_resumed (c : Chip) (t : Tile) : (c.setTile t).resumed = c.resumed := rfl
@[simp] theorem Chip.setTile_launches (c : Chip) (t : Tile) : (c.setTile t).launches = c.launches := rfl
@[simp] theorem Chip.setTile_launchCnt (c : Chip) (t : Tile) : (c.setTile t).launchCnt = c.launchCnt := rfl
@[simp] theorem Chip.setTile_groups (c : Chip) (t : Tile) : (c.setTile t).groups = c.groups := rfl
@[simp] theorem Chip.setTile_colls (c : Chip) (t : Tile) : (c.setTile t).colls = c.colls := rfl
@[simp] theorem Chip.setTile_firm (c : Chip) (t : Tile) : (c.setTile t).firm = c.firm := rfl
@[simp] theorem Chip.setTile_imsic (c : Chip) (t : Tile) : (c.setTile t).imsic = c.imsic := rfl
@[simp] theorem Chip.setTile_irqs (c : Chip) (t : Tile) : (c.setTile t).irqs = c.irqs := rfl
@[simp] theorem Chip.setTile_host (c : Chip) (t : Tile) : (c.setTile t).host = c.host := rfl
@[simp] theorem Chip.setTile_msixSent (c : Chip) (t : Tile) : (c.setTile t).msixSent = c.msixSent := rfl
@[simp] theorem Chip.setTile_answer (c : Chip) (t : Tile) : (c.setTile t).answer = c.answer := rfl
@[simp] theorem Chip.setTile_die0 (c : Chip) (t : Tile) : (c.setTile t).die0 = c.die0 := rfl
@[simp] theorem Chip.setTile_die1 (c : Chip) (t : Tile) : (c.setTile t).die1 = c.die1 := rfl
@[simp] theorem Chip.upd_focus (c : Chip) (f : Tile → Tile) : (c.upd f).focus = c.focus := rfl
@[simp] theorem Chip.upd_freeCnt (c : Chip) (f : Tile → Tile) : (c.upd f).freeCnt = c.freeCnt := rfl
@[simp] theorem Chip.upd_nextId (c : Chip) (f : Tile → Tile) : (c.upd f).nextId = c.nextId := rfl
@[simp] theorem Chip.upd_mem (c : Chip) (f : Tile → Tile) : (c.upd f).mem = c.mem := rfl
@[simp] theorem Chip.upd_counts (c : Chip) (f : Tile → Tile) : (c.upd f).counts = c.counts := rfl
@[simp] theorem Chip.upd_filter (c : Chip) (f : Tile → Tile) : (c.upd f).filter = c.filter := rfl
@[simp] theorem Chip.upd_dirty (c : Chip) (f : Tile → Tile) : (c.upd f).dirty = c.dirty := rfl
@[simp] theorem Chip.upd_ueLines (c : Chip) (f : Tile → Tile) : (c.upd f).ueLines = c.ueLines := rfl
@[simp] theorem Chip.upd_ueBlocks (c : Chip) (f : Tile → Tile) : (c.upd f).ueBlocks = c.ueBlocks := rfl
@[simp] theorem Chip.upd_blockWait (c : Chip) (f : Tile → Tile) : (c.upd f).blockWait = c.blockWait := rfl
@[simp] theorem Chip.upd_blockLost (c : Chip) (f : Tile → Tile) : (c.upd f).blockLost = c.blockLost := rfl
@[simp] theorem Chip.upd_compressed (c : Chip) (f : Tile → Tile) : (c.upd f).compressed = c.compressed := rfl
@[simp] theorem Chip.upd_flits (c : Chip) (f : Tile → Tile) : (c.upd f).flits = c.flits := rfl
@[simp] theorem Chip.upd_modnum (c : Chip) (f : Tile → Tile) : (c.upd f).modnum = c.modnum := rfl
@[simp] theorem Chip.upd_member (c : Chip) (f : Tile → Tile) : (c.upd f).member = c.member := rfl
@[simp] theorem Chip.upd_lock (c : Chip) (f : Tile → Tile) : (c.upd f).lock = c.lock := rfl
@[simp] theorem Chip.upd_joined (c : Chip) (f : Tile → Tile) : (c.upd f).joined = c.joined := rfl
@[simp] theorem Chip.upd_refLost (c : Chip) (f : Tile → Tile) : (c.upd f).refLost = c.refLost := rfl
@[simp] theorem Chip.upd_stopped (c : Chip) (f : Tile → Tile) : (c.upd f).stopped = c.stopped := rfl
@[simp] theorem Chip.upd_clusters (c : Chip) (f : Tile → Tile) : (c.upd f).clusters = c.clusters := rfl
@[simp] theorem Chip.upd_teams (c : Chip) (f : Tile → Tile) : (c.upd f).teams = c.teams := rfl
@[simp] theorem Chip.upd_teamCnt (c : Chip) (f : Tile → Tile) : (c.upd f).teamCnt = c.teamCnt := rfl
@[simp] theorem Chip.upd_saved (c : Chip) (f : Tile → Tile) : (c.upd f).saved = c.saved := rfl
@[simp] theorem Chip.upd_resumed (c : Chip) (f : Tile → Tile) : (c.upd f).resumed = c.resumed := rfl
@[simp] theorem Chip.upd_launches (c : Chip) (f : Tile → Tile) : (c.upd f).launches = c.launches := rfl
@[simp] theorem Chip.upd_launchCnt (c : Chip) (f : Tile → Tile) : (c.upd f).launchCnt = c.launchCnt := rfl
@[simp] theorem Chip.upd_groups (c : Chip) (f : Tile → Tile) : (c.upd f).groups = c.groups := rfl
@[simp] theorem Chip.upd_colls (c : Chip) (f : Tile → Tile) : (c.upd f).colls = c.colls := rfl
@[simp] theorem Chip.upd_firm (c : Chip) (f : Tile → Tile) : (c.upd f).firm = c.firm := rfl
@[simp] theorem Chip.upd_imsic (c : Chip) (f : Tile → Tile) : (c.upd f).imsic = c.imsic := rfl
@[simp] theorem Chip.upd_irqs (c : Chip) (f : Tile → Tile) : (c.upd f).irqs = c.irqs := rfl
@[simp] theorem Chip.upd_host (c : Chip) (f : Tile → Tile) : (c.upd f).host = c.host := rfl
@[simp] theorem Chip.upd_msixSent (c : Chip) (f : Tile → Tile) : (c.upd f).msixSent = c.msixSent := rfl
@[simp] theorem Chip.upd_answer (c : Chip) (f : Tile → Tile) : (c.upd f).answer = c.answer := rfl
@[simp] theorem Chip.upd_die0 (c : Chip) (f : Tile → Tile) : (c.upd f).die0 = c.die0 := rfl
@[simp] theorem Chip.upd_die1 (c : Chip) (f : Tile → Tile) : (c.upd f).die1 = c.die1 := rfl
@[simp] theorem Chip.updAt_focus (c : Chip) (n : TileId) (f : Tile → Tile) : (c.updAt n f).focus = c.focus := rfl
@[simp] theorem Chip.updAt_freeCnt (c : Chip) (n : TileId) (f : Tile → Tile) : (c.updAt n f).freeCnt = c.freeCnt := rfl
@[simp] theorem Chip.updAt_nextId (c : Chip) (n : TileId) (f : Tile → Tile) : (c.updAt n f).nextId = c.nextId := rfl
@[simp] theorem Chip.updAt_mem (c : Chip) (n : TileId) (f : Tile → Tile) : (c.updAt n f).mem = c.mem := rfl
@[simp] theorem Chip.updAt_counts (c : Chip) (n : TileId) (f : Tile → Tile) : (c.updAt n f).counts = c.counts := rfl
@[simp] theorem Chip.updAt_filter (c : Chip) (n : TileId) (f : Tile → Tile) : (c.updAt n f).filter = c.filter := rfl
@[simp] theorem Chip.updAt_dirty (c : Chip) (n : TileId) (f : Tile → Tile) : (c.updAt n f).dirty = c.dirty := rfl
@[simp] theorem Chip.updAt_ueLines (c : Chip) (n : TileId) (f : Tile → Tile) : (c.updAt n f).ueLines = c.ueLines := rfl
@[simp] theorem Chip.updAt_ueBlocks (c : Chip) (n : TileId) (f : Tile → Tile) : (c.updAt n f).ueBlocks = c.ueBlocks := rfl
@[simp] theorem Chip.updAt_blockWait (c : Chip) (n : TileId) (f : Tile → Tile) : (c.updAt n f).blockWait = c.blockWait := rfl
@[simp] theorem Chip.updAt_blockLost (c : Chip) (n : TileId) (f : Tile → Tile) : (c.updAt n f).blockLost = c.blockLost := rfl
@[simp] theorem Chip.updAt_compressed (c : Chip) (n : TileId) (f : Tile → Tile) : (c.updAt n f).compressed = c.compressed := rfl
@[simp] theorem Chip.updAt_flits (c : Chip) (n : TileId) (f : Tile → Tile) : (c.updAt n f).flits = c.flits := rfl
@[simp] theorem Chip.updAt_modnum (c : Chip) (n : TileId) (f : Tile → Tile) : (c.updAt n f).modnum = c.modnum := rfl
@[simp] theorem Chip.updAt_member (c : Chip) (n : TileId) (f : Tile → Tile) : (c.updAt n f).member = c.member := rfl
@[simp] theorem Chip.updAt_lock (c : Chip) (n : TileId) (f : Tile → Tile) : (c.updAt n f).lock = c.lock := rfl
@[simp] theorem Chip.updAt_joined (c : Chip) (n : TileId) (f : Tile → Tile) : (c.updAt n f).joined = c.joined := rfl
@[simp] theorem Chip.updAt_refLost (c : Chip) (n : TileId) (f : Tile → Tile) : (c.updAt n f).refLost = c.refLost := rfl
@[simp] theorem Chip.updAt_stopped (c : Chip) (n : TileId) (f : Tile → Tile) : (c.updAt n f).stopped = c.stopped := rfl
@[simp] theorem Chip.updAt_clusters (c : Chip) (n : TileId) (f : Tile → Tile) : (c.updAt n f).clusters = c.clusters := rfl
@[simp] theorem Chip.updAt_teams (c : Chip) (n : TileId) (f : Tile → Tile) : (c.updAt n f).teams = c.teams := rfl
@[simp] theorem Chip.updAt_teamCnt (c : Chip) (n : TileId) (f : Tile → Tile) : (c.updAt n f).teamCnt = c.teamCnt := rfl
@[simp] theorem Chip.updAt_saved (c : Chip) (n : TileId) (f : Tile → Tile) : (c.updAt n f).saved = c.saved := rfl
@[simp] theorem Chip.updAt_resumed (c : Chip) (n : TileId) (f : Tile → Tile) : (c.updAt n f).resumed = c.resumed := rfl
@[simp] theorem Chip.updAt_launches (c : Chip) (n : TileId) (f : Tile → Tile) : (c.updAt n f).launches = c.launches := rfl
@[simp] theorem Chip.updAt_launchCnt (c : Chip) (n : TileId) (f : Tile → Tile) : (c.updAt n f).launchCnt = c.launchCnt := rfl
@[simp] theorem Chip.updAt_groups (c : Chip) (n : TileId) (f : Tile → Tile) : (c.updAt n f).groups = c.groups := rfl
@[simp] theorem Chip.updAt_colls (c : Chip) (n : TileId) (f : Tile → Tile) : (c.updAt n f).colls = c.colls := rfl
@[simp] theorem Chip.updAt_firm (c : Chip) (n : TileId) (f : Tile → Tile) : (c.updAt n f).firm = c.firm := rfl
@[simp] theorem Chip.updAt_imsic (c : Chip) (n : TileId) (f : Tile → Tile) : (c.updAt n f).imsic = c.imsic := rfl
@[simp] theorem Chip.updAt_irqs (c : Chip) (n : TileId) (f : Tile → Tile) : (c.updAt n f).irqs = c.irqs := rfl
@[simp] theorem Chip.updAt_host (c : Chip) (n : TileId) (f : Tile → Tile) : (c.updAt n f).host = c.host := rfl
@[simp] theorem Chip.updAt_msixSent (c : Chip) (n : TileId) (f : Tile → Tile) : (c.updAt n f).msixSent = c.msixSent := rfl
@[simp] theorem Chip.updAt_answer (c : Chip) (n : TileId) (f : Tile → Tile) : (c.updAt n f).answer = c.answer := rfl
@[simp] theorem Chip.updAt_die0 (c : Chip) (n : TileId) (f : Tile → Tile) : (c.updAt n f).die0 = c.die0 := rfl
@[simp] theorem Chip.updAt_die1 (c : Chip) (n : TileId) (f : Tile → Tile) : (c.updAt n f).die1 = c.die1 := rfl

@[simp] theorem Chip.tileAt_setTileAt_same (c : Chip) (n : TileId) (t : Tile) : (c.setTileAt n t).tileAt n = t := by
  simp [Chip.tileAt, Chip.setTileAt]
theorem Chip.tileAt_setTileAt_other (c : Chip) (n m : TileId) (t : Tile) (h : m ≠ n) : (c.setTileAt n t).tileAt m = c.tileAt m := by
  simp [Chip.tileAt, Chip.setTileAt, vget_vset_other _ _ _ _ h]
@[simp] theorem Chip.tile_setTile (c : Chip) (t : Tile) : (c.setTile t).tile = t := Chip.tileAt_setTileAt_same c c.focus t
@[simp] theorem Chip.tile_upd (c : Chip) (f : Tile → Tile) : (c.upd f).tile = f c.tile := Chip.tile_setTile c _
theorem Chip.tileAt_upd_other (c : Chip) (f : Tile → Tile) (m : TileId) (h : m ≠ c.focus) : (c.upd f).tileAt m = c.tileAt m :=
  Chip.tileAt_setTileAt_other c c.focus m _ h
theorem Chip.tileAt_updAt_other (c : Chip) (n m : TileId) (f : Tile → Tile) (h : m ≠ n) : (c.updAt n f).tileAt m = c.tileAt m :=
  Chip.tileAt_setTileAt_other c n m _ h
@[simp] theorem Chip.tileAt_updAt_same (c : Chip) (n : TileId) (f : Tile → Tile) : (c.updAt n f).tileAt n = f (c.tileAt n) :=
  Chip.tileAt_setTileAt_same c n _

/-! ## A tile under a register write -/

@[simp] theorem Tile.setS_st (t : Tile) (n : SReg) (x : Word) : (t.setS n x).st = t.st := by unfold Tile.setS; split <;> rfl
@[simp] theorem Tile.setS_team (t : Tile) (n : SReg) (x : Word) : (t.setS n x).team = t.team := by unfold Tile.setS; split <;> rfl
@[simp] theorem Tile.setS_mode (t : Tile) (n : SReg) (x : Word) : (t.setS n x).mode = t.mode := by unfold Tile.setS; split <;> rfl
@[simp] theorem Tile.setS_pc (t : Tile) (n : SReg) (x : Word) : (t.setS n x).pc = t.pc := by unfold Tile.setS; split <;> rfl
@[simp] theorem Tile.setS_sys (t : Tile) (n : SReg) (x : Word) : (t.setS n x).sys = t.sys := by unfold Tile.setS; split <;> rfl
@[simp] theorem Tile.setS_bound (t : Tile) (n : SReg) (x : Word) : (t.setS n x).bound = t.bound := by unfold Tile.setS; split <;> rfl
@[simp] theorem Tile.setS_user (t : Tile) (n : SReg) (x : Word) : (t.setS n x).user = t.user := by unfold Tile.setS; split <;> rfl
@[simp] theorem Tile.setS_hand (t : Tile) (n : SReg) (x : Word) : (t.setS n x).hand = t.hand := by unfold Tile.setS; split <;> rfl
@[simp] theorem Tile.setS_te (t : Tile) (n : SReg) (x : Word) : (t.setS n x).te = t.te := by unfold Tile.setS; split <;> rfl
@[simp] theorem Tile.setS_tf (t : Tile) (n : SReg) (x : Word) : (t.setS n x).tf = t.tf := by unfold Tile.setS; split <;> rfl
@[simp] theorem Tile.setS_pipe (t : Tile) (n : SReg) (x : Word) : (t.setS n x).pipe = t.pipe := by unfold Tile.setS; split <;> rfl
@[simp] theorem Tile.setS_vpend (t : Tile) (n : SReg) (x : Word) : (t.setS n x).vpend = t.vpend := by unfold Tile.setS; split <;> rfl
@[simp] theorem Tile.setS_landClk (t : Tile) (n : SReg) (x : Word) : (t.setS n x).landClk = t.landClk := by unfold Tile.setS; split <;> rfl
@[simp] theorem Tile.setS_landed (t : Tile) (n : SReg) (x : Word) : (t.setS n x).landed = t.landed := by unfold Tile.setS; split <;> rfl
@[simp] theorem Tile.setS_ueNote (t : Tile) (n : SReg) (x : Word) : (t.setS n x).ueNote = t.ueNote := by unfold Tile.setS; split <;> rfl
@[simp] theorem Tile.setS_promises (t : Tile) (n : SReg) (x : Word) : (t.setS n x).promises = t.promises := by unfold Tile.setS; split <;> rfl
@[simp] theorem Tile.setS_trap (t : Tile) (n : SReg) (x : Word) : (t.setS n x).trap = t.trap := by unfold Tile.setS; split <;> rfl
@[simp] theorem Tile.setS_freezing (t : Tile) (n : SReg) (x : Word) : (t.setS n x).freezing = t.freezing := by unfold Tile.setS; split <;> rfl
@[simp] theorem Tile.setS_snap (t : Tile) (n : SReg) (x : Word) : (t.setS n x).snap = t.snap := by unfold Tile.setS; split <;> rfl
@[simp] theorem Tile.setS_replay (t : Tile) (n : SReg) (x : Word) : (t.setS n x).replay = t.replay := by unfold Tile.setS; split <;> rfl
@[simp] theorem Tile.setS_held (t : Tile) (n : SReg) (x : Word) : (t.setS n x).held = t.held := by unfold Tile.setS; split <;> rfl
@[simp] theorem Tile.setS_watch (t : Tile) (n : SReg) (x : Word) : (t.setS n x).watch = t.watch := by unfold Tile.setS; split <;> rfl
@[simp] theorem Tile.setS_wake (t : Tile) (n : SReg) (x : Word) : (t.setS n x).wake = t.wake := by unfold Tile.setS; split <;> rfl
@[simp] theorem Tile.setS_mat (t : Tile) (n : SReg) (x : Word) : (t.setS n x).mat = t.mat := by unfold Tile.setS; split <;> rfl
@[simp] theorem Tile.setS_chan (t : Tile) (n : SReg) (x : Word) : (t.setS n x).chan = t.chan := by unfold Tile.setS; split <;> rfl
@[simp] theorem Tile.setS_unv (t : Tile) (n : SReg) (x : Word) : (t.setS n x).unv = t.unv := by unfold Tile.setS; split <;> rfl
@[simp] theorem Tile.setS_bufs (t : Tile) (n : SReg) (x : Word) : (t.setS n x).bufs = t.bufs := by unfold Tile.setS; split <;> rfl
@[simp] theorem Tile.setS_rings (t : Tile) (n : SReg) (x : Word) : (t.setS n x).rings = t.rings := by unfold Tile.setS; split <;> rfl
@[simp] theorem Tile.setS_icache (t : Tile) (n : SReg) (x : Word) : (t.setS n x).icache = t.icache := by unfold Tile.setS; split <;> rfl
@[simp] theorem Tile.setS_phase (t : Tile) (n : SReg) (x : Word) : (t.setS n x).phase = t.phase := by unfold Tile.setS; split <;> rfl
@[simp] theorem Tile.setS_fence (t : Tile) (n : SReg) (x : Word) : (t.setS n x).fence = t.fence := by unfold Tile.setS; split <;> rfl
@[simp] theorem Tile.setS_quiet (t : Tile) (n : SReg) (x : Word) : (t.setS n x).quiet = t.quiet := by unfold Tile.setS; split <;> rfl
@[simp] theorem Tile.setS_unacked (t : Tile) (n : SReg) (x : Word) : (t.setS n x).unacked = t.unacked := by unfold Tile.setS; split <;> rfl
@[simp] theorem Tile.setS_cs (t : Tile) (n : SReg) (x : Word) : (t.setS n x).cs = t.cs := by unfold Tile.setS; split <;> rfl
@[simp] theorem Tile.setS_coll (t : Tile) (n : SReg) (x : Word) : (t.setS n x).coll = t.coll := by unfold Tile.setS; split <;> rfl
theorem Tile.setS_sramUe (t : Tile) (n : SReg) (x : Word) :
    (t.setS n x).sramUe = if n = 0 then t.sramUe else t.sramUe.filter (· != .s n) := by unfold Tile.setS; split <;> rfl
@[simp] theorem Tile.setS_sramUe_nil (t : Tile) (n : SReg) (x : Word) (h : t.sramUe = []) : (t.setS n x).sramUe = [] := by
  simp [Tile.setS_sramUe, h]
@[simp] theorem Tile.setS_regs_v (t : Tile) (n : SReg) (x : Word) : (t.setS n x).regs.v = t.regs.v := by unfold Tile.setS; split <;> rfl
@[simp] theorem Tile.setS_regs_a (t : Tile) (n : SReg) (x : Word) : (t.setS n x).regs.a = t.regs.a := by unfold Tile.setS; split <;> rfl
@[simp] theorem Tile.setS_regs_p (t : Tile) (n : SReg) (x : Word) : (t.setS n x).regs.p = t.regs.p := by unfold Tile.setS; split <;> rfl
@[simp] theorem Tile.setS_regs_g (t : Tile) (n : SReg) (x : Word) : (t.setS n x).regs.g = t.regs.g := by unfold Tile.setS; split <;> rfl
@[simp] theorem Tile.setS_regs_cb (t : Tile) (n : SReg) (x : Word) : (t.setS n x).regs.cb = t.regs.cb := by unfold Tile.setS; split <;> rfl
@[simp] theorem Tile.setS_regs_basin (t : Tile) (n : SReg) (x : Word) : (t.setS n x).regs.basin = t.regs.basin := by unfold Tile.setS; split <;> rfl
@[simp] theorem Tile.setS_regs_vrb (t : Tile) (n : SReg) (x : Word) : (t.setS n x).regs.vrb = t.regs.vrb := by unfold Tile.setS; split <;> rfl
@[simp] theorem Tile.setP_st (t : Tile) (n : PReg) (x : Word) : (t.setP n x).st = t.st := by unfold Tile.setP; split <;> rfl
@[simp] theorem Tile.setP_team (t : Tile) (n : PReg) (x : Word) : (t.setP n x).team = t.team := by unfold Tile.setP; split <;> rfl
@[simp] theorem Tile.setP_mode (t : Tile) (n : PReg) (x : Word) : (t.setP n x).mode = t.mode := by unfold Tile.setP; split <;> rfl
@[simp] theorem Tile.setP_pc (t : Tile) (n : PReg) (x : Word) : (t.setP n x).pc = t.pc := by unfold Tile.setP; split <;> rfl
@[simp] theorem Tile.setP_sys (t : Tile) (n : PReg) (x : Word) : (t.setP n x).sys = t.sys := by unfold Tile.setP; split <;> rfl
@[simp] theorem Tile.setP_bound (t : Tile) (n : PReg) (x : Word) : (t.setP n x).bound = t.bound := by unfold Tile.setP; split <;> rfl
@[simp] theorem Tile.setP_user (t : Tile) (n : PReg) (x : Word) : (t.setP n x).user = t.user := by unfold Tile.setP; split <;> rfl
@[simp] theorem Tile.setP_hand (t : Tile) (n : PReg) (x : Word) : (t.setP n x).hand = t.hand := by unfold Tile.setP; split <;> rfl
@[simp] theorem Tile.setP_te (t : Tile) (n : PReg) (x : Word) : (t.setP n x).te = t.te := by unfold Tile.setP; split <;> rfl
@[simp] theorem Tile.setP_tf (t : Tile) (n : PReg) (x : Word) : (t.setP n x).tf = t.tf := by unfold Tile.setP; split <;> rfl
@[simp] theorem Tile.setP_pipe (t : Tile) (n : PReg) (x : Word) : (t.setP n x).pipe = t.pipe := by unfold Tile.setP; split <;> rfl
@[simp] theorem Tile.setP_vpend (t : Tile) (n : PReg) (x : Word) : (t.setP n x).vpend = t.vpend := by unfold Tile.setP; split <;> rfl
@[simp] theorem Tile.setP_landClk (t : Tile) (n : PReg) (x : Word) : (t.setP n x).landClk = t.landClk := by unfold Tile.setP; split <;> rfl
@[simp] theorem Tile.setP_landed (t : Tile) (n : PReg) (x : Word) : (t.setP n x).landed = t.landed := by unfold Tile.setP; split <;> rfl
@[simp] theorem Tile.setP_ueNote (t : Tile) (n : PReg) (x : Word) : (t.setP n x).ueNote = t.ueNote := by unfold Tile.setP; split <;> rfl
@[simp] theorem Tile.setP_promises (t : Tile) (n : PReg) (x : Word) : (t.setP n x).promises = t.promises := by unfold Tile.setP; split <;> rfl
@[simp] theorem Tile.setP_trap (t : Tile) (n : PReg) (x : Word) : (t.setP n x).trap = t.trap := by unfold Tile.setP; split <;> rfl
@[simp] theorem Tile.setP_freezing (t : Tile) (n : PReg) (x : Word) : (t.setP n x).freezing = t.freezing := by unfold Tile.setP; split <;> rfl
@[simp] theorem Tile.setP_snap (t : Tile) (n : PReg) (x : Word) : (t.setP n x).snap = t.snap := by unfold Tile.setP; split <;> rfl
@[simp] theorem Tile.setP_replay (t : Tile) (n : PReg) (x : Word) : (t.setP n x).replay = t.replay := by unfold Tile.setP; split <;> rfl
@[simp] theorem Tile.setP_held (t : Tile) (n : PReg) (x : Word) : (t.setP n x).held = t.held := by unfold Tile.setP; split <;> rfl
@[simp] theorem Tile.setP_watch (t : Tile) (n : PReg) (x : Word) : (t.setP n x).watch = t.watch := by unfold Tile.setP; split <;> rfl
@[simp] theorem Tile.setP_wake (t : Tile) (n : PReg) (x : Word) : (t.setP n x).wake = t.wake := by unfold Tile.setP; split <;> rfl
@[simp] theorem Tile.setP_binds (t : Tile) (n : PReg) (x : Word) : (t.setP n x).binds = t.binds := by unfold Tile.setP; split <;> rfl
@[simp] theorem Tile.setP_mat (t : Tile) (n : PReg) (x : Word) : (t.setP n x).mat = t.mat := by unfold Tile.setP; split <;> rfl
@[simp] theorem Tile.setP_chan (t : Tile) (n : PReg) (x : Word) : (t.setP n x).chan = t.chan := by unfold Tile.setP; split <;> rfl
@[simp] theorem Tile.setP_unv (t : Tile) (n : PReg) (x : Word) : (t.setP n x).unv = t.unv := by unfold Tile.setP; split <;> rfl
@[simp] theorem Tile.setP_bufs (t : Tile) (n : PReg) (x : Word) : (t.setP n x).bufs = t.bufs := by unfold Tile.setP; split <;> rfl
@[simp] theorem Tile.setP_rings (t : Tile) (n : PReg) (x : Word) : (t.setP n x).rings = t.rings := by unfold Tile.setP; split <;> rfl
@[simp] theorem Tile.setP_icache (t : Tile) (n : PReg) (x : Word) : (t.setP n x).icache = t.icache := by unfold Tile.setP; split <;> rfl
@[simp] theorem Tile.setP_phase (t : Tile) (n : PReg) (x : Word) : (t.setP n x).phase = t.phase := by unfold Tile.setP; split <;> rfl
@[simp] theorem Tile.setP_fence (t : Tile) (n : PReg) (x : Word) : (t.setP n x).fence = t.fence := by unfold Tile.setP; split <;> rfl
@[simp] theorem Tile.setP_quiet (t : Tile) (n : PReg) (x : Word) : (t.setP n x).quiet = t.quiet := by unfold Tile.setP; split <;> rfl
@[simp] theorem Tile.setP_unacked (t : Tile) (n : PReg) (x : Word) : (t.setP n x).unacked = t.unacked := by unfold Tile.setP; split <;> rfl
@[simp] theorem Tile.setP_cs (t : Tile) (n : PReg) (x : Word) : (t.setP n x).cs = t.cs := by unfold Tile.setP; split <;> rfl
@[simp] theorem Tile.setP_coll (t : Tile) (n : PReg) (x : Word) : (t.setP n x).coll = t.coll := by unfold Tile.setP; split <;> rfl
theorem Tile.setP_sramUe (t : Tile) (n : PReg) (x : Word) :
    (t.setP n x).sramUe = if n = 0 then t.sramUe else t.sramUe.filter (· != .p n) := by unfold Tile.setP; split <;> rfl
@[simp] theorem Tile.setP_sramUe_nil (t : Tile) (n : PReg) (x : Word) (h : t.sramUe = []) : (t.setP n x).sramUe = [] := by
  simp [Tile.setP_sramUe, h]
@[simp] theorem Tile.setP_regs_v (t : Tile) (n : PReg) (x : Word) : (t.setP n x).regs.v = t.regs.v := by unfold Tile.setP; split <;> rfl
@[simp] theorem Tile.setP_regs_s (t : Tile) (n : PReg) (x : Word) : (t.setP n x).regs.s = t.regs.s := by unfold Tile.setP; split <;> rfl
@[simp] theorem Tile.setP_regs_a (t : Tile) (n : PReg) (x : Word) : (t.setP n x).regs.a = t.regs.a := by unfold Tile.setP; split <;> rfl
@[simp] theorem Tile.setP_regs_g (t : Tile) (n : PReg) (x : Word) : (t.setP n x).regs.g = t.regs.g := by unfold Tile.setP; split <;> rfl
@[simp] theorem Tile.setP_regs_cb (t : Tile) (n : PReg) (x : Word) : (t.setP n x).regs.cb = t.regs.cb := by unfold Tile.setP; split <;> rfl
@[simp] theorem Tile.setP_regs_basin (t : Tile) (n : PReg) (x : Word) : (t.setP n x).regs.basin = t.regs.basin := by unfold Tile.setP; split <;> rfl
@[simp] theorem Tile.setP_regs_vrb (t : Tile) (n : PReg) (x : Word) : (t.setP n x).regs.vrb = t.regs.vrb := by unfold Tile.setP; split <;> rfl
@[simp] theorem Tile.setV_st (t : Tile) (n : VReg) (x : VWord) : (t.setV n x).st = t.st := rfl
@[simp] theorem Tile.setV_team (t : Tile) (n : VReg) (x : VWord) : (t.setV n x).team = t.team := rfl
@[simp] theorem Tile.setV_mode (t : Tile) (n : VReg) (x : VWord) : (t.setV n x).mode = t.mode := rfl
@[simp] theorem Tile.setV_pc (t : Tile) (n : VReg) (x : VWord) : (t.setV n x).pc = t.pc := rfl
@[simp] theorem Tile.setV_sys (t : Tile) (n : VReg) (x : VWord) : (t.setV n x).sys = t.sys := rfl
@[simp] theorem Tile.setV_bound (t : Tile) (n : VReg) (x : VWord) : (t.setV n x).bound = t.bound := rfl
@[simp] theorem Tile.setV_user (t : Tile) (n : VReg) (x : VWord) : (t.setV n x).user = t.user := rfl
@[simp] theorem Tile.setV_hand (t : Tile) (n : VReg) (x : VWord) : (t.setV n x).hand = t.hand := rfl
@[simp] theorem Tile.setV_te (t : Tile) (n : VReg) (x : VWord) : (t.setV n x).te = t.te := rfl
@[simp] theorem Tile.setV_tf (t : Tile) (n : VReg) (x : VWord) : (t.setV n x).tf = t.tf := rfl
@[simp] theorem Tile.setV_pipe (t : Tile) (n : VReg) (x : VWord) : (t.setV n x).pipe = t.pipe := rfl
@[simp] theorem Tile.setV_vpend (t : Tile) (n : VReg) (x : VWord) : (t.setV n x).vpend = t.vpend := rfl
@[simp] theorem Tile.setV_landClk (t : Tile) (n : VReg) (x : VWord) : (t.setV n x).landClk = t.landClk := rfl
@[simp] theorem Tile.setV_landed (t : Tile) (n : VReg) (x : VWord) : (t.setV n x).landed = t.landed := rfl
@[simp] theorem Tile.setV_ueNote (t : Tile) (n : VReg) (x : VWord) : (t.setV n x).ueNote = t.ueNote := rfl
@[simp] theorem Tile.setV_promises (t : Tile) (n : VReg) (x : VWord) : (t.setV n x).promises = t.promises := rfl
@[simp] theorem Tile.setV_trap (t : Tile) (n : VReg) (x : VWord) : (t.setV n x).trap = t.trap := rfl
@[simp] theorem Tile.setV_freezing (t : Tile) (n : VReg) (x : VWord) : (t.setV n x).freezing = t.freezing := rfl
@[simp] theorem Tile.setV_snap (t : Tile) (n : VReg) (x : VWord) : (t.setV n x).snap = t.snap := rfl
@[simp] theorem Tile.setV_replay (t : Tile) (n : VReg) (x : VWord) : (t.setV n x).replay = t.replay := rfl
@[simp] theorem Tile.setV_held (t : Tile) (n : VReg) (x : VWord) : (t.setV n x).held = t.held := rfl
@[simp] theorem Tile.setV_watch (t : Tile) (n : VReg) (x : VWord) : (t.setV n x).watch = t.watch := rfl
@[simp] theorem Tile.setV_wake (t : Tile) (n : VReg) (x : VWord) : (t.setV n x).wake = t.wake := rfl
@[simp] theorem Tile.setV_binds (t : Tile) (n : VReg) (x : VWord) : (t.setV n x).binds = t.binds := rfl
@[simp] theorem Tile.setV_mat (t : Tile) (n : VReg) (x : VWord) : (t.setV n x).mat = t.mat := rfl
@[simp] theorem Tile.setV_chan (t : Tile) (n : VReg) (x : VWord) : (t.setV n x).chan = t.chan := rfl
@[simp] theorem Tile.setV_unv (t : Tile) (n : VReg) (x : VWord) : (t.setV n x).unv = t.unv := rfl
@[simp] theorem Tile.setV_bufs (t : Tile) (n : VReg) (x : VWord) : (t.setV n x).bufs = t.bufs := rfl
@[simp] theorem Tile.setV_rings (t : Tile) (n : VReg) (x : VWord) : (t.setV n x).rings = t.rings := rfl
@[simp] theorem Tile.setV_icache (t : Tile) (n : VReg) (x : VWord) : (t.setV n x).icache = t.icache := rfl
@[simp] theorem Tile.setV_phase (t : Tile) (n : VReg) (x : VWord) : (t.setV n x).phase = t.phase := rfl
@[simp] theorem Tile.setV_fence (t : Tile) (n : VReg) (x : VWord) : (t.setV n x).fence = t.fence := rfl
@[simp] theorem Tile.setV_quiet (t : Tile) (n : VReg) (x : VWord) : (t.setV n x).quiet = t.quiet := rfl
@[simp] theorem Tile.setV_unacked (t : Tile) (n : VReg) (x : VWord) : (t.setV n x).unacked = t.unacked := rfl
@[simp] theorem Tile.setV_cs (t : Tile) (n : VReg) (x : VWord) : (t.setV n x).cs = t.cs := rfl
@[simp] theorem Tile.setV_coll (t : Tile) (n : VReg) (x : VWord) : (t.setV n x).coll = t.coll := rfl
@[simp] theorem Tile.setV_sramUe (t : Tile) (n : VReg) (x : VWord) : (t.setV n x).sramUe = t.sramUe := rfl
@[simp] theorem Tile.setV_regs_s (t : Tile) (n : VReg) (x : VWord) : (t.setV n x).regs.s = t.regs.s := rfl
@[simp] theorem Tile.setV_regs_a (t : Tile) (n : VReg) (x : VWord) : (t.setV n x).regs.a = t.regs.a := rfl
@[simp] theorem Tile.setV_regs_p (t : Tile) (n : VReg) (x : VWord) : (t.setV n x).regs.p = t.regs.p := rfl
@[simp] theorem Tile.setV_regs_g (t : Tile) (n : VReg) (x : VWord) : (t.setV n x).regs.g = t.regs.g := rfl
@[simp] theorem Tile.setV_regs_cb (t : Tile) (n : VReg) (x : VWord) : (t.setV n x).regs.cb = t.regs.cb := rfl
@[simp] theorem Tile.setV_regs_basin (t : Tile) (n : VReg) (x : VWord) : (t.setV n x).regs.basin = t.regs.basin := rfl
@[simp] theorem Tile.setV_regs_vrb (t : Tile) (n : VReg) (x : VWord) : (t.setV n x).regs.vrb = t.regs.vrb := rfl
@[simp] theorem Tile.setA_st (t : Tile) (n : AReg) (x : ARegS) : (t.setA n x).st = t.st := rfl
@[simp] theorem Tile.setA_team (t : Tile) (n : AReg) (x : ARegS) : (t.setA n x).team = t.team := rfl
@[simp] theorem Tile.setA_mode (t : Tile) (n : AReg) (x : ARegS) : (t.setA n x).mode = t.mode := rfl
@[simp] theorem Tile.setA_pc (t : Tile) (n : AReg) (x : ARegS) : (t.setA n x).pc = t.pc := rfl
@[simp] theorem Tile.setA_sys (t : Tile) (n : AReg) (x : ARegS) : (t.setA n x).sys = t.sys := rfl
@[simp] theorem Tile.setA_bound (t : Tile) (n : AReg) (x : ARegS) : (t.setA n x).bound = t.bound := rfl
@[simp] theorem Tile.setA_user (t : Tile) (n : AReg) (x : ARegS) : (t.setA n x).user = t.user := rfl
@[simp] theorem Tile.setA_hand (t : Tile) (n : AReg) (x : ARegS) : (t.setA n x).hand = t.hand := rfl
@[simp] theorem Tile.setA_te (t : Tile) (n : AReg) (x : ARegS) : (t.setA n x).te = t.te := rfl
@[simp] theorem Tile.setA_tf (t : Tile) (n : AReg) (x : ARegS) : (t.setA n x).tf = t.tf := rfl
@[simp] theorem Tile.setA_pipe (t : Tile) (n : AReg) (x : ARegS) : (t.setA n x).pipe = t.pipe := rfl
@[simp] theorem Tile.setA_vpend (t : Tile) (n : AReg) (x : ARegS) : (t.setA n x).vpend = t.vpend := rfl
@[simp] theorem Tile.setA_landClk (t : Tile) (n : AReg) (x : ARegS) : (t.setA n x).landClk = t.landClk := rfl
@[simp] theorem Tile.setA_landed (t : Tile) (n : AReg) (x : ARegS) : (t.setA n x).landed = t.landed := rfl
@[simp] theorem Tile.setA_ueNote (t : Tile) (n : AReg) (x : ARegS) : (t.setA n x).ueNote = t.ueNote := rfl
@[simp] theorem Tile.setA_promises (t : Tile) (n : AReg) (x : ARegS) : (t.setA n x).promises = t.promises := rfl
@[simp] theorem Tile.setA_trap (t : Tile) (n : AReg) (x : ARegS) : (t.setA n x).trap = t.trap := rfl
@[simp] theorem Tile.setA_freezing (t : Tile) (n : AReg) (x : ARegS) : (t.setA n x).freezing = t.freezing := rfl
@[simp] theorem Tile.setA_snap (t : Tile) (n : AReg) (x : ARegS) : (t.setA n x).snap = t.snap := rfl
@[simp] theorem Tile.setA_replay (t : Tile) (n : AReg) (x : ARegS) : (t.setA n x).replay = t.replay := rfl
@[simp] theorem Tile.setA_held (t : Tile) (n : AReg) (x : ARegS) : (t.setA n x).held = t.held := rfl
@[simp] theorem Tile.setA_watch (t : Tile) (n : AReg) (x : ARegS) : (t.setA n x).watch = t.watch := rfl
@[simp] theorem Tile.setA_wake (t : Tile) (n : AReg) (x : ARegS) : (t.setA n x).wake = t.wake := rfl
@[simp] theorem Tile.setA_binds (t : Tile) (n : AReg) (x : ARegS) : (t.setA n x).binds = t.binds := rfl
@[simp] theorem Tile.setA_mat (t : Tile) (n : AReg) (x : ARegS) : (t.setA n x).mat = t.mat := rfl
@[simp] theorem Tile.setA_chan (t : Tile) (n : AReg) (x : ARegS) : (t.setA n x).chan = t.chan := rfl
@[simp] theorem Tile.setA_unv (t : Tile) (n : AReg) (x : ARegS) : (t.setA n x).unv = t.unv := rfl
@[simp] theorem Tile.setA_bufs (t : Tile) (n : AReg) (x : ARegS) : (t.setA n x).bufs = t.bufs := rfl
@[simp] theorem Tile.setA_rings (t : Tile) (n : AReg) (x : ARegS) : (t.setA n x).rings = t.rings := rfl
@[simp] theorem Tile.setA_icache (t : Tile) (n : AReg) (x : ARegS) : (t.setA n x).icache = t.icache := rfl
@[simp] theorem Tile.setA_phase (t : Tile) (n : AReg) (x : ARegS) : (t.setA n x).phase = t.phase := rfl
@[simp] theorem Tile.setA_fence (t : Tile) (n : AReg) (x : ARegS) : (t.setA n x).fence = t.fence := rfl
@[simp] theorem Tile.setA_quiet (t : Tile) (n : AReg) (x : ARegS) : (t.setA n x).quiet = t.quiet := rfl
@[simp] theorem Tile.setA_unacked (t : Tile) (n : AReg) (x : ARegS) : (t.setA n x).unacked = t.unacked := rfl
@[simp] theorem Tile.setA_cs (t : Tile) (n : AReg) (x : ARegS) : (t.setA n x).cs = t.cs := rfl
@[simp] theorem Tile.setA_coll (t : Tile) (n : AReg) (x : ARegS) : (t.setA n x).coll = t.coll := rfl
theorem Tile.setA_sramUe (t : Tile) (n : AReg) (x : ARegS) : (t.setA n x).sramUe = t.sramUe.filter (· != .a n) := rfl
@[simp] theorem Tile.setA_sramUe_nil (t : Tile) (n : AReg) (x : ARegS) (h : t.sramUe = []) : (t.setA n x).sramUe = [] := by
  simp [Tile.setA_sramUe, h]
@[simp] theorem Tile.setA_regs_v (t : Tile) (n : AReg) (x : ARegS) : (t.setA n x).regs.v = t.regs.v := rfl
@[simp] theorem Tile.setA_regs_s (t : Tile) (n : AReg) (x : ARegS) : (t.setA n x).regs.s = t.regs.s := rfl
@[simp] theorem Tile.setA_regs_p (t : Tile) (n : AReg) (x : ARegS) : (t.setA n x).regs.p = t.regs.p := rfl
@[simp] theorem Tile.setA_regs_g (t : Tile) (n : AReg) (x : ARegS) : (t.setA n x).regs.g = t.regs.g := rfl
@[simp] theorem Tile.setA_regs_cb (t : Tile) (n : AReg) (x : ARegS) : (t.setA n x).regs.cb = t.regs.cb := rfl
@[simp] theorem Tile.setA_regs_basin (t : Tile) (n : AReg) (x : ARegS) : (t.setA n x).regs.basin = t.regs.basin := rfl
@[simp] theorem Tile.setA_regs_vrb (t : Tile) (n : AReg) (x : ARegS) : (t.setA n x).regs.vrb = t.regs.vrb := rfl
@[simp] theorem Tile.setG_st (t : Tile) (n : GReg) (x : RingReg) : (t.setG n x).st = t.st := rfl
@[simp] theorem Tile.setG_team (t : Tile) (n : GReg) (x : RingReg) : (t.setG n x).team = t.team := rfl
@[simp] theorem Tile.setG_mode (t : Tile) (n : GReg) (x : RingReg) : (t.setG n x).mode = t.mode := rfl
@[simp] theorem Tile.setG_pc (t : Tile) (n : GReg) (x : RingReg) : (t.setG n x).pc = t.pc := rfl
@[simp] theorem Tile.setG_sys (t : Tile) (n : GReg) (x : RingReg) : (t.setG n x).sys = t.sys := rfl
@[simp] theorem Tile.setG_bound (t : Tile) (n : GReg) (x : RingReg) : (t.setG n x).bound = t.bound := rfl
@[simp] theorem Tile.setG_user (t : Tile) (n : GReg) (x : RingReg) : (t.setG n x).user = t.user := rfl
@[simp] theorem Tile.setG_hand (t : Tile) (n : GReg) (x : RingReg) : (t.setG n x).hand = t.hand := rfl
@[simp] theorem Tile.setG_te (t : Tile) (n : GReg) (x : RingReg) : (t.setG n x).te = t.te := rfl
@[simp] theorem Tile.setG_tf (t : Tile) (n : GReg) (x : RingReg) : (t.setG n x).tf = t.tf := rfl
@[simp] theorem Tile.setG_pipe (t : Tile) (n : GReg) (x : RingReg) : (t.setG n x).pipe = t.pipe := rfl
@[simp] theorem Tile.setG_vpend (t : Tile) (n : GReg) (x : RingReg) : (t.setG n x).vpend = t.vpend := rfl
@[simp] theorem Tile.setG_landClk (t : Tile) (n : GReg) (x : RingReg) : (t.setG n x).landClk = t.landClk := rfl
@[simp] theorem Tile.setG_landed (t : Tile) (n : GReg) (x : RingReg) : (t.setG n x).landed = t.landed := rfl
@[simp] theorem Tile.setG_ueNote (t : Tile) (n : GReg) (x : RingReg) : (t.setG n x).ueNote = t.ueNote := rfl
@[simp] theorem Tile.setG_promises (t : Tile) (n : GReg) (x : RingReg) : (t.setG n x).promises = t.promises := rfl
@[simp] theorem Tile.setG_trap (t : Tile) (n : GReg) (x : RingReg) : (t.setG n x).trap = t.trap := rfl
@[simp] theorem Tile.setG_freezing (t : Tile) (n : GReg) (x : RingReg) : (t.setG n x).freezing = t.freezing := rfl
@[simp] theorem Tile.setG_snap (t : Tile) (n : GReg) (x : RingReg) : (t.setG n x).snap = t.snap := rfl
@[simp] theorem Tile.setG_replay (t : Tile) (n : GReg) (x : RingReg) : (t.setG n x).replay = t.replay := rfl
@[simp] theorem Tile.setG_held (t : Tile) (n : GReg) (x : RingReg) : (t.setG n x).held = t.held := rfl
@[simp] theorem Tile.setG_watch (t : Tile) (n : GReg) (x : RingReg) : (t.setG n x).watch = t.watch := rfl
@[simp] theorem Tile.setG_wake (t : Tile) (n : GReg) (x : RingReg) : (t.setG n x).wake = t.wake := rfl
@[simp] theorem Tile.setG_binds (t : Tile) (n : GReg) (x : RingReg) : (t.setG n x).binds = t.binds := rfl
@[simp] theorem Tile.setG_mat (t : Tile) (n : GReg) (x : RingReg) : (t.setG n x).mat = t.mat := rfl
@[simp] theorem Tile.setG_chan (t : Tile) (n : GReg) (x : RingReg) : (t.setG n x).chan = t.chan := rfl
@[simp] theorem Tile.setG_unv (t : Tile) (n : GReg) (x : RingReg) : (t.setG n x).unv = t.unv := rfl
@[simp] theorem Tile.setG_bufs (t : Tile) (n : GReg) (x : RingReg) : (t.setG n x).bufs = t.bufs := rfl
@[simp] theorem Tile.setG_rings (t : Tile) (n : GReg) (x : RingReg) : (t.setG n x).rings = t.rings := rfl
@[simp] theorem Tile.setG_icache (t : Tile) (n : GReg) (x : RingReg) : (t.setG n x).icache = t.icache := rfl
@[simp] theorem Tile.setG_phase (t : Tile) (n : GReg) (x : RingReg) : (t.setG n x).phase = t.phase := rfl
@[simp] theorem Tile.setG_fence (t : Tile) (n : GReg) (x : RingReg) : (t.setG n x).fence = t.fence := rfl
@[simp] theorem Tile.setG_quiet (t : Tile) (n : GReg) (x : RingReg) : (t.setG n x).quiet = t.quiet := rfl
@[simp] theorem Tile.setG_unacked (t : Tile) (n : GReg) (x : RingReg) : (t.setG n x).unacked = t.unacked := rfl
@[simp] theorem Tile.setG_cs (t : Tile) (n : GReg) (x : RingReg) : (t.setG n x).cs = t.cs := rfl
@[simp] theorem Tile.setG_coll (t : Tile) (n : GReg) (x : RingReg) : (t.setG n x).coll = t.coll := rfl
theorem Tile.setG_sramUe (t : Tile) (n : GReg) (x : RingReg) : (t.setG n x).sramUe = t.sramUe.filter (· != .g n) := rfl
@[simp] theorem Tile.setG_sramUe_nil (t : Tile) (n : GReg) (x : RingReg) (h : t.sramUe = []) : (t.setG n x).sramUe = [] := by
  simp [Tile.setG_sramUe, h]
@[simp] theorem Tile.setG_regs_v (t : Tile) (n : GReg) (x : RingReg) : (t.setG n x).regs.v = t.regs.v := rfl
@[simp] theorem Tile.setG_regs_s (t : Tile) (n : GReg) (x : RingReg) : (t.setG n x).regs.s = t.regs.s := rfl
@[simp] theorem Tile.setG_regs_a (t : Tile) (n : GReg) (x : RingReg) : (t.setG n x).regs.a = t.regs.a := rfl
@[simp] theorem Tile.setG_regs_p (t : Tile) (n : GReg) (x : RingReg) : (t.setG n x).regs.p = t.regs.p := rfl
@[simp] theorem Tile.setG_regs_cb (t : Tile) (n : GReg) (x : RingReg) : (t.setG n x).regs.cb = t.regs.cb := rfl
@[simp] theorem Tile.setG_regs_basin (t : Tile) (n : GReg) (x : RingReg) : (t.setG n x).regs.basin = t.regs.basin := rfl
@[simp] theorem Tile.setG_regs_vrb (t : Tile) (n : GReg) (x : RingReg) : (t.setG n x).regs.vrb = t.regs.vrb := rfl
@[simp] theorem Tile.setCb_st (t : Tile) (n : CReg) (x : Codebook) : (t.setCb n x).st = t.st := rfl
@[simp] theorem Tile.setCb_team (t : Tile) (n : CReg) (x : Codebook) : (t.setCb n x).team = t.team := rfl
@[simp] theorem Tile.setCb_mode (t : Tile) (n : CReg) (x : Codebook) : (t.setCb n x).mode = t.mode := rfl
@[simp] theorem Tile.setCb_pc (t : Tile) (n : CReg) (x : Codebook) : (t.setCb n x).pc = t.pc := rfl
@[simp] theorem Tile.setCb_sys (t : Tile) (n : CReg) (x : Codebook) : (t.setCb n x).sys = t.sys := rfl
@[simp] theorem Tile.setCb_bound (t : Tile) (n : CReg) (x : Codebook) : (t.setCb n x).bound = t.bound := rfl
@[simp] theorem Tile.setCb_user (t : Tile) (n : CReg) (x : Codebook) : (t.setCb n x).user = t.user := rfl
@[simp] theorem Tile.setCb_hand (t : Tile) (n : CReg) (x : Codebook) : (t.setCb n x).hand = t.hand := rfl
@[simp] theorem Tile.setCb_te (t : Tile) (n : CReg) (x : Codebook) : (t.setCb n x).te = t.te := rfl
@[simp] theorem Tile.setCb_tf (t : Tile) (n : CReg) (x : Codebook) : (t.setCb n x).tf = t.tf := rfl
@[simp] theorem Tile.setCb_pipe (t : Tile) (n : CReg) (x : Codebook) : (t.setCb n x).pipe = t.pipe := rfl
@[simp] theorem Tile.setCb_vpend (t : Tile) (n : CReg) (x : Codebook) : (t.setCb n x).vpend = t.vpend := rfl
@[simp] theorem Tile.setCb_landClk (t : Tile) (n : CReg) (x : Codebook) : (t.setCb n x).landClk = t.landClk := rfl
@[simp] theorem Tile.setCb_landed (t : Tile) (n : CReg) (x : Codebook) : (t.setCb n x).landed = t.landed := rfl
@[simp] theorem Tile.setCb_ueNote (t : Tile) (n : CReg) (x : Codebook) : (t.setCb n x).ueNote = t.ueNote := rfl
@[simp] theorem Tile.setCb_promises (t : Tile) (n : CReg) (x : Codebook) : (t.setCb n x).promises = t.promises := rfl
@[simp] theorem Tile.setCb_trap (t : Tile) (n : CReg) (x : Codebook) : (t.setCb n x).trap = t.trap := rfl
@[simp] theorem Tile.setCb_freezing (t : Tile) (n : CReg) (x : Codebook) : (t.setCb n x).freezing = t.freezing := rfl
@[simp] theorem Tile.setCb_snap (t : Tile) (n : CReg) (x : Codebook) : (t.setCb n x).snap = t.snap := rfl
@[simp] theorem Tile.setCb_replay (t : Tile) (n : CReg) (x : Codebook) : (t.setCb n x).replay = t.replay := rfl
@[simp] theorem Tile.setCb_held (t : Tile) (n : CReg) (x : Codebook) : (t.setCb n x).held = t.held := rfl
@[simp] theorem Tile.setCb_watch (t : Tile) (n : CReg) (x : Codebook) : (t.setCb n x).watch = t.watch := rfl
@[simp] theorem Tile.setCb_wake (t : Tile) (n : CReg) (x : Codebook) : (t.setCb n x).wake = t.wake := rfl
@[simp] theorem Tile.setCb_binds (t : Tile) (n : CReg) (x : Codebook) : (t.setCb n x).binds = t.binds := rfl
@[simp] theorem Tile.setCb_mat (t : Tile) (n : CReg) (x : Codebook) : (t.setCb n x).mat = t.mat := rfl
@[simp] theorem Tile.setCb_chan (t : Tile) (n : CReg) (x : Codebook) : (t.setCb n x).chan = t.chan := rfl
@[simp] theorem Tile.setCb_unv (t : Tile) (n : CReg) (x : Codebook) : (t.setCb n x).unv = t.unv := rfl
@[simp] theorem Tile.setCb_bufs (t : Tile) (n : CReg) (x : Codebook) : (t.setCb n x).bufs = t.bufs := rfl
@[simp] theorem Tile.setCb_rings (t : Tile) (n : CReg) (x : Codebook) : (t.setCb n x).rings = t.rings := rfl
@[simp] theorem Tile.setCb_icache (t : Tile) (n : CReg) (x : Codebook) : (t.setCb n x).icache = t.icache := rfl
@[simp] theorem Tile.setCb_phase (t : Tile) (n : CReg) (x : Codebook) : (t.setCb n x).phase = t.phase := rfl
@[simp] theorem Tile.setCb_fence (t : Tile) (n : CReg) (x : Codebook) : (t.setCb n x).fence = t.fence := rfl
@[simp] theorem Tile.setCb_quiet (t : Tile) (n : CReg) (x : Codebook) : (t.setCb n x).quiet = t.quiet := rfl
@[simp] theorem Tile.setCb_unacked (t : Tile) (n : CReg) (x : Codebook) : (t.setCb n x).unacked = t.unacked := rfl
@[simp] theorem Tile.setCb_cs (t : Tile) (n : CReg) (x : Codebook) : (t.setCb n x).cs = t.cs := rfl
@[simp] theorem Tile.setCb_coll (t : Tile) (n : CReg) (x : Codebook) : (t.setCb n x).coll = t.coll := rfl
@[simp] theorem Tile.setCb_sramUe (t : Tile) (n : CReg) (x : Codebook) : (t.setCb n x).sramUe = t.sramUe := rfl
@[simp] theorem Tile.setCb_regs_v (t : Tile) (n : CReg) (x : Codebook) : (t.setCb n x).regs.v = t.regs.v := rfl
@[simp] theorem Tile.setCb_regs_s (t : Tile) (n : CReg) (x : Codebook) : (t.setCb n x).regs.s = t.regs.s := rfl
@[simp] theorem Tile.setCb_regs_a (t : Tile) (n : CReg) (x : Codebook) : (t.setCb n x).regs.a = t.regs.a := rfl
@[simp] theorem Tile.setCb_regs_p (t : Tile) (n : CReg) (x : Codebook) : (t.setCb n x).regs.p = t.regs.p := rfl
@[simp] theorem Tile.setCb_regs_g (t : Tile) (n : CReg) (x : Codebook) : (t.setCb n x).regs.g = t.regs.g := rfl
@[simp] theorem Tile.setCb_regs_basin (t : Tile) (n : CReg) (x : Codebook) : (t.setCb n x).regs.basin = t.regs.basin := rfl
@[simp] theorem Tile.setCb_regs_vrb (t : Tile) (n : CReg) (x : Codebook) : (t.setCb n x).regs.vrb = t.regs.vrb := rfl
@[simp] theorem Tile.setBasin_st (t : Tile) (x : Basin) : (t.setBasin x).st = t.st := rfl
@[simp] theorem Tile.setBasin_team (t : Tile) (x : Basin) : (t.setBasin x).team = t.team := rfl
@[simp] theorem Tile.setBasin_mode (t : Tile) (x : Basin) : (t.setBasin x).mode = t.mode := rfl
@[simp] theorem Tile.setBasin_pc (t : Tile) (x : Basin) : (t.setBasin x).pc = t.pc := rfl
@[simp] theorem Tile.setBasin_sys (t : Tile) (x : Basin) : (t.setBasin x).sys = t.sys := rfl
@[simp] theorem Tile.setBasin_bound (t : Tile) (x : Basin) : (t.setBasin x).bound = t.bound := rfl
@[simp] theorem Tile.setBasin_user (t : Tile) (x : Basin) : (t.setBasin x).user = t.user := rfl
@[simp] theorem Tile.setBasin_hand (t : Tile) (x : Basin) : (t.setBasin x).hand = t.hand := rfl
@[simp] theorem Tile.setBasin_te (t : Tile) (x : Basin) : (t.setBasin x).te = t.te := rfl
@[simp] theorem Tile.setBasin_tf (t : Tile) (x : Basin) : (t.setBasin x).tf = t.tf := rfl
@[simp] theorem Tile.setBasin_pipe (t : Tile) (x : Basin) : (t.setBasin x).pipe = t.pipe := rfl
@[simp] theorem Tile.setBasin_vpend (t : Tile) (x : Basin) : (t.setBasin x).vpend = t.vpend := rfl
@[simp] theorem Tile.setBasin_landClk (t : Tile) (x : Basin) : (t.setBasin x).landClk = t.landClk := rfl
@[simp] theorem Tile.setBasin_landed (t : Tile) (x : Basin) : (t.setBasin x).landed = t.landed := rfl
@[simp] theorem Tile.setBasin_ueNote (t : Tile) (x : Basin) : (t.setBasin x).ueNote = t.ueNote := rfl
@[simp] theorem Tile.setBasin_promises (t : Tile) (x : Basin) : (t.setBasin x).promises = t.promises := rfl
@[simp] theorem Tile.setBasin_trap (t : Tile) (x : Basin) : (t.setBasin x).trap = t.trap := rfl
@[simp] theorem Tile.setBasin_freezing (t : Tile) (x : Basin) : (t.setBasin x).freezing = t.freezing := rfl
@[simp] theorem Tile.setBasin_snap (t : Tile) (x : Basin) : (t.setBasin x).snap = t.snap := rfl
@[simp] theorem Tile.setBasin_replay (t : Tile) (x : Basin) : (t.setBasin x).replay = t.replay := rfl
@[simp] theorem Tile.setBasin_held (t : Tile) (x : Basin) : (t.setBasin x).held = t.held := rfl
@[simp] theorem Tile.setBasin_watch (t : Tile) (x : Basin) : (t.setBasin x).watch = t.watch := rfl
@[simp] theorem Tile.setBasin_wake (t : Tile) (x : Basin) : (t.setBasin x).wake = t.wake := rfl
@[simp] theorem Tile.setBasin_binds (t : Tile) (x : Basin) : (t.setBasin x).binds = t.binds := rfl
@[simp] theorem Tile.setBasin_mat (t : Tile) (x : Basin) : (t.setBasin x).mat = t.mat := rfl
@[simp] theorem Tile.setBasin_chan (t : Tile) (x : Basin) : (t.setBasin x).chan = t.chan := rfl
@[simp] theorem Tile.setBasin_unv (t : Tile) (x : Basin) : (t.setBasin x).unv = t.unv := rfl
@[simp] theorem Tile.setBasin_bufs (t : Tile) (x : Basin) : (t.setBasin x).bufs = t.bufs := rfl
@[simp] theorem Tile.setBasin_rings (t : Tile) (x : Basin) : (t.setBasin x).rings = t.rings := rfl
@[simp] theorem Tile.setBasin_icache (t : Tile) (x : Basin) : (t.setBasin x).icache = t.icache := rfl
@[simp] theorem Tile.setBasin_phase (t : Tile) (x : Basin) : (t.setBasin x).phase = t.phase := rfl
@[simp] theorem Tile.setBasin_fence (t : Tile) (x : Basin) : (t.setBasin x).fence = t.fence := rfl
@[simp] theorem Tile.setBasin_quiet (t : Tile) (x : Basin) : (t.setBasin x).quiet = t.quiet := rfl
@[simp] theorem Tile.setBasin_unacked (t : Tile) (x : Basin) : (t.setBasin x).unacked = t.unacked := rfl
@[simp] theorem Tile.setBasin_cs (t : Tile) (x : Basin) : (t.setBasin x).cs = t.cs := rfl
@[simp] theorem Tile.setBasin_coll (t : Tile) (x : Basin) : (t.setBasin x).coll = t.coll := rfl
@[simp] theorem Tile.setBasin_sramUe (t : Tile) (x : Basin) : (t.setBasin x).sramUe = t.sramUe := rfl
@[simp] theorem Tile.setBasin_regs_v (t : Tile) (x : Basin) : (t.setBasin x).regs.v = t.regs.v := rfl
@[simp] theorem Tile.setBasin_regs_s (t : Tile) (x : Basin) : (t.setBasin x).regs.s = t.regs.s := rfl
@[simp] theorem Tile.setBasin_regs_a (t : Tile) (x : Basin) : (t.setBasin x).regs.a = t.regs.a := rfl
@[simp] theorem Tile.setBasin_regs_p (t : Tile) (x : Basin) : (t.setBasin x).regs.p = t.regs.p := rfl
@[simp] theorem Tile.setBasin_regs_g (t : Tile) (x : Basin) : (t.setBasin x).regs.g = t.regs.g := rfl
@[simp] theorem Tile.setBasin_regs_cb (t : Tile) (x : Basin) : (t.setBasin x).regs.cb = t.regs.cb := rfl
@[simp] theorem Tile.setBasin_regs_vrb (t : Tile) (x : Basin) : (t.setBasin x).regs.vrb = t.regs.vrb := rfl
@[simp] theorem Tile.setVrb_st (t : Tile) (x : BitVec 5) : (t.setVrb x).st = t.st := rfl
@[simp] theorem Tile.setVrb_team (t : Tile) (x : BitVec 5) : (t.setVrb x).team = t.team := rfl
@[simp] theorem Tile.setVrb_mode (t : Tile) (x : BitVec 5) : (t.setVrb x).mode = t.mode := rfl
@[simp] theorem Tile.setVrb_pc (t : Tile) (x : BitVec 5) : (t.setVrb x).pc = t.pc := rfl
@[simp] theorem Tile.setVrb_sys (t : Tile) (x : BitVec 5) : (t.setVrb x).sys = t.sys := rfl
@[simp] theorem Tile.setVrb_bound (t : Tile) (x : BitVec 5) : (t.setVrb x).bound = t.bound := rfl
@[simp] theorem Tile.setVrb_user (t : Tile) (x : BitVec 5) : (t.setVrb x).user = t.user := rfl
@[simp] theorem Tile.setVrb_hand (t : Tile) (x : BitVec 5) : (t.setVrb x).hand = t.hand := rfl
@[simp] theorem Tile.setVrb_te (t : Tile) (x : BitVec 5) : (t.setVrb x).te = t.te := rfl
@[simp] theorem Tile.setVrb_tf (t : Tile) (x : BitVec 5) : (t.setVrb x).tf = t.tf := rfl
@[simp] theorem Tile.setVrb_pipe (t : Tile) (x : BitVec 5) : (t.setVrb x).pipe = t.pipe := rfl
@[simp] theorem Tile.setVrb_vpend (t : Tile) (x : BitVec 5) : (t.setVrb x).vpend = t.vpend := rfl
@[simp] theorem Tile.setVrb_landClk (t : Tile) (x : BitVec 5) : (t.setVrb x).landClk = t.landClk := rfl
@[simp] theorem Tile.setVrb_landed (t : Tile) (x : BitVec 5) : (t.setVrb x).landed = t.landed := rfl
@[simp] theorem Tile.setVrb_ueNote (t : Tile) (x : BitVec 5) : (t.setVrb x).ueNote = t.ueNote := rfl
@[simp] theorem Tile.setVrb_promises (t : Tile) (x : BitVec 5) : (t.setVrb x).promises = t.promises := rfl
@[simp] theorem Tile.setVrb_trap (t : Tile) (x : BitVec 5) : (t.setVrb x).trap = t.trap := rfl
@[simp] theorem Tile.setVrb_freezing (t : Tile) (x : BitVec 5) : (t.setVrb x).freezing = t.freezing := rfl
@[simp] theorem Tile.setVrb_snap (t : Tile) (x : BitVec 5) : (t.setVrb x).snap = t.snap := rfl
@[simp] theorem Tile.setVrb_replay (t : Tile) (x : BitVec 5) : (t.setVrb x).replay = t.replay := rfl
@[simp] theorem Tile.setVrb_held (t : Tile) (x : BitVec 5) : (t.setVrb x).held = t.held := rfl
@[simp] theorem Tile.setVrb_watch (t : Tile) (x : BitVec 5) : (t.setVrb x).watch = t.watch := rfl
@[simp] theorem Tile.setVrb_wake (t : Tile) (x : BitVec 5) : (t.setVrb x).wake = t.wake := rfl
@[simp] theorem Tile.setVrb_binds (t : Tile) (x : BitVec 5) : (t.setVrb x).binds = t.binds := rfl
@[simp] theorem Tile.setVrb_mat (t : Tile) (x : BitVec 5) : (t.setVrb x).mat = t.mat := rfl
@[simp] theorem Tile.setVrb_chan (t : Tile) (x : BitVec 5) : (t.setVrb x).chan = t.chan := rfl
@[simp] theorem Tile.setVrb_unv (t : Tile) (x : BitVec 5) : (t.setVrb x).unv = t.unv := rfl
@[simp] theorem Tile.setVrb_bufs (t : Tile) (x : BitVec 5) : (t.setVrb x).bufs = t.bufs := rfl
@[simp] theorem Tile.setVrb_rings (t : Tile) (x : BitVec 5) : (t.setVrb x).rings = t.rings := rfl
@[simp] theorem Tile.setVrb_icache (t : Tile) (x : BitVec 5) : (t.setVrb x).icache = t.icache := rfl
@[simp] theorem Tile.setVrb_phase (t : Tile) (x : BitVec 5) : (t.setVrb x).phase = t.phase := rfl
@[simp] theorem Tile.setVrb_fence (t : Tile) (x : BitVec 5) : (t.setVrb x).fence = t.fence := rfl
@[simp] theorem Tile.setVrb_quiet (t : Tile) (x : BitVec 5) : (t.setVrb x).quiet = t.quiet := rfl
@[simp] theorem Tile.setVrb_unacked (t : Tile) (x : BitVec 5) : (t.setVrb x).unacked = t.unacked := rfl
@[simp] theorem Tile.setVrb_cs (t : Tile) (x : BitVec 5) : (t.setVrb x).cs = t.cs := rfl
@[simp] theorem Tile.setVrb_coll (t : Tile) (x : BitVec 5) : (t.setVrb x).coll = t.coll := rfl
@[simp] theorem Tile.setVrb_sramUe (t : Tile) (x : BitVec 5) : (t.setVrb x).sramUe = t.sramUe := rfl
@[simp] theorem Tile.setVrb_regs_v (t : Tile) (x : BitVec 5) : (t.setVrb x).regs.v = t.regs.v := rfl
@[simp] theorem Tile.setVrb_regs_s (t : Tile) (x : BitVec 5) : (t.setVrb x).regs.s = t.regs.s := rfl
@[simp] theorem Tile.setVrb_regs_a (t : Tile) (x : BitVec 5) : (t.setVrb x).regs.a = t.regs.a := rfl
@[simp] theorem Tile.setVrb_regs_p (t : Tile) (x : BitVec 5) : (t.setVrb x).regs.p = t.regs.p := rfl
@[simp] theorem Tile.setVrb_regs_g (t : Tile) (x : BitVec 5) : (t.setVrb x).regs.g = t.regs.g := rfl
@[simp] theorem Tile.setVrb_regs_cb (t : Tile) (x : BitVec 5) : (t.setVrb x).regs.cb = t.regs.cb := rfl
@[simp] theorem Tile.setVrb_regs_basin (t : Tile) (x : BitVec 5) : (t.setVrb x).regs.basin = t.regs.basin := rfl

/-! ## Registers read after a write (R58) -/

@[simp] theorem Tile.getS_zero (t : Tile) : t.getS 0 = 0 := rfl
@[simp] theorem Tile.getP_zero (t : Tile) : t.getP 0 = BitVec.allOnes 64 := rfl
theorem Tile.setS_zero (t : Tile) (x : Word) : t.setS 0 x = t := rfl
theorem Tile.setP_zero (t : Tile) (x : Word) : t.setP 0 x = t := rfl
theorem Tile.getS_setS_same (t : Tile) (n : SReg) (x : Word) (h : n ≠ 0) : (t.setS n x).getS n = x := by
  rw [Tile.getS, if_neg h, Tile.setS, if_neg h]; exact vget_vset_same ..
theorem Tile.getS_setS_other (t : Tile) (n m : SReg) (x : Word) (h : m ≠ n) : (t.setS n x).getS m = t.getS m := by
  unfold Tile.setS; split
  · rfl
  · simp [Tile.getS, vget_vset_other _ _ _ _ h]
theorem Tile.getP_setP_same (t : Tile) (n : PReg) (x : Word) (h : n ≠ 0) : (t.setP n x).getP n = x := by
  rw [Tile.getP, if_neg h, Tile.setP, if_neg h]; exact vget_vset_same ..
theorem Tile.getP_setP_other (t : Tile) (n m : PReg) (x : Word) (h : m ≠ n) : (t.setP n x).getP m = t.getP m := by
  unfold Tile.setP; split
  · rfl
  · simp [Tile.getP, vget_vset_other _ _ _ _ h]
@[simp] theorem Tile.getV_setV_same (t : Tile) (n : VReg) (x : VWord) : (t.setV n x).getV n = x := by simp [Tile.getV, Tile.setV]
theorem Tile.getV_setV_other (t : Tile) (n m : VReg) (x : VWord) (h : m ≠ n) : (t.setV n x).getV m = t.getV m := by
  simp [Tile.getV, Tile.setV, vget_vset_other _ _ _ _ h]
@[simp] theorem Tile.getA_setA_same (t : Tile) (n : AReg) (x : ARegS) : (t.setA n x).getA n = x := by simp [Tile.getA, Tile.setA]
theorem Tile.getA_setA_other (t : Tile) (n m : AReg) (x : ARegS) (h : m ≠ n) : (t.setA n x).getA m = t.getA m := by
  simp [Tile.getA, Tile.setA, vget_vset_other _ _ _ _ h]

/-! ## A tile under a change of a frame -/

@[simp] theorem Tile.setFrameOf_st (t : Tile) (k : FrameSel) (f : Frame) : (t.setFrameOf k f).st = t.st := by cases k <;> rfl
@[simp] theorem Tile.updFrameOf_st (t : Tile) (k : FrameSel) (f : Frame → Frame) : (t.updFrameOf k f).st = t.st := by cases k <;> rfl
@[simp] theorem Tile.updFrame_st (t : Tile) (f : Frame → Frame) : (t.updFrame f).st = t.st := by
  simp [Tile.updFrame, Tile.setFrame]
@[simp] theorem Tile.setFrameOf_team (t : Tile) (k : FrameSel) (f : Frame) : (t.setFrameOf k f).team = t.team := by cases k <;> rfl
@[simp] theorem Tile.updFrameOf_team (t : Tile) (k : FrameSel) (f : Frame → Frame) : (t.updFrameOf k f).team = t.team := by cases k <;> rfl
@[simp] theorem Tile.updFrame_team (t : Tile) (f : Frame → Frame) : (t.updFrame f).team = t.team := by
  simp [Tile.updFrame, Tile.setFrame]
@[simp] theorem Tile.setFrameOf_mode (t : Tile) (k : FrameSel) (f : Frame) : (t.setFrameOf k f).mode = t.mode := by cases k <;> rfl
@[simp] theorem Tile.updFrameOf_mode (t : Tile) (k : FrameSel) (f : Frame → Frame) : (t.updFrameOf k f).mode = t.mode := by cases k <;> rfl
@[simp] theorem Tile.updFrame_mode (t : Tile) (f : Frame → Frame) : (t.updFrame f).mode = t.mode := by
  simp [Tile.updFrame, Tile.setFrame]
@[simp] theorem Tile.setFrameOf_pc (t : Tile) (k : FrameSel) (f : Frame) : (t.setFrameOf k f).pc = t.pc := by cases k <;> rfl
@[simp] theorem Tile.updFrameOf_pc (t : Tile) (k : FrameSel) (f : Frame → Frame) : (t.updFrameOf k f).pc = t.pc := by cases k <;> rfl
@[simp] theorem Tile.updFrame_pc (t : Tile) (f : Frame → Frame) : (t.updFrame f).pc = t.pc := by
  simp [Tile.updFrame, Tile.setFrame]
@[simp] theorem Tile.setFrameOf_regs (t : Tile) (k : FrameSel) (f : Frame) : (t.setFrameOf k f).regs = t.regs := by cases k <;> rfl
@[simp] theorem Tile.updFrameOf_regs (t : Tile) (k : FrameSel) (f : Frame → Frame) : (t.updFrameOf k f).regs = t.regs := by cases k <;> rfl
@[simp] theorem Tile.updFrame_regs (t : Tile) (f : Frame → Frame) : (t.updFrame f).regs = t.regs := by
  simp [Tile.updFrame, Tile.setFrame]
@[simp] theorem Tile.setFrameOf_sys (t : Tile) (k : FrameSel) (f : Frame) : (t.setFrameOf k f).sys = t.sys := by cases k <;> rfl
@[simp] theorem Tile.updFrameOf_sys (t : Tile) (k : FrameSel) (f : Frame → Frame) : (t.updFrameOf k f).sys = t.sys := by cases k <;> rfl
@[simp] theorem Tile.updFrame_sys (t : Tile) (f : Frame → Frame) : (t.updFrame f).sys = t.sys := by
  simp [Tile.updFrame, Tile.setFrame]
@[simp] theorem Tile.setFrameOf_bound (t : Tile) (k : FrameSel) (f : Frame) : (t.setFrameOf k f).bound = t.bound := by cases k <;> rfl
@[simp] theorem Tile.updFrameOf_bound (t : Tile) (k : FrameSel) (f : Frame → Frame) : (t.updFrameOf k f).bound = t.bound := by cases k <;> rfl
@[simp] theorem Tile.updFrame_bound (t : Tile) (f : Frame → Frame) : (t.updFrame f).bound = t.bound := by
  simp [Tile.updFrame, Tile.setFrame]
@[simp] theorem Tile.setFrameOf_te (t : Tile) (k : FrameSel) (f : Frame) : (t.setFrameOf k f).te = t.te := by cases k <;> rfl
@[simp] theorem Tile.updFrameOf_te (t : Tile) (k : FrameSel) (f : Frame → Frame) : (t.updFrameOf k f).te = t.te := by cases k <;> rfl
@[simp] theorem Tile.updFrame_te (t : Tile) (f : Frame → Frame) : (t.updFrame f).te = t.te := by
  simp [Tile.updFrame, Tile.setFrame]
@[simp] theorem Tile.setFrameOf_tf (t : Tile) (k : FrameSel) (f : Frame) : (t.setFrameOf k f).tf = t.tf := by cases k <;> rfl
@[simp] theorem Tile.updFrameOf_tf (t : Tile) (k : FrameSel) (f : Frame → Frame) : (t.updFrameOf k f).tf = t.tf := by cases k <;> rfl
@[simp] theorem Tile.updFrame_tf (t : Tile) (f : Frame → Frame) : (t.updFrame f).tf = t.tf := by
  simp [Tile.updFrame, Tile.setFrame]
@[simp] theorem Tile.setFrameOf_pipe (t : Tile) (k : FrameSel) (f : Frame) : (t.setFrameOf k f).pipe = t.pipe := by cases k <;> rfl
@[simp] theorem Tile.updFrameOf_pipe (t : Tile) (k : FrameSel) (f : Frame → Frame) : (t.updFrameOf k f).pipe = t.pipe := by cases k <;> rfl
@[simp] theorem Tile.updFrame_pipe (t : Tile) (f : Frame → Frame) : (t.updFrame f).pipe = t.pipe := by
  simp [Tile.updFrame, Tile.setFrame]
@[simp] theorem Tile.setFrameOf_vpend (t : Tile) (k : FrameSel) (f : Frame) : (t.setFrameOf k f).vpend = t.vpend := by cases k <;> rfl
@[simp] theorem Tile.setFrameOf_landClk (t : Tile) (k : FrameSel) (f : Frame) : (t.setFrameOf k f).landClk = t.landClk := by cases k <;> rfl
@[simp] theorem Tile.setFrameOf_landed (t : Tile) (k : FrameSel) (f : Frame) : (t.setFrameOf k f).landed = t.landed := by cases k <;> rfl
@[simp] theorem Tile.setFrameOf_ueNote (t : Tile) (k : FrameSel) (f : Frame) : (t.setFrameOf k f).ueNote = t.ueNote := by cases k <;> rfl
@[simp] theorem Tile.updFrameOf_vpend (t : Tile) (k : FrameSel) (f : Frame → Frame) : (t.updFrameOf k f).vpend = t.vpend := by cases k <;> rfl
@[simp] theorem Tile.updFrameOf_landClk (t : Tile) (k : FrameSel) (f : Frame → Frame) : (t.updFrameOf k f).landClk = t.landClk := by cases k <;> rfl
@[simp] theorem Tile.updFrameOf_landed (t : Tile) (k : FrameSel) (f : Frame → Frame) : (t.updFrameOf k f).landed = t.landed := by cases k <;> rfl
@[simp] theorem Tile.updFrameOf_ueNote (t : Tile) (k : FrameSel) (f : Frame → Frame) : (t.updFrameOf k f).ueNote = t.ueNote := by cases k <;> rfl
@[simp] theorem Tile.updFrame_vpend (t : Tile) (f : Frame → Frame) : (t.updFrame f).vpend = t.vpend := by
  simp [Tile.updFrame, Tile.setFrame]
@[simp] theorem Tile.updFrame_landClk (t : Tile) (f : Frame → Frame) : (t.updFrame f).landClk = t.landClk := by
  simp [Tile.updFrame, Tile.setFrame]
@[simp] theorem Tile.updFrame_landed (t : Tile) (f : Frame → Frame) : (t.updFrame f).landed = t.landed := by
  simp [Tile.updFrame, Tile.setFrame]
@[simp] theorem Tile.updFrame_ueNote (t : Tile) (f : Frame → Frame) : (t.updFrame f).ueNote = t.ueNote := by
  simp [Tile.updFrame, Tile.setFrame]
@[simp] theorem Tile.setFrameOf_promises (t : Tile) (k : FrameSel) (f : Frame) : (t.setFrameOf k f).promises = t.promises := by cases k <;> rfl
@[simp] theorem Tile.setFrameOf_trap (t : Tile) (k : FrameSel) (f : Frame) : (t.setFrameOf k f).trap = t.trap := by cases k <;> rfl
@[simp] theorem Tile.setFrameOf_freezing (t : Tile) (k : FrameSel) (f : Frame) : (t.setFrameOf k f).freezing = t.freezing := by cases k <;> rfl
@[simp] theorem Tile.updFrameOf_promises (t : Tile) (k : FrameSel) (f : Frame → Frame) : (t.updFrameOf k f).promises = t.promises := by cases k <;> rfl
@[simp] theorem Tile.updFrameOf_trap (t : Tile) (k : FrameSel) (f : Frame → Frame) : (t.updFrameOf k f).trap = t.trap := by cases k <;> rfl
@[simp] theorem Tile.updFrameOf_freezing (t : Tile) (k : FrameSel) (f : Frame → Frame) : (t.updFrameOf k f).freezing = t.freezing := by cases k <;> rfl
@[simp] theorem Tile.updFrame_promises (t : Tile) (f : Frame → Frame) : (t.updFrame f).promises = t.promises := by
  simp [Tile.updFrame, Tile.setFrame]
@[simp] theorem Tile.updFrame_trap (t : Tile) (f : Frame → Frame) : (t.updFrame f).trap = t.trap := by
  simp [Tile.updFrame, Tile.setFrame]
@[simp] theorem Tile.updFrame_freezing (t : Tile) (f : Frame → Frame) : (t.updFrame f).freezing = t.freezing := by
  simp [Tile.updFrame, Tile.setFrame]
@[simp] theorem Tile.setFrameOf_snap (t : Tile) (k : FrameSel) (f : Frame) : (t.setFrameOf k f).snap = t.snap := by cases k <;> rfl
@[simp] theorem Tile.updFrameOf_snap (t : Tile) (k : FrameSel) (f : Frame → Frame) : (t.updFrameOf k f).snap = t.snap := by cases k <;> rfl
@[simp] theorem Tile.updFrame_snap (t : Tile) (f : Frame → Frame) : (t.updFrame f).snap = t.snap := by
  simp [Tile.updFrame, Tile.setFrame]
@[simp] theorem Tile.setFrameOf_replay (t : Tile) (k : FrameSel) (f : Frame) : (t.setFrameOf k f).replay = t.replay := by cases k <;> rfl
@[simp] theorem Tile.updFrameOf_replay (t : Tile) (k : FrameSel) (f : Frame → Frame) : (t.updFrameOf k f).replay = t.replay := by cases k <;> rfl
@[simp] theorem Tile.updFrame_replay (t : Tile) (f : Frame → Frame) : (t.updFrame f).replay = t.replay := by
  simp [Tile.updFrame, Tile.setFrame]
@[simp] theorem Tile.setFrameOf_held (t : Tile) (k : FrameSel) (f : Frame) : (t.setFrameOf k f).held = t.held := by cases k <;> rfl
@[simp] theorem Tile.updFrameOf_held (t : Tile) (k : FrameSel) (f : Frame → Frame) : (t.updFrameOf k f).held = t.held := by cases k <;> rfl
@[simp] theorem Tile.updFrame_held (t : Tile) (f : Frame → Frame) : (t.updFrame f).held = t.held := by
  simp [Tile.updFrame, Tile.setFrame]
@[simp] theorem Tile.setFrameOf_watch (t : Tile) (k : FrameSel) (f : Frame) : (t.setFrameOf k f).watch = t.watch := by cases k <;> rfl
@[simp] theorem Tile.updFrameOf_watch (t : Tile) (k : FrameSel) (f : Frame → Frame) : (t.updFrameOf k f).watch = t.watch := by cases k <;> rfl
@[simp] theorem Tile.updFrame_watch (t : Tile) (f : Frame → Frame) : (t.updFrame f).watch = t.watch := by
  simp [Tile.updFrame, Tile.setFrame]
@[simp] theorem Tile.setFrameOf_wake (t : Tile) (k : FrameSel) (f : Frame) : (t.setFrameOf k f).wake = t.wake := by cases k <;> rfl
@[simp] theorem Tile.updFrameOf_wake (t : Tile) (k : FrameSel) (f : Frame → Frame) : (t.updFrameOf k f).wake = t.wake := by cases k <;> rfl
@[simp] theorem Tile.updFrame_wake (t : Tile) (f : Frame → Frame) : (t.updFrame f).wake = t.wake := by
  simp [Tile.updFrame, Tile.setFrame]
@[simp] theorem Tile.setFrameOf_binds (t : Tile) (k : FrameSel) (f : Frame) : (t.setFrameOf k f).binds = t.binds := by cases k <;> rfl
@[simp] theorem Tile.updFrameOf_binds (t : Tile) (k : FrameSel) (f : Frame → Frame) : (t.updFrameOf k f).binds = t.binds := by cases k <;> rfl
@[simp] theorem Tile.updFrame_binds (t : Tile) (f : Frame → Frame) : (t.updFrame f).binds = t.binds := by
  simp [Tile.updFrame, Tile.setFrame]
@[simp] theorem Tile.setFrameOf_mat (t : Tile) (k : FrameSel) (f : Frame) : (t.setFrameOf k f).mat = t.mat := by cases k <;> rfl
@[simp] theorem Tile.updFrameOf_mat (t : Tile) (k : FrameSel) (f : Frame → Frame) : (t.updFrameOf k f).mat = t.mat := by cases k <;> rfl
@[simp] theorem Tile.updFrame_mat (t : Tile) (f : Frame → Frame) : (t.updFrame f).mat = t.mat := by
  simp [Tile.updFrame, Tile.setFrame]
@[simp] theorem Tile.setFrameOf_chan (t : Tile) (k : FrameSel) (f : Frame) : (t.setFrameOf k f).chan = t.chan := by cases k <;> rfl
@[simp] theorem Tile.updFrameOf_chan (t : Tile) (k : FrameSel) (f : Frame → Frame) : (t.updFrameOf k f).chan = t.chan := by cases k <;> rfl
@[simp] theorem Tile.updFrame_chan (t : Tile) (f : Frame → Frame) : (t.updFrame f).chan = t.chan := by
  simp [Tile.updFrame, Tile.setFrame]
@[simp] theorem Tile.setFrameOf_unv (t : Tile) (k : FrameSel) (f : Frame) : (t.setFrameOf k f).unv = t.unv := by cases k <;> rfl
@[simp] theorem Tile.updFrameOf_unv (t : Tile) (k : FrameSel) (f : Frame → Frame) : (t.updFrameOf k f).unv = t.unv := by cases k <;> rfl
@[simp] theorem Tile.updFrame_unv (t : Tile) (f : Frame → Frame) : (t.updFrame f).unv = t.unv := by
  simp [Tile.updFrame, Tile.setFrame]
@[simp] theorem Tile.setFrameOf_bufs (t : Tile) (k : FrameSel) (f : Frame) : (t.setFrameOf k f).bufs = t.bufs := by cases k <;> rfl
@[simp] theorem Tile.updFrameOf_bufs (t : Tile) (k : FrameSel) (f : Frame → Frame) : (t.updFrameOf k f).bufs = t.bufs := by cases k <;> rfl
@[simp] theorem Tile.updFrame_bufs (t : Tile) (f : Frame → Frame) : (t.updFrame f).bufs = t.bufs := by
  simp [Tile.updFrame, Tile.setFrame]
@[simp] theorem Tile.setFrameOf_rings (t : Tile) (k : FrameSel) (f : Frame) : (t.setFrameOf k f).rings = t.rings := by cases k <;> rfl
@[simp] theorem Tile.updFrameOf_rings (t : Tile) (k : FrameSel) (f : Frame → Frame) : (t.updFrameOf k f).rings = t.rings := by cases k <;> rfl
@[simp] theorem Tile.updFrame_rings (t : Tile) (f : Frame → Frame) : (t.updFrame f).rings = t.rings := by
  simp [Tile.updFrame, Tile.setFrame]
@[simp] theorem Tile.setFrameOf_icache (t : Tile) (k : FrameSel) (f : Frame) : (t.setFrameOf k f).icache = t.icache := by cases k <;> rfl
@[simp] theorem Tile.updFrameOf_icache (t : Tile) (k : FrameSel) (f : Frame → Frame) : (t.updFrameOf k f).icache = t.icache := by cases k <;> rfl
@[simp] theorem Tile.updFrame_icache (t : Tile) (f : Frame → Frame) : (t.updFrame f).icache = t.icache := by
  simp [Tile.updFrame, Tile.setFrame]
@[simp] theorem Tile.setFrameOf_phase (t : Tile) (k : FrameSel) (f : Frame) : (t.setFrameOf k f).phase = t.phase := by cases k <;> rfl
@[simp] theorem Tile.updFrameOf_phase (t : Tile) (k : FrameSel) (f : Frame → Frame) : (t.updFrameOf k f).phase = t.phase := by cases k <;> rfl
@[simp] theorem Tile.updFrame_phase (t : Tile) (f : Frame → Frame) : (t.updFrame f).phase = t.phase := by
  simp [Tile.updFrame, Tile.setFrame]
@[simp] theorem Tile.setFrameOf_fence (t : Tile) (k : FrameSel) (f : Frame) : (t.setFrameOf k f).fence = t.fence := by cases k <;> rfl
@[simp] theorem Tile.updFrameOf_fence (t : Tile) (k : FrameSel) (f : Frame → Frame) : (t.updFrameOf k f).fence = t.fence := by cases k <;> rfl
@[simp] theorem Tile.updFrame_fence (t : Tile) (f : Frame → Frame) : (t.updFrame f).fence = t.fence := by
  simp [Tile.updFrame, Tile.setFrame]
@[simp] theorem Tile.setFrameOf_quiet (t : Tile) (k : FrameSel) (f : Frame) : (t.setFrameOf k f).quiet = t.quiet := by cases k <;> rfl
@[simp] theorem Tile.updFrameOf_quiet (t : Tile) (k : FrameSel) (f : Frame → Frame) : (t.updFrameOf k f).quiet = t.quiet := by cases k <;> rfl
@[simp] theorem Tile.updFrame_quiet (t : Tile) (f : Frame → Frame) : (t.updFrame f).quiet = t.quiet := by
  simp [Tile.updFrame, Tile.setFrame]
@[simp] theorem Tile.setFrameOf_unacked (t : Tile) (k : FrameSel) (f : Frame) : (t.setFrameOf k f).unacked = t.unacked := by cases k <;> rfl
@[simp] theorem Tile.updFrameOf_unacked (t : Tile) (k : FrameSel) (f : Frame → Frame) : (t.updFrameOf k f).unacked = t.unacked := by cases k <;> rfl
@[simp] theorem Tile.updFrame_unacked (t : Tile) (f : Frame → Frame) : (t.updFrame f).unacked = t.unacked := by
  simp [Tile.updFrame, Tile.setFrame]
@[simp] theorem Tile.setFrameOf_cs (t : Tile) (k : FrameSel) (f : Frame) : (t.setFrameOf k f).cs = t.cs := by cases k <;> rfl
@[simp] theorem Tile.updFrameOf_cs (t : Tile) (k : FrameSel) (f : Frame → Frame) : (t.updFrameOf k f).cs = t.cs := by cases k <;> rfl
@[simp] theorem Tile.updFrame_cs (t : Tile) (f : Frame → Frame) : (t.updFrame f).cs = t.cs := by
  simp [Tile.updFrame, Tile.setFrame]
@[simp] theorem Tile.setFrameOf_coll (t : Tile) (k : FrameSel) (f : Frame) : (t.setFrameOf k f).coll = t.coll := by cases k <;> rfl
@[simp] theorem Tile.updFrameOf_coll (t : Tile) (k : FrameSel) (f : Frame → Frame) : (t.updFrameOf k f).coll = t.coll := by cases k <;> rfl
@[simp] theorem Tile.updFrame_coll (t : Tile) (f : Frame → Frame) : (t.updFrame f).coll = t.coll := by
  simp [Tile.updFrame, Tile.setFrame]
@[simp] theorem Tile.setFrameOf_sramUe (t : Tile) (k : FrameSel) (f : Frame) : (t.setFrameOf k f).sramUe = t.sramUe := by cases k <;> rfl
@[simp] theorem Tile.updFrameOf_sramUe (t : Tile) (k : FrameSel) (f : Frame → Frame) : (t.updFrameOf k f).sramUe = t.sramUe := by cases k <;> rfl
@[simp] theorem Tile.updFrame_sramUe (t : Tile) (f : Frame → Frame) : (t.updFrame f).sramUe = t.sramUe := by
  simp [Tile.updFrame, Tile.setFrame]
@[simp] theorem Tile.frameOf_setFrameOf_same (t : Tile) (k : FrameSel) (f : Frame) : (t.setFrameOf k f).frameOf k = f := by cases k <;> rfl
@[simp] theorem Tile.frame_updFrame (t : Tile) (f : Frame → Frame) : (t.updFrame f).frame = f t.frame := by
  unfold Tile.updFrame Tile.setFrame Tile.frame Tile.cur
  cases h : t.mode <;> simp [Tile.setFrameOf, Tile.frameOf, h]

/-! ## The state -/

@[simp] theorem State.lift_eq (f : Nat → Chip → Chip) (s : State) : s.lift f = .next { s with chip := f s.clk s.chip } := rfl

end Sys2Proof.Machine
end

