-- ==== Sys2Proof/Laws/Run.lean ====
section
/-! SUPPORT. What an X word and a queue word do, said once: with their conditions met, the effect and what stands beside it; without
them, nothing; with the predicate off, only what R52, R54 and R57 say. -/

namespace Sys2Proof.Machine

variable {s : State} {h : Hdr} {eng : Nat} {us ws rs : List RegRef} {body : Nat → Chip → XDone}

theorem Chip.scrubRegs_clean (c : Chip) (p : SramUnit → Bool) (code : BitVec 8) (hc : c.tile.sramUe = []) :
    c.scrubRegs p code = (c, none) := by
  simp [Chip.scrubRegs, hc]

theorem Chip.scrubWrites_clean (c : Chip) (whole part : SramUnit → Bool) (hc : c.tile.sramUe = []) :
    c.scrubWrites whole part = c.upd fun t => { t with sramUe := [] } := by
  simp [Chip.scrubWrites, hc, Chip.upd]

@[simp] theorem vset_vset {α : Type} {k : Nat} (v : Vector α (2 ^ k)) (i : BitVec k) (x y : α) : vset (vset v i x) i y = vset v i y := by
  simp [vset]

theorem Chip.upd_upd (c : Chip) (f g : Tile → Tile) : (c.upd f).upd g = c.upd fun t => g (f t) := by
  have h : (c.upd f).tile = f c.tile := Chip.tile_upd c f
  rw [Chip.upd, h]
  simp [Chip.upd, Chip.setTile, Chip.setTileAt]

/-! ## X words -/

/-- A word that the splitter cannot take leaves the state. -/
theorem xword_not_ready (hr : s.chip.tile.readyX s.clk h ws rs = false) : xword eng h us ws rs body s = .next s := by
  simp [xword, State.lift, runX, runReading, hr]

theorem splitDone_upd (now : Nat) (c : Chip) (f : Tile → Tile) (pc clk : Nat) :
    (c.upd f).splitDone now pc clk = { c with nextId := c.nextId + 1 }.upd fun t => (f t).goOn now pc clk := by
  rw [← Chip.upd_upd _ f fun t => t.goOn now pc clk]
  rfl

/-- A splitter that can take a word cancels no phase. -/
theorem not_cancelling_of_ready (hr : s.chip.tile.readyX s.clk h ws rs = true) : s.chip.tile.cancelling = false := by
  simp only [Tile.readyX, Tile.splitting, Bool.and_eq_true, Bool.not_eq_true'] at hr
  exact hr.1.1.1.1.2

/-- An X word in its own effect. -/
theorem runX_ready (hx : XReady s h ws rs) : runX eng h us ws rs body s.clk s.chip =
    (match body s.clk s.chip with
      | .go c' pc clk => c'.splitDone s.clk pc clk
      | .trap c' cls tval tpc =>
        { c' with nextId := s.chip.nextId + 1 }.upd fun u => (u.stops s.clk).raise s.chip.tile.cur
          { xCause c' eng cls tval with pc := s.chip.tile.pc } (some (tpc.getD s.chip.tile.pc))
      | .hold => s.chip
      | .await f => f s.chip
      | .wait c' w =>
        { c' with nextId := c'.nextId + 1 }.upd fun u => { u.updFrame (fun f => { f with
          wait := some ⟨s.chip.nextId, s.chip.tile.pc, s.chip.tile.wordAt s.chip.tile.pc, w, false⟩, free := s.clk + 1 }) with
            pc := s.chip.tile.pc + 1, quiet := s.clk }) := by
  unfold runX runReading
  have hn := not_cancelling_of_ready hx.ready
  simp only [Chip.scrubRegs_clean _ _ _ hx.clean, hx.ready, hx.pred, hn, Bool.not_true, Bool.false_eq_true, if_false, Option.orElse_none,
    Option.orElse_eq_orElse, Option.isSome_none, Bool.false_and] <;> rfl

/-- A word whose predicate is off only passes (R57). -/
theorem xword_disabled (hr : s.chip.tile.readyX s.clk h ws rs = true) (hc : s.chip.tile.sramUe = [])
    (hp : (s.chip.tile.effPredX h).getLsbD 0 = false) : xword eng h us ws rs body s = .next (s.splitNext 1 id) := by
  have hn := not_cancelling_of_ready hr
  unfold xword State.lift runX runReading
  simp only [Chip.scrubRegs_clean _ _ _ hc, hr, hn, hp, Bool.not_true, Bool.false_eq_true, if_false, Bool.not_false, if_true,
    Option.isSome_none, Bool.false_and]
  rfl

theorem xword_go (hx : XReady s h ws rs) {c : Chip} {pc clk : Nat} (hb : body s.clk s.chip = .go c pc clk) :
    xword eng h us ws rs body s = .next (s.withChip (c.splitDone s.clk pc clk)) := by
  rw [xword, State.lift, runX_ready hx, hb]; rfl

/-- A word that changes the tile and goes on. -/
theorem xword_upd (hx : XReady s h ws rs) {f : Tile → Tile} {pc clk : Nat} (hb : body s.clk s.chip = .go (s.chip.upd f) pc clk) :
    xword eng h us ws rs body s = .next (s.splitTo pc clk f) := by
  rw [xword_go hx hb, splitDone_upd]; rfl

theorem xword_step (hx : XReady s h ws rs) {f : Tile → Tile} {clk : Nat} :
    xword eng h us ws rs (xstep clk f) s = .next (s.splitNext clk f) := xword_upd hx rfl

/-- A word that goes on and changes nothing else. -/
theorem xword_pass (hx : XReady s h ws rs) {pc clk : Nat} (hb : body s.clk s.chip = .go s.chip pc clk) :
    xword eng h us ws rs body s = .next (s.splitTo pc clk id) := by
  rw [xword_go hx hb]; rfl

/-- A word that raises a class. -/
theorem xword_trap (hx : XReady s h ws rs) {cls : Nat} {tv : Word} (hb : body s.clk s.chip = .trap s.chip cls tv none) :
    xword eng h us ws rs body s = .next (s.splitTrap eng cls tv id) := by
  rw [xword, State.lift, runX_ready hx, hb]; rfl

/-- A word that comes to hold the splitter. -/
theorem xword_wait (hx : XReady s h ws rs) {w : Wait} (hb : body s.clk s.chip = .wait s.chip w) :
    xword eng h us ws rs body s = .next (s.splitWait w id) := by
  rw [xword, State.lift, runX_ready hx, hb]; rfl

/-- A word held at its split leaves the state. -/
theorem xword_hold (hx : XReady s h ws rs) (hb : body s.clk s.chip = .hold) : xword eng h us ws rs body s = .next s := by
  rw [xword, State.lift, runX_ready hx, hb]

/-! ## Queue words -/

variable {q : Queue} {i : Instr} {k : Pred} {res : Nat → QWord → Chip → Bool} {qbody : Nat → QWord → Tile → Chip → Chip}
  {w : QWord} {rest : List QWord}

/-- A word that issues has its effect on the module in which it has left its queue. -/
theorem qword_issue (hq : QReady s q i k res w rest) :
    qword q i k res qbody s = .next (s.withChip (qbody s.clk w s.chip.tile (s.issued q i rest))) := by
  unfold qword unitWord State.lift runQ
  simp only [hq.head, Chip.scrubRegs_clean _ _ _ hq.clean, hq.what, hq.ready, hq.pred, hq.regs, hq.planes, hq.unit, hq.going,
    bne_self_eq_false, Bool.not_true, Bool.or_self, Bool.false_eq_true, if_false, if_true, Bool.not_false, Bool.and_self, hq.stage,
    Option.orElse_none, Option.orElse_eq_orElse]
  rfl

/-- A queue with no word, or with another word at its head, leaves the state. -/
theorem qword_not_head (hn : ∀ w rest, s.chip.tile.frame.queue q = w :: rest → w.what ≠ .ok i) :
    qword q i k res qbody s = .next s := by
  simp only [qword, unitWord, State.lift_eq, runQ]
  cases hq : s.chip.tile.frame.queue q with
  | nil => rfl
  | cons w r =>
    have := hn w r hq
    simp [this]

/-- A word that its predicate disables moves its tokens and writes its tag (R52, R54, R57). -/
theorem qword_disabled (hc : s.chip.tile.sramUe = []) (hg : s.chip.tile.cancelling = false) (hu : w.ue = false) (hh : s.chip.tile.frame.queue q = w :: rest) (hw : w.what = .ok i)
    (hr : s.chip.tile.readyQ s.clk q w i.hdr = true) (hp : predOn k (s.chip.tile.effPred w i.hdr) = false) :
    qword q i k res qbody s = .next (s.withChip (s.chip.upd fun t =>
      (t.issue s.clk q rest i.hdr).updFrame fun f => f.writeTag i.hdr.sba w.id)) := by
  simp [qword, unitWord, State.lift_eq, runQ, Chip.scrubRegs_clean _ _ _ hc, hh, hw, hr, hp, hg, hu, State.withChip]

end Sys2Proof.Machine
end

