-- ==== Sys2Proof/Laws/Vector.lean ====
section
/-! SUPPORT. Elements packed into a register and read back; what an element-wise VEC word answers. -/

namespace Sys2Proof.Machine

/-- The number whose digits in base 2^w are a list's members. -/
theorem packFold_lt (w : Nat) (l : List Nat) : l.foldr (fun v acc => v % 2 ^ w + acc * 2 ^ w) 0 < 2 ^ (w * l.length) := by
  induction l with
  | nil => simp
  | cons x r ih =>
    simp only [List.foldr_cons, List.length_cons, Nat.mul_succ, Nat.pow_add]
    have h1 : x % 2 ^ w < 2 ^ w := Nat.mod_lt _ (Nat.two_pow_pos w)
    have h2 : (r.foldr (fun v acc => v % 2 ^ w + acc * 2 ^ w) 0 + 1) * 2 ^ w ≤ 2 ^ (w * r.length) * 2 ^ w :=
      Nat.mul_le_mul_right _ ih
    rw [Nat.add_mul] at h2
    omega

theorem packFold_digit (w : Nat) (l : List Nat) (e : Nat) :
    l.foldr (fun v acc => v % 2 ^ w + acc * 2 ^ w) 0 / 2 ^ (w * e) % 2 ^ w = l.getD e 0 % 2 ^ w := by
  induction l generalizing e with
  | nil => simp
  | cons x r ih =>
    have hp : 0 < 2 ^ w := Nat.two_pow_pos w
    cases e with
    | zero => simp [Nat.add_mul_mod_self_right]
    | succ e =>
      simp only [List.foldr_cons, List.getD_cons_succ]
      rw [← ih e, Nat.mul_succ, Nat.add_comm (w * e) w, Nat.pow_add, ← Nat.div_div_eq_div_mul, Nat.add_mul_div_right _ _ hp,
        Nat.div_eq_of_lt (Nat.mod_lt x hp), Nat.zero_add]

/-- Element e of packed elements. -/
theorem elemN_packN (w : Nat) (l : List Nat) (e : Nat) (hl : w * l.length ≤ 2048) :
    elemN w (packN w l) e = l.getD e 0 % 2 ^ w := by
  unfold elemN packN
  have hb := packFold_lt w l
  have hlt : l.foldr (fun v acc => v % 2 ^ w + acc * 2 ^ w) 0 < 2 ^ 2048 :=
    Nat.lt_of_lt_of_le hb (Nat.pow_le_pow_right Nat.two_pos hl)
  rw [BitVec.extractLsb'_toNat, BitVec.toNat_ofNat, Nat.mod_eq_of_lt hlt, Nat.shiftRight_eq_div_pow, packFold_digit]

/-- The bits of elements built one by one. -/
theorem getLsbD_buildElems (n w cnt : Nat) (f : Nat → BitVec w) (e b : Nat) (hw : w * cnt ≤ n) (he : e < cnt) (hb : b < w) :
    (buildElems n w cnt f).getLsbD (w * e + b) = (f e).getLsbD b := by
  unfold buildElems
  have key : ∀ (l : List Nat) (acc : BitVec n), l.Nodup → (∀ x ∈ l, x < cnt) →
      (l.foldl (fun acc e => acc ||| ((f e).setWidth n <<< (w * e))) acc).getLsbD (w * e + b) =
        (acc.getLsbD (w * e + b) || (decide (e ∈ l) && (f e).getLsbD b)) := by
    intro l
    induction l with
    | nil => intro acc _ _; simp
    | cons x r ih =>
      intro acc hn hx
      rw [List.foldl_cons, ih _ (List.nodup_cons.1 hn).2 (fun y hy => hx y (List.mem_cons_of_mem _ hy))]
      have hlt : w * e + b < n := by
        have : w * e + w ≤ w * cnt := by rw [← Nat.mul_succ]; exact Nat.mul_le_mul_left _ he
        omega
      have hone : ((f x).setWidth n <<< (w * x)).getLsbD (w * e + b) = (decide (x = e) && (f e).getLsbD b) := by
        rw [BitVec.getLsbD_shiftLeft, BitVec.getLsbD_setWidth]
        by_cases hxe : x = e
        · subst hxe
          have h1 : w * x + b - w * x = b := by omega
          have h2 : ¬ w * x + b < w * x := by omega
          rw [h1]
          simp only [hlt, h2, decide_true, decide_false, Bool.not_false, Bool.true_and]
          have : b < n := by omega
          simp [this]
        · rcases Nat.lt_or_gt_of_ne hxe with h | h
          · have : w * x + w ≤ w * e := by rw [← Nat.mul_succ]; exact Nat.mul_le_mul_left _ h
            have hz : (f x).getLsbD (w * e + b - w * x) = false := BitVec.getLsbD_of_ge _ _ (by omega)
            simp [hz, hxe]
          · have : w * e + w ≤ w * x := by rw [← Nat.mul_succ]; exact Nat.mul_le_mul_left _ h
            have : w * e + b < w * x := by omega
            simp [this, hxe]
      rw [BitVec.getLsbD_or, hone]
      have : decide (e ∈ x :: r) = (decide (x = e) || decide (e ∈ r)) := by
        rw [← Bool.decide_or]; congr 1; simp [eq_comm]
      rw [this]
      cases acc.getLsbD (w * e + b) <;> cases decide (x = e) <;> cases decide (e ∈ r) <;> cases (f e).getLsbD b <;> rfl
  rw [key _ _ List.nodup_range (fun x hx => List.mem_range.1 hx)]
  simp [he]

/-- The flags of many elements. -/
theorem foldl_or_fl (l : List FRes) (a : FFlags) (k : Nat) :
    (l.foldl (fun a r => a ||| r.fl) a).getLsbD k = (a.getLsbD k || l.any fun r => r.fl.getLsbD k) := by
  induction l generalizing a with
  | nil => simp
  | cons x r ih => rw [List.foldl_cons, ih]; simp [Bool.or_assoc]

theorem tyWidth_pos (ty : Ty) : 0 < tyWidth ty := by cases ty <;> decide
theorem tyWidth_count (ty : Ty) : tyWidth ty * (2048 / tyWidth ty) ≤ 2048 := Nat.mul_div_le _ _

/-- Elements of a type under a predicate (R128). -/
theorem elemsOf_elementwise (ty : Ty) (p : Word) (f : Nat → FRes) :
    Elementwise (tyWidth ty) p f (elemsOf ty p f).mask (elemsOf ty p f).val (elemsOf ty p f).fl where
  mask e he b hb := by
    simp only [elemsOf, elemMask, tyCount]
    rw [getLsbD_buildElems _ _ _ _ _ _ (tyWidth_count ty) he hb]
    cases p.getLsbD (laneOf (tyWidth ty) e) <;> simp [hb]
  val e he := by
    have hc : tyCount ty = 2048 / tyWidth ty := rfl
    simp only [elemsOf]
    rw [elemN_packN]
    · simp only [List.map_map, List.getD_eq_getElem?_getD, List.getElem?_map, hc]
      rw [List.getElem?_range he]
      simp only [Option.map_some, Option.getD_some, Function.comp]
      split <;> simp
    · simp [hc, tyWidth_count]
  flags k := by
    simp only [elemsOf, foldl_or_fl]
    have h0 : (0 : FFlags).getLsbD k = false := by simp
    rw [h0, Bool.false_or, List.any_map, List.any_eq_true]
    simp only [List.mem_range, Function.comp, tyCount]
    constructor
    · rintro ⟨e, he, hf⟩
      refine ⟨e, he, ?_⟩
      cases hp : p.getLsbD (laneOf (tyWidth ty) e)
      · simp [hp] at hf
      · simp only [hp, if_true] at hf; exact ⟨rfl, hf⟩
    · rintro ⟨e, he, hp, hf⟩
      exact ⟨e, he, by simp only [hp, if_true]; exact hf⟩

/-- Elements that agree up to their width give the same. -/
theorem Elementwise.congr {n : Nat} {p : Word} {f g : Nat → FRes} {mask val : VWord} {fl : FFlags} (h : Elementwise n p f mask val fl)
    (hb : ∀ e < 2048 / n, (f e).bits % 2 ^ n = (g e).bits % 2 ^ n) (hf : ∀ e < 2048 / n, (f e).fl = (g e).fl) :
    Elementwise n p g mask val fl where
  mask := h.mask
  val e he := by rw [h.val e he, hb e he]
  flags k := by
    rw [h.flags k]
    constructor <;> rintro ⟨e, he, hp, hk⟩ <;> refine ⟨e, he, hp, ?_⟩
    · rw [← hf e he]; exact hk
    · rw [hf e he]; exact hk

theorem State.answersElements_congr {s : State} {i : Instr} {w : QWord} {rest : List QWord} {occ lat n : Nat} {d : VDst} {f g : Nat → FRes}
    (h : s.answersElements i w rest occ lat n d f) (hb : ∀ e < 2048 / n, (f e).bits % 2 ^ n = (g e).bits % 2 ^ n)
    (hf : ∀ e < 2048 / n, (f e).fl = (g e).fl) : s.answersElements i w rest occ lat n d g :=
  let ⟨m, v, l, he, hx⟩ := h
  ⟨m, v, l, he.congr hb hf, hx⟩

/-- What an element-wise word answers. -/
theorem elemWord_answers {s : State} {i : Instr} {d : VDst} {ty : Ty} {lat occ : Nat} {f : Tile → QWord → Nat → FRes} {w : QWord}
    {rest : List QWord} (hq : QReady s .c i .lanes vecRes w rest) (hx : exec i s = elemWord i d ty lat occ f s) :
    s.answersElements i w rest occ lat (tyWidth ty) d (f s.tile w) := by
  refine ⟨_, _, _, elemsOf_elementwise ty (s.tile.effPred w i.hdr) (f s.tile w), ?_⟩
  rw [hx, elemWord, qword_issue hq]
  cases d <;> rfl

end Sys2Proof.Machine
end

