-- ==== Sys2Proof/Tests/Slice0.lean ====
section
/-! SUPPORT. Tests: what the encoding checks refuse, words written out from the spec's encoding, small results worked out by hand,
and a state that meets the hypotheses of each statement. -/

namespace Sys2Proof.Tests

open Sys2Proof.Machine

-- one theorem at a time: each keeps its kernel evaluation in a thread of its own otherwise, and together they pass the memory limit
set_option Elab.async false

/-! ## Headers -/

def tokenHdr : Hdr := { Hdr.zero with giveF := true }
def tagHdr : Hdr := { Hdr.zero with sba := 3 }
def predHdr : Hdr := { Hdr.zero with preg := 1 }

/-! ## Well-formedness: each check refuses a term (R72) -/

/-- Tokens or a tag on CTRL and SYS words, tags on words that write none, tokens on commands, a predicate on multi-queue words. -/
theorem test_wf_headers : ([Instr.nop tokenHdr, .nop tagHdr, .halt tokenHdr, .loopb predHdr 0, .bar predHdr .t 0, .phase predHdr 1,
    .mark predHdr .p, .markS tagHdr .p, .lset predHdr ⟨1, false, 0, 4⟩, .pref tagHdr ⟨.post 0, 0⟩, .rfree tagHdr 0, .stb tagHdr ⟨1, .post 0⟩,
    .std tagHdr ⟨.s 1, .post 0⟩, .fence tagHdr .p, .rpub tagHdr 0, .mma tagHdr ⟨1, 2, none, .w4, .w4, 0, false, 0⟩,
    .awr tagHdr ⟨.v 0, 0, 0, false⟩, .movv tagHdr ⟨.v 0, .v 1⟩, .fadd tagHdr ⟨.v 0, .v 1, .imm 0, .f32, .rne, false⟩,
    .cpyq tokenHdr ⟨1, 2⟩, .cpyf tokenHdr ⟨1, 2, 3, 4, none⟩, .cbst tagHdr ⟨0, 1, false⟩, .cbget tagHdr ⟨.v 0, 0, 0⟩,
    .cbdedup tagHdr 0, .cbpair tagHdr ⟨0, 1, .rne, false, .add⟩]).all (fun i => !i.wf) = true := by decide

/-- A tag beside a queue-register destination, and on cbcnt.set and the vector forms of bsget. -/
theorem test_wf_tags : ([Instr.ldv tagHdr ⟨.qi 0, 2, .post 0⟩, .ldvs tagHdr ⟨.qi 0, 2, .post 0, 1⟩, .ldg tagHdr ⟨.qi 0, 1, 2, false, false, 0⟩,
    .lds tagHdr ⟨.qi 0, 2, .post 0⟩, .ldss tagHdr ⟨.qi 0, 2, .post 0, 1⟩, .rdadd tagHdr ⟨.qo 0, .v 1, .f32, .rne, false⟩,
    .rdmax tagHdr ⟨.qo 0, .v 1, .f32, .rne, false⟩, .scan tagHdr ⟨.qo 0, .v 1, .i32, .add, .rne, false⟩, .cbcnt tagHdr (.set 0 1 .f32),
    .bsget tagHdr (.e (.v 0) 1)]).all (fun i => !i.wf) = true := by decide

/-- Ranges and types that scalar words, loads and stores refuse. -/
theorem test_wf_scalar : ([Instr.bfx .zero ⟨1, 2, 0, 0, false⟩, .bfx .zero ⟨1, 2, 1, 64, false⟩, .bfi .zero ⟨1, 2, 0, 8, true⟩,
    .lset .zero ⟨1, false, 0, 0⟩, .ldd .zero ⟨.p 4, .post 0⟩, .ldt .zero ⟨0, .t, .post 0, 1⟩, .stt .zero ⟨0, .t, .post 0, 1⟩,
    .atom .zero ⟨1, 2, 3, true, .fadd, .none, .p⟩, .red .zero ⟨.v 1, 2, true, .add, .none, .p⟩, .red .zero ⟨.s 1, 2, true, .fadd, .none, .p⟩]).all
    (fun i => !i.wf) = true := by decide

/-- Types, selectors and ranges that vector words refuse. -/
theorem test_wf_vector : ([Instr.fadd .zero ⟨.v 0, .v 1, .imm 0, .i32, .rne, false⟩, .fma .zero ⟨.v 0, .v 1, .imm 0, .v 2, .i32, .rne, false⟩,
    .fmin .zero ⟨.v 0, .v 1, .imm 0, .n8⟩, .fneg .zero ⟨.v 0, .v 1, .i64⟩, .fsqrt .zero ⟨.v 0, .v 1, .n32, .rne, false⟩,
    .fcmp .zero ⟨4, .v 1, .imm 0, .f32, 0, .lt⟩, .fcmp .zero ⟨1, .v 1, .imm 0, .f32, 1, .lt⟩, .icmp .zero ⟨1, .v 1, .imm 0, .f32, 0, .lt⟩,
    .icmp .zero ⟨1, .v 1, .imm 0, .i64, 1, .lt⟩, .fcvt .zero ⟨.v 0, .v 1, .i64, .f32, 0, .rne, false⟩,
    .fcvt .zero ⟨.v 0, .v 1, .f16, .f32, 2, .rne, false⟩, .icvt .zero ⟨.v 0, .v 1, .i32, .i16, 0, .rne, false⟩,
    .icvt .zero ⟨.v 0, .v 1, .f32, .i64, 0, .rne, false⟩, .imul .zero ⟨.v 0, .v 1, .imm 0, .i64, false⟩, .iadd .zero ⟨.v 0, .v 1, .imm 0, .f32, false⟩,
    .imulh .zero ⟨.v 0, .v 1, .imm 0, .n64⟩, .imad .zero ⟨.v 0, .v 1, .imm 0, .v 2, .i64, false⟩, .iabs .zero ⟨.v 0, .v 1, .n32, false⟩,
    .iand .zero ⟨.v 0, .v 1, .imm 0, .f16⟩, .inot .zero ⟨.v 0, .v 1, .f32⟩, .iota .zero ⟨.v 0, 1, .imm 1, .f32, false⟩,
    .iota .zero ⟨.v 0, 1, .imm 1, .i64, false⟩, .shfl .zero ⟨.v 0, .v 1, .imm 64, .rot⟩, .rdadd .zero ⟨.s 1, .v 1, .i32, .rtz, false⟩,
    .rdmax .zero ⟨.s 1, .v 1, .i64, .rne, false⟩, .rdmin .zero ⟨.s 1, .v 1, .f32, .rtz, false⟩, .scan .zero ⟨.v 0, .v 1, .i64, .add, .rne, false⟩,
    .scan .zero ⟨.v 0, .v 1, .f32, .max, .rup, false⟩, .topk .zero ⟨0, 1, .v 2, .imm 0, .f32⟩, .topk .zero ⟨1, 1, .v 2, .imm 8, .f32⟩,
    .topk .zero ⟨0, 1, .v 2, .imm 8, .n64⟩, .vhist .zero ⟨0, .v 1, .imm 0, .i8, false⟩, .vhist .zero ⟨0, .v 1, .imm 4, .n8, false⟩,
    .okey .zero ⟨.v 0, .v 1, .i64⟩, .okeyi .zero ⟨.v 0, .v 1, .n64⟩, .digit .zero ⟨.v 0, .v 1, .imm 0, .i32, 0, 8⟩,
    .digit .zero ⟨.v 0, .v 1, .imm 0, .n32, 0, 9⟩, .digit .zero ⟨.v 0, .v 1, .imm 0, .n32, 0, 0⟩, .digit .zero ⟨.v 0, .v 1, .imm 0, .n8, 2, 4⟩,
    .pand .zero ⟨0, 1, 2⟩, .pnot .zero ⟨5, 1⟩]).all (fun i => !i.wf) = true := by decide

/-- What matrix, command and code words and the machine's steps refuse. -/
theorem test_wf_others : ([Instr.aclr .zero 0, .adrn .zero ⟨1, .mx8, .rtz, false, false, 0⟩, .cpy .zero ⟨1, 2, 3, 4, .plain, .t, false, false, true, false, true, none⟩,
    .cpy .zero ⟨1, 2, 3, 4, .pln, .t, false, false, false, true, true, none⟩, .cpy .zero ⟨1, 2, 3, 4, .pak, .t, false, false, false, true, true, none⟩,
    .reclust .zero ⟨0, 1, 2, 3, 1⟩, .reclust .zero ⟨0, 1, 2, 3, 257⟩, .brodnisPortTraining false 9 true]).all (fun i => !i.wf) = true := by decide

/-! ## Words written out from the spec's encodings (R45, R71) -/

/-- Words of the scalar and control rows. -/
theorem test_decode_scalar : ([
    (0x00000000000000000000, Instr.nop .zero),
    (0x0020000000000001FFFE, .br .zero (-2)),
    (0x0040000004868801FFFA, .brc .zero ⟨.lt, 3, 4, -6⟩),
    (0x00600000030200000005, .brp .zero ⟨.all, 1, 5⟩),
    (0x00800000008E00000001, .bri .zero 7 true),
    (0x00A00000000000000064, .call .zero 100),
    (0x00C00000000000000000, .ret .zero),
    (0x00E000008A0001FFFFFF, .movi .zero 5 (-1)),
    (0x010000008A0002008000, .movhi .zero (.mid 5 0x8000)),
    (0x0200000086888A000000, .add .zero ⟨3, 4, 5⟩),
    (0x0220000086888A000000, .sub .zero ⟨3, 4, 5⟩),
    (0x0240000086880001FFC0, .addi .zero ⟨3, 4, -64⟩),
    (0x0260000086888A000000, .mul .zero ⟨3, 4, 5⟩),
    (0x0280000086888A000000, .mulh .zero ⟨3, 4, 5⟩),
    (0x02A0000086888A000000, .mulhn .zero ⟨3, 4, 5⟩),
    (0x02C0000086888A000000, .div .zero ⟨3, 4, 5⟩),
    (0x02E0000086888A000000, .divn .zero ⟨3, 4, 5⟩),
    (0x0300000086888A000000, .rem .zero ⟨3, 4, 5⟩),
    (0x0320000086888A000000, .remn .zero ⟨3, 4, 5⟩),
    (0x0340000086888A000000, .and .zero ⟨3, 4, 5⟩),
    (0x0360000086888A000000, .or .zero ⟨3, 4, 5⟩),
    (0x0380000086888A000000, .xor .zero ⟨3, 4, 5⟩),
    (0x03A0000086880001FFC0, .andi .zero ⟨3, 4, -64⟩),
    (0x03C0000086880001FFC0, .ori .zero ⟨3, 4, -64⟩),
    (0x03E0000086880001FFC0, .xori .zero ⟨3, 4, -64⟩),
    (0x0400000086888A000000, .shl .zero ⟨3, 4, 5⟩)] : List (IWord × Instr)).all (fun x => (decode x.1).toOption == some x.2) = true := by decide +kernel

/-- Words of the more scalar and control rows. -/
theorem test_decode_control : ([
    (0x0420000086888A000000, Instr.shr .zero ⟨3, 4, 5⟩),
    (0x0440000086888A000000, .sar .zero ⟨3, 4, 5⟩),
    (0x0460000086880000003F, .shli .zero ⟨3, 4, 63⟩),
    (0x0480000086880000003F, .shri .zero ⟨3, 4, 63⟩),
    (0x04A0000086880000003F, .sari .zero ⟨3, 4, 63⟩),
    (0x04C0000086888A000000, .min .zero ⟨3, 4, 5⟩),
    (0x04E0000086888A000000, .max .zero ⟨3, 4, 5⟩),
    (0x0500000086888A000000, .minn .zero ⟨3, 4, 5⟩),
    (0x0520000086888A000000, .maxn .zero ⟨3, 4, 5⟩),
    (0x05400000868800000000, .clz .zero ⟨3, 4⟩),
    (0x05600000868800000000, .popc .zero ⟨3, 4⟩),
    (0x05800000868800010308, .bfx .zero ⟨3, 4, 8, 12, true⟩),
    (0x05A00000868800000308, .bfi .zero ⟨3, 4, 8, 12, false⟩),
    (0x05C0000086888A000000, .seq .zero ⟨3, 4, 5⟩),
    (0x05E0000086888A000000, .slt .zero ⟨3, 4, 5⟩),
    (0x0600000086888A000000, .sltn .zero ⟨3, 4, 5⟩),
    (0x07000000008404000005, .lset .zero ⟨2, false, 2, 5⟩),
    (0x0720000000000001FFFC, .loopb .zero (-4)),
    (0x07400002000000000000, .lexit ⟨false, false, false, false, 0, 0, 0, 0, false, 1⟩),
    (0x076000008C0000000003, .movs .zero 6 .iter1),
    (0x07800000C48A8C8E8000, .amode .zero ⟨2, 5, 6, 7, .circ⟩),
    (0x07A0000086C400000000, .amov .zero (.toS 3 2)),
    (0x08000100009000000000, .waitt ⟨false, false, false, false, 0, 0, 1, 0, false, 0⟩ 8),
    (0x08200000000000000005, .waits .zero 5),
    (0x084000008C8A00000001, .waita .zero 6 5 true),
    (0x086000008B1400000000, .rwaite .zero 5 2),
    (0x088000008B1400000000, .rwaitf .zero 5 2),
    (0x08A00000008800000000, .mon .zero 4),
    (0x08C00000000000000000, .moncl .zero),
    (0x08E00000000000000003, .bar .zero .t 3),
    (0x09000001148A8C000000, .rinit .zero 2 5 6)] : List (IWord × Instr)).all (fun x => (decode x.1).toOption == some x.2) = true := by decide +kernel

/-- Words of the load rows. -/
theorem test_decode_load : ([
    (0x20000000868800010FF8, Instr.ldb .zero ⟨3, true, .off 4 (-8)⟩),
    (0x2020000086C400005000, .ldh .zero ⟨3, false, .post 2⟩),
    (0x2040000086888A01B00B, .ldw .zero ⟨3, true, .idx 4 5 true 3⟩),
    (0x2060000102880000E010, .ldd .zero ⟨.p 1, .sp 4 16⟩),
    (0x2090100042C200009000, .ldv ⟨true, false, false, false, 0, 2, 0, 0, false, 0⟩ ⟨.v 33, 2, .post 1⟩),
    (0x20A00000D2888A004040, .ldvs .zero ⟨.qi 1, 1, .off 4 64, 5⟩),
    (0x20D01800508C4200B00E, .ldg ⟨true, false, false, false, 0, 3, 0, 0, false, 0⟩ ⟨.v 40, 6, 33, true, true, 2⟩),
    (0x20E00000508E0000A040, .lds .zero ⟨.v 40, 2, .off 7 64⟩),
    (0x2100000050CE8A002000, .ldss .zero ⟨.v 40, 0, .post 7, 5⟩),
    (0x2120000050C68A015E00, .ldmx .zero ⟨40, .w6, 7, .post 3, 5⟩),
    (0x2140100050888A00C000, .ldt ⟨false, false, false, false, 0, 2, 0, 0, false, 0⟩ ⟨40, .p, .off 4 0, 5⟩),
    (0x216008008C888A000000, .kvlook ⟨false, false, false, false, 0, 1, 0, 0, false, 0⟩ ⟨6, 4, 5⟩),
    (0x218008008C888A000000, .ixld ⟨false, false, false, false, 0, 1, 0, 0, false, 0⟩ ⟨6, .off 4 0, 5⟩),
    (0x21A0000000880000C080, .pref .zero ⟨.off 4 128, 3⟩),
    (0x21C00000011400000000, .rfree .zero 2),
    (0x21E00000000000000003, .mark .zero .p)] : List (IWord × Instr)).all (fun x => (decode x.1).toOption == some x.2) = true := by decide +kernel

/-- Words of the floating vector rows. -/
theorem test_decode_float : ([
    (0x40000002161614000000, Instr.fadd ⟨false, false, false, false, 0, 0, 0, 0, false, 1⟩ ⟨.v 11, .v 11, .src (.v 10), .f32, .rne, false⟩),
    (0x40200000504202002A00, .fsub .zero ⟨.v 40, .v 33, .imm 1, .f16, .rtz, false⟩),
    (0x40400000504244004400, .fmul .zero ⟨.v 40, .v 33, .src (.v 34), .bf16, .rne, true⟩),
    (0x40644208504240500000, .fma ⟨false, false, true, false, 1, 0, 2, 0, false, 4⟩ ⟨.v 40, .v 33, .src (.v 32), .v 40, .f32, .rne, false⟩),
    (0x40800000504244460000, .fms .zero ⟨.v 40, .v 33, .src (.v 34), .v 35, .f32, .rne, false⟩),
    (0x40A00000504244461800, .fnma .zero ⟨.v 40, .v 33, .src (.v 34), .v 35, .f32, .rup, false⟩),
    (0x40C00000504244000000, .fmin .zero ⟨.v 40, .v 33, .src (.v 34), .f32⟩),
    (0x40E04000505000002200, .fmax ⟨false, false, false, false, 1, 0, 0, 0, false, 0⟩ ⟨.v 40, .v 40, .imm 0, .f16⟩),
    (0x41000000504200000000, .fabs .zero ⟨.v 40, .v 33, .f32⟩),
    (0x41200000504200004000, .fneg .zero ⟨.v 40, .v 33, .bf16⟩),
    (0x41400000504244000000, .fcpys .zero ⟨.v 40, .v 33, .src (.v 34), .f32⟩),
    (0x416000005042D4001000, .fdiv .zero ⟨.v 40, .v 33, .src (.qi 2), .f32, .rdn, false⟩),
    (0x41800000504200002000, .fsqrt .zero ⟨.v 40, .v 33, .f16, .rne, false⟩),
    (0x41A00000504200002000, .frcp .zero ⟨.v 40, .v 33, .f16, .rne, false⟩),
    (0x41C00000504200002000, .frsq .zero ⟨.v 40, .v 33, .f16, .rne, false⟩),
    (0x41E00000504200002000, .fexp2 .zero ⟨.v 40, .v 33, .f16, .rne, false⟩),
    (0x42000000504200002000, .flog2 .zero ⟨.v 40, .v 33, .f16, .rne, false⟩),
    (0x42202001045000000205, .fcmp ⟨false, false, false, false, 0, 4, 0, 0, false, 0⟩ ⟨2, .v 40, .imm 0, .f32, 0, .ge⟩),
    (0x42400000504200000000, .fclass .zero ⟨.v 40, .v 33, .f32⟩),
    (0x42608000484600004808, .fcvt ⟨false, false, false, false, 2, 0, 0, 0, false, 0⟩ ⟨.v 36, .v 35, .bf16, .f32, 1, .rtz, false⟩),
    (0x42800000504244002000, .fscalb .zero ⟨.v 40, .v 33, .src (.v 34), .f16, .rne, false⟩),
    (0x42A000005042000000F8, .icvt .zero ⟨.v 40, .v 33, .f32, .i8, 3, .rne, false⟩)] : List (IWord × Instr)).all (fun x => (decode x.1).toOption == some x.2) = true := by decide +kernel

/-- Words of the integer vector rows. -/
theorem test_decode_integer : ([
    (0x44000000020280006200, Instr.iadd .zero ⟨.v 1, .v 1, .imm 0x40, .i32, false⟩),
    (0x4420000050420200C200, .isub .zero ⟨.v 40, .v 33, .imm 1, .n16, false⟩),
    (0x4440000050424400A400, .imul .zero ⟨.v 40, .v 33, .src (.v 34), .i16, true⟩),
    (0x44600000504244008000, .imulh .zero ⟨.v 40, .v 33, .src (.v 34), .n32⟩),
    (0x44800000504244466000, .imad .zero ⟨.v 40, .v 33, .src (.v 34), .v 35, .i32, false⟩),
    (0x44A0000050424400E000, .imin .zero ⟨.v 40, .v 33, .src (.v 34), .i8⟩),
    (0x44C00000504244010000, .imax .zero ⟨.v 40, .v 33, .src (.v 34), .n8⟩),
    (0x44E00000504200012400, .iabs .zero ⟨.v 40, .v 33, .i64, true⟩),
    (0x45000000504244008000, .iand .zero ⟨.v 40, .v 33, .src (.v 34), .n32⟩),
    (0x45200000504244008000, .ior .zero ⟨.v 40, .v 33, .src (.v 34), .n32⟩),
    (0x45400000504244008000, .ixor .zero ⟨.v 40, .v 33, .src (.v 34), .n32⟩),
    (0x45600000504200014000, .inot .zero ⟨.v 40, .v 33, .n64⟩),
    (0x45800000504208008200, .ishl .zero ⟨.v 40, .v 33, .imm 4, .n32⟩),
    (0x45A0000050424400C000, .ishr .zero ⟨.v 40, .v 33, .src (.v 34), .n16⟩),
    (0x45C0000050424400A000, .isar .zero ⟨.v 40, .v 33, .src (.v 34), .i16⟩),
    (0x45E20801020204006002, .icmp ⟨false, false, false, true, 0, 1, 0, 0, false, 0⟩ ⟨1, .v 1, .src (.v 2), .i32, 0, .lt⟩)] : List (IWord × Instr)).all (fun x => (decode x.1).toOption == some x.2) = true := by decide +kernel

/-- Words of the lane and predicate rows. -/
theorem test_decode_lanes : ([
    (0x48000000504245040000, Instr.sel .zero ⟨.v 40, .v 33, .v 34, 2⟩),
    (0x4820C002D81400000000, .movv ⟨false, false, false, false, 3, 0, 0, 0, false, 1⟩ ⟨.qo 0, .v 10⟩),
    (0x48400000048C00006000, .bcast .zero ⟨.v 2, .s 6, .i32⟩),
    (0x486010008C500E002200, .extr ⟨false, false, false, false, 0, 2, 0, 0, false, 0⟩ ⟨6, .v 40, .imm 7, .f16⟩),
    (0x48800000028002006200, .iota .zero ⟨.v 1, 0, .imm 1, .i32, false⟩),
    (0x48A00000504244460000, .perm .zero ⟨.v 40, .v 33, .v 34, .v 35⟩),
    (0x48C00000504202000203, .shfl .zero ⟨.v 40, .v 33, .imm 1, .xor⟩),
    (0x4A0008008C4200000800, .rdadd ⟨false, false, false, false, 0, 1, 0, 0, false, 0⟩ ⟨.s 6, .v 33, .f32, .rtz, false⟩),
    (0x4A20000050420000A000, .rdmax .zero ⟨.v 40, .v 33, .i16, .rne, false⟩),
    (0x4A400000DE4200010000, .rdmin .zero ⟨.qo 3, .v 33, .n8, .rne, false⟩),
    (0x4A600000504200006401, .scan .zero ⟨.v 40, .v 33, .i32, .max, .rne, true⟩),
    (0x4A80280064500A662200, .topk ⟨false, false, false, false, 0, 5, 0, 0, false, 0⟩ ⟨50, 51, .v 40, .imm 5, .f16⟩),
    (0x4AA0000058540400C201, .vhist .zero ⟨44, .v 42, .imm 2, .n16, true⟩),
    (0x4AC00000525000002000, .okey .zero ⟨.v 41, .v 40, .f16⟩),
    (0x4AE0000052500000E000, .okeyi .zero ⟨.v 41, .v 40, .i8⟩),
    (0x4B00000054528C00C088, .digit .zero ⟨.v 42, .v 41, .s 6, .n16, 8, 8⟩),
    (0x4C0018008D0400000000, .pcnt ⟨false, false, false, false, 0, 3, 0, 0, false, 0⟩ ⟨6, 2⟩),
    (0x4C20000103050A000000, .pand .zero ⟨1, 2, 5⟩),
    (0x4C40000103050A000000, .por .zero ⟨1, 2, 5⟩),
    (0x4C60000103050A000000, .pxor .zero ⟨1, 2, 5⟩),
    (0x4C800001070200000000, .pnot .zero ⟨3, 1⟩)] : List (IWord × Instr)).all (fun x => (decode x.1).toOption == some x.2) = true := by decide +kernel

/-- Words of the matrix rows. -/
theorem test_decode_matrix : ([
    (0x6000000000888A0080F3, Instr.mma .zero ⟨4, 5, none, .w8, .w4, 7, true, 3⟩),
    (0x602010008E888A000FEF, .mmaw ⟨false, false, false, false, 0, 2, 0, 0, false, 0⟩ ⟨7, ⟨4, 5, none, .w4, .w4, 127, false, 15⟩⟩),
    (0x6000000000888A8D80E3, .mma .zero ⟨4, 5, some 6, .w8, .w4, 7, false, 3⟩),
    (0x60400000000000000088, .aclr .zero 0x0088),
    (0x606008005000008C0053, .ard ⟨false, false, false, false, 0, 1, 0, 0, false, 0⟩ ⟨.v 40, 6, 3, 5, false⟩),
    (0x6080000000D000000513, .awr .zero ⟨.qi 0, 3, 17, true⟩),
    (0x60A00000009000000293, .adrn .zero ⟨8, .f16, .rtz, true, false, 3⟩),
    (0x60C000008E0000000001, .mstat .zero ⟨7, true⟩)] : List (IWord × Instr)).all (fun x => (decode x.1).toOption == some x.2) = true := by decide +kernel

/-- Words of the store rows. -/
theorem test_decode_store : ([
    (0x80000000868800000FFF, Instr.stb .zero ⟨3, .off 4 (-1)⟩),
    (0x8020000086C400006000, .sth .zero ⟨3, .spPost 2⟩),
    (0x80400000A4A600008000, .stw .zero ⟨18, .off 19 0⟩),
    (0x806000008C820000C008, .std .zero ⟨.s 6, .off 1 8⟩),
    (0x80880002D8C600009000, .stv ⟨false, true, false, false, 0, 0, 0, 0, false, 1⟩ ⟨.qo 0, 2, .post 3⟩),
    (0x80A0000050C28A00D000, .stvs .zero ⟨.v 40, 3, .post 1, 5⟩),
    (0x80C00000508C4200B002, .stg .zero ⟨.v 40, 6, 33, false, false, 2⟩),
    (0x80E00000528E0000A040, .sts .zero ⟨.v 41, 2, .off 7 64⟩),
    (0x81000000DC8E8A006000, .stss .zero ⟨.qo 2, 1, .off 7 0, 5⟩),
    (0x8120000050868A0101F8, .stmx .zero ⟨40, .w4, 0, .off 3 (-8), 5⟩),
    (0x8140000050888A010000, .stt .zero ⟨40, .x, .off 4 0, 5⟩),
    (0x816003008C8800000000, .ixst ⟨false, false, false, false, 0, 0, 3, 0, false, 0⟩ ⟨6, .off 4 0⟩),
    (0x818008008A888C00C360, .atom ⟨false, false, false, false, 0, 1, 0, 0, false, 0⟩ ⟨5, 4, 6, true, .add, .ar, .p⟩),
    (0x81A010008A888C8EC360, .acas ⟨false, false, false, false, 0, 2, 0, 0, false, 0⟩ ⟨5, 4, 6, 7, true, .ar, .p⟩),
    (0x81C00000588800008060, .red .zero ⟨.v 44, 4, false, .add, .none, .p⟩),
    (0x81E00000011400000000, .rpub .zero 2),
    (0x82000000000000000001, .fence .zero .c),
    (0x82200000000000000004, .markS .zero .x)] : List (IWord × Instr)).all (fun x => (decode x.1).toOption == some x.2) = true := by decide +kernel

/-- Words of the command rows. -/
theorem test_decode_commands : ([
    (0xA00010008C828A8E8A40, Instr.cpy ⟨false, false, false, false, 0, 2, 0, 0, false, 0⟩ ⟨6, 1, 5, 7, .ef, .c, false, true, false, false, true, none⟩),
    (0xA02008008C888A8E0026, .cpyf ⟨false, false, false, false, 0, 1, 0, 0, false, 0⟩ ⟨6, 4, 5, 7, some 3⟩),
    (0xA04018008A8A00000000, .cpyq ⟨false, false, false, false, 0, 3, 0, 0, false, 0⟩ ⟨5, 5⟩),
    (0xA06010008C888A8E2600, .cred ⟨false, false, false, false, 0, 2, 0, 0, false, 0⟩ ⟨6, 4, 5, 7, .sumF32, ⟨.x, true, true, none⟩⟩),
    (0xA08000008C888A8E2200, .cmc .zero ⟨6, 4, 5, 7, ⟨.x, false, true, none⟩⟩),
    (0xA0A000008C8E00002400, .cbar .zero ⟨6, 7, ⟨.x, true, false, none⟩⟩),
    (0xA0C008008C8800001600, .unv ⟨false, false, false, false, 0, 1, 0, 0, false, 0⟩ ⟨6, 4, ⟨.d, true, true, none⟩⟩),
    (0xA0E010008E888A001200, .patclr ⟨false, false, false, false, 0, 2, 0, 0, false, 0⟩ ⟨7, 4, 5, ⟨.d, false, true, none⟩⟩)] : List (IWord × Instr)).all (fun x => (decode x.1).toOption == some x.2) = true := by decide +kernel

/-- Words of the code rows. -/
theorem test_decode_code : ([
    (0xC0000000E68600000000, Instr.cbld .zero ⟨3, 3, false⟩),
    (0xC0200000E68800000001, .cbst .zero ⟨3, 4, true⟩),
    (0xC040000050E600000000, .cbget .zero ⟨.v 40, 3, 0⟩),
    (0xC0604000E65000000000, .cbput ⟨false, false, false, false, 1, 0, 0, 0, false, 0⟩ ⟨3, .v 40, 0⟩),
    (0xC08000008AE68A000002, .cbcnt .zero (.rt 5 3 5)),
    (0xC0800000E68A00000004, .cbcnt .zero (.set 3 5 .f16)),
    (0xC08000008AE600000001, .cbcnt .zero (.rd 5 3)),
    (0xC0A00000E60000000000, .cbdedup .zero 3),
    (0xC0C018008CE68A000001, .ixremap ⟨false, false, false, false, 0, 3, 0, 0, false, 0⟩ ⟨6, 3, 5, true⟩),
    (0xC0E01A008E108A800000, .cbenc ⟨false, false, false, false, 0, 3, 2, 0, false, 0⟩ ⟨7, .v 8, 5, 0⟩),
    (0xC1000100508A8E000000, .cbdec ⟨false, false, false, false, 0, 0, 1, 0, false, 0⟩ ⟨.v 40, 5, 7⟩),
    (0xC12028008C8A8E000000, .ixmov ⟨false, false, false, false, 0, 5, 0, 0, false, 0⟩ ⟨6, 5, 7⟩),
    (0xC140000000E8EA000000, .cbpair .zero ⟨4, 5, .rne, false, .add⟩),
    (0xC1600800908688920000, .ixpair ⟨false, false, false, false, 0, 1, 0, 0, false, 0⟩ ⟨8, 3, 4, 9⟩),
    (0xC1801100949000000000, .ixhist ⟨false, false, false, false, 0, 2, 1, 0, false, 0⟩ ⟨10, 8⟩),
    (0xC1A01800EC908E8C0004, .reclust ⟨false, false, false, false, 0, 3, 0, 0, false, 0⟩ ⟨6, 8, 7, 6, 4⟩),
    (0xC1C02000960000000004, .bsget ⟨false, false, false, false, 0, 4, 0, 0, false, 0⟩ (.cst 11)),
    (0xC1C00000DA8A00000001, .bsget .zero (.h (.qo 1) 5))] : List (IWord × Instr)).all (fun x => (decode x.1).toOption == some x.2) = true := by decide +kernel

/-- Words of the system rows. -/
theorem test_decode_system : ([
    (0xE0000000000000000012, Instr.trap .zero false 0x12),
    (0xE0000000000000010000, .trap .zero true 0),
    (0xE0200000000000000000, .tret .zero),
    (0xE04000008A0000000000, .mfs .zero ⟨5, .vflags, false⟩),
    (0xE04000008A0000000100, .mfs .zero ⟨5, .vflags, true⟩),
    (0xE0600000008C00000011, .mts .zero ⟨.tpc, 6⟩),
    (0xE08000008A00008C0003, .rqrd .zero ⟨5, 6, .imm 3⟩),
    (0xE0A00000008E00000020, .rqrel .zero (.s 7)),
    (0xE0C0000000000000001F, .rqdrop .zero (.imm 31)),
    (0xE0E00000009000000000, .phase .zero 8),
    (0xE1000000008A8C000000, .icflush .zero 5 6),
    (0xE1200000000000000000, .halt .zero)] : List (IWord × Instr)).all (fun x => (decode x.1).toOption == some x.2) = true := by decide +kernel

/-- Words refused, with the check that refuses them: an unassigned OPC, a set bit that must be zero, a register of the wrong class, a
stage predicate as a destination. -/
theorem test_decode_refuses : ([(0x01200000000000000000, DecErr.opcode), (0x00200000000200000000, .reserved), (0x04600000008800000040, .reserved),
    (0x40000000A04244000000, .operand), (0x42200000094244000005, .operand), (0x09000001308A8C000000, .operand)] : List (IWord × DecErr)).all
    (fun x => match decode x.1 with | .error e => e == x.2 | .ok _ => false) = true := by decide +kernel

/-! ## A running strand -/

/-- Tile 0 runs a strand in user mode at PC 0, CYC is 1000, one page is mapped at 0. -/
def run (f : Tile → Tile) : State :=
  { State.reset with
    clk := 1000
    chip := (Chip.reset.updDie false fun d => { d with tlb := [onePage] }).upd fun t => f { t with st := .running } }

/-- That strand in handler mode. -/
def handler (f : Tile → Tile) : State := run fun t => f { t with mode := .handler }

/-- A word of number 7 that the splitter has queued. -/
def qw (i : Instr) : QWord := ⟨7, 0, 0, .ok i, 0, 0, 0, 0, 0, 0, [], false, false⟩

/-- The strand with a word at the head of a queue. -/
def qsAt (q : Queue) (i : Instr) (f : Tile → Tile) : State := run fun t => f (t.updFrame fun r => r.setQueue q [qw i])
def qs (q : Queue) (i : Instr) : State := qsAt q i id

/-- The state of a step that answers one. -/
def after (o : Out) : State :=
  match o with
  | .next s => s
  | .fault _ | .refused _ => State.reset

/-- The tile of a step's next state. -/
def tileOf (o : Out) : Tile := (after o).tile

/-! ## Small results, worked out by hand or taken from the spec's examples -/

/-- −1 + 1 wraps to 0 (R76, R77). -/
theorem test_add_wraps : (tileOf (exec (.add .zero ⟨1, 2, 3⟩) (run fun t => (t.setS 2 (-1)).setS 3 1))).getS 1 = 0 := by decide +kernel

/-- A division by zero goes to the handler, as its clk ends, with code 144 and TPC at the word (R78, R292, R293). -/
theorem test_div_by_zero : (let t := (tileOf (exec (.div .zero ⟨1, 2, 0⟩) (run fun t => { t with pc := 5, sys := { t.sys with tvec := 96 } }))).endClk 1000
    (t.pc, t.mode, t.sys.tpc, t.sys.tcause) = (96, .handler, 5, 0x400090)) := by decide +kernel

/-- call links and branches (R81); bri.l s31 goes where s31 pointed. -/
theorem test_call : (let t := tileOf (exec (.call .zero 100) (run fun t => { t with pc := 7 })); (t.pc, t.getS 31) = (107, 8)) := by decide +kernel
theorem test_bri_link : (let t := tileOf (exec (.bri .zero 31 true) (run fun t => { t.setS 31 40 with pc := 7 })); (t.pc, t.getS 31) = (40, 8)) := by
  decide +kernel

/-- A loop of one pass is left at its loopb, VRB one less (R83, R84). -/
theorem test_loopb_leaves : (let t := tileOf (exec (.loopb .zero (-4)) (run fun t =>
      { t.updFrame fun f => { f with loops := [⟨101, 105, 0, 0, false, 1, 2, 3, 4⟩] } with pc := 105 }))
    (t.pc, t.regs.vrb, t.frame.loops, t.getP 4) = (106, 31, [], 1)) := by decide +kernel

/-- The circular and the bit-reversed walk of R101. -/
theorem test_circular_walk : (let g : ARegS := ⟨0x10000, 0x10000, 96, 256, .circ, none⟩
    let n (g : ARegS) : ARegS := { g with addr := postInc g }
    [g.addr, (n g).addr, (n (n g)).addr, (n (n (n g))).addr, (n (n (n (n g)))).addr] = [0x10000, 0x10060, 0x100C0, 0x10020, 0x10080]) := by decide +kernel
theorem test_reversed_walk : (let g : ARegS := ⟨0, 0, 8, 64, .brev, none⟩
    let n (g : ARegS) : ARegS := { g with addr := postInc g }
    [(n g).addr, (n (n g)).addr, (n (n (n g))).addr, (n (n (n (n g)))).addr] = [32, 16, 48, 8]) := by decide +kernel

/-- VRB 5 maps v33 to 38 and v61 to 34; v31 stands (R59). -/
theorem test_rotation : (physV 5 33, physV 5 61, physV 5 31) = (38, 34, 31) := by decide

/-- A lane of a register. -/
def lanes (l : List (Nat × Nat)) : VWord := l.foldl (fun v x => v ||| (BitVec.ofNat 2048 x.2 <<< (32 * x.1))) 0

/-- 1.0 + 2.0 = 3.0 in lane 0, due four clk after issue (R129, R132). -/
theorem test_fadd : (let t := tileOf (exec (.fadd .zero ⟨.v 1, .v 2, .src (.v 3), .f32, .rne, false⟩)
      (qsAt .c (.fadd .zero ⟨.v 1, .v 2, .src (.v 3), .f32, .rne, false⟩) fun t => (t.setV 2 (lanes [(0, 0x3F800000)])).setV 3 (lanes [(0, 0x40000000)])))
    t.pipe.map fun r => (r.due, r.flags, r.writes.map fun x => match x with | .v n _ v => (n, elemN 32 v 0, elemN 32 v 1) | _ => (0, 0, 0))) =
    [(1004, 0, [(1, 0x40400000, 0)])] := by decide +kernel

/-- The tree sum of R146: 16,777,216 in lane 0 and 1.0 in lanes 1 and 33 give 16,777,218. -/
theorem test_rdadd_tree : (let i : Instr := .rdadd .zero ⟨.s 6, .v 2, .f32, .rne, false⟩
    let t := tileOf (exec i (qsAt .c i fun t => t.setV 2 (lanes [(0, 0x4B800000), (1, 0x3F800000), (33, 0x3F800000)])))
    t.pipe.map fun r => (r.due, r.writes)) = [(1012, [.s 6 0x4B800001])] := by decide +kernel

/-- A doubleword lies little-endian in memory, eight bytes from its address (R1, R96). -/
theorem test_std_bytes : (let i : Instr := .std .zero ⟨.s 6, .off 1 8⟩
    let s := after (exec i (qsAt .s i fun t => (t.setS 6 0x0102030405060708).setS 1 64))
    let c := (after (exec (.accessPerform .user .s 0 0) s)).chip
    (List.range 9).map fun k => c.mem.get (72 + k)) = [8, 7, 6, 5, 4, 3, 2, 1, Config.ramByte] := by decide +kernel

/-- A handler returns: PC and VRB from TPC and TVRB (R294). -/
theorem test_tret : (let t := tileOf (exec (.tret .zero) (handler fun t => { t with sys := { t.sys with tpc := 77, tvrb := 9 } }))
    (t.mode, t.pc, t.regs.vrb) = (.user, 77, 9)) := by decide +kernel

/-- A user-mode rqrd traps with code 31 (R302). -/
theorem test_rqrd_user :
    ((tileOf (exec (.rqrd .zero ⟨5, 6, .imm 3⟩) (run fun t => { t with sys := { t.sys with tvec := 96 } }))).endClk 1000).sys.tcause = 0x40001F := by
  decide +kernel

/-- A zeroed word at the fetch runs as nop (R46, R47). -/
theorem test_step_runs_nop : (let s := (State.reset.withFetchWord 0 0); (tileOf (step s)).pc) = 1 := by decide +kernel

/-! ## Witnesses: states and operands that meet the hypotheses of the statements -/

/-- XReady's fields as one test. -/
def xok (s : State) (h : Hdr) (ws rs : List RegRef) : Bool :=
  s.chip.tile.readyX s.clk h ws rs && s.chip.tile.sramUe.isEmpty && (s.chip.tile.effPredX h).getLsbD 0

theorem xready_of {s h ws rs} (e : xok s h ws rs = true) : XReady s h ws rs := by
  simp only [xok, Bool.and_eq_true, List.isEmpty_iff] at e
  exact ⟨e.1.1, e.1.2, e.2⟩

/-- QReady's fields as one condition that the kernel decides. -/
def qok (s : State) (q : Queue) (k : Pred) (res : Nat → QWord → Chip → Bool) (i : Instr) (w : QWord) (rest : List QWord) : Bool :=
  let c := s.chip
  let f := c.tile.frame
  decide (f.queue q = w :: rest ∧ w.what = .ok i ∧ c.tile.readyQ s.clk q w i.hdr = true ∧ predOn k (c.tile.effPred w i.hdr) = true ∧
    qregsReady s.clk f i = true ∧ c.tile.planesHeld w.id i = false ∧ res s.clk w c = true ∧ c.tile.cancelling = false ∧ c.tile.sramUe = [] ∧ w.ue = false)

theorem qready_of {s q k res i w rest} (e : qok s q k res i w rest = true) : QReady s q i k res w rest :=
  let ⟨queue, what, ready, on, regs, planes, room, going, sound, whole⟩ := of_decide_eq_true e
  { head := queue, what := what, ready := ready, pred := on, regs := regs, planes := planes, unit := room, going := going, clean := sound, stage := whole }

/-- A test that every member of a list passes. -/
theorem all_ready {α : Type} {l : List α} {f : α → Bool} (e : l.all f = true) : ∀ x ∈ l, f x = true := List.all_eq_true.mp e

/-- Every word of a list stands ready at the head of its queue, whatever the tile holds beside. -/
theorem qready_all {q k res} {f : Tile → Tile} {l : List Instr} (e : l.all (fun i => qok (qsAt q i f) q k res i (qw i) []) = true) :
    ∀ i ∈ l, QReady (qsAt q i f) q i k res (qw i) [] := fun i hi => qready_of (List.all_eq_true.mp e i hi)

/-! ### The encoding and the step -/

theorem witness_DecodeOfEncode : (Instr.nop .zero).wf = true ∧ encode (.nop .zero) = some 0 := by decide +kernel
theorem witness_EncodeOfDecode : (decode 0xE0000000000000000012).toOption = some (.trap .zero false 18) := by decide +kernel

/-- A word placed at the next fetch, with a turn for it. -/
def placed (w : Nat) (a : Act) : State := { State.reset.withFetchWord 80 w with agenda := [⟨1, 0, [], a⟩] }
/-- A state whose agenda holds one turn. -/
def turning (s : State) (n : Nat) (a : Act) : State := { s with agenda := [⟨n, 0, [], a⟩] }
/-- That turn is taken in this step, and the splitter can then take a word; what it fetches. -/
def fetched (s : State) : Option Fetched :=
  match s.agenda with
  | u :: rest =>
    let b := s.begin u rest
    if decide (s.takes u) && b.chip.tile.canSplit b.clk then some b.chip.fetchWord.2 else none
  | [] => none
/-- It fetches the word, which decodes to an X word or to a queue word. -/
def splits (s : State) (w : IWord) (x : Bool) : Bool := fetched s == some (.word w) && (match decode w with | .ok i => isX i == x | .error _ => false)
/-- The queue word it fetches finds no other word due before it. -/
def splitsAlone (s : State) (w : IWord) : Bool :=
  match s.agenda with
  | u :: rest =>
    let b := s.begin u rest
    (b.withChip (b.chip.fetchWord.1.splitQueueWord b.clk w)).dueIssue.isNone
  | [] => false
/-- The strand with one word in a queue. -/
def queued (q : Queue) (w : QWord) : State := run fun t => t.updFrame fun r => r.setQueue q [w]

/-- An X word and a queue word to take, a word that does not decode, a PC with no translation; a word to issue, the S part of a bar, a word that
did not decode at its queue's head; a step of the machine; a turn of no clk, of one, and of nine beside empty queues; no turn at all; a word that is
due before the turn, and before the default turn. -/
theorem witness_StepRunsTheDecodedInstruction : splits (placed 0xE0000000000000000012 .run) 0xE0000000000000000012 true = true ∧
    splits (placed 0x80E00000528E0000A040 .fetch) 0x80E00000528E0000A040 false = true ∧
    (let s := placed 0x80E00000528E0000A040 .run; splits s 0x80E00000528E0000A040 false = true ∧ splitsAlone s 0x80E00000528E0000A040 = true) ∧
    (fetched (placed 0x01200000000000000000 .run) = some (.word 0x01200000000000000000) ∧ (decode 0x01200000000000000000).toOption = none) ∧
    fetched (turning (run fun t => { t with pc := 7000 }) 1 .run) = some (.bad 6 0x12380) ∧
    (∀ x ∈ [(Queue.c, qw (.pnot .zero ⟨1, 2⟩)), (.s, qw (.bar .zero .t 3)), (.l, { qw (.nop .zero) with what := .bad .opcode })],
      let s := turning (queued x.1 x.2) 0 (.issue x.1); (s.begin ⟨0, 0, [], .issue x.1⟩ []).chip.tile.frame.queue x.1 = [x.2]) ∧
    Instr.eng .resultWrite = none ∧
    (turning (run id) 9 .run).takes ⟨9, 0, [], .run⟩ ∧ (turning (queued .c (qw (.pnot .zero ⟨1, 2⟩))) 0 .run).takes ⟨0, 0, [], .run⟩ ∧
    (State.reset.agenda = [] ∧ State.reset.due = none) ∧
    (∀ s ∈ [queued .c (qw (.pnot .zero ⟨1, 2⟩)), turning (queued .c (qw (.pnot .zero ⟨1, 2⟩))) 1 .run], s.due.isSome = true) := by decide +kernel

/-! ### Scalar and control words -/

def big : Word := 0x8000000000000000

/-- The register words, with a divisor, without one, and with −2^63 by −1. -/
theorem witness_IntegerWordsCompute : XReady (run fun t => t.setS 3 1) .zero [.s 1] [] ∧ (run fun t => t.setS 3 1).tile.getS 3 ≠ 0 :=
  ⟨xready_of (by decide +kernel), by decide +kernel⟩
theorem witness_DivisionByZeroTraps : XReady (run id) .zero [.s 1] [] ∧ (run id).tile.getS 3 = 0 ∧
    XReady (run fun t => (t.setS 2 big).setS 3 (-1)) .zero [.s 1] [] ∧ ((run fun t => (t.setS 2 big).setS 3 (-1)).tile.getS 2).toInt = -(2 ^ 63) ∧
    ((run fun t => (t.setS 2 big).setS 3 (-1)).tile.getS 3).toInt = -1 :=
  ⟨xready_of (by decide +kernel), by decide +kernel, xready_of (by decide +kernel), by decide +kernel⟩
/-- LEN 1 and 64 at the ends of the word; fields that are refused at their boundary values. -/
theorem witness_BitFieldWordsMoveTheField : XReady (run id) .zero [.s 1] [] ∧ BfOp.wf ⟨1, 2, 0, 64, true⟩ = true ∧ BfOp.wf ⟨1, 2, 63, 1, false⟩ = true ∧
    BfOp.wf ⟨1, 2, 63, 2, false⟩ = false := ⟨xready_of (by decide +kernel), by decide, by decide, by decide⟩

/-- Fields of an otherwise empty word of CTRL. -/
def ctrlFields (opc : BitVec 8) (sa sb sc : BitVec 8) (mod : BitVec 17) : Fields := Fields.ofWord (0#3 ++ opc ++ 0#28 ++ sa ++ sb ++ sc ++ mod)

theorem witness_refusedFields :
    (let f := ctrlFields 0x23 0x41 0 0 64; f.eng = 0 ∧ f.opc = 0x23 ∧ 64 ≤ f.mod.toNat) ∧
    (let f := ctrlFields 0x2C 0x41 0 0 0; f.eng = 0 ∧ f.opc = 0x2C ∧ f.bits 6 7 = 0) ∧
    (let f := ctrlFields 0x2C 0x41 0 0 0x1041; f.eng = 0 ∧ 64 < (f.bits 0 6).toNat + (f.bits 6 7).toNat) ∧
    (let f := ctrlFields 0x2D 0x41 0 0 0x10040; f.eng = 0 ∧ f.opc = 0x2D ∧ f.bit 16 = true) ∧
    (let f := ctrlFields 8 0 2 0 0x4000; f.opc = 8 ∧ f.sb = 2 ∧ (f.sc ++ f.mod).extractLsb' 14 11 ≠ 0#11) ∧
    (let f := ctrlFields 7 1 0 0 0; f.opc = 7 ∧ f.sa ≠ 0) ∧
    (let f := ctrlFields 0x3C 0x41 0x41 0x41 0x18000; f.opc = 0x3C ∧ f.bits 15 2 = 3) ∧
    (let f := ctrlFields 0x3D 0 0x41 0 0; f.opc = 0x3D ∧ f.sb ≠ 0) ∧
    (let f := ctrlFields 0x3D 0x41 0 0 0; f.opc = 0x3D ∧ f.h.isX = true ∧ f.sb = 0 ∧ f.sc = 0 ∧ f.mod = 0 ∧ f.sa = sNum 1 ∧ f.dst = 0) := by decide +kernel

theorem witness_ConstantWordsPlaceTheirBits : XReady (run id) .zero [.s 5] [] := xready_of (by decide +kernel)
theorem witness_RegistersAndMemoryReadBack : Memory.wf [(5, 1), (9, 255)] = true ∧ (3 : SReg) ≠ 0 ∧ (4 : SReg) ≠ 3 := by decide

/-- Branches taken and not, to a target in range and beyond each end. -/
theorem witness_BranchesGoWhereTheySay : XReady (run fun t => (t.setS 3 (-1)).setS 4 1) .zero [] [] ∧ XReady (run id) .zero [.s 31] [] ∧
    (let t := (run fun t => (t.setS 3 (-1)).setS 4 1).tile;
      t.getS 3 ≠ t.getS 4 ∧ (t.getS 3).toInt < (t.getS 4).toInt ∧ (t.getS 4).toNat ≤ (t.getS 3).toNat ∧ t.getS 5 = t.getS 6 ∧
      (t.getS 6).toInt ≤ (t.getS 5).toInt ∧ ¬(t.getS 3).toNat < (t.getS 4).toNat ∧ t.getP 0 = BitVec.allOnes 64 ∧ t.getP 1 = 0 ∧
      (t.pc : Int) + (-1 : BitVec 17).toInt < 0 ∧ 12 * 2 ^ 41 ≤ (t.getS 3).toNat) :=
  ⟨xready_of (by decide +kernel), xready_of (by decide +kernel), by decide +kernel⟩

/-- The strand at PC 105 in the frames given. -/
def looping (l : List LoopFrame) : State := run fun t => { t.updFrame fun f => { f with loops := l } with pc := 105 }
def lf (left : Word) (drain : BitVec 2) : LoopFrame := ⟨101, 105, left, drain, false, 1, 2, 3, 4⟩

/-- A loop that ends at the last PC, and the strand there in its last pass. -/
def lastFrame : LoopFrame := { lf 0 0 with start := 12 * 2 ^ 41 - 5, stop := 12 * 2 ^ 41 - 1 }
def lastLoop : State := (looping [lastFrame]).onTile fun t => { t with pc := lastFrame.stop }

theorem witness_CountedLoops : (∀ l ∈ [[], [lf 1 0], [lf 0 1], [lf 0 0], List.replicate 5 (lf 1 0), List.replicate 6 (lf 1 0)], XReady (looping l) .zero [] []) ∧
    (run fun t => t.setS 2 1).tile.getS 2 ≠ 0 ∧ (run id).tile.getS 2 = 0 ∧ (List.replicate 6 (lf 1 0)).length = 6 ∧
    (looping [lf 1 0]).tile.pc = (lf 1 0).stop ∧ ((looping [lf 1 0]).tile.pc : Int) + (-4 : BitVec 17).toInt = (lf 1 0).start ∧
    XReady lastLoop .zero [] [] ∧ lastLoop.tile.pc = lastFrame.stop ∧ (lastLoop.tile.pc : Int) + (-4 : BitVec 17).toInt = lastFrame.start ∧
    12 * 2 ^ 41 ≤ lastFrame.stop + 1 :=
  ⟨fun l hl => xready_of (by revert l; exact all_ready (by decide +kernel)), by decide +kernel, by decide +kernel, rfl, by decide +kernel, by decide +kernel,
    xready_of (by decide +kernel), by decide +kernel, by decide +kernel, by decide⟩

theorem witness_SpecialRegistersRead : XReady (run id) .zero [.s 6] [] ∧ XReady (looping [lf 1 2]) .zero [.s 6] [] :=
  ⟨xready_of (by decide +kernel), xready_of (by decide +kernel)⟩

/-- The limits of amode's operands: base 2^48 − 1, stride −2^31, modulus 1 and 2^32 circular, 2 and 2^24 reversed; and each just beyond. -/
theorem witness_AddressRegisterWords : XReady (run fun t => t.setS 5 0xFFFFFFFFFFFF) .zero [.a 2] [] ∧ XReady (run id) .zero [.s 3] [.a 2] ∧
    (0xFFFFFFFFFFFF : Word).toNat < 2 ^ 48 ∧ -(2 ^ 31) ≤ (0xFFFFFFFF80000000 : Word).toInt ∧ (0 : Word).toInt.natAbs < (1 : Word).toNat ∧
    (96 : Word).toInt.natAbs < (0x100000000 : Word).toNat ∧ (0x100000000 : Word).toNat ≤ 2 ^ 32 ∧ (1 : Word).toInt < (2 : Word).toNat ∧
    (0x1000000 : Word).toNat ≤ 2 ^ 24 ∧ ¬(0x1000000000000 : Word).toNat < 2 ^ 48 :=
  ⟨xready_of (by decide +kernel), xready_of (by decide +kernel), by decide, by decide, by decide, by decide, by decide, by decide, by decide, by decide⟩

/-- A splitter that is still taken, and a word that its predicate disables. -/
theorem witness_DisabledAndHeldXWords : (run fun t => t.updFrame fun f => { f with free := 1001 }).tile.readyX 1000 .zero [] [] = false ∧
    (run id).tile.readyX 1000 predHdr [.s 1] [] = true ∧ (run id).tile.sramUe = [] ∧ ((run id).tile.effPredX predHdr).getLsbD 0 = false := by
  decide +kernel

/-! ### Waits -/

/-- The strand held by a wait. -/
def held (w : Wait) (f : Tile → Tile) : State := run fun t => f (t.updFrame fun r => { r with wait := some ⟨3, 0, 0, w, false⟩ })

theorem witness_WaitsOnTimeTagsAndAlarms :
    XReady (run fun t => t.updFrame fun f => { f with tags := vset f.tags 2 (some 9) }) .zero [] [] ∧ XReady (run fun t => { t with wake := true }) .zero [.s 6] [] ∧
    XReady (run fun t => t.setS 5 1000) .zero [.s 6] [] ∧ XReady (run fun t => t.setS 5 1001) .zero [.s 6] [] ∧
    ((run fun t => t.setS 5 1000).tile.getS 5).toNat ≤ 1000 ∧ 1000 < ((run fun t => t.setS 5 1001).tile.getS 5).toNat ∧
    vget (run fun t => t.updFrame fun f => { f with tags := vset f.tags 2 (some 9) }).tile.frame.tags 2 = some 9 ∧
    (∀ w ∈ [Wait.time 1001 none, .time 1000 none, .time 1000 (some 4), .alarm 6 0 false, .alarm 6 1000 true, .alarm 6 1001 false],
      (held w id).tile.frame.wait = some ⟨3, 0, 0, w, false⟩) ∧ (held (.time 1000 (some 4)) id).tile.incomplete 4 = false :=
  ⟨xready_of (by decide +kernel), xready_of (by decide +kernel), xready_of (by decide +kernel), xready_of (by decide +kernel), by decide +kernel⟩

/-- A command of the copy channel, as it stands in its FIFO. -/
def cmd (i : Instr) : Cmd where
  id := 4
  frame := .user
  pc := 0
  ins := i
  src := 0
  dst := 0
  res := 0
  shape := 128
  ring := none
  st := .queued
  orphan := false
  rdone := []
  wdone := []
  counted := []
  buf := []
  out := []
  ready := false
  at_ := none
  parked := none
  dropped := false
  sent := false
  inst := none
  ue := none
  issued := 0
  since := 0

def copy : Instr := .cpy .zero ⟨6, 1, 5, 7, .plain, .t, false, false, false, false, false, none⟩
def channel (l : List Cmd) (t : Tile) : Tile := { t with chan := { t.chan with fifo := l } }

/-- A waitt whose command has not completed, one of a strand that does not run; a waits whose tag is pending, whose tag has been written, and given to a
younger word, with zeros consumed and without; a strand with nothing due as its turn begins. -/
theorem witness_WaitsOnIncompleteCommand : (held (.time 1000 (some 4)) (channel [cmd copy])).tile.frame.wait = some ⟨3, 0, 0, .time 1000 (some 4), false⟩ ∧
    (held (.time 1000 (some 4)) (channel [cmd copy])).tile.incomplete 4 = true ∧
    (held (.time 1000 none) fun t => { t with st := .preempting }).tile.active = false ∧ (held (.time 1000 none) id).tile.active = true ∧
    (∀ x ∈ [(some 9, true), (some 10, false), (none, false)], ∀ ue ∈ [true, false],
      let s := (held (.tags [(2, 9)]) fun t => t.updFrame fun f => { f with tags := vset f.tags 2 x.1 }).onTile fun t =>
        t.updFrame fun f => { f with wait := some ⟨3, 0, 0, .tags [(2, 9)], ue⟩ }
      s.tile.frame.wait = some ⟨3, 0, 0, .tags [(2, 9)], ue⟩ ∧ (vget s.tile.frame.tags 2 == some 9) = x.2) ∧
    (let s := held (.tags [(2, 9)]) id; s.chip.focus = 0 ∧ s.tile.pipe = [] ∧ s.tile.promises = [] ∧ s.tile.undelivered = [] ∧ s.tile.ueNote = []) := by
  decide +kernel

/-- The line of address 0 in the tile's memory: watched by none, watched already, beside sixteen others; an address beyond 2^48. -/
theorem witness_MonitorsRegisterAndClear : XReady (run id) .zero [] [] ∧
    (run id).chip.checkSpan (.split 0) 0 .read ((run id).tile.getS 4).toNat 1 = ((run id).chip, .ok [(0, 1)]) ∧ 0 / 128 ∉ (run id).tile.watch ∧
    0 / 128 ∈ (run fun t => { t with watch := [0] }).tile.watch ∧ 16 ≤ (run fun t => { t with watch := (List.range 16).map (· + 1) }).tile.watch.length ∧
    (run fun t => t.setS 4 big).chip.checkSpan (.split 0) 0 .read ((run fun t => t.setS 4 big).tile.getS 4).toNat 1 = ((run fun t => t.setS 4 big).chip, .bad 7 big.toNat) ∧
    (held (.mon 0) id).tile.frame.wait = some ⟨3, 0, 0, .mon 0, false⟩ ∧ (held .moncl id).tile.frame.wait = some ⟨3, 0, 0, .moncl, false⟩ :=
  ⟨xready_of (by decide +kernel), by rfl, by decide +kernel, by decide +kernel, by decide +kernel, by rfl, by decide +kernel⟩

/-! ### Rings and barriers -/

def ringBase : Word := 0x300000
def ring (slots : List SlotState) : Ring := ⟨.lb, 0, 0x101, 0, 0, slots⟩
def withRing (l : List Ring) (t : Tile) : Tile := { t.setG 2 ⟨true, ringBase, 0x101, [], []⟩ with rings := l }

/-- A ring of two slots of 64 bytes in own LB: its operands pass; a reserved geometry does not; a register with eight claims, one with none. -/
theorem witness_RingsRegisterAndWait : XReady (run id) .zero [] [] ∧ XReady (run id) .zero [.s 5] [] ∧ rinitFate (run id).chip 2 ringBase 0x101 = none ∧
    rinitFate (run id).chip 2 ringBase 0x111 = some (2, 0) ∧ ((run id).tile.getG 2).conf = false ∧
    8 ≤ ((run fun t => t.setG 2 ⟨true, ringBase, 0x101, List.range 8, []⟩).tile.getG 2).prod.length ∧
    ((run (withRing [])).tile.getG 2).conf = true ∧ ((run (withRing [])).tile.getG 2).prod.length < 8 ∧
    (held (.rinit 2 ringBase 0x101) id).tile.frame.wait = some ⟨3, 0, 0, .rinit 2 ringBase 0x101, false⟩ ∧
    ((held (.rinit 2 ringBase 0x101) id).chip.tileAt (ringOwner 0 ringBase)).fence.fenced = false ∧
    ((run (withRing [ring [.empty, .empty]])).chip.tileAt 0).ringAt (ringBuf ringBase) (ringOff ringBase) = some (ring [.empty, .empty]) ∧
    ((run id).chip.tileAt 0).ringAt (ringBuf ringBase) (ringOff ringBase) = none ∧
    16 ≤ ((run (withRing (List.replicate 16 { ring [] with off := 64 }))).chip.tileAt 0).rings.length :=
  ⟨xready_of (by decide +kernel), xready_of (by decide +kernel), by decide +kernel⟩

/-- A producer's and a consumer's claim, of a slot that may be taken and of one that may not. -/
theorem witness_RingClaimsAreGrantedInOrder : ∀ x ∈ [(Wait.ringE 5 2, SlotState.empty), (.ringE 5 2, .full), (.ringF 5 2, .full), (.ringF 5 2, .empty)],
    let s := held x.1 (withRing [ring [x.2, x.2]])
    s.tile.st = .running ∧ s.tile.frame.wait = some ⟨3, 0, 0, x.1, false⟩ ∧ (s.chip.tileAt 0).fence.fenced = false ∧
      (s.chip.tileAt (ringOwner 0 (s.tile.getG 2).base)).ringAt (ringBuf (s.tile.getG 2).base) (ringOff (s.tile.getG 2).base) = some (ring [x.2, x.2]) := by
  decide +kernel

/-- The strand in a team of the ranks given, with the state of barrier 3. -/
def inTeam (mask : BitVec 8) (i : TeamInst) (s : State) : State :=
  let c := s.chip.upd fun t => { t with team := 1 }
  { s with chip := { c with teams := [{ Team.start 1 0 mask with inst := vset (Team.start 1 0 mask).inst 3 i }] } }

def bar3 : Instr := .bar .zero .t 3
def barAt (q : Queue) : State := run fun t => t.updFrame fun f => { f.setQueue q [qw bar3] with wait := some ⟨7, 0, 0, .bar .t 3 0 false, false⟩ }

/-- The strand in a team that is alone in its launch on the die, with the die's state of barrier 3 and whether the die waits for further teams. -/
def onDie (i : DieInst) (expect : Nat) (s : State) : State :=
  { s with chip := s.chip.updDie (tileDie 0) fun d => { d with launches := [⟨0, [1], [], false, expect, vset (Vector.replicate _ ⟨none, [], false⟩) 3 i⟩] } }
/-- The other die with a team of the launch, which has arrived or not. -/
def otherDie (sent : Bool) (s : State) : State :=
  { s with chip := s.chip.updDie (!tileDie 0) fun d =>
    { d with launches := [⟨0, [2], [], false, 0, vset (Vector.replicate _ ⟨none, [], false⟩) 3 ⟨some .p, [2], sent⟩⟩] } }
def lastOf (lv : BarLevel) : State := inTeam 1 ⟨0, some lv, 0, false⟩ (barAt .s)

/-- The last strand of a team at .d and .p; on its die the first arrival of two, the last, another level; the package with the other die arrived, with none
there, and waiting for it. -/
theorem witness_BarriersOfDieAndPackage :
    (∀ lv ∈ [BarLevel.d, .p], let s := onDie ⟨none, [], false⟩ 0 (lastOf lv);
      s.chip.multiWave (tileDie s.chip.focus) 0 lv = false ∧ (vget (s.chip.team 1).inst 3).level = some lv ∧ (vget (s.chip.team 1).inst 3).sent = false ∧
        (1 : BitVec 8) &&& ~~~((vget (s.chip.team 1).inst 3).arrived ||| rankBit s.chip.focus ||| (s.chip.team 1).gone) = 0) ∧
    (∀ x ∈ [((0 : Nat), true), (2, false)], let c := (onDie ⟨some .d, [], false⟩ x.1 (lastOf .d)).chip
      (c.launchBar (tileDie 0) (c.team 1).launch).any (fun b => b.allIn (1 :: (vget b.inst 3).arrived ++ b.gone) == x.2 && decide b.teams.Nodup) = true ∧
        (c.teams.any fun x => x.no == 1) = true ∧ (vget (c.team 1).inst 3).level ≠ none) ∧
    ((onDie ⟨some .p, [], false⟩ 0 (lastOf .d)).chip.launchBar (tileDie 0) 0).any (fun b => (vget b.inst 3).level == some .p) = true ∧
    (∀ x ∈ [(id, true), (otherDie true, true), (otherDie false, false)], let c := (x.1 (onDie ⟨some .p, [], false⟩ 0 (lastOf .p))).chip
      c.dieArrived (!tileDie 0) 0 3 = x.2 ∧ (∀ b ∈ c.launchBar (!tileDie 0) 0, b.teams.Nodup ∧ (∀ k ∈ b.teams, k ∉ [1]) ∧ 1 ∉ b.teams)) := by decide +kernel

/-- Each part: the split, the L part, the S part as the first arrival of two and as the last, at another level, and a release. -/
theorem witness_BarriersHoldUntilAllArrive : XReady (run id) .zero [] [] ∧ (run id).tile.frame.barQueued = false ∧ (run id).tile.frame.room [.l, .s] = true ∧
    (barAt .l).tile.frame.barQueued = true ∧ QReady (barAt .l) .l bar3 .always (fun _ _ c => c.tile.frame.lf.isEmpty) (qw bar3) [] ∧
    (∀ s ∈ [inTeam 3 ⟨0, none, 0, false⟩ (barAt .s), inTeam 3 ⟨0, some .t, 2, false⟩ (barAt .s), inTeam 3 ⟨0, some .d, 2, false⟩ (barAt .s)],
      s.tile.frame.s = [qw bar3] ∧ s.tile.readyQ s.clk .s (qw bar3) .zero = true ∧ s.tile.frame.sf = [] ∧ s.tile.frame.l = [] ∧
      (s.chip.teams.find? fun y => y.no == s.tile.team).isSome = true ∧ s.tile.frame.wait = some ⟨7, 0, 0, .bar .t 3 0 false, false⟩) ∧
    (vget ((inTeam 3 ⟨0, some .d, 2, false⟩ (barAt .s)).chip.team 1).inst 3).level = some .d ∧
    (held (.bar .t 3 0 true) id).tile.frame.wait = some ⟨3, 0, 0, .bar .t 3 0 true, false⟩ ∧
    (vget ((inTeam 3 ⟨1, none, 0, false⟩ (held (.bar .t 3 0 true) id)).chip.team 1).inst 3).gen = 1 :=
  ⟨xready_of (by decide +kernel), by decide +kernel, by decide +kernel, by decide +kernel, qready_of (by decide +kernel), by decide +kernel⟩

def markP : Instr := .mark .zero .p

/-- A mark at the head of L, of S and of both, and a fence. -/
theorem witness_MarksAndFencesEnterTheFifos : QReady (qs .l markP) .l markP .always (portRes .l) (qw markP) [] ∧
    QReady (qs .s markP) .s markP .always (portRes .s) (qw markP) [] ∧ (qs .l markP).tile.frame.queue .s = [] ∧
    (let s := qsAt .l markP fun t => t.updFrame fun f => { f with s := [qw markP] };
      QReady s .l markP .always (portRes .l) (qw markP) [] ∧ QReady (s.withChip
        ((s.issued .l markP []).upd fun t => t.updFrame fun f => { f with lf := f.lf ++ [newAccess (qw markP) .order [] [] [] 0 0] })) .s markP .always (portRes .s)
          (qw markP) []) ∧
    QReady (qs .s (.fence .zero .c)) .s (.fence .zero .c) .bit0 (portRes .s) (qw (.fence .zero .c)) [] :=
  ⟨qready_of (by decide +kernel), qready_of (by decide +kernel), by decide +kernel, ⟨qready_of (by decide +kernel), qready_of (by decide +kernel)⟩,
    qready_of (by decide +kernel)⟩

/-! ### System words, traps and the return -/

/-- User and handler mode; a word of L still queued; a phase active. -/
theorem witness_SystemRegistersReadAndWrite : (∀ s ∈ [run id, handler id, qs .l markP], XReady s .zero [.s 5] [] ∧ XReady s .zero [] []) ∧
    (run id).tile.mode = .user ∧ (handler id).tile.mode = .handler ∧ (run id).tile.lcsDone = true ∧ (qs .l markP).tile.lcsDone = false :=
  ⟨fun s hs => ⟨xready_of (by revert s; exact all_ready (by decide +kernel)), xready_of (by revert s; exact all_ready (by decide +kernel))⟩, by decide +kernel⟩

/-- A guarded phase that is active. -/
def phase0 : PhaseState where
  since := 5
  s := Vector.replicate _ 0
  a := Vector.replicate _ .zero
  vrb := 0
  p4 := 0
  p5 := 0
  p6 := 0
  p7 := 0
  loops := []
  input := 0
  resume := 1
  last := 100
  log := []
  fill := 0
  cancel := false

theorem witness_mtsInsideAPhase : XReady (run fun t => { t with phase := some phase0 }) .zero [] [] ∧ (run fun t => { t with phase := some phase0 }).tile.phase ≠ none :=
  ⟨xready_of (by decide +kernel), by decide +kernel⟩

/-- A valid replay entry: a load of the user frame that found no translation. -/
def entry (cls : BitVec 5) : RqEntry := ⟨cls, 1, 0, false, 3, 0, 0, 0, 0x5000, true, 9, .access .l 2 0⟩
def parkedAt (n : BitVec 5) (cls : BitVec 5) (t : Tile) : Tile := { t with replay := vset t.replay n (some (entry cls)) }

/-- Entries 31 and 0, valid and not, of class 10 and 26; the handler's accesses performed and not. -/
theorem witness_ReplayQueueWords : (∀ s ∈ [run id, handler id, handler (parkedAt 31 10), handler (parkedAt 0 26)], XReady s .zero [.s 5, .s 6] [] ∧ XReady s .zero [] []) ∧
    (handler id).tile.handlerPerformed = true ∧ (qsAt .l markP fun t => { t with mode := .handler, hand := { t.hand with lf := [newAccess (qw markP) .order [] [] [] 0 0] } }).tile.handlerPerformed = false ∧
    vget (handler (parkedAt 31 10)).tile.replay 31 = some (entry 10) ∧ (handler (parkedAt 31 10)).tile.rqNumber (.imm 31) = 31 ∧
    vget (handler (parkedAt 0 26)).tile.replay ((handler (parkedAt 0 26)).tile.rqNumber (.s 0)) = some (entry 26) ∧ vget (handler id).tile.replay 31 = none :=
  ⟨fun s hs => ⟨xready_of (by revert s; exact all_ready (by decide +kernel)), xready_of (by revert s; exact all_ready (by decide +kernel))⟩, by decide +kernel⟩

theorem witness_IcflushAndHalt : XReady (run id) .zero [] [] ∧ XReady (handler id) .zero [] [] ∧ (run id).tile.storesPerformed = true ∧
    (run fun t => t.updFrame fun f => { f with sf := [newAccess (qw markP) .order [] [] [] 0 0] }).tile.storesPerformed = false :=
  ⟨xready_of (by decide +kernel), xready_of (by decide +kernel), by decide +kernel⟩

def cause0 : Cause := ⟨10 * 8 + 1, 9, 0x5000, none, false, 2⟩

/-- User mode with a handler and without one, in an exchange, and with a phase that is being cancelled; handler mode. -/
theorem witness_TrapEntryFreezesTheUserFrame : (run id).tile.st = .running ∧ (run id).tile.mode = .user ∧ (run id).tile.exchanging = false ∧
    (run id).tile.sys.tvec = 0 ∧ (run fun t => { t with sys := { t.sys with tvec := 96 } }).tile.sys.tvec ≠ 0 ∧ (handler id).tile.mode = .handler ∧
    cause0.rq = none ∧ (handler id).tile.held.length < 256 ∧ (run id).tile.cancels cause0.id = false ∧ (held (.mon 0) id).tile.exchanging = true ∧
    (run fun t => { t with phase := some { phase0 with since := 2, cancel := true } }).tile.cancels cause0.id = true := by decide +kernel

theorem witness_TrapWordsAndDelivery : XReady (run id) .zero [] [] ∧ (run id).tile.undelivered = [] ∧
    (run fun t => { t with held := [cause0] }).tile.undelivered ≠ [] ∧ (run fun t => { t with held := [cause0] }).tile.cancelling = false :=
  ⟨xready_of (by decide +kernel), by decide +kernel⟩

/-- With tret at the PC, the next fetch is a return that waits for nothing. -/
def returns : Bool :=
  let s := { State.reset.withFetchWord 80 0xE0200000000000000000 with clk := 9 }.onTile fun t => { t with mode := .handler }
  match s.chip.fetchWord with
  | (c, .word x) => x == 0xE0200000000000000000 && s.tile.canSplit 9 && xok (s.withChip c) .zero [] [] && c.tile.mode == .handler && c.tile.handlerDrained
  | _ => false

/-- A return from a drained handler, from one that is not, and the machine's own, with tret at the PC. -/
theorem witness_TrapReturnResumesTheUserFrame : XReady (run id) .zero [] [] ∧ XReady (handler id) .zero [] [] ∧ (handler id).tile.handlerDrained = true ∧
    (handler id).tile.phase = none ∧
    XReady (handler fun t => { t with hand := { t.hand with l := [qw markP] } }) .zero [] [] ∧
    (handler fun t => { t with hand := { t.hand with l := [qw markP] } }).tile.handlerDrained = false ∧
    returns = true :=
  ⟨xready_of (by decide +kernel), xready_of (by decide +kernel), by decide +kernel, by decide +kernel, xready_of (by decide +kernel), by decide +kernel⟩

/-! ### Splitting and results -/

/-- A store word, a load word with a post-increment register, and a word of no instruction, each at the PC with room in its queue. -/
def queues (w : IWord) : Bool :=
  let s := { State.reset.withFetchWord 80 w.toNat with clk := 9 }
  match s.chip.fetchWord with
  | (c, .word x) => s.tile.canSplit 9 && x == w && c.tile.canSplit 9 && (match decode w with
    | .ok i => !isX i && c.tile.frame.room (queuesOf i) && !c.tile.frame.tagPending i.hdr.sba && (c.tile.getA 1).bind.isNone
    | .error _ => queueOfEng (w.extractLsb' 77 3) == .l && c.tile.frame.room [.l])
  | _ => false
/-- A load with a post-increment register at the PC, the register bound to a queue or free; a word of CTRL and one of SYS that do not decode. -/
def binds (b : Option Fifo) : State :=
  { State.reset.withFetchWord 80 0x2090100042C200009000 with clk := 9 }.onTile fun t => t.setA 1 { t.getA 1 with bind := b }
def refusesX (w : IWord) : Bool :=
  let s := { State.reset.withFetchWord 80 w.toNat with clk := 9 }
  match s.chip.fetchWord with
  | (c, .word x) => s.tile.canSplit 9 && x == w && c.tile.canSplit 9 && queueOfEng (w.extractLsb' 77 3) == .x && (decode w).toOption.isNone
  | _ => false
theorem witness_WordSplitQueuesTheWord : ([0x80E00000528E0000A040, 0x2090100042C200009000, 0x22000000000000000000] : List IWord).all queues = true ∧
    ([0x01200000000000000000, 0xE2000000000000000000] : List IWord).all refusesX = true ∧
    (∀ x ∈ [(none, 0), (some Fifo.l, 1), (some .s, 2)], (binds x.1).chip.fetchWord.2 = .word 0x2090100042C200009000 ∧ (binds x.1).tile.canSplit 9 = true ∧
      ((decode 0x2090100042C200009000).toOption.bind postReg) = some 1 ∧ ((binds x.1).chip.fetchWord.1.tile.getA 1).bind = x.1) ∧
    (let w : QWord := { qw (.nop .zero) with what := .bad .opcode };
      (queued .l w).tile.frame.queue .l = [w] ∧ (queued .l w).tile.active = true ∧ (queued .l w).tile.frame.nextOf .l ≤ (queued .l w).clk ∧ w.born < (queued .l w).clk) := by
  decide +kernel

def result (due : Nat) (ws : List RegWrite) : Result := ⟨2, .user, 0, due, ws, 4, 3, none, none, true⟩

theorem witness_ResultsLandAtTheirClk :
    (∀ x ∈ [(1000 : Nat), 1001], let s := run fun t => { t with pipe := [result x [.s 1 5], result 1002 []] }
      s.tile.pipe = result x [.s 1 5] :: [result 1002 []] ∧ (∀ r ∈ [result 1002 []], x ≤ r.due) ∧ (∀ r ∈ [result 1002 []], s.clk < r.due) ∧
        (result x [.s 1 5]).cause = none ∧ (result x [.s 1 5]).flags &&& s.tile.sys.vtrapen = 0) ∧
    (let s := run fun t => { t with pipe := [result 1000 []], sys := { t.sys with vtrapen := 4 } };
      (result 1000 []).ue = none ∧ (result 1000 []).cause = none ∧ (result 1000 []).flags &&& s.tile.sys.vtrapen ≠ 0 ∧ s.tile.mode = .user) ∧
    (handler id).tile.mode = .handler ∧
    (∀ x ∈ [(999 : Nat), 1000], (run fun t => { t with vpend := [result x [.v 1 0 0]] }).tile.vpend[0]? = some (result x [.v 1 0 0])) ∧
    (∀ k ∈ [(134 : BitVec 8), 155], let r := { result 999 [] with cause := some ⟨k, 9, 0, none, false, 2⟩ }
      (run fun t => { t with vpend := [r] }).tile.vpend[0]? = some r ∧ r.due < 1000 ∧ r.ue = none ∧ r.flags &&& (run id).tile.sys.vtrapen = 0 ∧
        (run id).tile.sys.cst.getLsbD 31 = false) ∧
    (let x := { result 1000 [.v 1 3 1] with id := 5 }
      let t := (run fun t => { t with landClk := 1000, landed := [x] }).tile;
      t.landClk = 1000 ∧ t.landed = [x] ∧ (result 999 [.v 1 1 1]).id < x.id ∧ t.sramUe = [] ∧ (run id).tile.landClk ≠ 1000) ∧
    (result 1 []).writes = [] ∧ (result 1 [.v 1 3 1]).writes = [.v 1 3 1] ∧ (result 1 [.s 0 1]).writes = [.s 0 1] ∧ (result 1 [.p 1 3 1]).writes = [.p 1 3 1] := by
  decide +kernel

/-- A word that waits for a token that is not there, the queues still for 65,536 clk. -/
def starved : State := qsAt .c (.movv { Hdr.zero with takeF := true } ⟨.v 1, .v 2⟩) id

theorem witness_PromisesAndTokenDeadlock :
    (∀ x ∈ [(1000 : Nat), 1001], (run fun t => { t with promises := [⟨x, .user, 2, 6, 9, some 2, 1, none⟩] }).tile.promises = [⟨x, .user, 2, 6, 9, some 2, 1, none⟩]) ∧
    starved.tile.st = .running ∧ starved.clk < starved.tile.quiet + 65536 ∧
    (let s := { starved with clk := 65536 }; s.tile.quiet + 65536 ≤ s.clk ∧ s.tile.outstanding = false ∧ s.tile.stalled s.clk .c ≠ none) := by
  decide +kernel

/-! ### The end of a strand, its pre-emption, guarded phases -/

theorem witness_StrandsRetire :
    (let s := held .halted fun t => { t with st := .halting };
      s.tile.st = .halting ∧ s.tile.frame.wait = some ⟨3, 0, 0, .halted, false⟩ ∧ s.tile.drained = true) ∧
    (held .halted fun t => { t.updFrame fun f => { f with l := [qw markP] } with st := .halting }).tile.drained = false ∧
    (run fun t => { t with st := .ended 144 5 }).tile.st = .ended 144 5 ∧ (run id).tile.st = .running := by decide +kernel

theorem witness_PreemptionFreezesTheStrand : (run id).tile.exchanging = false ∧ (handler id).tile.exchanging = false ∧
    (held (.mon 0) id).tile.exchanging = true ∧
    (let s := run fun t => { t with st := .preempting };
      s.tile.st = .preempting ∧ s.tile.pipe = [] ∧ s.tile.vpend = [] ∧ s.tile.promises = [] ∧ s.tile.mat.queue = [] ∧ s.tile.mat.ards = [] ∧
        s.tile.chan.settled = true ∧ s.tile.unv.settled = true ∧ s.tile.unacked = 0 ∧ s.tile.accessesSettled 0 .user = true ∧
        s.tile.accessesSettled 0 .handler = true ∧ s.chip.abortedLaunch s.tile.bound.launch = false ∧ s.tile.team = 0) ∧
    (let s := inTeam 3 ⟨0, none, 0, false⟩ (run id); s.tile.team ≠ 0 ∧ (s.chip.team s.tile.team).lost = false) := by decide +kernel

def phaseWord : Instr := .phase .zero 8
/-- The parts of a phase word at the heads of their queues, the splitter held by it, with a PHCFG. -/
def atPhase (cfg : Word) (f : Tile → Tile) : State :=
  run fun t => f { t.updFrame fun r => { r with l := [qw phaseWord], c := [qw phaseWord], s := [qw phaseWord], a := [qw phaseWord], wait := some ⟨7, 0, 0, .phase 64, false⟩ } with
    sys := { t.sys with phcfg := cfg } }
/-- EN 1, INLEN 1, halves at rows 0 and 1, a log of one row at row 2; the same with the log on a half. -/
def goodCfg : Word := 0x8001000001002001
def badCfg : Word := 0x8001000001001001

theorem witness_PhasesOpenWithACheckpoint : XReady (run id) .zero [] [] ∧ (run id).tile.frame.phaseQueued = false ∧
    (run id).tile.frame.room [.l, .c, .s, .a] = true ∧
    (∀ s ∈ [atPhase 0 id, atPhase goodCfg id, atPhase badCfg id, atPhase goodCfg fun t => t.updFrame fun f => { f with tok := { f.tok with lc := 1 } }],
      s.tile.frame.wait = some ⟨7, 0, 0, .phase 64, false⟩ ∧ s.tile.phaseReady s.clk ⟨7, 0, 0, .phase 64, false⟩ = true ∧ s.tile.phase = none) ∧
    (phCfgOf goodCfg).en = true ∧ (phCfgOf goodCfg).ok = true ∧ (phCfgOf badCfg).ok = false ∧ (phCfgOf 0).en = false ∧
    (atPhase goodCfg id).tile.frame.tokensEmpty = true ∧ (atPhase goodCfg id).tile.fillingHalf 0 (phCfgOf goodCfg) = false ∧
    (atPhase goodCfg (channel [{ cmd copy with ins := .cpy .zero ⟨6, 1, 5, 7, .plain, .t, false, false, false, false, true, none⟩, dst := 0x100000 }])).tile.fillingHalf 0
      (phCfgOf goodCfg) = true :=
  ⟨xready_of (by decide +kernel), by decide +kernel⟩

/-- At the next phase word and at a halt, 400 clk after the last result and 399, with a token left and without. -/
theorem witness_PhasesCommitTheirLog :
    (∀ x ∈ [((600 : Nat), true), (601, false)], let p := { phase0 with last := x.1 }
      let s := atPhase goodCfg fun t => { t with phase := some p }
      s.tile.phase = some p ∧ s.tile.frame.wait = some ⟨7, 0, 0, .phase 64, false⟩ ∧ p.cancel = false ∧ s.tile.active = true ∧
        s.tile.phaseReady s.clk ⟨7, 0, 0, .phase 64, false⟩ = true ∧ s.tile.frame.tokensEmpty = true ∧ s.tile.commitReady 0 s.clk p 7 = x.2) ∧
    (let s := held .halted fun t => { t with st := .halting, phase := some phase0 };
      s.tile.frame.wait = some ⟨3, 0, 0, .halted, false⟩ ∧ s.tile.active = true ∧ s.tile.commitReady 0 s.clk phase0 3 = true) ∧
    (atPhase goodCfg fun t => { t.updFrame fun f => { f with tok := { f.tok with sl := 15 } } with phase := some phase0 }).tile.frame.tokensEmpty = false := by
  decide +kernel

/-- A phase to be cancelled that keeps a replay entry, a command stopped for want of one, a log, or nothing, its issued words done and not. -/
theorem witness_PhasesCancelToTheCheckpoint :
    (let p := { phase0 with cancel := true }
      let stuck : Cmd := { cmd copy with id := 6, at_ := some (false, 0), st := .started };
      (∀ x ∈ [([], true), ([result 1001 []], false)], let s := run fun t => { t with phase := some p, pipe := x.1 }
        s.tile.phase = some p ∧ s.tile.cancelling = true ∧ s.tile.st = .running ∧ s.tile.phaseQuiet p = x.2 ∧ s.tile.phaseEntries p = [] ∧ p.log = []) ∧
      (run fun t => parkedAt 3 6 { t with phase := some { p with since := 2 } }).tile.phaseEntries { p with since := 2 } ≠ [] ∧
      stuck ∈ (run (channel [stuck])).tile.chan.fifo ∧ stuck.stuckIn p = true ∧ ({ p with log := [newAccess (qw markP) .order [] [] [] 0 0] } : PhaseState).log ≠ []) ∧
    (getBank ((run id).chip.die (tileDie 0)).banks (tileBank 0)).v = false := by decide +kernel

/-! ### Words that issue: each of a list stands ready at the head of its queue -/

def fbin : FBin := ⟨.v 1, .v 2, .imm 3, .f32, .rne, false⟩
def ftern : FTern := ⟨.v 1, .v 2, .src (.v 3), .v 4, .f16, .rup, true⟩
def fun1 : FUn := ⟨.qo 1, .v 2, .bf16, .rne, false⟩

theorem witness_VectorFloatArithmetic : ∀ i ∈ [Instr.fadd .zero fbin, .fsub .zero fbin, .fmul .zero fbin, .fdiv .zero fbin, .fscalb .zero fbin, .fma .zero ftern,
    .fms .zero ftern, .fnma .zero ftern, .fsqrt .zero fun1, .frcp .zero fun1, .frsq .zero fun1, .fexp2 .zero fun1, .flog2 .zero fun1],
    QReady (qs .c i) .c i .lanes vecRes (qw i) [] := qready_all (f := id) (by decide +kernel)

/-- Operands that meet what the clauses on special operands ask: an integer of the range of each format in two spellings. -/
theorem witness_FloatSpecialOperands : fmtF32 ∈ [fmtF32, fmtF16, fmtBf16] ∧
    (∀ x ∈ [((3 : Int), (3 : Nat), (0 : Int)), (-126, 63, 1), (127, 254, -1)],
      1 - (2 ^ (fmtF32.eb - 1) - 1) ≤ x.1 ∧ x.1 ≤ 2 ^ (fmtF32.eb - 1) - 1 ∧ -149 ≤ x.2.2 ∧
        x.2.1 * 2 ^ x.2.2.toNat = x.1.natAbs * 2 ^ (-x.2.2).toNat) := by decide

/-- A common exponent below two operands' own, sums that vanish and that do not, the ends of an integer type. -/
theorem witness_FloatResultsRoundOnce : fmtBf16 ∈ [fmtF32, fmtF16, fmtBf16] ∧ (-3 : Int) ≤ -3 ∧ (-3 : Int) ≤ 4 ∧ (-3 : Int) ≤ -3 + 4 ∧
    (5 * 2 ^ (-3 - -3 : Int).toNat + -(5 * 2 ^ 0 : Int) = 0) ∧ (5 : Nat) ≠ 0 ∧ 64 ∈ [8, 16, 32, 64] := by decide

theorem witness_VectorMinMaxSignsComparesConversions : ∀ i ∈ [Instr.fmin .zero ⟨.v 1, .v 2, .imm 3, .f32⟩, .fmax .zero ⟨.v 1, .v 2, .imm 3, .f32⟩,
    .fcpys .zero ⟨.v 1, .v 2, .imm 3, .f32⟩, .fabs .zero ⟨.v 1, .v 2, .f16⟩, .fneg .zero ⟨.v 1, .v 2, .f16⟩, .fclass .zero ⟨.v 1, .v 2, .f16⟩,
    .fcmp .zero ⟨1, .v 1, .src (.v 2), .f16, 1, .un⟩, .icmp .zero ⟨3, .v 1, .src (.v 2), .n8, 3, .ge⟩, .fcvt .zero ⟨.v 1, .v 2, .n8, .f32, 3, .rtz, true⟩,
    .icvt .zero ⟨.v 1, .v 2, .f16, .i32, 1, .rne, false⟩], QReady (qs .c i) .c i .lanes vecRes (qw i) [] := qready_all (f := id) (by decide +kernel)

def vbin : VBin := ⟨.v 1, .v 2, .imm 3, .i64⟩
theorem witness_VectorIntegerArithmetic : ∀ i ∈ [Instr.iadd .zero ⟨.v 1, .v 2, .imm 3, .i32, true⟩, .isub .zero ⟨.v 1, .v 2, .imm 3, .i32, false⟩,
    .imul .zero ⟨.v 1, .v 2, .imm 3, .n16, true⟩, .imad .zero ⟨.v 1, .v 2, .imm 3, .v 4, .i8, false⟩, .iabs .zero ⟨.v 1, .v 2, .i64, true⟩, .inot .zero ⟨.v 1, .v 2, .n64⟩,
    .imulh .zero ⟨.v 1, .v 2, .imm 3, .n32⟩, .imin .zero vbin, .imax .zero vbin, .iand .zero vbin, .ior .zero vbin, .ixor .zero vbin, .ishl .zero vbin, .ishr .zero vbin,
    .isar .zero vbin], QReady (qs .c i) .c i .lanes vecRes (qw i) [] := qready_all (f := id) (by decide +kernel)

theorem witness_LaneMovesAndKeys : (∀ i ∈ [Instr.sel .zero ⟨.v 1, .v 2, .v 3, 2⟩, .movv .zero ⟨.qo 0, .v 2⟩, .perm .zero ⟨.v 1, .v 2, .v 3, .v 4⟩,
      .shfl .zero ⟨.v 1, .v 2, .imm 63, .up⟩, .bcast .zero ⟨.v 1, .imm 0xFD, .n8⟩, .iota .zero ⟨.v 1, 2, .imm 4, .i8, true⟩, .digit .zero ⟨.v 1, .v 2, .imm 0, .n32, 24, 8⟩,
      .okey .zero ⟨.v 1, .v 2, .f16⟩, .okeyi .zero ⟨.v 1, .v 2, .i8⟩], QReady (qs .c i) .c i .lanes vecRes (qw i) []) ∧
    (∀ i ∈ [Instr.extr .zero ⟨6, .v 1, .imm 255, .i8⟩], QReady (qs .c i) .c i .bit0 vecRes (qw i) []) ∧ 0xFF < 2 ^ tyWidth .i8 ∧
    tyFloat .i8 = false ∧ tyFloat .f16 = true ∧ ((fmtOf .f16).val false 0x7E00).isNan = true ∧ ((fmtOf .f16).val false 0x7C00).isNan = false :=
  ⟨qready_all (f := id) (by decide +kernel), qready_all (f := id) (by decide +kernel), by decide, by decide, by decide, by decide +kernel⟩

/-- Counts and groups in range and at the first value beyond it. -/
theorem witness_ReductionsScansAndPredicates : (∀ i ∈ [Instr.rdadd .zero ⟨.s 6, .v 2, .i8, .rne, true⟩, .rdmax .zero ⟨.v 1, .v 2, .f16, .rne, false⟩,
      .rdmin .zero ⟨.qo 1, .v 2, .n16, .rne, false⟩, .scan .zero ⟨.v 1, .v 2, .i32, .add, .rne, false⟩, .topk .zero ⟨1, 2, .v 3, .s 5, .f32⟩, .topk .zero ⟨1, 2, .v 3, .s 7, .f32⟩,
      .vhist .zero ⟨1, .v 2, .s 8, .n8, true⟩, .vhist .zero ⟨1, .v 2, .s 9, .n8, false⟩, .pcnt .zero ⟨6, 0⟩],
      QReady (qsAt .c i fun t => ((t.setS 5 64).setS 7 65).setS 8 4) .c i .always vecRes (qw i) []) ∧
    (∀ i ∈ [Instr.pand .zero ⟨1, 2, 3⟩, .por .zero ⟨1, 2, 3⟩, .pxor .zero ⟨1, 2, 3⟩, .pnot .zero ⟨1, 2⟩], QReady (qs .c i) .c i .lanes vecRes (qw i) []) ∧
    (let t := (run fun t => ((t.setS 5 64).setS 7 65).setS 8 4).tile;
      (t.ssrc (.s 5)).toNat = 64 ∧ (t.ssrc (.s 7)).toNat = 65 ∧ (t.ssrc (.s 0)).toNat = 0 ∧ (t.ssrc (.s 8)).toNat = 4 ∧ (t.ssrc (.s 9)).toNat = 0) :=
  ⟨qready_all (by decide +kernel), qready_all (f := id) (by decide +kernel), by decide +kernel⟩

theorem witness_AddressFormsAndPostIncrement : (⟨0, 0, 0, 0, .lin, none⟩ : ARegS).mode = .lin ∧ (⟨0, 0, 96, 256, .circ, none⟩ : ARegS).mode = .circ ∧
    (⟨0, 0, 96, 256, .circ, none⟩ : ARegS).modulus ≠ 0 ∧
    (let g : ARegS := ⟨0, 0, 4, 32, .brev, none⟩; g.mode = .brev ∧ g.stride.toNat = 2 ^ 2 ∧ g.modulus.toNat = 2 ^ (2 + 3)) := by decide

/-- s4 names own AB at offset 0, s5 own LB at its last byte, s7 own WB. -/
def spRegs (t : Tile) : Tile := ((t.setS 4 0x100000).setS 5 0x31FFFF).setS 7 0x000000
def phased (t : Tile) : Tile := { t with phase := some { phase0 with fill := 0 }, sys := { t.sys with phcfg := goodCfg ||| 0x4000000000000000 } }

/-- Global and scratchpad addresses, an address register, a scratchpad access that ends beyond its buffer, one in a phase. -/
theorem witness_ScalarLoadsAndStoresIssue :
    (∀ i ∈ [Instr.ldb .zero ⟨3, true, .off 1 8⟩, .ldh .zero ⟨3, false, .post 2⟩, .ldw .zero ⟨3, true, .sp 4 0⟩, .ldd .zero ⟨.p 1, .idx 4 1 true 3⟩, .ldh .zero ⟨3, true, .sp 5 0⟩],
      QReady (qsAt .l i spRegs) .l i .bit0 (portRes .l) (qw i) []) ∧
    (∀ i ∈ [Instr.stb .zero ⟨3, .off 1 8⟩, .sth .zero ⟨3, .spPost 2⟩, .stw .zero ⟨3, .sp 4 0⟩, .std .zero ⟨.p 1, .off 1 8⟩, .std .zero ⟨.s 1, .sp 5 0⟩],
      QReady (qsAt .s i spRegs) .s i .bit0 (portRes .s) (qw i) [] ∧ QReady (qsAt .s i (phased ∘ spRegs)) .s i .bit0 (portRes .s) (qw i) []) ∧
    (let s := run spRegs;
      spFail s.chip 0 lsAllow (spPlace (s.tile.getS 4) 0) 4 4 = none ∧ (spFail s.chip 0 lsAllow (spPlace (s.tile.getS 5) 0) 2 2).isSome = true ∧
      (spFail s.chip 0 lsAllow (spPlace (s.tile.getS 5) 0) 1 1) = none) ∧
    (run phased).tile.inPhase = true ∧ (run phased).tile.phase = some phase0 ∧ (run id).tile.inPhase = false ∧
    accessClass [⟨0, .glob 8, 0, 8⟩] = .g :=
  ⟨qready_all (by decide +kernel), fun i hi => ⟨qready_of (by revert i; exact all_ready (by decide +kernel)), qready_of (by revert i; exact all_ready (by decide +kernel))⟩, by decide +kernel⟩

theorem witness_VectorLoadsAndStoresIssue :
    (∀ i ∈ [Instr.ldv .zero ⟨.v 1, 3, .off 1 0⟩, .ldvs .zero ⟨.v 1, 0, .post 1, 5⟩, .lds .zero ⟨.qi 1, 2, .off 4 0⟩, .ldss .zero ⟨.v 1, 1, .off 5 0, 1⟩,
      .ldg .zero ⟨.v 1, 4, 2, true, true, 2⟩], QReady (qsAt .l i spRegs) .l i .lanes (portRes .l) (qw i) []) ∧
    (∀ i ∈ [Instr.stv .zero ⟨.v 1, 3, .off 1 0⟩, .stvs .zero ⟨.v 1, 0, .post 1, 5⟩, .sts .zero ⟨.v 1, 2, .off 4 0⟩, .stss .zero ⟨.v 1, 1, .off 5 0, 1⟩,
      .stg .zero ⟨.v 1, 4, 2, true, true, 2⟩], QReady (qsAt .s i spRegs) .s i .lanes (portRes .s) (qw i) [] ∧
        QReady (qsAt .s i (phased ∘ spRegs)) .s i .lanes (portRes .s) (qw i) []) ∧
    worstFail (run spRegs).chip 0 [⟨0, .sp (spPlace 0x100000 0), 0, 4⟩] = none ∧ (worstFail (run spRegs).chip 0 [⟨0, .sp (spPlace 0x31FFFF 0), 0, 4⟩]).isSome = true :=
  ⟨qready_all (by decide +kernel), fun i hi => ⟨qready_of (by revert i; exact all_ready (by decide +kernel)), qready_of (by revert i; exact all_ready (by decide +kernel))⟩, by decide +kernel⟩

/-- s5 holds a tile shape of one row of four bytes, s8 a descriptor of two indices of width 8, s9 the first address beyond 48 bits. -/
def shapes (t : Tile) : Tile := ((t.setS 5 0x80400000000).setS 8 0x28000).setS 9 0x1000000000000

/-- A tile shape of one row, and none; a descriptor of one line, and one that is refused. -/
theorem witness_BlockTileAndLineAccessesIssue :
    (∀ i ∈ [Instr.ldmx .zero ⟨1, .w6, 7, .off 1 0, 5⟩, .ldt .zero ⟨1, .p, .off 1 0, 5⟩, .ldt .zero ⟨1, .p, .off 1 0, 6⟩, .kvlook .zero ⟨6, 4, 5⟩, .ixld .zero ⟨6, .off 1 0, 8⟩, .ixld .zero ⟨6, .off 1 0, 6⟩,
      .kvlook .zero ⟨6, 9, 5⟩, .pref .zero ⟨.post 1, 3⟩], QReady (qsAt .l i shapes) .l i .bit0 (portRes .l) (qw i) []) ∧
    ((run shapes).tile.getS 9).extractLsb' 48 16 ≠ 0#16 ∧ ((run shapes).tile.getS 4).extractLsb' 48 16 = 0#16 ∧
    (∀ i ∈ [Instr.stmx .zero ⟨1, .w4, 0, .post 1, 5⟩, .stt .zero ⟨1, .x, .off 1 0, 5⟩, .stt .zero ⟨1, .x, .off 1 0, 6⟩, .ixst .zero ⟨8, .off 1 0⟩, .ixst .zero ⟨6, .off 1 0⟩],
      QReady (qsAt .s i shapes) .s i .bit0 (portRes .s) (qw i) [] ∧ QReady (qsAt .s i (phased ∘ shapes)) .s i .bit0 (portRes .s) (qw i) []) ∧
    (let t := (run shapes).tile;
      let check (n : SReg) := (tileCheck ⟨1, .p, .off 1 0, n⟩ 1 t (run shapes).chip).2
      (check 5).toOption.isSome = true ∧ (check 6).toOption = none ∧
      (ixCheck t 8 (.off 1 0)).toOption.isSome = true ∧ (ixCheck t 6 (.off 1 0)).toOption = none) :=
  ⟨qready_all (by decide +kernel), by decide +kernel, by decide +kernel,
    fun i hi => ⟨qready_of (by revert i; exact all_ready (by decide +kernel)), qready_of (by revert i; exact all_ready (by decide +kernel))⟩, by decide +kernel⟩

theorem witness_AtomicsAndRingWordsIssue :
    (∀ i ∈ [Instr.atom .zero ⟨5, 4, 6, true, .add, .ar, .p⟩, .acas .zero ⟨5, 4, 6, 7, false, .none, .t⟩, .red .zero ⟨.s 6, 4, false, .fadd, .rel, .x⟩, .rpub .zero 2],
      QReady (qs .s i) .s i .bit0 (portRes .s) (qw i) [] ∧ QReady (qsAt .s i phased) .s i .bit0 (portRes .s) (qw i) []) ∧
    (∀ i ∈ [Instr.red .zero ⟨.v 6, 4, false, .add, .none, .p⟩],
      QReady (qs .s i) .s i .lanes (portRes .s) (qw i) [] ∧ QReady (qsAt .s i phased) .s i .lanes (portRes .s) (qw i) []) ∧
    (∀ i ∈ [Instr.rfree .zero 2], QReady (qs .l i) .l i .bit0 (portRes .l) (qw i) []) ∧
    ((run id).tile.getS 4).toNat % 8 = 0 ∧ ((run fun t => t.setS 4 4).tile.getS 4).toNat % 8 ≠ 0 :=
  ⟨fun i hi => ⟨qready_of (by revert i; exact all_ready (by decide +kernel)), qready_of (by revert i; exact all_ready (by decide +kernel))⟩,
    fun i hi => ⟨qready_of (by revert i; exact all_ready (by decide +kernel)), qready_of (by revert i; exact all_ready (by decide +kernel))⟩, qready_all (f := id) (by decide +kernel),
    by decide +kernel⟩

/-! ### Code words, the basin, the matrix engine -/

/-- A coded-tensor descriptor (R159). -/
def dword (prow n w cb tag : Nat) : Word := BitVec.ofNat 64 (prow * 2 ^ 40 + n * 2 ^ 16 + w * 2 ^ 12 + cb * 2 ^ 8 + tag)

/-- cb3 holds four f16 entries and a remap table of four; s5 describes six indices of width 2 in it, s6 the same of cb2, s7 an offset of 64, s8 a count of
257, s9 one of 256, s10 and s11 own AB and its last byte. -/
def coded (t : Tile) : Tile :=
  let t := { t with regs := { t.regs with cb := vset t.regs.cb 3 { Codebook.zero with count := 4, ty := .f16, tag := 7, rlen := 4, rfrom := 6, rto := 7 } } }
  ((((((t.setS 5 (dword 0 6 2 3 7)).setS 6 (dword 0 6 2 2 9)).setS 7 64).setS 8 257).setS 9 256).setS 10 0x100000).setS 11 0x17FFFF

/-- Each code word ready; an image that fits and one that does not, a count of 0, 1, 256 and 257, descriptors that pass and fail, a NaN entry. -/
theorem witness_CodebookWords :
    (∀ i ∈ [Instr.cbld .zero ⟨3, 10, true⟩, .cbld .zero ⟨3, 1, false⟩, .cbld .zero ⟨3, 11, true⟩],
      QReady (qsAt .c i coded) .c i .bit0 (fun now w c => codeRes (fun _ => [3]) now w c && decide (c.tile.frame.lf.length < 32)) (qw i) []) ∧
    (∀ i ∈ [Instr.cbst .zero ⟨3, 10, true⟩, .cbst .zero ⟨3, 1, false⟩, .cbst .zero ⟨3, 11, true⟩],
      QReady (qsAt .c i coded) .c i .bit0 (fun now w c => codeRes (fun _ => [3]) now w c && decide (c.tile.frame.sf.length < 32)) (qw i) [] ∧
      QReady (qsAt .c i (phased ∘ coded)) .c i .bit0 (fun now w c => codeRes (fun _ => [3]) now w c && decide (c.tile.frame.sf.length < 32)) (qw i) []) ∧
    (∀ i ∈ [Instr.cbget .zero ⟨.v 1, 3, 0⟩, .cbput .zero ⟨3, .v 1, 3⟩], QReady (qsAt .c i coded) .c i .lanes (codeRes fun _ => [3]) (qw i) []) ∧
    (∀ i ∈ [Instr.cbcnt .zero (.set 3 7 .bf16), .cbcnt .zero (.set 3 8 .f32), .cbcnt .zero (.set 3 1 .f32), .cbcnt .zero (.rd 6 3), .cbcnt .zero (.rt 6 3 5),
      .cbdedup .zero 3], QReady (qsAt .c i coded) .c i .bit0 (codeRes fun _ => [3]) (qw i) []) ∧
    (∀ i ∈ [Instr.cbenc .zero ⟨12, .v 1, 5, 1⟩, .cbenc .zero ⟨12, .v 1, 5, 7⟩], QReady (qsAt .c i coded) .c i .lanes (codeRes (descReg 5)) (qw i) []) ∧
    (∀ i ∈ [Instr.cbdec .zero ⟨.v 2, 6, 1⟩], QReady (qsAt .c i coded) .c i .lanes (codeRes (descReg 6)) (qw i) []) :=
  ⟨qready_all (by decide +kernel), fun i hi => ⟨qready_of (by revert i; exact all_ready (by decide +kernel)), qready_of (by revert i; exact all_ready (by decide +kernel))⟩,
    qready_all (by decide +kernel), qready_all (by decide +kernel), qready_all (by decide +kernel), qready_all (by decide +kernel)⟩

theorem witness_CodebookWordsCases : (let s := run coded
    cbSpFail s.chip (.sp (spPlace (s.tile.getS 10) 0)) 8 = none ∧ (cbSpFail s.chip (.sp (spPlace (s.tile.getS 11) 0)) 8).isSome = true ∧
      (cbSpFail s.chip (.sp (spPlace (s.tile.getS 11) 0)) 16).isSome = true ∧
      (s.tile.getCb 3).count ≠ 0 ∧ (s.tile.getCb 2).count = 0 ∧ logRoom (phased s.tile) < phase0.fill + 256 ∧ ¬logRoom (phased s.tile) < phase0.fill + 128 ∧
      256 < (s.tile.getS 8).toNat ∧ (s.tile.getS 9).toNat = 256 ∧ (s.tile.getS 1).toNat = 0 ∧
      (encCheck s.tile 5 1 true).toOption.isSome = true ∧ (encCheck s.tile 5 7 true).toOption = none ∧ (encCheck s.tile 6 1 false).toOption = none ∧
      (encCheck s.tile 5 1 false).toOption.isSome = true) ∧
    ([CVal.nan, .num 1 0].getD 1 .nan).isNan = false ∧ ([CVal.nan, .num 1 0].getD 0 .nan).isNan = true := by decide +kernel

/-- cb3 and cb5 as before, cb4 of 256 i32 entries, cb5 of 16; a basin of the pairs of cb3 with itself, its histogram current; descriptors that pass and fail
each check; offsets and bounds. -/
def paired (t : Tile) : Tile :=
  let t := coded t
  let i32 (n : BitVec 9) : Codebook := { Codebook.zero with count := n, ty := .i32 }
  let b : Basin := { Basin.zero with count := 16, m := 4, nb := 4, ty := .f16, tag := 5, acb := 3, atag := 7, bcb := 3, btag := 7, hist := 6, hb := true, htag := 5 }
  let t := { t with regs := { t.regs with cb := vset (vset t.regs.cb 4 (i32 256)) 5 (i32 16), basin := b } }
  let l : List (SReg × Word) := [(7, dword 0 6 2 3 6), (8, dword 0 6 9 0 5), (9, 0), (10, dword 4095 6 1 0 0), (11, dword 8 6 2 0 0), (12, dword 1 6 2 0 0), (13, dword 0 6 1 0 0),
    (14, 4096), (15, 4033), (16, 4032), (17, 0x7FC00000), (18, 0xBF800000), (19, dword 0 2048 2 3 7), (20, dword 4094 6 2 0 0), (21, dword 0 6 9 0 4)]
  l.foldl (fun t x => t.setS x.1 x.2) t

theorem witness_IndexPlaneAndBasinWords :
    (∀ i ∈ [Instr.ixremap .zero ⟨6, 3, 7, true⟩, .ixremap .zero ⟨6, 3, 9, false⟩, .ixremap .zero ⟨6, 3, 8, false⟩, .ixremap .zero ⟨6, 3, 5, false⟩],
      QReady (qsAt .c i paired) .c i .bit0 (codeRes fun _ => [3]) (qw i) []) ∧
    (∀ x ∈ [((5 : SReg), (11 : SReg)), (9, 11), (5, 9), (6, 11), (5, 13), (19, 20), (5, 12), (5, 5)], let i : Instr := .ixmov .zero ⟨23, x.1, x.2⟩
      QReady (qsAt .c i paired) .c i .bit0 (tagRes x.1) (qw i) []) ∧
    (∀ x ∈ [((3 : CReg), (3 : CReg), Rnd.rup), (3, 2, .rne), (3, 4, .rne), (4, 4, .rtz), (4, 4, .rne), (4, 5, .rne)], let i : Instr := .cbpair .zero ⟨x.1, x.2.1, x.2.2, false, .add⟩
      QReady (qsAt .c i paired) .c i .bit0 (basinRes fun _ => [x.1, x.2.1]) (qw i) []) ∧
    (∀ x ∈ [((5 : SReg), (5 : SReg), (11 : SReg)), (9, 5, 11), (5, 9, 11), (5, 8, 11), (5, 19, 11), (5, 5, 10), (5, 7, 11), (5, 5, 12)], let i : Instr := .ixpair .zero ⟨6, x.1, x.2.1, x.2.2⟩
      QReady (qsAt .c i paired) .c i .bit0 (basinRes fun _ => []) (qw i) []) ∧
    (∀ x ∈ [(5 : SReg), 8, 9, 7, 21], let i : Instr := .ixhist .zero ⟨6, x⟩; QReady (qsAt .c i paired) .c i .bit0 (basinRes (descReg x)) (qw i) []) ∧
    (∀ i ∈ [Instr.bsget .zero (.e (.v 1) 14), .bsget .zero (.h (.qo 1) 15), .bsget .zero (.r (.v 1) 16)], QReady (qsAt .c i paired) .c i .lanes (basinRes fun _ => []) (qw i) []) ∧
    (∀ i ∈ [Instr.bsget .zero (.st 6), .bsget .zero (.cst 6)], QReady (qsAt .c i paired) .c i .bit0 (basinRes fun _ => []) (qw i) []) ∧
    (∀ x ∈ [((8 : SReg), (1 : SReg)), (9, 1), (5, 1), (21, 1), (8, 17), (8, 18)], let i : Instr := .reclust .zero ⟨3, x.1, x.2, 6, 4⟩
      QReady (qsAt .c i paired) .c i .bit0 (basinRes fun _ => [3]) (qw i) []) :=
  ⟨qready_all (by decide +kernel), fun x hx => qready_of (by revert x; exact all_ready (by decide +kernel)), fun x hx => qready_of (by revert x; exact all_ready (by decide +kernel)),
    fun x hx => qready_of (by revert x; exact all_ready (by decide +kernel)), fun x hx => qready_of (by revert x; exact all_ready (by decide +kernel)), qready_all (by decide +kernel),
    qready_all (by decide +kernel), fun x hx => qready_of (by revert x; exact all_ready (by decide +kernel))⟩

/-- What those operands meet: the checks of R160, R167, R170, R182 to R186, at the ends of their ranges. -/
theorem witness_IndexPlaneAndBasinCases : (let t := (run paired).tile
    let d (n : SReg) : Desc := descOf (t.getS n)
    ([5, 6, 7, 8, 10, 11, 12, 13, 19, 20, 21] : List SReg).all (fun n => (d n).fate == none) = true ∧ (d 9).fate = some 2 ∧
      (descOf (dword 4095 6 2 0 0)).fate = some 9 ∧ (descOf (dword 0 4194304 1 0 0)).fate = none ∧ (descOf (dword 0 4194305 1 0 0)).fate = some 2 ∧
      (d 7).cbid = 3 ∧ (t.getCb 3).rlen ≠ 0 ∧ (d 7).etag = (t.getCb 3).rfrom ∧ (t.getCb 3).tag = (t.getCb 3).rto ∧ (d 5).etag ≠ (t.getCb 3).rfrom ∧ 8 < (d 8).w ∧
      (d 6).etag ≠ (t.getCb 2).tag ∧ (d 5).etag = (t.getCb 3).tag ∧ (d 13).w < (d 5).w ∧ 524288 < (d 20).prow * 128 + ({ d 20 with n := 2048 } : Desc).bytes ∧
      (d 12).prow * 128 < (d 5).prow * 128 + (d 5).bytes ∧ (d 5).prow * 128 + (d 5).bytes ≤ (d 11).prow * 128 ∧
      (t.getCb 2).count.toNat = 0 ∧ (t.getCb 3).ty ≠ (t.getCb 4).ty ∧ (t.getCb 4).count.toNat * (t.getCb 5).count.toNat = 4096 ∧
      4096 < (t.getCb 4).count.toNat * (t.getCb 4).count.toNat ∧ (d 5).n ≠ (d 19).n ∧ (t.regs.basin.count ≠ 0 ∧ (d 5).cbid = t.regs.basin.acb ∧ (d 5).etag = t.regs.basin.atag) ∧
      (d 7).etag ≠ t.regs.basin.btag ∧ (t.getS 14).toNat = 4096 ∧ (t.getS 15).toNat < 4096 ∧ (t.getS 15).toNat % 64 ≠ 0 ∧ (t.getS 16).toNat % 64 = 0 ∧
      (d 8).etag = t.regs.basin.tag ∧ (d 21).etag ≠ t.regs.basin.tag ∧ t.regs.basin.cnt 0 ≠ 0 ∧ (fmtF32.val false (t.getS 17).toNat).isNan = true ∧
      (fmtF32.val false (t.getS 18).toNat).neg = true ∧ (fmtF32.val false 0).isNan = false ∧ (foldBasin t.regs.basin 4).outs.length ≤ 256) := by decide +kernel

/-- A matrix operand descriptor (R193). -/
def mword (k0 kt poff soff : Nat) : Word := BitVec.ofNat 64 (k0 * 2 ^ 57 + kt * 2 ^ 50 + poff * 2 ^ 20 + soff)

/-- Operands of one K-block: s5 and s6 at the ends of AB and WB for width 4, s7 with a reserved bit, s8 off the 8-byte grid, s9 beyond AB, s10 of two blocks, s11
a coded B whose codebook does not match, s12 an f32 drain to the end of AB, s13 one beyond it; a B of 128 blocks at the end of WB in s14. -/
def operands (t : Tile) : Tile :=
  let l : List (SReg × Word) := [(5, mword 0 0 523264 524224), (6, mword 0 0 1047552 1048512), (7, 0x10000000000), (8, mword 0 0 4 0), (9, mword 0 0 523272 0),
    (10, mword 0 1 0 1024), (11, dword 0 2048 4 3 9), (12, mword 0 0 507904 0), (13, mword 0 0 507912 0), (14, mword 127 127 917504 0)]
  l.foldl (fun t x => t.setS x.1 x.2) (coded t)

def mmaOf (a b : SReg) (cb : Option SReg) (ks : BitVec 7) : MmaOp := ⟨a, b, cb, .w4, .w4, ks, true, 3⟩
/-- A command of the matrix engine. -/
def mcmd (i : Instr) (id : Nat) (started : Bool) (done : Nat) : MatCmd := ⟨{ qw i with id := id }, [], .user, mword 0 1 0 1024, mword 0 0 0 0, 0, none, 0, 5, started, done, 0, none⟩
def engine (l : List MatCmd) (t : Tile) : Tile := { t with mat := { t.mat with queue := l } }

def mmaWord : Instr := .mmaw .zero ⟨6, mmaOf 5 6 none 0⟩
theorem witness_MatrixWordsAndCommands :
    (∀ i ∈ [Instr.mma .zero (mmaOf 5 6 none 0), .mma .zero (mmaOf 5 7 none 0), .mma .zero (mmaOf 5 6 none 1), .mma .zero (mmaOf 8 6 none 0), .mma .zero (mmaOf 9 6 none 0),
      .mmaw .zero ⟨6, mmaOf 5 14 none 0⟩], QReady (qsAt .c i operands) .c i .bit0 (matRes none) (qw i) []) ∧
    (∀ i ∈ [Instr.mma .zero (mmaOf 5 6 (some 11) 0)], QReady (qsAt .c i operands) .c i .bit0 (matRes (some 11)) (qw i) []) ∧
    (∀ i ∈ [Instr.aclr .zero 0x8001, .adrn .zero ⟨12, .f32, .rne, false, true, 15⟩, .adrn .zero ⟨13, .f32, .rne, false, true, 15⟩, .adrn .zero ⟨5, .mx8, .rne, false, true, 15⟩,
      .mstat .zero ⟨6, true⟩], QReady (qsAt .c i operands) .c i .bit0 (matRes none) (qw i) []) ∧
    (∀ i ∈ [Instr.awr .zero ⟨.v 1, 0, 63, true⟩], QReady (qsAt .c i operands) .c i .lanes (matRes none) (qw i) []) ∧
    (∀ i ∈ [Instr.ard .zero ⟨.qo 0, 6, 3, 63, false⟩], QReady (qs .c i) .c i .lanes anyRes (qw i) [] ∧
      QReady (qsAt .c i (engine [mcmd mmaWord 4 true 0])) .c i .lanes anyRes (qw i) []) ∧
    (let t := (run operands).tile;
      mmaFate t (mmaOf 5 6 none 0) = none ∧ mmaFate t (mmaOf 5 7 none 0) = some 2 ∧ mmaFate t (mmaOf 5 6 none 1) = some 2 ∧ mmaFate t (mmaOf 8 6 none 0) = some 5 ∧
        mmaFate t (mmaOf 9 6 none 0) = some 9 ∧ mmaFate t (mmaOf 5 14 none 0) = none ∧ mmaFate t (mmaOf 5 6 (some 11) 0) = some 2 ∧
        adrnFate (mdescOf (t.getS 12)) .f32 = none ∧ adrnFate (mdescOf (t.getS 13)) .f32 = some 9 ∧ adrnFate (mdescOf (t.getS 5)) .mx8 = some 2 ∧
        adrnFate (mdescOf (t.getS 10)) .mx8 = none) :=
  ⟨qready_all (by decide +kernel), qready_all (by decide +kernel), qready_all (by decide +kernel), qready_all (by decide +kernel),
    fun i hi => ⟨qready_of (by revert i; exact all_ready (by decide +kernel)), qready_of (by revert i; exact all_ready (by decide +kernel))⟩, by decide +kernel⟩

/-- An engine whose oldest command starts, steps and completes, one command of each kind; an ard that sees a tile with no writer, and one with a running one. -/
theorem witness_MatrixEngineSteps :
    (let s := run (engine [mcmd mmaWord 4 false 0]); s.tile.performs = true ∧ s.tile.ardWaits (mcmd mmaWord 4 false 0) = false ∧ s.tile.sramUe = [] ∧
      s.tile.bufs.xb.wf = true) ∧ (mcmd mmaWord 4 true 0).mma = some (mmaOf 5 6 none 0) ∧ (mcmd mmaWord 4 true 0).done < (mcmd mmaWord 4 true 0).total ∧
    (mcmd mmaWord 4 true 1).total ≤ (mcmd mmaWord 4 true 1).done ∧
    (∀ i ∈ [Instr.aclr .zero 0x8001, .awr .zero ⟨.v 1, 0, 63, true⟩, .adrn .zero ⟨12, .mx8, .rne, false, true, 15⟩, .mstat .zero ⟨6, true⟩, .mma .zero (mmaOf 5 6 none 0)],
      (mcmd i 4 true 1).total ≤ (mcmd i 4 true 1).done ∧ (mcmd i 4 true 1).ue = none ∧ (mcmd i 4 true 1).w.what = .ok i) ∧
    (let i : Instr := .ard .zero ⟨.qo 0, 6, 3, 63, false⟩
      let r (a : Option Nat) : ArdReq := ⟨qw i, .user, 5, a, none⟩
      let s (l : List MatCmd) (a : Option Nat) : State := run fun t => { engine l t with mat := ⟨l, [r a], Vector.replicate _ 0⟩ }
      (s [] none).tile.ardReady (r none) = true ∧ (s [mcmd mmaWord 4 true 0] (some 4)).tile.ardReady (r (some 4)) = true ∧
        (s [mcmd mmaWord 4 true 0] (some 4)).tile.mat.queue.find? (fun m => m.w.id == 4) = some (mcmd mmaWord 4 true 0) ∧
        (s [] (some 4)).tile.ardReady (r (some 4)) = true ∧ (s [] (some 4)).tile.performs = true) := by decide +kernel

/-! ### Commands -/

/-- Shapes and addresses: s5 and s6 a copy of 1 and of 2^24 bytes, s7 of one more, s8 the first address beyond 48 bits, s9 a read count of 255, s10 one of 256,
s11 a line count of 1, s12 a clear range with a reserved bit, s13 a collective shape of 4 elements on group 3, s14 one on group 4, s15 a cmc of root 1 and one byte. -/
def shaped (t : Tile) : Tile :=
  let l : List (SReg × Word) := [(5, 1), (6, 16777216), (7, 16777217), (8, 0x1000000000000), (9, 255), (10, 256), (11, 1), (12, 0x40000000000), (13, 0x30000000000004),
    (14, 0x40000000000004), (15, 0x30000100000001), (16, 8), (17, 0x30000000000000)]
  l.foldl (fun t x => t.setS x.1 x.2) t
/-- Group 3 has tile 0 as its one member, group 4 a tile of another module. -/
def grouped (s : State) : State := { s with chip := { s.chip with groups := [⟨0, 3, [⟨0, some 0, 0, false⟩]⟩, ⟨0, 4, [⟨1, none, 0, false⟩]⟩] } }
def qcmd (i : Instr) (f : Tile → Tile) : State := grouped (qsAt .a i (f ∘ shaped))
def disabled (t : Tile) : Tile := { t with chan := { t.chan with disabled := true }, unv := { t.unv with disabled := true } }
/-- Register 16 is bound to command 4. -/
def bound4 (t : Tile) : Tile := { t with binds := vset t.binds 16 (some 4) }

def cpyAs (src shape : SReg) : Instr := .cpy .zero ⟨20, src, 1, shape, .plain, .t, false, false, false, false, false, none⟩
def fl0 : CmdFlags := ⟨.t, false, false, none⟩

/-- Each command word ready, its engine enabled and not; operands at the ends of their ranges. -/
theorem witness_CommandWordsEnterTheirFifo :
    (∀ i ∈ [cpyAs 1 5, cpyAs 1 6, cpyAs 1 7, cpyAs 8 5, .cpyf .zero ⟨20, 1, 6, 9, none⟩, .cpyf .zero ⟨20, 1, 7, 9, none⟩, .cpyf .zero ⟨20, 1, 11, 10, none⟩,
        .cpyf .zero ⟨20, 8, 11, 11, some 3⟩, .cpyf .zero ⟨20, 1, 1, 11, none⟩, .cred .zero ⟨20, 1, 16, 13, .sumF32, fl0⟩, .cred .zero ⟨20, 1, 1, 14, .smx, fl0⟩, .cred .zero ⟨20, 1, 1, 5, .sumI32, fl0⟩,
        .cmc .zero ⟨20, 1, 1, 15, fl0⟩, .cbar .zero ⟨20, 17, fl0⟩, .cbar .zero ⟨20, 14, fl0⟩],
      QReady (qcmd i id) .a i .bit0 (cmdRes .chan) (qw i) [] ∧ QReady (qcmd i disabled) .a i .bit0 (cmdRes .chan) (qw i) []) ∧
    (∀ i ∈ [Instr.unv .zero ⟨20, 1, fl0⟩, .unv .zero ⟨20, 8, fl0⟩, .patclr .zero ⟨20, 1, 1, fl0⟩, .patclr .zero ⟨20, 1, 12, fl0⟩],
      QReady (qcmd i id) .a i .bit0 (cmdRes .unveil) (qw i) [] ∧ QReady (qcmd i disabled) .a i .bit0 (cmdRes .unveil) (qw i) []) ∧
    (∀ i ∈ [Instr.cpyq .zero ⟨20, 5⟩, .cpyq .zero ⟨20, 16⟩], QReady (qcmd i bound4) .a i .bit0 phaseRes (qw i) [] ∧
      QReady (qcmd i (bound4 ∘ channel [cmd copy])) .a i .bit0 phaseRes (qw i) []) :=
  ⟨fun i hi => ⟨qready_of (by revert i; exact all_ready (by decide +kernel)), qready_of (by revert i; exact all_ready (by decide +kernel))⟩,
    fun i hi => ⟨qready_of (by revert i; exact all_ready (by decide +kernel)), qready_of (by revert i; exact all_ready (by decide +kernel))⟩,
    fun i hi => ⟨qready_of (by revert i; exact all_ready (by decide +kernel)), qready_of (by revert i; exact all_ready (by decide +kernel))⟩⟩

theorem witness_CommandWordCases : (let s := qcmd (.nop .zero) id
    let t := s.tile
    let o (n : SReg) : CpyOp := ⟨20, 1, 1, n, .plain, .t, false, false, false, false, false, none⟩
    cpyFate s.chip t (o 5) 0 0 0 (t.getS 5) = none ∧ cpyFate s.chip t (o 6) 0 0 0 (t.getS 6) = none ∧ cpyFate s.chip t (o 7) 0 0 0 (t.getS 7) = some (2, 0) ∧
      cpyFate s.chip t (o 5) (t.getS 8) 0 0 (t.getS 5) = some (7, 0x1000000000000) ∧ (t.getS 6).toNat = 16777216 ∧ (t.getS 7).toNat = 16777217 ∧ (t.getS 1).toNat = 0 ∧
      (t.getS 9).toNat = 255 ∧ (t.getS 10).toNat = 256 ∧ (t.getS 8).toNat = 2 ^ 48 ∧ (t.getS 12).toNat = 2 ^ 42 ∧ vget t.binds 16 = none ∧ vget (bound4 t).binds 16 = some 4 ∧
      t.incomplete 4 = false ∧ (channel [cmd copy] t).incomplete 4 = true ∧ t.chan.disabled = false ∧ (disabled t).unv.disabled = true ∧
      collBad (.cred .zero ⟨20, 1, 16, 13, .sumF32, fl0⟩) (t.getS 13) = false ∧ collBad (.cbar .zero ⟨20, 17, fl0⟩) (t.getS 17) = false ∧
      collBad (.cbar .zero ⟨20, 14, fl0⟩) (t.getS 14) = true ∧ collBad (.cmc .zero ⟨20, 1, 1, 15, fl0⟩) (t.getS 15) = false ∧
      (Region.mk (.glob (t.getS 1)) 16).meets (Region.mk (.glob (t.getS 16)) 16) = true ∧ t.getS 1 ≠ t.getS 16 ∧
      s.chip.group t.bound.launch (collGrp (t.getS 5)) = none ∧ (s.chip.group t.bound.launch 3).bind (fun g => s.chip.memberIndex g 0) = some 0 ∧
      (s.chip.group t.bound.launch 4).map (fun g => s.chip.memberIndex g 0) = some none ∧ 1 ≤ collRoot (t.getS 15)) := by decide +kernel

/-- A state block at address 0 (R241): one layer, blocks of four positions, one position; its arrays one page each from 0x1000, its layer entry 1 at 0x6000. -/
def blockBytes : Memory := [(0, 1), (6, 0x12), (9, 0x10), (17, 0x20), (25, 0x30), (33, 0x40), (41, 0x50), (49, 0x60), (57, 0x70), (65, 0x80), (0x2000, 1), (0x6000, 1)]
def withBlock (s : State) : State := { s with chip := { s.chip with mem := blockBytes } }
def unveil (l : List Cmd) (t : Tile) : Tile := { t with unv := { t.unv with fifo := l } }
def okSpans (r : Chip × Res) (l : List (Nat × Nat)) : Bool := match r.2 with | .ok x => x == l | _ => false
def started (i : Instr) : Cmd := { cmd i with st := .started }
def acqCopy : Instr := .cpy .zero ⟨6, 1, 5, 7, .plain, .t, true, false, false, false, false, none⟩
/-- A copy of 128 bytes from 0 to 0x1000, not read and read. -/
def copying (r : List Nat) : Cmd := { started copy with dst := 0x1000, rdone := r, buf := List.replicate 128 3 }

theorem witness_CommandsRunToCompletion :
    (∀ x ∈ [cmd copy, started acqCopy, copying [], copying [0], { copying [0] with wdone := [0] }], let s := run (channel [x]);
      (s.tile.engine .chan).fifo = [x] ∧ (s.tile.engine .chan).late = [] ∧ (s.tile.engine .chan).unacked = 0 ∧ s.tile.cmdOlderOpen x = false ∧
        okSpans (s.chip.checkSpan (.word 0 4) 5 .read 0 128) [(0, 128)] = true ∧ okSpans (s.chip.checkSpan (.word 0 4) 5 .write 0x1000 128) [(0x1000, 128)] = true ∧
        s.chip.ueLines = [] ∧ s.chip.blockLost = []) ∧
    (run (unveil [cmd (.unv .zero ⟨20, 1, fl0⟩)])).chip.blockTaken (cmd (.unv .zero ⟨20, 1, fl0⟩)) = false ∧
    (cmdFlags acqCopy).acq = true ∧ (cmdFlags acqCopy).scope ≠ .x ∧ (copying []).runs (run id).tile (false, 0) = true ∧
    (srcParts 0 (cpySrc 0 ⟨6, 1, 5, 7, .plain, .t, false, false, false, false, false, none⟩ (copying [])))[0]? = some ⟨0, .glob 0, 128⟩ ∧
    (let c := (run (channel [copying [0]])).chip;
      match (cmdOps c (copying [0]))[0]? with
      | some p => p.canWrite (copying [0]) (cmdParts c (copying [0])) && p.op.place == .glob 0x1000 && p.op.kind == .put && p.op.data.length == 128 &&
          p.checks (copying [0]) 0 == [p.op.piece] && !(c.tile.engine .chan).owes [(p.op.piece, [(0x1000, 128)])]
      | none => false) = true ∧
    (let c := (run (channel [{ copying [0] with wdone := [0] }])).chip;
      cmdKnown c { copying [0] with wdone := [0] } && (cmdOps c { copying [0] with wdone := [0] }).length == 1 &&
        ({ copying [0] with wdone := [0] } : Cmd).runs c.tile (true, 1)) = true ∧
    (let x : Cmd := { started (.cpyf .zero ⟨20, 1, 11, 9, none⟩) with dst := 1, shape := 255 };
      x.runs (run (channel [x])).tile (false, 0) = true ∧ (linesOf 0 1)[0]? = some 0) := by decide +kernel

/-- An Unveil command whose block passes every check, with its layer table and with no layer; a clear of it; both with everything read. -/
theorem witness_UnveilCommandsRun :
    (∀ x ∈ [started (.unv .zero ⟨20, 1, fl0⟩), started (.patclr .zero ⟨20, 1, 1, fl0⟩)], let s := withBlock (run (unveil [x]));
      s.tile.unv.fifo = [x] ∧ x.sent = false ∧ x.runs s.tile (false, 0) = true ∧ okSpans (s.chip.checkSpan (.word 0 4) 5 .read 0 128) [(0, 128)] = true ∧
        ublockFate x (s.chip.mem.read 0 128) = none ∧ s.tile.unv.owes [(⟨0, .glob x.src, 128⟩, [(0, 128)])] = false ∧ s.tile.unv.owes [(⟨0, .glob 0x6000, 4⟩, [(0x6000, 4)])] = false ∧
        (match ((s.chip.checkSpan (.word 0 4) 5 .read 0 128).1.checkRegions 4 (cmdRegions x (ublockOf (s.chip.mem.read 0 128)))).2 with | .ok _ => true | _ => false) = true ∧
        okSpans (((s.chip.checkSpan (.word 0 4) 5 .read 0 128).1.checkRegions 4 (cmdRegions x (ublockOf (s.chip.mem.read 0 128)))).1.checkSpan (.word 0 4) 5 .read 0x6000 4) [(0x6000, 4)] = true ∧
        badLayer (s.chip.mem.read 0x6000 4) 1 = none) ∧
    (let x := started (.unv .zero ⟨20, 1, fl0⟩)
      let bs := setAt ((withBlock (run id)).chip.mem.read 0 128) 6 2;
      (ublockOf bs).layers = 0 ∧ ublockFate x bs = none ∧ (ublockOf ((withBlock (run id)).chip.mem.read 0 128)).layers = 1 ∧ x.sent = false) ∧
    (let bs := (withBlock (run id)).chip.mem.read 0 128 ++ [1, 0, 0, 0]
      let x : Cmd := { started (.unv .zero ⟨20, 1, fl0⟩) with sent := true, buf := bs }
      let y : Cmd := { started (.patclr .zero ⟨20, 1, 1, fl0⟩) with sent := true, buf := bs }
      let z : Cmd := { x with rdone := List.range (unveilParts x).length }
      (List.range (unveilParts z).length).all z.rdone.contains && z.sent && !z.ready && !z.dropped && (unveilParts y).length == 0) = true := by decide +kernel

def cbarWord : Instr := .cbar .zero ⟨20, 17, fl0⟩
/-- A contribution with nothing to read; one of another module; an instance that has not begun and one that member 0 has joined. -/
theorem witness_ContributionsArrive :
    (let x : Cmd := { started cbarWord with shape := 0x30000000000000, inst := some 2 }
      let s := grouped (run (channel [x]))
      let g : Group := ⟨0, 3, [⟨0, some 0, 0, false⟩]⟩;
      s.chip.collOf x = some (g, 2) ∧ g.members[0]? = some ⟨0, some 0, 0, false⟩ ∧
        s.chip.refLost = false ∧ ({ s.chip with refLost := true } : Chip).refLost = true ∧ x.sent = false ∧ s.tile.chan.fifo = [x] ∧ s.chip.memberIndex g s.chip.focus = some 0 ∧ (srcParts 0 (collSrc s.chip x)).length = 0 ∧ x.runs s.tile (false, 0) = true ∧
        s.chip.group s.tile.bound.launch 4 = some ⟨0, 4, [⟨1, none, 0, false⟩]⟩ ∧ (1 : BitVec 8) ≠ s.chip.member ∧ s.chip.coll 0 3 2 = none ∧
        (s.chip.setColl ⟨0, 3, 2, [0], 0, 1, 4, 0, [1, 2, 3, 4], false⟩).coll 0 3 2 = some ⟨0, 3, 2, [0], 0, 1, 4, 0, [1, 2, 3, 4], false⟩ ∧
        (0 ∈ [0]) ∧ 1 ∉ [0]) := by decide +kernel

/-! ### Accesses -/

/-- The page of 0x10000 lies in member 1, which this module reaches. -/
def remote (s : State) : State :=
  { s with chip := s.chip.updDie false fun d => { d with tlb := ⟨none, 0x10000, 3, 0x100000000009F⟩ :: d.tlb, domain := 3, ports := 1 } }
def access (i : Instr) (cls : AClass) (p : Place) (n regs : Nat) : Access := newAccess (qw i) cls [⟨0, [⟨0, p, n⟩], [], .todo⟩] (List.replicate 16 7) [] regs 0
def inFifo (q : Fifo) (a : Access) (t : Tile) : Tile :=
  t.updFrame fun f => match q with | .l => { f with lf := [a] } | .s => { f with sf := [a] }
/-- The first unit of the access at the head of a FIFO may be performed; its span, its fate. -/
def mayPerform (q : Fifo) (a : Access) (s : State) : Bool :=
  (s.tile.user.fifo q)[0]? == some a && s.tile.canPerform .user q 0 a && a.cls != .ring && (a.units[0]?).any (s.tile.unitReady 0 q a 0) && s.chip.mem.wf &&
    s.chip.host.wf && s.chip.ueLines.isEmpty && s.tile.sramUe.isEmpty && (oneStep a.w.ins || (a.parts[0]?).any fun p => p.1 == [0]) &&
    a.units.all fun u => u.left.isEmpty
def accessAt (q : Fifo) (i : Instr) (cls : AClass) (p : Place) (n regs : Nat) (ok : State → Bool) : Bool :=
  let s := remote (run (inFifo q (access i cls p n regs)))
  mayPerform q (access i cls p n regs) s && ok s
def goesTo (eng : Nat) (kind : AccKind) (va n k0 : Nat) (s : State) : Bool := okSpans (s.chip.checkSpan (.word 0 7) eng kind va n) [(k0, n)]

def stdWord : Instr := .std .zero ⟨.s 6, .off 1 8⟩
def lddWord : Instr := .ldd .zero ⟨.s 6, .off 1 8⟩
/-- Stores at the end of a page of this module and in one of another, to a buffer, a load, a load with no translation, atomics of both widths, a tile store. -/
theorem witness_MemoryStepsPerformAccesses :
    (accessAt .s stdWord .g (.glob 0xFFF8) 8 0 (goesTo 4 .write 0xFFF8 8 0xFFF8) && !keyRemote 0xFFF8 &&
      accessAt .s stdWord .g (.glob 0x10000) 8 0 (goesTo 4 .write 0x10000 8 0x2000000000000) && keyRemote 0x2000000000000 &&
      accessAt .s stdWord .ab (.buf 0 .ab 524280) 8 0 (fun s => s.tile.sramUe.isEmpty && s.tile.bufs.ab.wf) &&
      accessAt .s stdWord .peer (.buf 1 .lb 0) 8 0 (fun s => !(s.chip.tileAt 1).fence.fenced && (s.chip.tileAt 1).sramUe.isEmpty && (s.chip.tileAt 1).bufs.lb.wf) &&
      accessAt .l lddWord .g (.glob 0) 8 8 (goesTo 1 .read 0 8 0) &&
      accessAt .l lddWord .g (.glob 0x20000) 8 8 (fun s => s.tile.freeEntry.isSome && (match (s.chip.resolvePieces (.word 0 7) 1 .read [⟨0, .glob 0x20000, 8⟩]).2 with
        | .bad 6 0x20000 => true
        | _ => false)) &&
      accessAt .s (.atom .zero ⟨5, 4, 6, true, .add, .none, .p⟩) .g (.glob 16) 8 0 (goesTo 4 .atomic 16 8 16) &&
      accessAt .s (.acas .zero ⟨5, 4, 6, 7, false, .none, .p⟩) .g (.glob 20) 4 0 (goesTo 4 .atomic 20 4 20) &&
      accessAt .s (.stt .zero ⟨1, .x, .off 1 0, 5⟩) .g (.glob 0) 4 0 (fun s => match (s.chip.resolvePieces (.word 0 7) 4 .write [⟨0, .glob 0, 4⟩]).2 with
        | .ok ps => !anyRemote ps
        | _ => false)) = true ∧
    instrEng stdWord = 4 ∧ instrEng lddWord = 1 ∧
    -- a contiguous store whose third element lies in two lines: the part of the first line, checked and not yet checked
    (let us (t : Bool) : List MUnit := [⟨0, [⟨0, .glob 123, 2⟩], [], .todo⟩, ⟨1, [⟨2, .glob 125, 2⟩], [], .todo⟩,
        ⟨2, [⟨4, .glob 127, 1⟩, ⟨5, .glob 128, 1⟩], if t then [(⟨4, .glob 127, 1⟩, [(127, 1)]), (⟨5, .glob 128, 1⟩, [(128, 1)])] else [], .todo⟩];
      [false, true].all fun t =>
        let a := newAccess (qw (.stv .zero ⟨.v 1, 1, .off 1 0⟩)) .g (us t) (List.replicate 256 7) [] 0 256
        let s := run (inFifo .s a)
        let d := [0, 1, 2].foldl (Chip.checkUnit .user .s 0 a.w.id) (s.chip, false)
        joins a.w.ins && s.tile.canPerform .user .s 0 a && a.parts[0]? == some ([0, 1, 2], some 0) && s.chip.ueLines.isEmpty && s.tile.sramUe.isEmpty &&
          !d.2 && d.1.tile.canPerform .user .s 0 a && (d.1.tile.user.sf[0]?).any fun b => b.w == a.w && b.data == a.data &&
            (let ps := ([0, 1, 2].flatMap fun i => ((b.units[i]?).map MUnit.left).getD []).filter fun p => p.1.line == some 0;
              ps.length == 3 && !anyRemote ps)) = true ∧ perfKind (.stt .zero ⟨1, .x, .off 1 0, 5⟩) = .tile ∧ perfKind lddWord = .plain := by decide +kernel

/-- An answer of each kind, to a tile that is not fenced and to one that is; acknowledgements of each kind; a line whose count is zero; a cached translation. -/
theorem witness_AnswersAndOtherMemorySteps :
    (∀ i ∈ [Instr.ldb .zero ⟨3, true, .off 1 8⟩, .ldh .zero ⟨3, false, .post 2⟩, .ldw .zero ⟨3, true, .sp 4 0⟩, lddWord, .ldd .zero ⟨.p 1, .off 1 8⟩,
        .atom .zero ⟨5, 4, 6, true, .add, .ar, .p⟩, .acas .zero ⟨5, 4, 6, 7, false, .none, .t⟩, .ldv .zero ⟨.v 1, 3, .off 1 0⟩],
      let a : Access := newAccess (qw i) .g [⟨0, [], [], .done⟩] [] [] 256 0
      let t := (run fun t => t.updFrame fun f => { f with ans := [a] }).tile
      t.answerAt 0 = some (.user, 0, a) ∧ t.performs = true ∧ a.ue = none ∧ a.refused = none ∧ t.lateFor 1000 (resultRefs (a.result t .user 1000)) = false ∧ (∀ u ∈ a.units, u.st ≠ .refused) ∧
        ({ t with fence := { t.fence with fenced := true } } : Tile).answerAt 0 = some (.user, 0, a)) ∧
    (let s := run fun t => { t with unacked := 1, chan := { t.chan with unacked := 1 } };
      s.tile.unacked ≠ 0 ∧ ({ s.tile with unacked := 0 } : Tile).chan.unacked ≠ 0) ∧ (run id).tile.unacked = 0 ∧ (run id).tile.chan.unacked = 0 ∧
    (let c := { (run id).chip with counts := [(5, 0)], ueBlocks := [3] };
      (5, 0) ∈ c.counts ∧ 5 ∉ c.ueLines ∧ ((3072 : BitVec 56).extractLsb' 0 48).toNat / 1024 ∈ c.ueBlocks ∧ ((4096 : BitVec 56).extractLsb' 0 48).toNat / 1024 ∉ c.ueBlocks) ∧
    (∃ x ∈ ((run id).chip.die (tileDie 0)).tlb, x.hits (bits (run id).tile.sys.troot 48 12) 0 = true) ∧
    ¬(∃ x ∈ ((run id).chip.die (tileDie 0)).tlb, x.hits (bits (run id).tile.sys.troot 48 12) 0x10000 = true) := by decide +kernel

/-! ### Contexts, commits, launches, fencing, management -/

/-- A bind record that is valid, with the mask and the launch given; TVEC 96, s1 = 5. -/
def slot (v : Bool) (mask : BitVec 8) (launch : BitVec 32) : BindRec :=
  vset (vset (vset (Vector.replicate _ 0) 0 (BitVec.ofBool v ++ 0#23 ++ mask ++ launch : BitVec 64)) 3 96) 11 5
/-- Bank 0 of tiles 0 and 1 of die 0. -/
def bound2 (a b : BindRec) (s : State) : State := { s with chip := s.chip.updDie false fun d => { d with slots := vset (vset d.slots 0 a) 2 b } }
/-- The conditions of a commit of ranks 0 and 1 of cluster 0: busy, void, unlike, fenced. -/
def commitCase (s : State) : List Bool :=
  let recs := s.chip.named 0 3 false
  let tiles : List Tile := [0, 1].map fun r => s.chip.tileAt (tileOfRank 0 (BitVec.ofNat 3 r))
  [(s.chip.runMask 0 ||| s.chip.dispatching 0) &&& 3 != 0 || tiles.any fun t => t.cs.busy, recs.any fun r => !slotV r.2,
    recs.any (fun r => slotTmask r.2 != 3 || recs.any fun q => slotLaunch r.2 != slotLaunch q.2), tiles.any fun t => t.fence.fenced]

def launched (n : Nat) (seen : Bool) : State :=
  let q : QPair := { QPair.zero with lqbase := 8, en := true, q := 4, iid := 5, pidx := BitVec.ofNat 64 n, seen := [List.replicate 128 (if seen then 0 else 1)], cqlog := 1, cqbase := 64 }
  { State.reset with chip := { State.reset.chip.updPair false 2 (fun _ => q) with firm := { Firm.reset with st := 2 }, launches := [Launch.empty 7 (List.replicate 16 0) (some (false, 2)) 2] } }

/-- A commit of rank 1 beside a strand of rank 0 that runs, of a launch with LOOSE or without; a queue one of whose blocks is under recovery. -/
theorem witness_LooseCommitsAndStuckQueues :
    (∀ loose ∈ [false, true], let l := { Launch.empty 0 (List.replicate 16 0) none 0 with word0 := if loose then 0x40000000000 else 0 }
      let c := { (bound2 (slot true 3 0) (slot true 2 0) (run id)).chip with launches := [l] };
      (c.runMask 0 ||| c.dispatching 0) &&& 2 = 0 ∧ (c.tileAt (tileOfRank 0 1)).cs.busy = false ∧ (c.tileAt (tileOfRank 0 1)).fence.fenced = false ∧
        (c.named 0 2 false).length = 1 ∧ (c.named 0 2 false).all (fun r => slotV r.2 && slotTmask r.2 == 2 && slotLaunch r.2 == 0 && !slotRst r.2) = true ∧
        (c.runMask 0).getLsbD 0 = true ∧ c.dispatching 0 = 0 ∧ c.looseLaunch (c.tileAt (tileOfRank 0 0)).bound.launch = loose) ∧
    ({ (launched 1 true).chip with ueBlocks := [1] }).queueStuck false 2 = true ∧ (launched 1 true).chip.ueBlocks = [] ∧
    (launched 1 true).chip.queueStuck false 2 = false := by decide +kernel

theorem witness_ContextsCommitsAndLaunches :
    (∀ b ∈ [false, true], let s := run fun t => { t with st := .preempted, cs := ⟨0x4000, b, false, 0⟩ };
      s.tile.st = .preempted ∧ s.tile.cs.busy = b ∧ s.chip.mem.wf = true ∧ s.chip.host.wf = true ∧ s.chip.ueLines = [] ∧ s.chip.ownHbm s.tile.saveAddr = true) ∧
    (let i := bound2 (slot true 3 1) (slot true 3 1) State.reset;
      commitCase i = [false, false, false, false] ∧ State.reset.chip.stopped = false ∧ (i.chip.named 0 3 false).all (fun r => !slotRst r.2) = true ∧
        commitCase (bound2 (slot true 3 1) (slot true 3 1) (run id)) = [true, false, false, false] ∧
        commitCase (bound2 (slot true 3 1) (slot false 3 1) State.reset) = [false, true, false, false] ∧
        commitCase (bound2 (slot true 3 1) (slot true 3 2) State.reset) = [false, false, true, false] ∧
        commitCase { i with chip := i.chip.updFence 1 fun f => { f with fenced := true } } = [false, false, false, true]) ∧
    (let x : Dispatch := ⟨0, 3, false, 1, 1, [(0, slot true 3 1), (1, slot true 3 1)], []⟩;
      let c := State.reset.chip.updDie false fun d => { d with dispatch := [x] };
      (c.die false).dispatch.find? (fun y => y.cluster == 0) = some x ∧ (x.recs.map Prod.fst).Nodup ∧
        x.recs.all (fun r => !(c.tileAt (tileOfRank (clusterNo false 0) r.1)).fence.fenced) = true) ∧
    (5 : BitVec 11) ≠ 0 ∧ (((0 : BitVec 3), (5 : BitVec 11)) ∉ State.reset.chip.imsic) := by decide +kernel

/-- No firmware; a queue whose records are all taken; a record below PIDX as it was found, and one changed since; a finished launch. -/
theorem witness_LaunchQueues :
    State.reset.chip.firmwareRuns = false ∧
    (∀ x ∈ [((0 : Nat), true), (1, true), (1, false), (16, true)], let s := launched x.1 x.2;
      let q := s.chip.pair false 2;
      s.chip.firmwareRuns = true ∧ q.en = true ∧ s.chip.imsic = [] ∧ s.chip.ueLines = [] ∧ (ofBytes 64 (s.chip.mem.read (s.chip.key (q.header + 8)) 8) : Word) = 0 ∧
        q.pidx.toNat = x.1 ∧ x.1 ≤ 2 ^ q.q.toNat ∧ (q.seen.head? == some (s.chip.mem.read (s.chip.key (q.recordAt 0)) 128)) = x.2 ∧ s.chip.mem.wf = true ∧
        s.chip.host.wf = true ∧ s.chip.ownHbm (q.header + 8) = true ∧
        (s.chip.launches.find? fun l => l.src == some (false, 2) && l.finished) = some (Launch.empty 7 (List.replicate 16 0) (some (false, 2)) 2) ∧
        (q.cqtail - q.cqhead).toNat ≠ 2 ^ q.cqlog.toNat) := by decide +kernel

/-- A flit: its type, source, subject, SEQ. -/
def flit (ty src subj seq : Nat) : Word := BitVec.ofNat 64 (ty * 2 ^ 56 + src * 2 ^ 40 + subj * 2 ^ 32 + seq * 2 ^ 16 + 32768)
/-- Tile 0, with what its fence state is. -/
def fencing (f : Fence → Fence) : State := run fun t => { t with fence := f t.fence }
/-- A notice of a tile that has been fenced. -/
def noticed : State := { fencing id with chip := (fencing id).chip.updFence 1 fun f => { f with fenced := true } }

/-- Tile 0 hears of tile 16 from the south and of tile 1 from the east; a closed port; a neighbour that is silent, one that babbles; a vote, a notice, an appeal. -/
theorem witness_FencingAndReturn :
    (let s := fencing id;
      let f := s.tile.fence.toPeriod (periodOf s.clk);
      meshNext 0 .e = some 1 ∧ meshNext 0 .n = none ∧ s.tile.fence.fenced = false ∧ (f.at .e).closed = false ∧ s.chip.isFenced 1 = false ∧
        flitType (flit 1 1 0 7) = 1 ∧ (flit 1 1 0 7).extractLsb' 40 8 = 1#8 ∧ (flit 1 1 0 7).getLsbD 15 = true ∧
        flitSrc false (flit 2 17 1 0) = some 17 ∧ flitSubj false (flit 2 17 1 0) = some 1 ∧ dirTo 0 1 = some .e ∧ dirTo 1 17 = some .s ∧
        periodWith (periodOf s.clk) (flitSeq (flit 2 17 1 0)) = some 0 ∧ s.chip.isFenced 17 = false ∧
        flitType (flit 5 17 1 0) = 5 ∧ flitType (flit 3 16 1 0) = 3) ∧ noticed.chip.isFenced 1 = true ∧ noticed.tile.fence.fenced = false ∧
    (let f := (fencing fun f => { f with e := { f.e with ok1 := 0, ok2 := 0, ok3 := 0, closed := true, appeals := 2 }, s := { f.s with hbLast := 5 } }).tile.fence;
      (f.at .e).closed = true ∧ (f.at .e).apNow = 0 ∧ 2 ≤ (f.at .e).appeals ∧ 4 < (f.at .s).hbLast ∧ (f.at .s).closed = false) ∧
    flitSubj false (flit 4 1 1 0) = some 1 ∧ flitSrc false (flit 4 1 1 0) = some 1 ∧
    (∀ b ∈ [(1 : BitVec 2), 2], let f := (fencing fun f => { f with fenced := true, testing := true, bin := b, ready := true }).tile.fence;
      f.fenced = true ∧ f.testing = true ∧ f.bin = b ∧ f.ready = true) := by decide +kernel

/-- Flits that name no tile, the receiver as its source, a tile that is no neighbour of the subject; an appeal of a tile that has passed its self-test; a fenced
tile that is in B2, and one that is retired. -/
theorem witness_MalformedFlitsAppealsAndRetirement :
    flitSrc false (flit 2 200 1 0) = none ∧ flitSubj false (flit 3 17 200 0) = none ∧ flitSrc false (flit 5 0 1 0) = some 0 ∧ (fencing id).chip.focus = 0 ∧
    flitSrc false (flit 2 33 1 0) = some 33 ∧ dirTo 1 33 = none ∧
    (let s := fencing fun f => { f with e := { f.e with closed := true, appeals := 2 } }
      let c := s.chip.updFence 1 fun f => { f with fenced := true, test := true, bin := 2 };
      flitType (flit 4 1 1 0) = 4 ∧ (c.tileAt 1).fence.test = true ∧ (c.tileAt 1).fence.bin ≠ 3 ∧ (c.tileAt 0).fence.fenced = false) ∧
    (∀ b ∈ [(2 : BitVec 2), 3], let f := (fencing fun f => { f with fenced := true, test := true, bin := b, ready := true }).tile.fence;
      f.fenced = true ∧ f.test = true ∧ f.bin = b ∧ f.ready = true) := by decide +kernel

/-- A majority of two neighbours of tile 0's east, and none. -/
theorem witness_MajoritiesFence :
    (let v : Vector (Option Nat) (2 ^ 2) := vset (vset (Vector.replicate _ none) 3 (some 0)) 2 (some 0);
      let c := (run id).chip.updView 0 .e fun x => { x with votes := v };
      dirTo 0 1 = some .e ∧ c.isFenced 1 = false ∧ c.holdsMajority 7 0 1 Neighbour.votes = true ∧ c.holdsMajority 8 0 1 Neighbour.votes = false ∧
        (c.tileAt 1).fence.bin ≠ 3 ∧ (c.updFence 1 fun f => { f with bin := 3 }).isFenced 1 = false ∧ (c.view 0 .e).closed = false ∧
        ((c.updView 0 .e fun x => { x with closed := true }).view 0 .e).closed = true) := by decide +kernel

/-- Values at the ends of the ranges of the management registers. Whether an image's signature verifies is a free value, so no firmware image that passes can
be shown; one that has no magic is refused. -/
theorem witness_ManagementSteps :
    (1553 ≤ (1553 : BitVec 11).toNat ∧ (1552 : BitVec 11).toNat < 1553) ∧
    (let v (m : Nat) : Word := BitVec.ofNat 64 (m * 2 ^ 37);
      (v 191).extractLsb' 37 8 = (191 : BitVec 8) ∧ 192 ≤ ((v 192).extractLsb' 37 8).toNat ∧ State.reset.chip.lock = false ∧ State.reset.chip.anyBound = false ∧
        (run id).chip.anyBound = true) ∧
    (0x8000000000000000 : Word).getLsbD 63 = true ∧ (State.reset.chip.die false).inval = none ∧
    ((State.reset.chip.updDie true fun d => { d with inval := some ⟨0, 0, false, true, 0⟩ }).die true).inval = some ⟨0, 0, false, true, 0⟩ ∧
    State.reset.chip.firm.st ≠ 1 ∧ State.reset.chip.firm.st ≠ 2 ∧ (launched 0 true).chip.firm.st = 2 ∧
    Firm.imageErr { Firm.reset with st := 1 } (List.replicate 512 0) [] ≠ 0 ∧
    vget Firm.reset.keys 3 = .empty ∧ Firm.reset.enrolled .vendor = false ∧ Firm.reset.vlock = false ∧
    (let f : Firm := { Firm.reset with keys := vset Firm.reset.keys 1 (.enrolled 5) };
      f.enrolled (.owner 1) = true ∧ f.enrolled (.owner 0) = false ∧ vget f.keys 1 ≠ .empty) ∧
    (let c := (bound2 (slot true 3 1) (slot true 3 1) State.reset).chip.updDie false fun d => { d with dispatch := [⟨0, 3, false, 1, 1, [], []⟩] };
      c.beingDispatched false (BitVec.ofNat 8 ((0x100000 - 0x100000) / 256)) = true ∧ (0x10FFFF - 0x100000) / 256 = 255) ∧
    (8 : BitVec 4).toNat < 9 ∧ State.reset.chip.joined = false ∧ State.reset.chip.stopped = false ∧ ({ State.reset.chip with stopped := true } : Chip).stopped = true ∧
    (∃ l ∈ ({ (run id).chip with launches := [Launch.empty 0 (List.replicate 16 0) none 0] } : Chip).launches, (run id).tile.runs = true ∧
      (run id).tile.bound.launch = l.num) ∧ (run id).tile.st = .running ∧ (run id).tile.exchanging = false ∧
    (State.reset.chip.tileAt 9).st = .absent ∧ State.reset.chip.ueBlocks = [] := by decide +kernel

/-! ### The whole machine -/

/-- A step that answers a next state, with an empty agenda and with a turn of nine clk. -/
theorem witness_CycNeverRunsBackward : ran (step State.reset) = true ∧ State.reset.due = none ∧
    (let s := placed 0xE0000000000000000012 .run; s.agenda.isEmpty = false ∧ s.takes ⟨1, 0, [], .run⟩ ∧ ran (step s) = true) ∧
    (let s := queued .c (qw (.pnot .zero ⟨1, 2⟩)); s.agenda = [] ∧ s.due ≠ none ∧ (turning s 1 .run).due ≠ none ∧ ran (step (turning s 1 .run)) = true) ∧
    (let s := turning (queued .c { qw (.pnot .zero ⟨1, 2⟩) with born := 1000 }) 2 .run; s.due = none ∧ s.anyQueued = true ∧ ran (step s) = true) := by
  decide +kernel
theorem witness_StepKeepsMemoriesCanonical : State.reset.chip.mem.wf = true ∧ State.reset.chip.host.wf = true ∧ ran (step State.reset) = true := by decide +kernel

/-- A word of each kind that the frame names, each answered by a next state. -/
theorem witness_WordsKeepWhatTheyDoNotName :
    ([Instr.add .zero ⟨1, 2, 3⟩, .addi .zero ⟨1, 2, 5⟩, .shli .zero ⟨1, 2, 63⟩, .clz .zero ⟨1, 2⟩, .bfx .zero ⟨1, 2, 0, 64, true⟩, .movi .zero 1 5, .movhi .zero (.mid 1 5),
      .movhi .zero (.top 1 5), .movs .zero 1 .cyc, .nop .zero, .br .zero 5].all (fun i => ran (exec i (run id)) && i.eng.isSome)) = true ∧
    ([Instr.div .zero ⟨1, 2, 3⟩, .rem .zero ⟨1, 2, 3⟩, .lset .zero ⟨2, false, 0, 5⟩, .loopb .zero (-4), .lexit .zero, .waitt .zero 1, .waita .zero 6 5 true,
      .bri .zero 3 true, .call .zero 5, .amode .zero ⟨2, 5, 6, 7, .circ⟩, .amov .zero (.toS 3 2), .amov .zero (.toA 2 3), .mfs .zero ⟨5, .vflags, false⟩,
      .mts .zero ⟨.vflags, 5⟩, .rqrd .zero ⟨5, 6, .imm 3⟩, .rqdrop .zero (.imm 3), .rqrel .zero (.imm 3), .trap .zero false 9, .tret .zero,
      .halt .zero].all fun i => ran (exec i (handler id)) && (i.eng == some .ctrl || i.eng == some .sys)) = true ∧
    ran (exec lddWord (qs .l lddWord)) = true ∧ lddWord.eng = some .load ∧ ran (exec stdWord (qs .s stdWord)) = true ∧ stdWord.eng = some .store ∧
    (run id).tile.inPhase = false ∧ postReg (.ldb .zero ⟨3, true, .post 2⟩) = some 2 ∧ (run phased).tile.phase = some phase0 ∧ (run phased).tile.bufs.ab.wf = true ∧
    (mmaWord.eng = some .mat ∧ ran (exec mmaWord (qsAt .c mmaWord operands)) = true) ∧
    (Instr.cbdedup .zero 3).eng = some .code ∧ ran (exec (.cbdedup .zero 3) (qs .c (.cbdedup .zero 3))) = true := by decide +kernel

/-! ### Cases of the widened statements -/

/-- A global access of a word, as it stands in a FIFO. -/
def accessOf (id : Nat) (i : Instr) (cls : AClass) : Access :=
  newAccess { qw i with id := id } cls [⟨0, [⟨0, .glob 0, 8⟩], [], .todo⟩] (List.replicate 16 7) [] 0 0
/-- The access at a place of a FIFO may be performed. -/
def mayGo (q : Fifo) (k : Nat) (l s : List Access) (f : Tile → Tile) : Bool :=
  let t := (run fun t => f (t.updFrame fun r => { r with lf := l, sf := s })).tile
  ((t.user.fifo q)[k]?).any (t.canPerform .user q k)
def atomOf (o : Ord) (sc : Scope) : Instr := .atom .zero ⟨5, 4, 6, true, .add, o, sc⟩

/-- What lets an access be performed, and each thing that bars it: a fenced tile, one that does not run, a mark, an older access of its class, one behind a
mark, a ring word behind another, an older atomic with .acq performed last or queued, one with .rel behind accesses, words or acknowledgements. -/
theorem witness_AccessOrder :
    (let st (n : Nat) (cls : AClass) := accessOf n stdWord cls
      let ld (n : Nat) := accessOf n lddWord .g
      let queue (q : Queue) (i : Instr) (t : Tile) : Tile := t.updFrame fun r => r.setQueue q [qw i]
      [mayGo .s 0 [] [st 8 .g] id, mayGo .s 1 [] [st 7 .ab, st 8 .g] id, mayGo .l 0 [ld 8] [st 7 .g] id, mayGo .s 0 [] [accessOf 8 (atomOf .ar .p) .g] id,
        mayGo .s 0 [] [accessOf 8 (atomOf .rel .x) .g] id, mayGo .s 0 [] [accessOf 8 (atomOf .rel .t) .g] (fun t => { t with unacked := 1 })].all (· == true) &&
      [mayGo .s 0 [] [st 8 .g] (fun t => { t with fence := { t.fence with fenced := true } }), mayGo .s 0 [] [st 8 .g] (fun t => { t with st := .preempted }),
        mayGo .s 0 [] [accessOf 8 markP .order] id, mayGo .s 1 [] [st 7 .g, st 8 .g] id, mayGo .s 1 [] [accessOf 7 markP .order, st 8 .g] id,
        mayGo .s 1 [] [st 7 .ab, accessOf 8 (.rpub .zero 2) .ring] id, mayGo .l 0 [ld 8] [accessOf 7 (atomOf .acq .p) .g] id,
        mayGo .l 0 [ld 8] [] (queue .s (atomOf .ar .p)), mayGo .s 0 [ld 7] [accessOf 8 (atomOf .rel .p) .g] id, mayGo .s 0 [] [accessOf 8 (atomOf .ar .p) .g] (queue .l lddWord),
        mayGo .s 0 [] [accessOf 8 (atomOf .rel .p) .g] (queue .c (.cbld .zero ⟨3, 4, false⟩)),
        mayGo .s 0 [] [accessOf 8 (atomOf .rel .x) .g] (fun t => { t with unacked := 1 })].all (· == false)) = true := by decide +kernel

/-- An address of index 1 at every level of the table; the entry of its node at each level. -/
def walkVa : Nat := 2 ^ 43 + 2 ^ 34 + 2 ^ 25 + 2 ^ 16
def nodeEntry (l : Nat) : Nat := 0x100008 + 0x1000 * l
/-- The table of a strand with its entries from the root down, and no translation cached. -/
def walking (entries : List Word) (f : Chip → Chip) : Chip :=
  let c := (run fun t => { t with sys := { t.sys with troot := 0x100 } }).chip.updDie false fun d => { d with tlb := [] }
  f { c with mem := entries.zipIdx.foldl (fun m x => m.write (nodeEntry x.2) (toBytes 8 x.1)) [] }
def pageAns (c : Chip) (kind : AccKind) (va n : Nat) : Res := (c.checkPage (.word 0 7) 1 kind va n).2
def spanAns (c : Chip) (kind : AccKind) (va n : Nat) : Res := (c.checkSpan (.word 0 7) 1 kind va n).2
/-- Entries that point on to nodes 1 to 3, then the one given. -/
def chain (p : Word) : List Word := [0x101001, 0x102001, 0x103001, p]

theorem witness_TranslationWalk :
    -- the entries on the way are no leaves and name the next node
    ((List.range 3).all fun l =>
      let p := (chain 0).getD l 0
      p.getLsbD 0 && !p.getLsbD 1 && !p.getLsbD 5 && !p.getLsbD 6 && p.toNat / 2 ^ 56 == 0 && p.toNat / 2 ^ 8 % 16 == 0 && (walking (chain 0) id).mem.read (nodeEntry l) 8 == toBytes 8 p &&
        (p.extractLsb' 12 44 ++ 0#12 : BitVec 56).toNat + 8 == nodeEntry (l + 1)) = true ∧
    -- a leaf of the last level, and of level 2; none at all; a reserved bit; permissions; one of another member, one off its 64 KiB
    (let leaf := walking (chain 0x20001F) id;
      [pageAns leaf .read walkVa 8, pageAns leaf .atomic walkVa 8, pageAns (walking [0x101001, 0x102001, 0x4000001F] id) .fetch walkVa 8,
        pageAns (walking (chain 0) id) .read walkVa 8, pageAns (walking (chain 0x20011F) id) .read walkVa 8, pageAns (walking (chain 0x200013) id) .read walkVa 8,
        pageAns (walking (chain 0x200017) id) .atomic walkVa 8, pageAns (walking (chain 0x10000020005F) id) .read walkVa 8, pageAns (walking (chain 0x200000020005F) id) .read walkVa 8,
        pageAns (walking (chain 0x20101F) id) .read walkVa 8] ==
      [.ok [(0x200000, 8)], .ok [(0x200000, 8)], .ok [(0x40010000, 8)], .bad 6 walkVa, .bad 6 walkVa, .bad 7 walkVa, .bad 7 walkVa, .bad 7 walkVa, .bad 7 walkVa,
        .bad 6 walkVa]) = true ∧
    -- regions; a member that is not reached; a node beyond the HBM, one lost, one held for recovery; a page held; an address beyond 2^48
    ([pageAns (walking (chain 0xFF000000001F) id) .read walkVa 8, pageAns (walking (chain 0xA00000001F) id) .read walkVa 8, pageAns (walking (chain 0xFF010000001F) id) .read walkVa 8,
        pageAns (walking (chain 0x100000020001F) id) .read walkVa 8, pageAns (walking [0x10000000101001] id) .read walkVa 8,
        pageAns (walking (chain 0x20001F) fun c => { c with ueLines := [nodeEntry 1 / 128] }) .read walkVa 8,
        pageAns (walking (chain 0x20001F) fun c => { c with blockLost := [(nodeEntry 2 / 128, .word 0 7)] }) .read walkVa 8,
        pageAns (walking (chain 0x20001F) fun c => { c with ueBlocks := [nodeEntry 3 / 1024] }) .read walkVa 8,
        pageAns (walking (chain 0x20001F) fun c => { c with ueBlocks := [0x200000 / 1024] }) .read walkVa 8, pageAns (walking [] id) .read (2 ^ 48) 8] ==
      [.bad 3 walkVa, .bad 7 walkVa, .bad 7 walkVa, .absent, .bad 7 walkVa, .bad 8 walkVa, .bad 8 walkVa, .busy [(nodeEntry 3 / 128, 8)], .busy [(0x200000 / 128, 19)],
        .bad 7 (2 ^ 48)]) = true ∧
    -- a cached translation stands; the next page is checked after it, and an absent one before an absent member
    (let c := walking [] fun c => c.updDie false fun d => { d with tlb := [onePage] };
      [pageAns c .read 0xFFF8 8, spanAns c .read 0xFFF8 16, spanAns c .read 0xFFF8 8] == [.ok [(0xFFF8, 8)], .bad 6 0x10000, .ok [(0xFFF8, 8)]]) = true := by decide +kernel

/-- A block without a replica; the bad-chunk list with room and full; a load that waits for a line that is not dirty, and for one that is. -/
theorem witness_BlockLost :
    (let c (full : Bool) : Chip := { (run id).chip.updDie false fun d => { d with bclog := 0, bchead := if full then 1 else 0 } with
        ueBlocks := [3], blockWait := [(24, .word 0 7, 0), (25, .word 0 8, 0)], dirty := [25] };
      [false, true].all fun full =>
        let x := c full
        let d := x.die (decide (128 ≤ hbmChannel (3 * 1024)))
        (x.replica (x.member ++ BitVec.ofNat 48 (3 * 1024))).2 == none && ((d.bchead - d.bctail).toNat == 2 ^ d.bclog.toNat) == (full && decide (hbmChannel (3 * 1024) < 128))) = true := by
  decide +kernel

def kindCopy (k : CpyKind) : CpyOp := ⟨6, 1, 5, 7, k, .t, false, false, false, false, false, none⟩
/-- Shapes that each kind of copy takes: bytes, four values to f16 and to bf16, 32 to a block, rows and columns of two bytes, six indices of two bits. -/
theorem witness_CopyShapes : ([((CpyKind.plain, (128 : Word)), 128, 128, 0), ((.cvt, 0x40000000000004), 16, 8, 0), ((.ef, 0x4), 16, 8, 8), ((.cvt, 0x80000000000020), 128, 33, 0),
      ((.ef, 0x80000000000020), 128, 33, 64), ((.tps, 0x20000200000003), 12, 12, 0), ((.pln, dword 0 6 2 3 7), 128, 256, 0), ((.pak, dword 0 6 2 3 7), 256, 128, 0)] :
      List ((CpyKind × Word) × (Nat × Nat × Nat))).all (fun x => cpySizes x.1.1 x.1.2 == some x.2) = true := by decide +kernel

/-- The numbers on both sides of 2^(1/2), of log2 3 and of the roots of 2 and of 4 in units of 1/1024, as bf16 rounds them. -/
theorem witness_RootsAndExponents : fmtBf16.Rounds ⟨.rne, false, false⟩ false (2 * 1448 - 1) (2 ^ 11) ⟨0x3FB5, 1⟩ ∧
    fmtBf16.Rounds ⟨.rne, false, false⟩ false (2 * 1448 + 3) (2 ^ 11) ⟨0x3FB5, 1⟩ ∧ fmtBf16.Rounds ⟨.rne, false, false⟩ false (2 * 1623 - 1) (2 ^ 11) ⟨0x3FCB, 1⟩ ∧
    fmtBf16.Rounds ⟨.rne, false, false⟩ false (2 * 1623 + 3) (2 ^ 11) ⟨0x3FCB, 1⟩ ∧
    (2 ^ 10 ≤ 1448 ∧ 1448 ^ 2 ≤ 2 * 4 ^ 10 ∧ 2 * 4 ^ 10 < 1449 ^ 2 ∧ 2048 ^ 2 = 4 * 4 ^ 10 ∧ (1 : Int) % 2 ^ 1 ≠ 0 ∧ 1448 ^ 2 ^ 1 ≤ 2 ^ 1 * 2 ^ (10 * 2 ^ 1) ∧
      2 ^ 1 * 2 ^ (10 * 2 ^ 1) < 1449 ^ 2 ^ 1 ∧ 1 * 2 ^ 1 = 1 * 2 ^ 1 ∧ 2 ^ 1623 ≤ 3 ^ 2 ^ 10 ∧ 3 ^ 2 ^ 10 < 2 ^ 1624) := by
  refine ⟨⟨181, 0, ?_⟩, ⟨181, 0, ?_⟩, ⟨203, 0, ?_⟩, ⟨203, 0, ?_⟩, ?_⟩
  · simp [roundedTo, fmtBf16]
  · simp [roundedTo, fmtBf16]
  · simp [roundedTo, fmtBf16]
  · simp [roundedTo, fmtBf16]
  · decide +kernel

/-- Sources of a conversion: a quiet and a signalling NaN, both infinities, a number; a zero, a subnormal and a normal number of each sign. -/
theorem witness_ConversionSources : ([0x7FC00000, 0x7F800001, 0x7F800000, 0xFF800000, 0x3F800000].map fun x => fmtF32.val false x) =
      [.nan false, .nan true, .inf false, .inf true, .fin false 0x800000 (-23)] ∧
    ([0x7E00, 0x7C01, 0x7C00, 0xFC00, 0, 0x8000, 1, 0x8001, 0x3C00, 0xBC00].all fun x => x < 2 ^ (1 + fmtF16.eb + fmtF16.fb)) = true := by decide +kernel

/-- No present element, one, two and all 64; a word of each kind on floating elements. -/
theorem witness_FloatingReductions :
    (([0, 1, 3, 0xFFFFFFFFFFFFFFFF] : List Word).map fun p => ((run fun t => t.setP 1 p).tile.present (qw (.nop .zero)) predHdr .f32 (.v 2)).length) = [0, 1, 2, 64] ∧
    (∀ i ∈ [Instr.rdadd predHdr ⟨.s 6, .v 2, .f32, .rne, false⟩, .rdmax predHdr ⟨.v 1, .v 2, .bf16, .rne, true⟩, .scan predHdr ⟨.v 1, .v 2, .f32, .add, .rne, false⟩,
      .scan predHdr ⟨.qo 1, .v 2, .f16, .min, .rne, true⟩, .scan predHdr ⟨.v 1, .v 2, .i8, .max, .rne, false⟩], QReady (qs .c i) .c i .always vecRes (qw i) []) :=
  ⟨by decide +kernel, qready_all (f := id) (by decide +kernel)⟩

/-- A basin of five distinct values whose first two are live, folded to four runs, and one of five live values; one whose live entries hold a NaN. -/
def basinOf (vals : List Nat) (live : Nat) : Basin :=
  { Basin.zero with
    count := BitVec.ofNat 13 vals.length, ty := .f32
    entry := BitVec.ofNat 131072 (vals.zipIdx.foldl (fun a x => a + x.1 * 2 ^ (32 * x.2)) 0)
    hist := BitVec.ofNat 131072 ((List.range live).foldl (fun a k => a + 2 ^ (32 * k)) 0), hb := true }
theorem witness_FoldBasin :
    (let v := [0x3F800000, 0x40000000, 0x40400000, 0x40800000, 0x40A00000];
      [((foldBasin (basinOf v 2) 4).outs.length, (foldBasin (basinOf v 5) 4).outs.length), ((foldBasin (basinOf (0x7FC00000 :: v) 3) 4).outs.length, (foldBasin (basinOf [] 0) 2).outs.length)] ==
        [(2, 4), (3, 0)]) = true := by decide +kernel

/-- Clamped counters and distances of the patina; a group that has lost a member, one of whose members has halted, and one that is whole. -/
theorem witness_PatinaAndLostMembers :
    (let p := (⟨[], [], []⟩ : Patina).layer (fun k => if k = 1 then 65535 else k) 4 0 1 3 0
      let q := (⟨[], [], []⟩ : Patina).layer (fun _ => 2) 4 1 2 9 2;
      [p.getCnt (fun _ => 9) 0, p.getCnt (fun _ => 9) 1, q.getCnt (fun _ => 2) 4, q.getCnt (fun _ => 2) 5, q.getCnt (fun _ => 2) 6] == [0, 0, 3, 3, 0]) = true ∧
    (let c := (run id).chip
      let f := c.updFence 1 fun f => { f with fenced := true }
      let m (t : TileId) (h : Bool) : Member := ⟨0, some t, 0, h⟩;
      [c.memberLost (m 1 false), f.memberLost (m 1 false), f.memberLost (m 1 true), ({ c with refLost := true } : Chip).memberLost (m 0 false), c.memberLost ⟨1, none, 0, false⟩] ==
        [false, true, false, true, true]) = true := by decide +kernel

/-- Results that two younger words precede, a promise that a younger word precedes, a result whose register the clk has read; a bind record with a bit of
TROOT's reserved fields; a heartbeat sent in this period and none; a launch being dispatched, with LOOSE and without. -/
theorem witness_LaterCases :
    (let x : Result := { result 1000 [.v 1 3 1] with id := 5 }
      let y : Result := { result 1000 [.v 1 1 0] with id := 6 }
      let t := (run fun t => { t with landClk := 1000, landed := [x, y] }).tile;
      t.landClk = 1000 ∧ t.landed = [x, y] ∧ (result 999 []).id < x.id ∧ x.id < y.id ∧ t.sramUe = [] ∧ t.landed.Pairwise (·.id ≤ ·.id)) ∧
    (let p : Promise := ⟨1000, .user, 2, 6, 9, some 2, 1, none⟩
      let x : Result := { result 1000 [.s 6 7] with id := 5 }
      let t := (run fun t => { t with promises := [p], landClk := 1000, landed := [x] }).tile;
      t.promises = [p] ∧ t.pipe = [] ∧ t.landed = [x] ∧ p.wid < x.id ∧ t.trap = none ∧ p.cause = none ∧ p.d ≠ 0) ∧
    (∀ b ∈ [true, false], (run fun t => t.updFrame fun f => { f with readClk := 1000, reads := if b then [.s 6] else [.s 5] }).tile.lateFor 1000 [.s 6] = b) ∧
    slotWord (vset (slot true 3 1) 4 0x1000000000000000) 4 &&& 0xF000F00000000000 ≠ 0 ∧ slotWord (slot true 3 1) 4 &&& 0xF000F00000000000 = 0 ∧
    (fencing fun f => { f with sent := 1 }).tile.fence.sent > periodOf 1000 ∧ (fencing id).tile.fence.sent ≤ periodOf 1000 ∧
    (∀ loose ∈ [false, true], let l := { Launch.empty 1 (List.replicate 16 0) none 0 with word0 := if loose then 0x40000000000 else 0 }
      ({ (run id).chip with launches := [l] } : Chip).looseLaunch (slotLaunch (slot true 3 1)) = loose) := by decide +kernel

end Sys2Proof.Tests
end

section
/-! SUPPORT. The system registers (R297, R298): what mfs and mts do at their split, the bits of RQSTAT, and the fields that a write
leaves standing. -/

namespace Sys2Proof.Machine

/-! ## A tile none of whose SRAM units has failed -/

/-- With no failing unit there is nothing to scrub, so what a word reads beside its registers does not matter. -/
theorem runReading_of_clean {eng : Nat} {h : Hdr} {us : Chip → SramUnit → Bool} {ws rs vs : List RegRef} {body : Nat → Chip → XDone}
    {now : Nat} {c : Chip} (hc : c.tile.sramUe = []) : runReading eng h us ws rs body now c = runX eng h vs ws rs body now c := by
  unfold runX runReading
  simp only [Chip.scrubRegs_clean _ _ _ hc]

theorem Tile.meetWrite_of_clean {t : Tile} (hc : t.sramUe = []) (whole part : SramUnit → Bool) : t.meetWrite whole part = t := by
  obtain ⟨⟩ := t
  cases hc
  rfl

theorem Tile.meetSys_of_clean {t : Tile} (hc : t.sramUe = []) (r : SysReg) : t.meetSys r = t := by
  unfold Tile.meetSys
  split <;> simp only [Tile.meetWrite_of_clean hc]

/-- What an X word does to its tile depends on the tile as the word finds it. -/
theorem State.splitNext_congr (s : State) (clk : Nat) {f g : Tile → Tile} (hfg : f s.chip.tile = g s.chip.tile) :
    s.splitNext clk f = s.splitNext clk g := by
  have ht : ({ s.chip with nextId := s.chip.nextId + 1 } : Chip).tile = s.chip.tile := rfl
  simp only [State.splitNext, State.splitTo, State.split, Chip.upd, ht, hfg]

/-! ## The mode check (R297) -/

theorem sysHandlerOnly_iff (r : SysReg) :
    sysHandlerOnly r = true ↔ r ∈ [SysReg.tcause, .tpc, .tepc, .tval, .tscr0, .tscr1, .rqstat, .tvrb, .troot] := by
  cases r <;> decide

/-! ## mfs (R298) -/

/-- mfs in its own effect. -/
def mfsBody (o : MfsOp) (_ : Nat) (c : Chip) : XDone :=
  if sysHandlerOnly o.reg ∧ c.tile.mode = .user then .trap c 3 0 none
  else if o.drain ∧ !c.tile.lcsDone then .hold
  else .go (c.upd fun t => t.setS o.d (t.readSys o.reg)) (c.tile.pc + 1) 1

section
variable {s : State} {h : Hdr} {o : MfsOp}

theorem exec_mfs_of_clean (hc : s.chip.tile.sramUe = []) : exec (.mfs h o) s = xword 7 h [] [.s o.d] [] (mfsBody o) s := by
  change s.lift _ = s.lift _
  rw [State.lift_eq, State.lift_eq, runReading_of_clean hc (vs := [])]
  rfl

theorem exec_mfs_hidden (hx : XReady s h [.s o.d] []) (hh : sysHandlerOnly o.reg ∧ s.chip.tile.mode = .user) :
    exec (.mfs h o) s = .next (s.splitTrap 7 3 0 id) := by
  rw [exec_mfs_of_clean hx.clean]
  exact xword_trap hx (if_pos hh)

theorem exec_mfs_holds (hx : XReady s h [.s o.d] []) (hh : ¬(sysHandlerOnly o.reg ∧ s.chip.tile.mode = .user))
    (hd : o.drain = true) (hn : s.chip.tile.lcsDone = false) : exec (.mfs h o) s = .next s := by
  rw [exec_mfs_of_clean hx.clean]
  exact xword_hold hx ((if_neg hh).trans (if_pos ⟨hd, by rw [hn]; rfl⟩))

theorem exec_mfs_reads (hx : XReady s h [.s o.d] []) (hh : ¬(sysHandlerOnly o.reg ∧ s.chip.tile.mode = .user))
    (hd : o.drain = false ∨ s.chip.tile.lcsDone = true) :
    exec (.mfs h o) s = .next (s.splitNext 1 fun t => t.setS o.d (s.chip.tile.readSys o.reg)) := by
  have hgo : ¬(o.drain ∧ !s.chip.tile.lcsDone) := by
    rintro ⟨hdrain, hnot⟩
    rcases hd with hd | hd
    · exact Bool.false_ne_true (hd.symm.trans hdrain)
    · simp only [hd, Bool.not_true, Bool.false_eq_true] at hnot
  have hrun : exec (.mfs h o) s = .next (s.splitNext 1 fun t => t.setS o.d (t.readSys o.reg)) := by
    rw [exec_mfs_of_clean hx.clean]
    exact xword_upd hx ((if_neg hh).trans (if_neg hgo))
  exact hrun.trans (congrArg Host.Outcome.next (s.splitNext_congr 1 rfl))

end

/-! ## RQSTAT -/

/-- Entry x.2 of the replay queue, where it is valid and f holds of it, added to a mask. -/
def orEntry (f : RqEntry → Bool) (a : BitVec 32) (x : Option RqEntry × Nat) : BitVec 32 :=
  match x.1 with
  | some e => if f e then a ||| (1#32 <<< x.2) else a
  | none => a

theorem getLsbD_orEntry (f : RqEntry → Bool) (a : BitVec 32) (x : Option RqEntry) (j k : Nat) (hk : k < 32) :
    (orEntry f a (x, j)).getLsbD k = (a.getLsbD k || (decide (k = j) && x.any f)) := by
  have hbit : (1#32 <<< j).getLsbD k = decide (k = j) := by
    rw [← BitVec.twoPow_eq, BitVec.getLsbD_twoPow]
    by_cases hjk : j = k
    · subst hjk
      rw [decide_eq_true hk, Bool.true_and]
    · rw [decide_eq_false hjk, decide_eq_false (Ne.symm hjk), Bool.and_false]
  cases x with
  | none => simp only [orEntry, Option.any_none, Bool.and_false, Bool.or_false]
  | some e =>
    by_cases hf : f e
    · simp only [orEntry, hf, if_true, BitVec.getLsbD_or, hbit, Option.any_some, Bool.and_true]
    · simp only [orEntry, hf, Bool.false_eq_true, if_false, Option.any_some, Bool.and_false, Bool.or_false]

/-- Bit k of the mask of a stretch of entries that begins at number j. -/
theorem getLsbD_foldl_orEntry (f : RqEntry → Bool) (l : List (Option RqEntry)) (j : Nat) (a : BitVec 32) (k : Nat) (hk : k < 32) :
    ((l.zipIdx j).foldl (orEntry f) a).getLsbD k = (a.getLsbD k || (decide (j ≤ k) && (l[k - j]?.getD none).any f)) := by
  induction l generalizing j a with
  | nil => simp only [List.zipIdx_nil, List.foldl_nil, List.getElem?_nil, Option.getD_none, Option.any_none, Bool.and_false, Bool.or_false]
  | cons x l ih =>
    rw [List.zipIdx_cons, List.foldl_cons, ih, getLsbD_orEntry f a x j k hk, Bool.or_assoc]
    congr 1
    rcases Nat.lt_trichotomy k j with hlt | rfl | hgt
    · simp only [show ¬k = j by omega, show ¬j ≤ k by omega, show ¬j + 1 ≤ k by omega, decide_false, Bool.false_and, Bool.or_false]
    · simp only [show ¬k + 1 ≤ k by omega, Nat.le_refl, Nat.sub_self, List.getElem?_cons_zero, Option.getD_some, decide_true, decide_false,
        Bool.true_and, Bool.false_and, Bool.or_false]
    · obtain ⟨i, rfl⟩ : ∃ i, k = j + 1 + i := ⟨k - (j + 1), by omega⟩
      simp only [show ¬j + 1 + i = j by omega, show j ≤ j + 1 + i by omega, show j + 1 ≤ j + 1 + i by omega,
        show j + 1 + i - j = i + 1 by omega, show j + 1 + i - (j + 1) = i by omega, List.getElem?_cons_succ, decide_true, decide_false,
        Bool.true_and, Bool.false_and, Bool.false_or]

/-- The mask of the valid entries of which f holds. -/
def Tile.rqMask (t : Tile) (f : RqEntry → Bool) : BitVec 32 := t.replay.toList.zipIdx.foldl (orEntry f) 0

theorem Tile.rqstat_eq (t : Tile) : t.rqstat = t.rqMask (·.dlv) ++ t.rqMask fun _ => true := rfl

theorem Tile.getLsbD_rqMask (t : Tile) (f : RqEntry → Bool) (n : BitVec 5) : (t.rqMask f).getLsbD n.toNat = (vget t.replay n).any f := by
  have hn : n.toNat < 32 := n.isLt
  have hget : t.replay.toList[n.toNat - 0]? = some (vget t.replay n) := by
    rw [Nat.sub_zero, Vector.getElem?_toList]
    exact Vector.getElem?_eq_getElem hn
  rw [Tile.rqMask, getLsbD_foldl_orEntry f _ 0 0 _ hn, hget, BitVec.ofNat_eq_ofNat, BitVec.getLsbD_zero, Bool.false_or,
    decide_eq_true (Nat.zero_le _), Bool.true_and, Option.getD_some]

theorem Tile.getLsbD_rqstat_val (t : Tile) (n : BitVec 5) : t.rqstat.getLsbD n.toNat = (vget t.replay n).isSome := by
  have hn : n.toNat < 32 := n.isLt
  rw [Tile.rqstat_eq, BitVec.getLsbD_append, if_pos hn, Tile.getLsbD_rqMask]
  cases vget t.replay n <;> rfl

theorem Tile.getLsbD_rqstat_dlv (t : Tile) (n : BitVec 5) : t.rqstat.getLsbD (32 + n.toNat) = (vget t.replay n).any (·.dlv) := by
  rw [Tile.rqstat_eq, BitVec.getLsbD_append, if_neg (by omega), Nat.add_sub_cancel_left, Tile.getLsbD_rqMask]

/-! ## mts (R298, R308) -/

theorem getLsbD_blend {n : Nat} (mask new old : BitVec n) {k : Nat} (hk : k < n) :
    (blend mask new old).getLsbD k = if mask.getLsbD k then new.getLsbD k else old.getLsbD k := by
  simp only [blend, BitVec.getLsbD_or, BitVec.getLsbD_and, BitVec.getLsbD_not, hk, decide_true, Bool.true_and]
  cases mask.getLsbD k
  · simp only [Bool.and_false, Bool.not_false, Bool.and_true, Bool.false_or, Bool.false_eq_true, if_false]
  · simp only [Bool.and_true, Bool.not_true, Bool.and_false, Bool.or_false, if_true]

/-- The RW bits of CST (R185). -/
theorem getLsbD_cstRw : ∀ k < 64, cstRw.getLsbD k ↔ k = 31 ∨ k = 63 := by decide

/-- All bits of PHCFG are RW but 62 to 60 (R308). -/
theorem getLsbD_phcfgRw : ∀ k < 64, phcfgRw.getLsbD k ↔ ¬(k = 60 ∨ k = 61 ∨ k = 62) := by decide

/-- The system registers after a write of one: fields marked RO keep their values (R5). -/
def SysRegs.written (y : SysRegs) (r : SysReg) (x : Word) : SysRegs :=
  match r with
  | .vflags => { y with vflags := x.setWidth 5 }
  | .vtrapen => { y with vtrapen := x.setWidth 5 }
  | .cst => { y with cst := blend cstRw x y.cst }
  | .epol => { y with uet := x.getLsbD 0 }
  | .phcfg => { y with phcfg := blend phcfgRw x y.phcfg }
  | .tpc => { y with tpc := x }
  | .tscr0 => { y with tscr0 := x }
  | .tscr1 => { y with tscr1 := x }
  | .tvrb => { y with tvrb := x.setWidth 5 }
  | .tcause | .tepc | .tval | .tvec | .rqstat | .troot => y

theorem Tile.writeSys_of_clean {t : Tile} (hc : t.sramUe = []) (r : SysReg) (x : Word) :
    t.writeSys r x = { t with sys := t.sys.written r x } := by
  unfold Tile.writeSys
  rw [Tile.meetSys_of_clean hc]
  cases r <;> rfl

/-- mts in its own effect. -/
def mtsBody (o : MtsOp) (_ : Nat) (c : Chip) : XDone :=
  if sysHandlerOnly o.reg ∧ c.tile.mode = .user then .trap c 3 0 none
  else if o.reg = .phcfg ∧ c.tile.phase.isSome then .trap c 2 0 none
  else .go (c.upd fun t => t.writeSys o.reg (t.getS o.a)) (c.tile.pc + 1) 1

section
variable {s : State} {h : Hdr} {o : MtsOp}

theorem exec_mts : exec (.mts h o) s = xword 7 h [.s o.a] [] [] (mtsBody o) s := rfl

theorem exec_mts_hidden (hx : XReady s h [] []) (hh : sysHandlerOnly o.reg ∧ s.chip.tile.mode = .user) :
    exec (.mts h o) s = .next (s.splitTrap 7 3 0 id) :=
  exec_mts.trans (xword_trap hx (if_pos hh))

theorem exec_mts_phcfg_in_phase (hx : XReady s h [] []) (hr : o.reg = .phcfg) (hp : s.chip.tile.phase ≠ none) :
    exec (.mts h o) s = .next (s.splitTrap 7 2 0 id) :=
  by
  have hboth : ¬(sysHandlerOnly o.reg ∧ s.chip.tile.mode = .user) := fun hh => by rw [hr] at hh; exact Bool.false_ne_true hh.1
  exact exec_mts.trans (xword_trap hx ((if_neg hboth).trans (if_pos ⟨hr, Option.isSome_iff_ne_none.mpr hp⟩)))

theorem exec_mts_writes (hx : XReady s h [] []) (hh : ¬(sysHandlerOnly o.reg ∧ s.chip.tile.mode = .user))
    (hp : ¬(o.reg = .phcfg ∧ s.chip.tile.phase ≠ none)) :
    exec (.mts h o) s =
      .next (s.splitNext 1 fun t => { t with sys := s.chip.tile.sys.written o.reg (s.chip.tile.getS o.a) }) := by
  rw [← Option.isSome_iff_ne_none] at hp
  calc exec (.mts h o) s
      = .next (s.splitNext 1 fun t => t.writeSys o.reg (t.getS o.a)) := exec_mts.trans (xword_upd hx ((if_neg hh).trans (if_neg hp)))
    _ = _ := congrArg Host.Outcome.next (s.splitNext_congr 1 (Tile.writeSys_of_clean hx.clean _ _))

end

/-! ## The statement (R297, R298, R302) -/

/-- Settles O22: the mode check, the drain and the write come from mfs and mts in their own effect; RQSTAT is read bit by bit, and the
written CST and PHCFG by the bits of their masks. -/
theorem systemRegistersReadAndWrite : Obligations.SystemRegistersReadAndWrite := by
  refine ⟨fun s h o hx => ?_, fun s h o hx => ?_⟩ <;> dsimp only [State.tile] <;> rw [← sysHandlerOnly_iff]
  · refine ⟨exec_mfs_hidden hx, exec_mfs_holds hx, fun hh hd => ⟨_, exec_mfs_reads hx hh hd, ?_⟩⟩
    obtain ⟨d, reg, drain⟩ := o
    cases reg with
    | rqstat =>
      refine fun n => ⟨s.chip.tile.getLsbD_rqstat_val n, (s.chip.tile.getLsbD_rqstat_dlv n).trans ?_⟩
      cases vget s.chip.tile.replay n <;> rfl
    | vflags | vtrapen | cst | epol | phcfg | tcause | tpc | tepc | tval | tvec | tscr0 | tscr1 | tvrb | troot => rfl
  · refine ⟨exec_mts_hidden hx, exec_mts_phcfg_in_phase hx, fun hh hp => ?_⟩
    have hw := exec_mts_writes hx hh hp
    obtain ⟨reg, a⟩ := o
    cases reg with
    | cst => exact ⟨_, hw, fun k hk => (getLsbD_blend _ _ _ hk).trans (by simp only [getLsbD_cstRw k hk])⟩
    | phcfg => exact ⟨_, hw, fun k hk => (getLsbD_blend _ _ _ hk).trans (by simp only [getLsbD_phcfgRw k hk, ite_not])⟩
    | tcause | tepc | tval | tvec | rqstat | troot => exact hw.trans (congrArg Host.Outcome.next (s.splitNext_congr 1 rfl))
    | vflags | vtrapen | epol | tpc | tscr0 | tscr1 | tvrb => exact hw

end Sys2Proof.Machine
end

section
/-! SUPPORT. Registers of every kind read back after a write, and memories in their canonical form that read alike (R10, R58). -/

namespace Sys2Proof.Machine

/-! ## Ring and codebook registers (R161, R270) -/

@[simp] theorem Tile.getG_setG_same (t : Tile) (n : GReg) (x : RingReg) : (t.setG n x).getG n = x := by simp [Tile.getG, Tile.setG]
theorem Tile.getG_setG_other (t : Tile) (n m : GReg) (x : RingReg) (h : m ≠ n) : (t.setG n x).getG m = t.getG m := by
  simp [Tile.getG, Tile.setG, vget_vset_other _ _ _ _ h]
@[simp] theorem Tile.getCb_setCb_same (t : Tile) (n : CReg) (x : Codebook) : (t.setCb n x).getCb n = x := by simp [Tile.getCb, Tile.setCb]
theorem Tile.getCb_setCb_other (t : Tile) (n m : CReg) (x : Codebook) (h : m ≠ n) : (t.setCb n x).getCb m = t.getCb m := by
  simp [Tile.getCb, Tile.setCb, vget_vset_other _ _ _ _ h]

/-! ## A write to one register file leaves the others -/

theorem Tile.setS_regs_frame (t : Tile) (n : SReg) (x : Word) : (t.setS n x).regs = { t.regs with s := (t.setS n x).regs.s } := by
  unfold Tile.setS; split <;> rfl
theorem Tile.setP_regs_frame (t : Tile) (n : PReg) (x : Word) : (t.setP n x).regs = { t.regs with p := (t.setP n x).regs.p } := by
  unfold Tile.setP; split <;> rfl

/-! ## Memory -/

/-- What was written reads back. -/
theorem Memory.read_write {m : Memory} (h : m.wf = true) (a : Nat) (bs : List Byte) : (m.write a bs).read a bs.length = bs :=
  List.ext_getElem (Memory.length_read ..) fun i _ hi => by
    rw [Memory.getElem_read _ _ _ _ hi, Memory.get_write_at h a bs i hi]

theorem Memory.get_cons_same (k : Nat) (b : Byte) (r : Memory) : Memory.get ((k, b) :: r) k = b := if_pos rfl

/-- Of a canonical memory the first key is the least that reads as a byte that something has written. -/
theorem Memory.first_key_le {k j : Nat} {b c : Byte} {r q : Memory} (hm : Memory.wf ((k, b) :: r) = true)
    (h : ∀ a, Memory.get ((k, b) :: r) a = Memory.get ((j, c) :: q) a) : j ≤ k := by
  refine Nat.not_lt.mp fun hlt => ?_
  obtain ⟨hb, -, -⟩ := Memory.wf_cons.mp hm
  have hk := h k
  rw [Memory.get_cons_same, Memory.get, if_neg (by omega), if_pos (by omega)] at hk
  exact hb hk

/-- A canonical memory that reads as memory that nothing has written is empty. -/
theorem Memory.eq_nil_of_get {m : Memory} (hm : m.wf = true) (h : ∀ a, m.get a = Config.ramByte) : m = [] := by
  cases m with
  | nil => rfl
  | cons x r => exact absurd ((Memory.get_cons_same x.1 x.2 r).symm.trans (h x.1)) (Memory.wf_cons.mp hm).1

/-- Behind the first key a tail reads as the whole; at it and below, as memory that nothing has written. -/
theorem Memory.get_tail {k : Nat} {b : Byte} {r : Memory} (hm : Memory.wf ((k, b) :: r) = true) (a : Nat) :
    Memory.get r a = if a ≤ k then Config.ramByte else Memory.get ((k, b) :: r) a := by
  obtain ⟨-, ha, -⟩ := Memory.wf_cons.mp hm
  split
  · exact Memory.get_above ha ‹_›
  · rw [Memory.get, if_neg (by omega), if_neg (by omega)]

/-- The form is canonical: what reads alike is one memory. -/
theorem Memory.eq_of_get {m m' : Memory} (hm : m.wf = true) (hm' : m'.wf = true) (h : ∀ a, m.get a = m'.get a) : m = m' := by
  induction m generalizing m' with
  | nil => exact (Memory.eq_nil_of_get hm' fun a => (h a).symm).symm
  | cons x r ih =>
    cases m' with
    | nil => exact Memory.eq_nil_of_get hm h
    | cons y q =>
      obtain ⟨k, b⟩ := x
      obtain ⟨j, c⟩ := y
      obtain rfl : k = j := Nat.le_antisymm (Memory.first_key_le hm' fun a => (h a).symm) (Memory.first_key_le hm h)
      have hbc : b = c := by rw [← Memory.get_cons_same k b r, h, Memory.get_cons_same]
      have hrq : r = q := ih (Memory.wf_tail hm) (Memory.wf_tail hm') fun a => by rw [Memory.get_tail hm, Memory.get_tail hm', h]
      rw [hbc, hrq]

/-! ## Tiles by cluster and rank (R10) -/

theorem tileOfRank_of_parts (n : TileId) : tileOfRank (tileCluster n) (tileRank n) = n := by revert n; decide

theorem parts_of_tileOfRank (k : BitVec 5) (r : BitVec 3) : tileCluster (tileOfRank k r) = k ∧ tileRank (tileOfRank k r) = r := by
  revert k r; decide

/-! ## The statement -/

/-- Settles O10: each register kind by its read-back lemmas and its frame, memory by the laws of its canonical form. -/
theorem registersAndMemoryReadBack : Obligations.RegistersAndMemoryReadBack := by
  refine ⟨fun t n m p q x => ?_, fun t n m x => ?_, fun t n m x => ?_, fun t n m x => ?_, fun t n m x => ?_, fun t x k => ⟨rfl, rfl⟩,
    fun m a bs h => ?_, fun m m' => Memory.eq_of_get, tileOfRank_of_parts, parts_of_tileOfRank⟩
  · exact ⟨t.getS_zero, t.setS_zero x, t.getS_setS_same n x, t.getS_setS_other n m x, t.getP_zero, t.setP_zero x, t.getP_setP_same p x,
      t.getP_setP_other p q x, t.setS_regs_frame n x, t.setP_regs_frame p x⟩
  · exact ⟨t.getV_setV_same n x, t.getV_setV_other n m x, rfl⟩
  · exact ⟨t.getA_setA_same n x, t.getA_setA_other n m x, rfl⟩
  · exact ⟨t.getG_setG_same n x, t.getG_setG_other n m x, rfl⟩
  · exact ⟨t.getCb_setCb_same n x, t.getCb_setCb_other n m x, rfl⟩
  · exact ⟨Memory.wf_write h a bs, Memory.read_write h a bs, Memory.get_write_other h a bs⟩

end Sys2Proof.Machine
end

section
/-! SUPPORT. movs and the special registers that it reads, field by field (R11, R87). -/

namespace Sys2Proof.Machine

/-- movs in its own effect: the special register as it stands at the split. -/
theorem exec_movs {s : State} {h : Hdr} {d : SReg} {r : SpecReg} (hx : XReady s h [.s d] []) :
    exec (.movs h d r) s = .next (s.splitNext 1 fun t => t.setS d (specReg s.clk s.chip r)) := xword_upd hx rfl

/-- TILE in its fields (R11). -/
theorem tileWord_fields (c : Chip) : (tileWord c).extractLsb' 0 8 = c.focus ∧ (tileWord c).extractLsb' 8 3 = tileRank c.focus ∧
    (tileWord c).extractLsb' 11 5 = tileCluster c.focus ∧ (tileWord c).extractLsb' 16 21 = 0#21 ∧
    (tileWord c).extractLsb' 37 8 = c.member ∧ (tileWord c).extractLsb' 45 19 = c.modnum := by
  unfold tileWord
  generalize tileRank c.focus = r
  generalize tileCluster c.focus = k
  refine ⟨?_, ?_, ?_, ?_, ?_, ?_⟩ <;> ext i hi <;> simp <;> grind

theorem loopst_of_no_loop {t : Tile} (h : t.frame.loops.getLast? = none) : loopst t = 0 := by
  simp only [loopst, Tile.innermost, h]

/-- LOOPST in its fields: the number of frames, and DRAIN and I of the innermost one. -/
theorem loopst_fields {t : Tile} {f : LoopFrame} (h : t.frame.loops.getLast? = some f) :
    (loopst t).extractLsb' 0 3 = BitVec.ofNat 3 t.frame.loops.length ∧ (loopst t).extractLsb' 3 2 = f.drain ∧
    (loopst t).getLsbD 5 = f.i ∧ loopst t >>> 6 = 0 := by
  simp only [loopst, Tile.innermost, h]
  generalize BitVec.ofNat 3 t.frame.loops.length = n
  refine ⟨?_, ?_, ?_, ?_⟩
  · ext i hi
    simp <;> grind
  · ext i hi
    simp <;> grind
  · simp <;> grind
  · ext i hi
    simp

/-- A sum of the powers of two that a predicate admits has their bits. -/
theorem testBit_foldl_two_pow (p : Nat → Prop) [DecidablePred p] (n k : Nat) :
    ((List.range n).foldl (fun a k => if p k then a + 2 ^ k else a) 0).testBit k = decide (k < n ∧ p k) := by
  have hlt : ∀ n, (List.range n).foldl (fun a k => if p k then a + 2 ^ k else a) 0 < 2 ^ n := fun n => by
    induction n with
    | zero => simp
    | succ n ih =>
      rw [List.range_succ, List.foldl_append, List.foldl_cons, List.foldl_nil, Nat.pow_succ]
      split <;> omega
  induction n with
  | zero => simp
  | succ n ih =>
    rw [List.range_succ, List.foldl_append, List.foldl_cons, List.foldl_nil]
    have hn := hlt n
    by_cases hp : p n
    · rw [if_pos hp, Nat.add_comm]
      rcases Nat.lt_trichotomy k n with h | rfl | h
      · rw [Nat.testBit_two_pow_add_gt h, ih]; simp [h, Nat.lt_succ_of_lt h]
      · rw [Nat.testBit_two_pow_add_eq, Nat.testBit_lt_two_pow hn]; simp [hp]
      · rw [Nat.testBit_lt_two_pow (Nat.lt_of_lt_of_le (by omega) (Nat.pow_le_pow_right Nat.two_pos h))]
        simp <;> omega
    · rw [if_neg hp, ih]
      have : k = n → ¬p k := fun h => h ▸ hp
      simp <;> grind

/-- TAGS bit by bit: the tags 1 to 7 that are pending. -/
theorem getLsbD_tagsWord (t : Tile) (k : Nat) (hk : k < 64) :
    (tagsWord t).getLsbD k = (decide (1 ≤ k ∧ k < 8) && (vget t.frame.tags (BitVec.ofNat 3 k)).isSome) := by
  rw [tagsWord, BitVec.getLsbD_ofNat, testBit_foldl_two_pow fun k => k ≠ 0 ∧ (vget t.frame.tags (BitVec.ofNat 3 k)).isSome,
    decide_eq_true hk, Bool.true_and, Bool.eq_iff_iff]
  simp only [Bool.and_eq_true, decide_eq_true_eq, Nat.one_le_iff_ne_zero]
  exact ⟨fun ⟨hk8, hk0, ht⟩ => ⟨⟨hk0, hk8⟩, ht⟩, fun ⟨⟨hk0, hk8⟩, ht⟩ => ⟨hk8, hk0, ht⟩⟩

/-- Settles O13: movs writes the special register as specReg holds it, and each is read in its fields. -/
theorem specialRegistersRead : Obligations.SpecialRegistersRead := by
  intro s h d r hx
  refine ⟨_, exec_movs hx, ?_⟩
  cases r with
  | tile => exact tileWord_fields s.chip
  | loopst =>
    cases hl : s.chip.tile.frame.loops.getLast? with
    | none => simpa only [State.tile, specReg, hl] using loopst_of_no_loop hl
    | some f => simpa only [State.tile, specReg, hl] using loopst_fields hl
  | lleft =>
    cases hl : s.chip.tile.frame.loops.getLast? <;> simp only [State.tile, specReg, Tile.innermost, hl]
  | tags => exact fun k hk => getLsbD_tagsWord s.chip.tile k hk
  | cyc | iter0 | iter1 | iter2 | iter3 | iter4 | iter5 | vrb | launch | wave | pcnow => rfl

end Sys2Proof.Machine
end

section
/-! SUPPORT. Bytes and the values that they spell, dies and their banks, lines written and read where no line has failed. -/

namespace Sys2Proof.Machine

/-- Equal modules make equal states. -/
theorem State.next_congr {s : State} {c c' : Chip} (h : c = c') : (.next (s.withChip c) : Out) = .next (s.withChip c') :=
  congrArg (fun c => Host.Outcome.next (s.withChip c)) h

/-! ## Bytes (R1) -/

@[simp] theorem length_toBytes {k : Nat} (n : Nat) (x : BitVec k) : (toBytes n x).length = n := by simp [toBytes]

/-- Bit i of the value of bytes is bit i mod 8 of byte i / 8. -/
theorem getLsbD_ofBytes (k : Nat) (l : List Byte) (i : Nat) :
    (ofBytes k l).getLsbD i = (decide (i < k) && (l.getD (i / 8) 0).getLsbD (i % 8)) := by
  induction l generalizing i with
  | nil => simp [ofBytes]
  | cons b r ih =>
    rw [ofBytes, BitVec.getLsbD_or, BitVec.getLsbD_setWidth, BitVec.getLsbD_shiftLeft, ih]
    by_cases h : i < 8
    · simp [h, Nat.div_eq_of_lt h, Nat.mod_eq_of_lt h]
    · obtain ⟨j, rfl⟩ := Nat.exists_eq_add_of_le' (Nat.le_of_not_lt h)
      have hj : j + 8 < k → j < k := by omega
      by_cases hk : j + 8 < k <;> simp [hk, hj]

/-- The bytes of a value spell it. -/
theorem ofBytes_toBytes {k : Nat} (n : Nat) (x : BitVec k) (h : k ≤ 8 * n) : ofBytes k (toBytes n x) = x := by
  ext i hi
  rw [← BitVec.getLsbD_eq_getElem, getLsbD_ofBytes, ← BitVec.getLsbD_eq_getElem]
  have hn : i / 8 < n := by omega
  simp [toBytes, hn, hi, Nat.mod_lt, Nat.div_add_mod]

/-- A narrower value of the same bytes. -/
theorem setWidth_ofBytes {j k : Nat} (h : j ≤ k) (l : List Byte) : (ofBytes k l).setWidth j = ofBytes j l := by
  ext i hi
  rw [← BitVec.getLsbD_eq_getElem, ← BitVec.getLsbD_eq_getElem, BitVec.getLsbD_setWidth, getLsbD_ofBytes, getLsbD_ofBytes]
  have : i < k := by omega
  simp [hi, this]

/-! ## Dies -/

@[simp] theorem Chip.die_updDie_same (c : Chip) (d : Bool) (f : Die → Die) : (c.updDie d f).die d = f (c.die d) := by cases d <;> rfl
theorem Chip.updDie_congr {c : Chip} {d : Bool} {f g : Die → Die} (h : f (c.die d) = g (c.die d)) : c.updDie d f = c.updDie d g := by
  cases d with
  | false => exact congrArg (fun x => ({ c with die0 := x } : Chip)) h
  | true => exact congrArg (fun x => ({ c with die1 := x } : Chip)) h
theorem Chip.updDie_same {c : Chip} {d : Bool} {f : Die → Die} (h : f (c.die d) = c.die d) : c.updDie d f = c :=
  (Chip.updDie_congr (g := id) h).trans (by cases d <;> rfl)
@[simp] theorem Chip.updDie_mem (c : Chip) (d : Bool) (f : Die → Die) : (c.updDie d f).mem = c.mem := by cases d <;> rfl

/-! ## Error banks (R339) -/

@[simp] theorem getBank_setBank_same (l : List (Nat × Bank)) (n : Nat) (b : Bank) : getBank (setBank l n b) n = b := by
  simp [getBank, setBank]

theorem getBank_setBank_other (l : List (Nat × Bank)) {n m : Nat} (b : Bank) (h : m ≠ n) : getBank (setBank l n b) m = getBank l m := by
  have hf : (l.filter fun x => x.1 != n).find? (fun x => x.1 == m) = l.find? fun x => x.1 == m := by
    rw [List.find?_filter]
    congr 1; funext x
    by_cases hx : x.1 = m <;> simp [hx, h]
  simp [getBank, setBank, hf, Ne.symm h]

/-! ## Lines (R111, R337) -/

@[simp] theorem Chip.wakeLine_mem (c : Chip) (line : Nat) : (c.wakeLine line).mem = c.mem := by
  unfold Chip.wakeLine
  extract_lets m
  split
  · rfl
  · refine List.foldlRecOn (motive := fun x : Chip => x.mem = c.mem) _ _ rfl fun x hx k _ => ?_
    split <;> exact hx

@[simp] theorem Chip.lineWritten_mem (c : Chip) (line : Nat) : (c.lineWritten line).mem = c.mem := by
  unfold Chip.lineWritten
  split
  · rfl
  · exact c.wakeLine_mem line

theorem Chip.foldl_lineWritten_mem (ls : List Nat) (c : Chip) : (ls.foldl Chip.lineWritten c).mem = c.mem :=
  List.foldlRecOn (motive := fun x : Chip => x.mem = c.mem) _ _ rfl fun x hx l _ => (x.lineWritten_mem l).trans hx

/-- Where no line has failed, the search for failing lines finds none. -/
theorem foldl_noFailing (g : Chip → Nat → Chip) (ls : List Nat) {c : Chip} (hc : c.ueLines = []) :
    ls.foldl (fun (c : Chip) l => if c.ueLines.contains l then g c l else c) c = c := by
  induction ls with
  | nil => rfl
  | cons l r ih => simpa [hc] using ih

theorem Chip.unitRead_of_clean {c : Chip} (hc : c.ueLines = []) (pa : BitVec 56) (n : Nat) : c.unitRead pa n = (c, c.mem.read (c.key pa) n) := by
  simp only [Chip.unitRead, foldl_noFailing _ _ hc]

theorem Chip.writeMem_mem_of_clean {c : Chip} (hc : c.ueLines = []) (req : TileId) (k : Nat) (bs : List Byte) :
    (c.writeMem req k bs).mem = c.mem.write k bs := by
  simp only [Chip.writeMem, foldl_noFailing _ _ hc, Chip.foldl_lineWritten_mem]

/-- An offset of the module's own HBM is its own key. -/
theorem Chip.key_own (c : Chip) (o : BitVec 40) : c.key (c.member ++ BitVec.ofNat 48 o.toNat) = o.toNat := by
  have hm : (c.member ++ BitVec.ofNat 48 o.toNat).extractLsb' 48 8 = c.member := by
    rw [BitVec.extractLsb'_append_eq_of_le (by omega)]; simp
  have ho : ((c.member ++ BitVec.ofNat 48 o.toNat).extractLsb' 0 48).toNat = o.toNat := by
    rw [BitVec.extractLsb'_append_eq_of_add_le (by omega)]; simp <;> omega
  simp only [Chip.key, hm, ho, if_true]

end Sys2Proof.Machine
end

section
/-! SUPPORT. The management map (R340, R345, R351, R357, R360, R363, R364): its registers with a step of their own, translation
invalidations, BAR2. -/

namespace Sys2Proof.Machine

/-! ## Counts that a read clears (R5, R345, R351) -/

theorem Chip.readReg_orphcnt (c : Chip) (now : Nat) (d : Bool) :
    c.readReg now (BitVec.ofBool d ++ 0x310408#31) = (c.die d).orphcnt.setWidth 64 := by
  have hd : (BitVec.ofBool d ++ 0x310408#31).getLsbD 31 = d := by cases d <;> rfl
  have ho : ((BitVec.ofBool d ++ 0x310408#31).setWidth 31).toNat = 0x310408 := by cases d <;> rfl
  simp only [Chip.readReg, hd, ho]
  simp [bankLimit]

theorem Chip.readReg_bclost (c : Chip) (now : Nat) (d : Bool) :
    c.readReg now (BitVec.ofBool d ++ 0x300038#31) = (c.die d).bclost.setWidth 64 := by
  have hd : (BitVec.ofBool d ++ 0x300038#31).getLsbD 31 = d := by cases d <;> rfl
  have ho : ((BitVec.ofBool d ++ 0x300038#31).setWidth 31).toNat = 0x300038 := by cases d <;> rfl
  simp only [Chip.readReg, hd, ho]
  simp [bankLimit, Die.readMemory]

/-- An answer and a change of a die, in either order. -/
theorem Chip.updDie_answer (c : Chip) (d : Bool) (f : Die → Die) (a : List Byte) :
    ({ c with answer := a } : Chip).updDie d f = { c.updDie d f with answer := a } := by cases d <;> rfl

/-- The count is the answer, and clears. -/
theorem exec_orphcntRead (s : State) (d : Bool) : exec (.orphcntRead d) s = .next (s.withChip
    { s.chip.updDie d (fun x => { x with orphcnt := 0 }) with answer := toBytes 8 ((s.chip.die d).orphcnt.setWidth 64 : Word) }) := by
  rw [← s.chip.readReg_orphcnt s.clk, ← Chip.updDie_answer]; rfl

theorem exec_bclostRead (s : State) (d : Bool) : exec (.bclostRead d) s = .next (s.withChip
    { s.chip.updDie d (fun x => { x with bclost := 0 }) with answer := toBytes 8 ((s.chip.die d).bclost.setWidth 64 : Word) }) := by
  rw [← s.chip.readReg_bclost s.clk, ← Chip.updDie_answer]; rfl

/-! ## Error banks (R340) -/

theorem Chip.writeBank_beyond (c : Chip) (d : Bool) {n : Nat} (val : Word) (h : 1553 ≤ n) : c.writeBank d n val = c := if_pos h

/-- A write to BSTAT in its bank's fields; the other banks stand. -/
theorem Chip.getBank_writeBank (c : Chip) (d : Bool) {n : Nat} (val : Word) (h : n < 1553) :
    getBank ((c.writeBank d n val).die d).banks n = (getBank (c.die d).banks n).write val ∧
    ∀ m, m ≠ n → getBank ((c.writeBank d n val).die d).banks m = getBank (c.die d).banks m := by
  rw [Chip.writeBank, if_neg (Nat.not_le.mpr h : ¬bankLimit ≤ n), Chip.die_updDie_same]
  exact ⟨getBank_setBank_same .., fun m hm => getBank_setBank_other _ _ hm⟩

theorem Bank.write_fields (b : Bank) (val : Word) :
    (b.write val).count = val.extractLsb' 0 32 ∧ (b.write val).ovf = (b.ovf && !val.getLsbD 61) ∧ (b.write val).v = (b.v && !val.getLsbD 63) ∧
    (val.getLsbD 63 = false → (b.write val).ue = b.ue ∧ (b.write val).kind = b.kind ∧ (b.write val).addr = b.addr ∧
      (b.write val).synd = b.synd ∧ (b.write val).tnum = b.tnum ∧ (b.write val).code = b.code) := by
  unfold Bank.write
  cases val.getLsbD 63 <;> simp [bits, Bank.zero]

/-! ## MEMBERCFG and queue pairs (R360, R363) -/

theorem Chip.writeMember_ignored {c : Chip} {val : Word} (h : c.lock = true ∨ c.anyBound = true ∨ 192 ≤ (val.extractLsb' 37 8).toNat) :
    c.writeMember val = c := by
  rw [← or_assoc] at h
  exact if_pos (by simp only [Bool.or_eq_true, decide_eq_true_eq]; exact h)

theorem Chip.writeMember_taken {c : Chip} {val : Word} (hl : c.lock = false) (hb : c.anyBound = false) (hm : (val.extractLsb' 37 8).toNat < 192) :
    c.writeMember val = { c with modnum := val.extractLsb' 45 19, member := val.extractLsb' 37 8, lock := val.getLsbD 0 } :=
  if_neg (by simp only [hl, hb, Bool.false_or, decide_eq_true_eq, Nat.not_le]; exact hm)

theorem QPair.writeEn_eq (q : QPair) (val : Word) : q.writeEn val =
    if q.en then { q with en := val.getLsbD 0 }
    else { q with lqbase := val.extractLsb' 7 49, en := val.getLsbD 0 && decide (4 ≤ q.q.toNat ∧ q.q.toNat ≤ 16), pidx := 0, seen := [] } := by
  rw [QPair.writeEn, Bool.decide_and, Bool.and_assoc]; rfl

/-! ## Translation control (R364) -/

theorem Inval.removes_iff (x : Inval) (e : Tlb) : x.removes e = true ↔
    (match e.asid with | none => x.glb = true | some a => x.all = true ∨ a = x.asid) ∧
    (x.pages = 0 ∨ (e.base < (x.va.toNat + x.pages.toNat) * 65536 ∧ x.va.toNat * 65536 < e.base + pageBytes e.level)) := by
  unfold Inval.removes rangesMeet
  cases e.asid <;> simp [Nat.add_mul]

/-- An invalidation starts on a die, or stands last behind the one in progress. -/
theorem Die.invalidate_fields (x : Die) (v : Inval) :
    (x.inval = none → (x.invalidate v).inval = some v ∧ (x.invalidate v).waiting = x.waiting) ∧
    (x.inval ≠ none → (x.invalidate v).inval = x.inval ∧ (x.invalidate v).waiting = x.waiting ++ [v]) := by
  unfold Die.invalidate
  cases x.inval <;> simp

theorem Die.invalidate_busy (x : Die) (v : Inval) : (x.invalidate v).inval.isSome = true := by
  unfold Die.invalidate
  cases x.inval <;> simp

/-- The fields that a write to TINVC leaves in its die. -/
def Die.tinvcFields (x : Die) (val : Word) : Die := { x with glb := val.getLsbD 17, all := val.getLsbD 16, asid := val.extractLsb' 0 12 }

theorem Chip.writeTinvc_idle {c : Chip} {d : Bool} {val : Word} (h : val.getLsbD 63 = false) :
    c.writeTinvc d val = c.updDie d fun x => x.tinvcFields val := by
  simp only [Chip.writeTinvc, h]; rfl

/-- With GO the invalidation begins on both dies, or waits there. -/
theorem Chip.writeTinvc_go {c : Chip} {d : Bool} {val : Word} (h : val.getLsbD 63 = true) :
    let v : Inval := ⟨(c.die d).tinva, (c.die d).tinvl, val.getLsbD 17, val.getLsbD 16, val.extractLsb' 0 12⟩
    let c' := c.writeTinvc d val
    c'.invalBusy = true ∧ c'.mem = c.mem ∧
      ∀ b, ((c.die b).inval = none → (c'.die b).inval = some v ∧ (c'.die b).waiting = (c.die b).waiting) ∧
        ((c.die b).inval ≠ none → (c'.die b).inval = (c.die b).inval ∧ (c'.die b).waiting = (c.die b).waiting ++ [v]) := by
  intro v c'
  let c1 := c.updDie d fun x => x.tinvcFields val
  have hc' : c' = { c1 with die0 := c1.die0.invalidate v, die1 := c1.die1.invalidate v } := by
    simp only [c', Chip.writeTinvc, h, if_true, Chip.die_updDie_same]; rfl
  have hinval : ∀ b, (c1.die b).inval = (c.die b).inval := by cases d <;> rintro (_ | _) <;> rfl
  have hwaiting : ∀ b, (c1.die b).waiting = (c.die b).waiting := by cases d <;> rintro (_ | _) <;> rfl
  have hdie : ∀ b, c'.die b = (c1.die b).invalidate v := by rw [hc']; rintro (_ | _) <;> rfl
  refine ⟨?_, ?_, fun b => ?_⟩
  · rw [hc']
    exact Bool.or_eq_true_iff.mpr (.inl (c1.die0.invalidate_busy v))
  · rw [hc']
    exact Chip.updDie_mem ..
  · rw [hdie, ← hinval, ← hwaiting]
    exact (c1.die b).invalidate_fields v

theorem exec_invalidationComplete_idle {s : State} {d : Bool} (h : (s.chip.die d).inval = none) :
    exec (.invalidationComplete d) s = .next (s.withChip s.chip) :=
  State.next_congr (Chip.updDie_same (by simp only [h]))

/-- The removals of the invalidation in progress are done, and the next one begins. -/
theorem exec_invalidationComplete {s : State} {d : Bool} {v : Inval} (h : (s.chip.die d).inval = some v) :
    exec (.invalidationComplete d) s = .next (s.withChip (s.chip.updDie d fun x =>
      { x with tlb := x.tlb.filter fun e => !v.removes e, inval := x.waiting.head?, waiting := x.waiting.tail })) :=
  State.next_congr (Chip.updDie_congr (by simp only [h]))

/-- The translations that stand after an invalidation are those that it does not remove. -/
theorem Inval.mem_filter_removes {v : Inval} {l : List Tlb} {e : Tlb} : e ∈ (l.filter fun e => !v.removes e) ↔ e ∈ l ∧
    ¬((match e.asid with | none => v.glb = true | some a => v.all = true ∨ a = v.asid) ∧
      (v.pages = 0 ∨ (e.base < (v.va.toNat + v.pages.toNat) * 65536 ∧ v.va.toNat * 65536 < e.base + pageBytes e.level))) := by
  rw [List.mem_filter, ← v.removes_iff, Bool.not_eq_true', Bool.not_eq_true]

end Sys2Proof.Machine
end

section
/-! SUPPORT. BAR2, register writes, the fabric's ports (R331, R357, R358, R365). -/

namespace Sys2Proof.Machine

/-! ## BAR2 (R357) -/

/-- Where no block is lost, no line waits for one. -/
theorem Chip.noBlockLost {c : Chip} (h : c.ueBlocks = []) (ls : List Nat) : (ls.any fun l => c.ueBlocks.contains (l / 8)) = false := by
  simp [h]

/-- A read of BAR2 where nothing has failed: what lies in the HBM, all ones beyond it. -/
theorem exec_bar2Access_read {s : State} (hb : s.chip.ueBlocks = []) (hl : s.chip.ueLines = []) (off : BitVec 40) (len : Nat) :
    let here := min len (Config.hbmBytes - off.toNat)
    exec (.bar2Access off (.read len)) s = .next (s.withChip
      { s.chip with answer := s.chip.mem.read off.toNat here ++ List.replicate (len - here) 0xFF }) := by
  simp only [exec, execBar2Access, State.lift_eq, Chip.noBlockLost hb, Bool.false_eq_true, if_false, Chip.unitRead_of_clean hl, Chip.key_own]
  rfl

theorem exec_bar2Access_write {s : State} (hb : s.chip.ueBlocks = []) (off : BitVec 40) (data : List Byte) :
    let here := min data.length (Config.hbmBytes - off.toNat)
    exec (.bar2Access off (.write data)) s = .next (s.withChip
      (if here = 0 then s.chip else s.chip.writeMem 0 off.toNat (data.take here))) := by
  simp only [exec, execBar2Access, State.lift_eq, Chip.noBlockLost hb, Bool.false_eq_true, if_false]
  rfl

/-- A write to BAR2 leaves its bytes in the HBM, none beyond it, and no other byte. -/
theorem exec_bar2Access_write_mem {s : State} (hb : s.chip.ueBlocks = []) (hl : s.chip.ueLines = []) (hm : s.memOk) (off : BitVec 40)
    (data : List Byte) : let o := off.toNat
    ∃ c', exec (.bar2Access off (.write data)) s = .next (s.withChip c') ∧
      (∀ j < data.length, o + j < Config.hbmBytes → c'.mem.get (o + j) = data.getD j 0) ∧
      ∀ x, x < o ∨ o + data.length ≤ x ∨ Config.hbmBytes ≤ x → c'.mem.get x = s.byteAt x := by
  have hwf := hm.1
  refine ⟨_, exec_bar2Access_write hb off data, ?_⟩
  by_cases h0 : min data.length (Config.hbmBytes - off.toNat) = 0
  · rw [if_pos h0]
    exact ⟨fun j hj hin => absurd h0 (by omega), fun x _ => rfl⟩
  · rw [if_neg h0, Chip.writeMem_mem_of_clean hl]
    have hlen : (data.take (min data.length (Config.hbmBytes - off.toNat))).length = min data.length (Config.hbmBytes - off.toNat) := by simp
    refine ⟨fun j hj hin => ?_, fun x hx => Memory.get_write_other hwf _ _ x (by omega)⟩
    rw [Memory.get_write_at hwf _ _ j (by omega), List.getElem_take, List.getD_eq_getElem?_getD, List.getElem?_eq_getElem hj, Option.getD_some]

/-! ## Registers of the map (R331, R358) -/

/-- A write that is no bind record's is a write to the map. -/
theorem exec_registerWrite_outside {s : State} {off : BitVec 32} {val : Word}
    (h : ¬(0x100000 ≤ off.toNat % 2 ^ 31 ∧ off.toNat % 2 ^ 31 < 0x110000)) :
    exec (.registerWrite off val) s = .next (s.withChip (s.chip.writeReg s.clk off val)) := by
  have hn : ¬(0x100000 ≤ (off.setWidth 31).toNat ∧ (off.setWidth 31).toNat < 0x110000 ∧
      s.chip.beingDispatched (off.getLsbD 31) (BitVec.ofNat 8 (((off.setWidth 31).toNat - 0x100000) / 256))) := by
    rw [BitVec.toNat_setWidth]; exact fun ⟨a, b, _⟩ => h ⟨a, b⟩
  exact if_neg hn

theorem exec_registerWrite_dispatched {s : State} {off : BitVec 32} {val : Word} (h1 : 0x100000 ≤ off.toNat % 2 ^ 31)
    (h2 : off.toNat % 2 ^ 31 < 0x110000)
    (hd : s.chip.beingDispatched (off.getLsbD 31) (BitVec.ofNat 8 ((off.toNat % 2 ^ 31 - 0x100000) / 256)) = true) :
    exec (.registerWrite off val) s = .fault .bindRewritten := by
  rw [← BitVec.toNat_setWidth] at h1 h2 hd
  exact if_pos ⟨h1, h2, hd⟩

section
variable (c : Chip) (now : Nat) {off : BitVec 32} (val : Word)

theorem Chip.writeReg_rtbase (h : off.toNat % 2 ^ 31 = 0x300000) :
    c.writeReg now off val = c.updDie (off.getLsbD 31) fun x => { x with rtbase := val.extractLsb' 3 53 } := by
  simp only [Chip.writeReg, BitVec.toNat_setWidth, h]; rfl

theorem Chip.writeReg_rthr (h : off.toNat % 2 ^ 31 = 0x310400) :
    c.writeReg now off val = c.updDie (off.getLsbD 31) fun x => { x with rthr := val.extractLsb' 0 16 } := by
  simp only [Chip.writeReg, BitVec.toNat_setWidth, h]; rfl

theorem Chip.writeReg_tinva (h : off.toNat % 2 ^ 31 = 0x400000) :
    c.writeReg now off val = c.updDie (off.getLsbD 31) fun x => { x with tinva := val.extractLsb' 16 32 } := by
  simp only [Chip.writeReg, BitVec.toNat_setWidth, h]; rfl

theorem Chip.writeReg_fwaddr (h : off.toNat % 2 ^ 31 = 0x500000) :
    c.writeReg now off val = { c with firm := { c.firm with fwaddr := val.extractLsb' 12 44 } } := by
  simp only [Chip.writeReg, BitVec.toNat_setWidth, h]; rfl

/-- The identity block's words of reading alone. -/
theorem Chip.writeReg_identity (h : off.toNat % 2 ^ 31 = 0 ∨ off.toNat % 2 ^ 31 = 8 ∨ off.toNat % 2 ^ 31 = 0x10) :
    c.writeReg now off val = c := by
  rcases h with h | h | h <;> simp only [Chip.writeReg, BitVec.toNat_setWidth, h] <;> rfl

/-- Beyond the tile windows the map lists nothing. -/
theorem Chip.writeReg_beyond (h : 0x20000000 ≤ off.toNat % 2 ^ 31) : c.writeReg now off val = c := by
  generalize ho : off.toNat % 2 ^ 31 / 8 * 8 = o
  have hle : 0x20000000 ≤ o := by omega
  simp only [Chip.writeReg, BitVec.toNat_setWidth, ho]
  repeat rw [if_neg (by omega)]

end

/-! ## The fabric and the clock (R365, R366) -/

/-- Port p as it is trained; the others stand. -/
theorem getLsbD_trained (x : BitVec 9) (p : BitVec 4) (up : Bool) {k : Nat} (hk : k < 9) :
    (if up then x ||| 1#9 <<< p.toNat else x &&& ~~~(1#9 <<< p.toNat)).getLsbD k = if k = p.toNat then up else x.getLsbD k := by
  have hbit : (1#9 <<< p.toNat).getLsbD k = decide (k = p.toNat) := by
    simp only [BitVec.getLsbD_shiftLeft, BitVec.getLsbD_one, hk]
    by_cases h : k = p.toNat
    · simp [h]
    · simp [h]; omega
  cases up
  · rw [if_neg Bool.false_ne_true, BitVec.getLsbD_and, BitVec.getLsbD_not, hbit]
    by_cases h : k = p.toNat <;> simp [h, hk]
  · rw [if_pos rfl, BitVec.getLsbD_or, hbit]
    by_cases h : k = p.toNat <;> simp [h]

theorem exec_brodnisPortTraining (s : State) (d : Bool) (p : BitVec 4) (up : Bool) :
    ∃ x : BitVec 9, exec (.brodnisPortTraining d p up) s = .next (s.withChip (s.chip.updDie d fun y => { y with ports := x })) ∧
      ∀ k < 9, x.getLsbD k = if k = p.toNat then up else (s.chip.die d).ports.getLsbD k :=
  ⟨_, by cases d <;> rfl, fun k hk => getLsbD_trained (s.chip.die d).ports p up hk⟩

end Sys2Proof.Machine
end

section
/-! SUPPORT. The fabric's clock and power (R366, R379): what their loss does to collectives, strands and launches. -/

namespace Sys2Proof.Machine

/-! ## The clock reference (R284, R366) -/

/-- The members of a group of a launch that a collective belongs to have all arrived. -/
def Coll.gathered (x : Coll) (gs : List Group) : Prop :=
  ∃ g ∈ gs, g.launch = x.launch ∧ g.grp = x.grp ∧ ∀ m < g.members.length, m ∈ x.arrived

/-- A collective after the failure of a launch's collectives. -/
def Coll.failedBy (gs : List Group) (num : BitVec 32) (x : Coll) : Coll :=
  if x.launch = num ∧ !(gs.any fun g => g.launch == num && g.grp == x.grp && (List.range g.members.length).all x.arrived.contains) then
    { x with failed := true }
  else x

theorem Chip.failColls_eq (c : Chip) (num : BitVec 32) : c.failColls num = { c with colls := c.colls.map (Coll.failedBy c.groups num) } := rfl

theorem any_gathered_iff (gs : List Group) (x : Coll) :
    (gs.any fun g => g.launch == x.launch && g.grp == x.grp && (List.range g.members.length).all x.arrived.contains) = true ↔ x.gathered gs := by
  simp [Coll.gathered, and_assoc]

/-- A collective changes in nothing but its failure, and fails if it is the launch's and has not gathered. -/
theorem Coll.failedBy_fields (gs : List Group) (num : BitVec 32) (x : Coll) :
    x.failedBy gs num = { x with failed := (x.failedBy gs num).failed } ∧
    ((x.failedBy gs num).failed = true ↔ x.failed = true ∨ (num = x.launch ∧ ¬x.gathered gs)) := by
  unfold Coll.failedBy
  by_cases h : num = x.launch
  · subst h
    by_cases hg : x.gathered gs
    · rw [if_neg fun hc => by simp [(any_gathered_iff gs x).mpr hg] at hc]
      exact ⟨rfl, .inl, fun hf => hf.resolve_right fun hn => hn.2 hg⟩
    · rw [if_pos ⟨rfl, by rw [Bool.eq_false_iff.mpr (mt (any_gathered_iff gs x).mp hg)]; rfl⟩]
      exact ⟨rfl, fun _ => .inr ⟨rfl, hg⟩, fun _ => rfl⟩
  · rw [if_neg fun hc => h hc.1.symm]
    simp [h]

/-- A collective after the failure of the collectives of the launches of some groups. -/
def Coll.failedByAll (gs ls : List Group) (x : Coll) : Coll := ls.foldl (fun x g => x.failedBy gs g.launch) x

theorem Chip.foldl_failColls (ls : List Group) (c : Chip) :
    ls.foldl (fun (c : Chip) g => c.failColls g.launch) c = { c with colls := c.colls.map (Coll.failedByAll c.groups ls) } := by
  induction ls generalizing c with
  | nil =>
    have hid : Coll.failedByAll c.groups [] = id := rfl
    rw [hid, List.map_id]; rfl
  | cons g r ih =>
    rw [List.foldl_cons, ih, Chip.failColls_eq, List.map_map]
    rfl

theorem Coll.failedByAll_fields (gs ls : List Group) (x : Coll) :
    x.failedByAll gs ls = { x with failed := (x.failedByAll gs ls).failed } ∧
    ((x.failedByAll gs ls).failed = true ↔ x.failed = true ∨ ((∃ g ∈ ls, g.launch = x.launch) ∧ ¬x.gathered gs)) := by
  induction ls generalizing x with
  | nil => simp [Coll.failedByAll]
  | cons g r ih =>
    obtain ⟨hsame, hfail⟩ := x.failedBy_fields gs g.launch
    obtain ⟨hsame', hfail'⟩ := ih (x.failedBy gs g.launch)
    have hfold : x.failedByAll gs (g :: r) = (x.failedBy gs g.launch).failedByAll gs r := rfl
    rw [hfold]
    refine ⟨?_, ?_⟩
    · rw [hsame', hsame]
    · have hlaunch : (x.failedBy gs g.launch).launch = x.launch := by rw [hsame]
      have hgathered : (x.failedBy gs g.launch).gathered gs = x.gathered gs := by rw [hsame]; rfl
      rw [hfail', hfail, hlaunch, hgathered]
      simp only [List.mem_cons, or_and_right, exists_or, exists_eq_left, or_assoc]

/-- CLOCK_REFERENCE_LOSS: the module has left the domain, and what has not gathered has failed. -/
theorem exec_clockReferenceLoss (s : State) : exec .clockReferenceLoss s = .next (s.withChip
    { s.chip with refLost := true, joined := false, colls := s.chip.colls.map (Coll.failedByAll s.chip.groups s.chip.groups) }) :=
  State.next_congr (Chip.foldl_failColls _ _)

theorem exec_timeBeacon_ignored {s : State} {v : Nat} (h : s.chip.joined = true ∨ s.chip.anyBound = true) : exec (.timeBeacon v) s = .next s :=
  if_pos (by simpa using h)

/-- CYC is set when the module joins a domain before any strand is bound (log entry 32). -/
theorem exec_timeBeacon_taken {s : State} {v : Nat} (hj : s.chip.joined = false) (hb : s.chip.anyBound = false) :
    exec (.timeBeacon v) s = .next { s with clk := max s.clk v, chip := { s.chip with joined := true, refLost := false } } :=
  if_neg (by simp [hj, hb])

/-! ## The thermal stop (R379) -/

@[simp] theorem vget_map {α β : Type} {k : Nat} (f : α → β) (v : Vector α (2 ^ k)) (i : BitVec k) : vget (v.map f) i = f (vget v i) := by
  simp [vget]

theorem Tile.askFreeze_running {t : Tile} (h : t.st = .running ∨ t.st = .halting) : t.askFreeze = { t with freezing := true } :=
  if_pos (by simpa [Tile.active] using h)

theorem Tile.askFreeze_still {t : Tile} (hr : t.st ≠ .running) (hh : t.st ≠ .halting) : t.askFreeze = t :=
  if_neg (by simp [Tile.active, hr, hh])

theorem Chip.cutLaunch_num (c : Chip) (l : Launch) : (c.cutLaunch l).num = l.num := by
  unfold Chip.cutLaunch
  dsimp only
  split <;> rfl

/-- A launch with a strand on some tile is cut short (log entry 71). -/
theorem Chip.cutLaunch_status {c : Chip} {l : Launch} {n : TileId} (hr : (c.tileAt n).runs = true) (hl : (c.tileAt n).bound.launch = l.num) :
    (c.cutLaunch l).status = if l.status = 0 then 1 else l.status := by
  have hany : (c.tiles.any fun t => t.runs && t.bound.launch == l.num) = true :=
    Vector.any_eq_true.mpr ⟨n.toNat, n.isLt, by
      have : (c.tiles[n.toNat]'n.isLt) = c.tileAt n := rfl
      simp [this, hr, hl]⟩
  unfold Chip.cutLaunch
  simp only [hany, Bool.or_true, if_true]

/-- THERMAL_STOP: from then the module is stopped, its strands are to freeze and its launches are cut. -/
theorem exec_thermalStop {s : State} (d : Bool) (h : s.chip.stopped = false) : exec (.thermalStop d) s = .next (s.withChip
    { s.chip with stopped := true, launches := s.chip.launches.map s.chip.cutLaunch, tiles := s.chip.tiles.map Tile.askFreeze }) :=
  State.next_congr (if_neg (Bool.eq_false_iff.mp h))

theorem exec_thermalStop_stopped {s : State} (d : Bool) (h : s.chip.stopped = true) : exec (.thermalStop d) s = .next (s.withChip s.chip) :=
  State.next_congr (if_pos h)

theorem exec_ccommit_stopped {s : State} (d : Bool) (cl : BitVec 4) (val : Word) (h : s.chip.stopped = true) :
    exec (.ccommit d cl val) s = .next (s.withChip s.chip) :=
  State.next_congr (if_pos h)

end Sys2Proof.Machine
end

section
/-! SUPPORT. The firmware load, the fuses, attestation and sealing (R368–R370, R377). -/

namespace Sys2Proof.Machine

/-! ## The firmware load (R368) -/

theorem Chip.fwGo_busy {c : Chip} (h : c.firm.st = 1 ∨ c.firm.st = 2) : c.fwGo = c := if_pos h
theorem Chip.fwGo_starts {c : Chip} (h1 : c.firm.st ≠ 1) (h2 : c.firm.st ≠ 2) :
    c.fwGo = { c with firm := { c.firm with st := 1, err := 0 } } := if_neg (not_or.mpr ⟨h1, h2⟩)

/-- The firmware state that an accepted image leaves: its header's fields, and every hart at ENTRY, which counts from
the payload. -/
def Firm.started (f : Firm) (h payload : List Byte) : Firm :=
  { f with
    st := 2
    err := 0
    svn := hdrField 32 h 8
    slot := hdrField 8 h 12
    hash := Config.sha512 (h ++ payload)
    region := some ((f.fwaddr ++ 0#12 : BitVec 56).toNat, 512 + if hdrLen h ≤ 2 ^ 28 then hdrLen h else 0)
    harts := Vector.replicate _ (some (f.fwaddr ++ 0#12 + 512 + (hdrField 64 h 24).setWidth 56)) }

theorem exec_firmwareLoadCompletion_idle {s : State} (h : s.chip.firm.st ≠ 1) :
    exec .firmwareLoadCompletion s = .next (s.withChip s.chip) :=
  State.next_congr (if_pos h)

/-- The image as the load reads it where no line has failed: its header, and the payload behind it. -/
def Chip.fwHeader (c : Chip) : List Byte := c.mem.read (c.key (c.firm.fwaddr ++ 0#12)) 512
def Chip.fwPayload (c : Chip) : List Byte :=
  c.mem.read (c.key (c.firm.fwaddr ++ 0#12 + 512)) (if hdrLen c.fwHeader ≤ 2 ^ 28 then hdrLen c.fwHeader else 0)

/-- An image is refused with the first check that it fails, or started. -/
theorem exec_firmwareLoadCompletion {s : State} (hst : s.chip.firm.st = 1) (hl : s.chip.ueLines = []) :
    exec .firmwareLoadCompletion s = .next (s.withChip
      (if s.chip.firm.imageErr s.chip.fwHeader s.chip.fwPayload ≠ 0 then
        { s.chip with firm := { s.chip.firm with st := 3, err := s.chip.firm.imageErr s.chip.fwHeader s.chip.fwPayload } }
      else { s.chip with firm := s.chip.firm.started s.chip.fwHeader s.chip.fwPayload })) := by
  have hh : s.chip.unitRead s.chip.fwAddr 512 = (s.chip, s.chip.fwHeader) := Chip.unitRead_of_clean hl _ _
  have hp : s.chip.unitRead (s.chip.fwAddr + 512) (if hdrLen s.chip.fwHeader ≤ 2 ^ 28 then hdrLen s.chip.fwHeader else 0) =
      (s.chip, s.chip.fwPayload) := Chip.unitRead_of_clean hl _ _
  simp only [exec, execFirmwareLoadCompletion, State.lift_eq, hst, hh, hp, ne_eq, not_true_eq_false, if_false]
  rfl

theorem Firm.started_fields (f : Firm) (h payload : List Byte) : let g := f.started h payload
    g.st = 2 ∧ g.err = 0 ∧ g.svn = ofBytes 32 ((h.drop 8).take 4) ∧ g.slot = ofBytes 8 ((h.drop 12).take 1) ∧ g.keys = f.keys ∧
    g.floor = f.floor ∧ g.vlock = f.vlock := ⟨rfl, rfl, rfl, rfl, rfl, rfl, rfl⟩

/-- Every hart of both dies starts at ENTRY of the header. -/
theorem Firm.vget_started_harts (f : Firm) (h payload : List Byte) (k : BitVec 3) :
    vget (f.started h payload).harts k = some (f.fwaddr ++ 0#12 + 512 + ofBytes 56 ((h.drop 24).take 8)) := by
  have he : (hdrField 64 h 24).setWidth 56 = ofBytes 56 ((h.drop 24).take 8) := setWidth_ofBytes (by omega) _
  simp [vget, Firm.started, he]

/-! ## The fuses (R369) -/

theorem Chip.fuse_refused {c : Chip} {ok : Bool} (f : Firm → Firm) (h : ok = false) :
    c.fuse ok f = { c with firm := { c.firm with accepted := false } } :=
  if_neg (by simp [h])

theorem Chip.fuse_accepted {c : Chip} {ok : Bool} (f : Firm → Firm) (h : ok = true) :
    c.fuse ok f = { c with firm := { f c.firm with accepted := true } } :=
  if_pos h

/-- A request to the fuses that is refused leaves them. -/
def State.fusesRefused (s : State) : State := s.withChip { s.chip with firm := { s.chip.firm with accepted := false } }

/-- A request to the fuses accepted, with its effect on them. -/
def State.fusesAccepted (s : State) (f : Firm) : State := s.withChip { s.chip with firm := { f with accepted := true } }

section
variable {s : State} {by_ : Signer}

theorem exec_enrolKey {k : BitVec 2} {hash : BitVec 512} (he : vget s.chip.firm.keys k = .empty)
    (ho : s.chip.firm.enrolled by_ = true ∨ (by_ = .vendor ∧ s.chip.firm.vlock = false)) :
    exec (.enrolKey k hash by_) s = .next (s.fusesAccepted { s.chip.firm with keys := vset s.chip.firm.keys k (.enrolled hash) }) :=
  State.next_congr (Chip.fuse_accepted _ (by simpa [he] using ho))

theorem exec_enrolKey_refused {k : BitVec 2} {hash : BitVec 512} (h : vget s.chip.firm.keys k ≠ .empty ∨
    (s.chip.firm.enrolled by_ = false ∧ (by_ ≠ .vendor ∨ s.chip.firm.vlock = true))) : exec (.enrolKey k hash by_) s = .next s.fusesRefused :=
  State.next_congr (Chip.fuse_refused _ (by
    rcases h with h | ⟨ho, h | h⟩
    · simp [h]
    · simp [ho, h]
    · simp [ho, h]))

theorem exec_revokeSlot {k : BitVec 2} (ho : s.chip.firm.enrolled by_ = true) (hk : by_ ≠ .owner k) :
    ∃ h, exec (.revokeSlot k by_) s = .next (s.fusesAccepted { s.chip.firm with keys := vset s.chip.firm.keys k (.revoked h) }) := by
  have hx : exec (.revokeSlot k by_) s = _ := State.next_congr (Chip.fuse_accepted _ (by simp [ho, hk]))
  rw [hx]
  cases hs : vget s.chip.firm.keys k with
  | empty => exact ⟨0, by simp only; rfl⟩
  | enrolled h => exact ⟨h, by simp only; rfl⟩
  | revoked h => exact ⟨h, by simp only; rfl⟩

theorem exec_revokeSlot_refused {k : BitVec 2} (h : s.chip.firm.enrolled by_ = false ∨ by_ = .owner k) :
    exec (.revokeSlot k by_) s = .next s.fusesRefused :=
  State.next_congr (Chip.fuse_refused _ (by rcases h with h | h <;> simp [h]))

theorem exec_raiseSvnFloor {x : BitVec 32} (ho : s.chip.firm.enrolled by_ = true) : exec (.raiseSvnFloor x by_) s =
    .next (s.fusesAccepted { s.chip.firm with floor := if s.chip.firm.floor.toNat < x.toNat then x else s.chip.firm.floor }) := by
  simp only [← BitVec.ult_iff_toNat_lt]
  exact State.next_congr (Chip.fuse_accepted _ ho)

theorem exec_raiseSvnFloor_refused {x : BitVec 32} (ho : s.chip.firm.enrolled by_ = false) : exec (.raiseSvnFloor x by_) s = .next s.fusesRefused :=
  State.next_congr (Chip.fuse_refused _ ho)

theorem exec_setVlock (ho : s.chip.firm.enrolled by_ = true) : exec (.setVlock by_) s = .next (s.fusesAccepted { s.chip.firm with vlock := true }) :=
  State.next_congr (Chip.fuse_accepted _ ho)

theorem exec_setVlock_refused (ho : s.chip.firm.enrolled by_ = false) : exec (.setVlock by_) s = .next s.fusesRefused :=
  State.next_congr (Chip.fuse_refused _ ho)

end

/-! ## Attestation and sealing (R370, R377) -/

/-- The report's fields in their places. -/
theorem Chip.report_fields (c : Chip) (nonce : BitVec 512) : let r := c.report nonce
    r.length = 156 ∧ r.take 64 = toBytes 64 nonce ∧ (r.drop 64).take 64 = toBytes 64 c.firm.hash ∧ (r.drop 128).take 4 = toBytes 4 c.firm.svn ∧
    r.getD 132 0 = c.firm.slot ∧ r.getD 134 0 = (if c.firm.vlock then 1 else 0) ∧ (r.drop 136).take 4 = toBytes 4 c.firm.floor := by
  unfold Chip.report
  refine ⟨by simp, ?_, ?_, ?_, ?_, ?_, ?_⟩
  · simp [List.append_assoc]
  · simp [List.append_assoc]
  · simp [List.append_assoc, List.take_append, List.drop_append]
  · simp [List.append_assoc]
  · cases h : c.firm.vlock <;> simp [List.append_assoc, h]
  · simp [List.append_assoc, List.drop_append, List.drop_of_length_le]

theorem exec_sealRequest_signs {s : State} {r : SealReq} (h : r.verify = false) :
    exec (.sealRequest r) s = .next (s.withChip { s.chip with answer := toBytes 132 (Config.sealSign (SealReq.hash r)) }) :=
  State.next_congr (if_pos (by rw [h]; rfl))

/-- A seal is accepted when its signature is the seal key's, and its fields are the part's level and those wanted. -/
theorem exec_sealRequest_verifies {s : State} {r : SealReq} (h : r.verify = true) :
    ∃ ok : Bool, exec (.sealRequest r) s = .next (s.withChip { s.chip with firm := { s.chip.firm with accepted := ok } }) ∧
      (ok = true ↔ r.sig = Config.sealSign (SealReq.hash r) ∧ r.level = 1 ∧ r.srcHash = r.wantHash ∧ r.loader = r.wantLoader) := by
  simp only [exec, execSealRequest, State.lift_eq, h]
  exact ⟨_, rfl, by simp [latLevel, and_assoc]⟩

end Sys2Proof.Machine
end

section
/-! SUPPORT. The management steps together (R19, R340–R379). -/

namespace Sys2Proof.Machine

/-- Settles O56: each step by the lemma that says what it does to the module. -/
theorem managementSteps : Obligations.ManagementSteps := by
  intro s
  refine ⟨fun d => ⟨_, exec_orphcntRead s d, rfl, ofBytes_toBytes 8 _ (Nat.le_refl _)⟩,
    fun d => ⟨_, exec_bclostRead s d, rfl, ofBytes_toBytes 8 _ (Nat.le_refl _)⟩, ?bankBeyond, ?bank, ?memberIgnored, ?memberTaken, ?pair,
    ?tinvc, ?invalIdle, ?inval, ?goBusy, ?goStarts, ?loadIdle, ?load, ?fuses, ?report, ?sealing, ?bar2, ?registers, ?ports, ?clock, ?beacon,
    ?stopAgain, ?stop, ?noCommit, ?powerUp⟩
  case bankBeyond => exact fun d n val h => State.next_congr (s.chip.writeBank_beyond d val h)
  case bank =>
    intro d n val h
    obtain ⟨hsame, hother⟩ := s.chip.getBank_writeBank d val h
    obtain ⟨hcount, hovf, hv, hrest⟩ := (getBank (s.chip.die d).banks n.toNat).write_fields val
    refine ⟨s.chip.writeBank d n.toNat val, rfl, ?_⟩
    rw [hsame]
    exact ⟨hcount, hovf, hv, hrest, hother⟩
  case memberIgnored => exact fun val h => State.next_congr (Chip.writeMember_ignored h)
  case memberTaken => exact fun val hl hb hm => State.next_congr (Chip.writeMember_taken hl hb hm)
  case pair =>
    intro d p val
    have hw : (fun q : QPair => q.writeEn val) = _ := funext fun q => q.writeEn_eq val
    exact congrArg (fun f => Host.Outcome.next (s.withChip (s.chip.updPair d p f))) hw
  case tinvc => exact fun d val => ⟨fun h => State.next_congr (Chip.writeTinvc_idle h), fun h => ⟨_, rfl, Chip.writeTinvc_go h⟩⟩
  case invalIdle => exact fun d => exec_invalidationComplete_idle
  case inval =>
    refine fun d v h => ⟨_, exec_invalidationComplete h, Chip.updDie_mem .., ?_, fun e => ?_⟩
    · rw [Chip.die_updDie_same]
    · rw [Chip.die_updDie_same]
      exact Inval.mem_filter_removes
  case goBusy => exact fun h => State.next_congr (Chip.fwGo_busy h)
  case goStarts => exact fun h1 h2 => State.next_congr (Chip.fwGo_starts h1 h2)
  case loadIdle => exact exec_firmwareLoadCompletion_idle
  case load =>
    intro hst hl
    have hx := exec_firmwareLoadCompletion hst hl
    obtain ⟨hst', herr, hsvn, hslot, hkeys, hfloor, hvlock⟩ := s.chip.firm.started_fields s.chip.fwHeader s.chip.fwPayload
    refine ⟨fun he => hx.trans (State.next_congr (if_pos he)), fun he => ⟨_, hx.trans (State.next_congr (if_neg fun hn => hn he)),
      hst', herr, hsvn, hslot, Firm.vget_started_harts _ _ _, hkeys, hfloor, hvlock⟩⟩
  case fuses =>
    refine fun by_ => ⟨fun k hash => exec_enrolKey, fun k hash => exec_enrolKey_refused, fun k => exec_revokeSlot_refused, fun k ho hk => ?_,
      fun x => exec_raiseSvnFloor_refused, fun x => exec_raiseSvnFloor, exec_setVlock_refused, exec_setVlock⟩
    obtain ⟨h, hx⟩ := exec_revokeSlot ho hk
    exact ⟨_, hx, rfl, ⟨h, vget_vset_same ..⟩, fun m hm => vget_vset_other _ _ _ _ hm⟩
  case report =>
    intro nonce
    obtain ⟨hlen, hnonce, hhash, hsvn, hslot, hvlock, hfloor⟩ := s.chip.report_fields nonce
    exact ⟨_, _, rfl, hlen, length_toBytes .., hnonce, hhash, hsvn, hslot, hvlock, hfloor, rfl⟩
  case sealing => exact fun r => ⟨exec_sealRequest_signs, exec_sealRequest_verifies⟩
  case bar2 => exact fun off hb hl hm => ⟨exec_bar2Access_read hb hl off, exec_bar2Access_write_mem hb hl hm off⟩
  case registers =>
    intro off val
    have hout : ∀ {c' : Chip}, s.chip.writeReg s.clk off val = c' → ¬(0x100000 ≤ off.toNat % 2 ^ 31 ∧ off.toNat % 2 ^ 31 < 0x110000) →
        exec (.registerWrite off val) s = .next (s.withChip c') := fun hw ho => (exec_registerWrite_outside ho).trans (State.next_congr hw)
    exact ⟨fun h => hout (Chip.writeReg_rtbase _ _ _ h) (by omega), fun h => hout (Chip.writeReg_rthr _ _ _ h) (by omega),
      fun h => hout (Chip.writeReg_tinva _ _ _ h) (by omega), fun h => hout (Chip.writeReg_fwaddr _ _ _ h) (by omega),
      fun h => hout (Chip.writeReg_identity _ _ _ h) (by omega), fun h => hout (Chip.writeReg_beyond _ _ _ h) (by omega),
      exec_registerWrite_dispatched⟩
  case ports =>
    intro d p up _
    obtain ⟨x, hx, hbits⟩ := exec_brodnisPortTraining s d p up
    refine ⟨_, hx, ?_⟩
    rw [Chip.die_updDie_same]
    exact ⟨rfl, hbits⟩
  case clock =>
    refine ⟨_, exec_clockReferenceLoss s, rfl, List.length_map .., fun k x hx => ⟨_, ?_, Coll.failedByAll_fields _ _ x⟩⟩
    rw [List.getElem?_map, hx, Option.map_some]
  case beacon => exact fun v => ⟨exec_timeBeacon_ignored, exec_timeBeacon_taken⟩
  case stopAgain => exact fun d => exec_thermalStop_stopped d
  case stop =>
    refine fun d h => ⟨_, exec_thermalStop d h, rfl, rfl, fun n => ?_, fun l hl hn => ?_⟩
    · have hn : vget (s.chip.tiles.map Tile.askFreeze) n = (s.chip.tileAt n).askFreeze := vget_map ..
      exact ⟨fun hr => hn.trans (Tile.askFreeze_running hr), fun hr hh => hn.trans (Tile.askFreeze_still hr hh)⟩
    · obtain ⟨n, hr, hb⟩ := hn
      exact ⟨s.chip.cutLaunch l, List.mem_map_of_mem hl, s.chip.cutLaunch_num l, Chip.cutLaunch_status hr hb⟩
  case noCommit => exact fun d cl val => exec_ccommit_stopped d cl val
  case powerUp => exact ⟨_, rfl, rfl, rfl, rfl, rfl, rfl, rfl⟩

end Sys2Proof.Machine
end

section
/-! SUPPORT. CYC under a step (R19, log entry 74): a queue that holds a time beacon where the splitter puts words. -/

namespace Sys2Proof.Machine

/-- A queue that issues its head runs a TIME_BEACON that stands there as any word: CYC is set (R366). -/
theorem stepIssue_of_beacon {s : State} {q : Queue} {w : QWord} {rest : List QWord} {v : Nat}
    (hq : s.chip.tile.frame.queue q = w :: rest) (hw : w.what = .ok (.timeBeacon v)) (hset : (s.chip.joined || s.chip.anyBound) = false) :
    ∃ t, stepIssue q s = .next t ∧ t.clk = max s.clk v := by
  have hbar : (q == .s && isBar (.timeBeacon v)) = false := Bool.and_false _
  simp only [stepIssue, hq, hw, hbar, exec, execTimeBeacon, hset]
  exact ⟨_, rfl, rfl⟩

/-- A queue entry that holds an instruction. -/
def entryOf (i : Instr) : QWord where
  id := 0
  born := 0
  raw := 0
  what := .ok i
  pc := 0
  vrb := 0
  p4 := 0
  p5 := 0
  p6 := 0
  p7 := 0
  waits := []
  imode := false
  ue := false

/-- A turn in which the tile in focus issues from queue L, and nothing else happens. -/
def issueL : Turn := ⟨0, 0, [], .issue .l⟩

/-- The module after reset with an instruction at the head of queue L of the tile in focus, before that turn. -/
def queuedL (i : Instr) : State :=
  { State.reset with
    agenda := [issueL]
    chip := Chip.reset.upd fun t => t.updFrame fun f => f.setQueue .l [entryOf i] }

theorem step_queuedL (i : Instr) : step (queuedL i) = stepIssue .l ((queuedL i).begin issueL []) := by
  simp only [step, queuedL, issueL, State.take, stepAct, if_true]

/-- What the turn finds: the entry at the head of its queue, and a module that has joined no domain and has no strand. -/
theorem begin_queuedL : let s := (queuedL (.timeBeacon 5)).begin issueL []
    s.chip.tile.frame.queue .l = [entryOf (.timeBeacon 5)] ∧ (s.chip.joined || s.chip.anyBound) = false ∧ s.clk = 0 :=
  ⟨rfl, by decide +kernel, rfl⟩

/-- Refutes O57: the statement is about every state, and bounds the clk of every turn but an event that is a time beacon; a queue that
holds a TIME_BEACON as a word, which no splitter puts there, raises CYC by the beacon's value in a turn that only issues. -/
theorem not_cycNeverRunsBackward : ¬ Obligations.CycNeverRunsBackward := by
  unfold Obligations.CycNeverRunsBackward
  intro h
  obtain ⟨hhead, hset, hclk⟩ := begin_queuedL
  obtain ⟨t, ht, htclk⟩ := stepIssue_of_beacon hhead rfl hset
  obtain ⟨-, hturn, -⟩ := h (queuedL (.timeBeacon 5)) t ((step_queuedL _).trans ht)
  obtain ⟨htakes, -⟩ := hturn issueL [] rfl
  obtain ⟨-, -, hbound⟩ := htakes (.inl rfl)
  have hle : t.clk ≤ 0 + 0 + 1 := hbound fun v => Act.noConfusion
  omega

end Sys2Proof.Machine
end

section
/-! SUPPORT. The shapes of the element-wise words: what a floating word and a lanes word answer, element by element (R126–R135, R140). -/

namespace Sys2Proof.Machine

variable {s : State} {i : Instr} {w : QWord} {rest : List QWord}

theorem State.answersElements_of_eq {occ lat n : Nat} {d : VDst} {f g : Nat → FRes} (h : s.answersElements i w rest occ lat n d f)
    (hfg : ∀ e, f e = g e) : s.answersElements i w rest occ lat n d g :=
  funext hfg ▸ h

theorem elemN_lt (n : Nat) (x : VWord) (e : Nat) : elemN n x e < 2 ^ n := BitVec.isLt _

/-! ## Floating words (R132, R135) -/

theorem fBinWord_answers (o : FBin) {lat occ : Nat} {f : Fmt → FMode → FVal → FVal → FRes} (hx : exec i s = fBinWord i o lat occ f s)
    (hq : QReady s .c i .lanes vecRes w rest) : s.answersElements i w rest occ lat (tyWidth o.ty) o.d fun e =>
      f (fmtOf o.ty) ⟨o.rnd, o.sat, !w.imode⟩ ((fmtOf o.ty).val (!w.imode) (elemN (tyWidth o.ty) (s.tile.vsrc w o.a) e))
        ((fmtOf o.ty).val (!w.imode) (s.tile.bElem w o.ty o.b e)) :=
  elemWord_answers hq hx

theorem fTernWord_answers (o : FTern) {f : Fmt → FMode → FVal → FVal → FVal → FRes} (hx : exec i s = fTernWord i o f s)
    (hq : QReady s .c i .lanes vecRes w rest) : s.answersElements i w rest 1 4 (tyWidth o.ty) o.d fun e =>
      f (fmtOf o.ty) ⟨o.rnd, o.sat, !w.imode⟩ ((fmtOf o.ty).val (!w.imode) (elemN (tyWidth o.ty) (s.tile.vsrc w o.a) e))
        ((fmtOf o.ty).val (!w.imode) (s.tile.bElem w o.ty o.b e))
        ((fmtOf o.ty).val (!w.imode) (elemN (tyWidth o.ty) (s.tile.vsrc w o.c) e)) :=
  elemWord_answers hq hx

theorem fUnWord_answers (o : FUn) {lat occ : Nat} {f : Fmt → FMode → FVal → FRes} (hx : exec i s = fUnWord i o lat occ f s)
    (hq : QReady s .c i .lanes vecRes w rest) : s.answersElements i w rest occ lat (tyWidth o.ty) o.d fun e =>
      f (fmtOf o.ty) ⟨o.rnd, o.sat, !w.imode⟩ ((fmtOf o.ty).val (!w.imode) (elemN (tyWidth o.ty) (s.tile.vsrc w o.a) e)) :=
  elemWord_answers hq hx

/-- fscalb alone takes its second operand as an exponent (R132). -/
theorem exec_fscalb_answers (h : Hdr) (o : FBin) (hq : QReady s .c (.fscalb h o) .lanes vecRes w rest) :
    s.answersElements (.fscalb h o) w rest 1 4 (tyWidth o.ty) o.d fun e =>
      (fmtOf o.ty).scalb ⟨o.rnd, o.sat, !w.imode⟩ ((fmtOf o.ty).val (!w.imode) (elemN (tyWidth o.ty) (s.tile.vsrc w o.a) e))
        (scalbAmt s.tile w o.ty o.b e) :=
  elemWord_answers hq rfl

/-- Settles O36: each word by the lemma of its shape, at the arithmetic that its arm names. -/
theorem vectorFloatArithmetic : Obligations.VectorFloatArithmetic := by
  intro s h w rest
  refine ⟨fun o => ⟨?fadd, ?fsub, ?fmul, ?fdiv, ?fscalb⟩, fun o => ⟨?fma, ?fms, ?fnma⟩, fun o => ⟨?fsqrt, ?frcp, ?frsq, ?fexp2, ?flog2⟩⟩
  case fadd => exact fBinWord_answers o rfl
  case fsub => exact fBinWord_answers o (f := fSub) rfl
  case fmul => exact fBinWord_answers o rfl
  case fdiv => exact fBinWord_answers o rfl
  case fscalb => exact exec_fscalb_answers h o
  case fma => exact fTernWord_answers o rfl
  case fms => exact fTernWord_answers o (f := fMs) rfl
  case fnma => exact fTernWord_answers o (f := fNma) rfl
  case fsqrt => exact fUnWord_answers o rfl
  case frcp => exact fUnWord_answers o rfl
  case frsq => exact fUnWord_answers o rfl
  case fexp2 => exact fUnWord_answers o rfl
  case flog2 => exact fUnWord_answers o rfl

end Sys2Proof.Machine
end

section
/-! SUPPORT. Lane moves, integers reduced to a type, digits and order keys (R24, R43, R44, R140–R144, R149, R150). -/

namespace Sys2Proof.Machine

variable {s : State} {i : Instr} {w : QWord} {rest : List QWord}

theorem laneWord_answers {d : VDst} {lat : Nat} {f : Tile → QWord → Nat → Nat} (hx : exec i s = laneWord i d lat f s)
    (hq : QReady s .c i .lanes vecRes w rest) : s.answersElements i w rest 1 lat 32 d fun e => ⟨f s.tile w e, 0⟩ :=
  elemWord_answers hq hx

theorem vUnWord_answers (o : VUn) {lat : Nat} {f : Nat → Nat} (hx : exec i s = vUnWord i o lat f s)
    (hq : QReady s .c i .lanes vecRes w rest) :
    s.answersElements i w rest 1 lat (tyWidth o.ty) o.d fun e => ⟨f (elemN (tyWidth o.ty) (s.tile.vsrc w o.a) e), 0⟩ :=
  elemWord_answers hq hx

/-! ## Integers reduced to a type (R24) -/

theorem intMin_le_intMax (signed : Bool) (n : Nat) : intMin signed n ≤ intMax signed n := by
  have hpos : ∀ k : Nat, (0 : Int) < 2 ^ k := fun k => Int.pow_pos (by decide)
  have hfull := hpos n
  have hhalf := hpos (n - 1)
  cases signed
  · simp only [intMin, intMax]; omega
  · simp only [intMin, intMax]; omega

theorem intBits_eq_reduced (ty : Ty) (sat : Bool) (z : Int) : intBits ty sat z = reduced ty sat z := by
  have hle := intMin_le_intMax (tySigned ty) (tyWidth ty)
  have hclamp : ∀ lo hi : Int, lo ≤ hi → (if z < lo then lo else if hi < z then hi else z) = max lo (min z hi) := by
    intro lo hi h
    split
    · omega
    · split <;> omega
  cases sat
  · rfl
  · exact congrArg (fun x => (BitVec.ofInt (tyWidth ty) x).toNat) (hclamp _ _ hle)

theorem immInt_eq (ty : Ty) (i : BitVec 8) : immInt ty i = if tySigned ty ∨ tyFloat ty then i.toInt else i.toNat := by
  simp [immInt]

/-! ## The top bit of an element -/

theorem testBit_top {n x : Nat} (hx : x < 2 ^ (n + 1)) : x.testBit n = decide (2 ^ n ≤ x) := by
  by_cases h : 2 ^ n ≤ x
  · rw [Nat.testBit_of_two_pow_le_and_two_pow_add_one_gt h hx, decide_eq_true h]
  · rw [Nat.testBit_lt_two_pow (Nat.lt_of_not_le h), decide_eq_false h]

/-- The complement of an element turns its top bit. -/
theorem testBit_top_complement {n x : Nat} (hn : 0 < n) (hx : x < 2 ^ n) : (2 ^ n - 1 - x).testBit (n - 1) = !x.testBit (n - 1) := by
  have hlt : n - 1 < n := Nat.sub_lt hn Nat.one_pos
  rw [Nat.sub_sub, Nat.add_comm, Nat.testBit_two_pow_sub_succ hx, decide_eq_true hlt, Bool.true_and]

theorem testBit_top_xor (n x : Nat) : (x ^^^ 2 ^ (n - 1)).testBit (n - 1) = !x.testBit (n - 1) := by
  rw [Nat.testBit_xor, Nat.testBit_two_pow_self, Bool.xor_true]

/-- An element with a bit turned twice. -/
theorem xor_twice (x y : Nat) : x ^^^ y ^^^ y = x := by
  rw [Nat.xor_assoc, Nat.xor_self, Nat.xor_zero]

/-! ## Order keys (R43, R44) -/

theorem okeyBits_int_lt {ty : Ty} {x : Nat} (hf : tyFloat ty = false) (hx : x < 2 ^ tyWidth ty) : okeyBits ty x < 2 ^ tyWidth ty := by
  have htop : 2 ^ (tyWidth ty - 1) < 2 ^ tyWidth ty := Nat.pow_lt_pow_right Nat.one_lt_two (Nat.sub_lt (tyWidth_pos ty) Nat.one_pos)
  simp only [okeyBits, hf]
  cases tySigned ty
  · exact hx
  · exact Nat.xor_lt_two_pow hx htop

theorem okeyiBits_okeyBits_int {ty : Ty} (hf : tyFloat ty = false) (x : Nat) : okeyiBits ty (okeyBits ty x) = x := by
  simp only [okeyBits, okeyiBits, hf]
  cases tySigned ty
  · rfl
  · exact xor_twice x _

/-- The pattern of all ones is a NaN in every format. -/
theorem isNan_allOnes {ty : Ty} (hf : tyFloat ty = true) : ((fmtOf ty).val false (2 ^ tyWidth ty - 1)).isNan = true := by
  cases ty with
  | f32 | f16 | bf16 => rfl
  | _ => cases hf

section
variable {ty : Ty} {x : Nat} (hf : tyFloat ty = true)
include hf

theorem okeyBits_nan (hn : ((fmtOf ty).val false x).isNan = true) : okeyBits ty x = 0 := by
  simp [okeyBits, hf, hn]

theorem okeyBits_negative (hn : ((fmtOf ty).val false x).isNan = false) (ht : x.testBit (tyWidth ty - 1) = true) :
    okeyBits ty x = 2 ^ tyWidth ty - 1 - x := by
  simp [okeyBits, hf, hn, ht]

theorem okeyBits_positive (hn : ((fmtOf ty).val false x).isNan = false) (ht : x.testBit (tyWidth ty - 1) = false) :
    okeyBits ty x = x ^^^ 2 ^ (tyWidth ty - 1) := by
  simp [okeyBits, hf, hn, ht]

theorem okeyiBits_below {k : Nat} (ht : k.testBit (tyWidth ty - 1) = false) : okeyiBits ty k =
    if ((fmtOf ty).val false (2 ^ tyWidth ty - 1 - k)).isNan then (fmtOf ty).nan else 2 ^ tyWidth ty - 1 - k := by
  simp [okeyiBits, hf, ht]

theorem okeyiBits_above {k : Nat} (ht : k.testBit (tyWidth ty - 1) = true) : okeyiBits ty k =
    if ((fmtOf ty).val false (k ^^^ 2 ^ (tyWidth ty - 1))).isNan then (fmtOf ty).nan else k ^^^ 2 ^ (tyWidth ty - 1) := by
  simp [okeyiBits, hf, ht]

theorem okeyiBits_zero : okeyiBits ty 0 = (fmtOf ty).nan := by
  rw [okeyiBits_below hf (Nat.zero_testBit _), Nat.sub_zero, if_pos (isNan_allOnes hf)]

/-- A number that is negative has its complement for key, whose top bit is 0; one that is not has its top bit turned, to 1. -/
theorem okeyiBits_okeyBits_float (hx : x < 2 ^ tyWidth ty) (hn : ((fmtOf ty).val false x).isNan = false) :
    okeyiBits ty (okeyBits ty x) = x ∧ 0 < okeyBits ty x := by
  cases ht : x.testBit (tyWidth ty - 1) with
  | true =>
    have hback : 2 ^ tyWidth ty - 1 - (2 ^ tyWidth ty - 1 - x) = x := Nat.sub_sub_self (Nat.le_sub_one_of_lt hx)
    have htop := testBit_top_complement (tyWidth_pos ty) hx
    rw [ht] at htop
    have hne : x ≠ 2 ^ tyWidth ty - 1 := by
      rintro rfl
      rw [isNan_allOnes hf] at hn
      cases hn
    rw [okeyBits_negative hf hn ht, okeyiBits_below hf htop, hback, hn]
    exact ⟨rfl, by omega⟩
  | false =>
    have htop := testBit_top_xor (tyWidth ty) x
    rw [ht] at htop
    rw [okeyBits_positive hf hn ht, okeyiBits_above hf htop, xor_twice, hn]
    exact ⟨rfl, Nat.lt_of_lt_of_le (Nat.two_pow_pos _) (Nat.ge_two_pow_of_testBit htop)⟩

end

/-! ## Words whose elements are said otherwise than they are computed -/

/-- perm: bit 31 of an index is its being 2^31 or more (R143). -/
theorem exec_perm_answers (h : Hdr) (o : PermOp) (hq : QReady s .c (.perm h o) .lanes vecRes w rest) :
    s.answersElements (.perm h o) w rest 1 2 32 o.d fun e =>
      let x := elemN 32 (s.tile.vsrc w o.b) e
      ⟨if 2 ^ 31 ≤ x then 0 else if x % 128 < 64 then elemN 32 (s.tile.vsrc w o.a) (x % 128)
        else elemN 32 (s.tile.vsrc w o.c) (x % 128 - 64), 0⟩ := by
  refine State.answersElements_of_eq (laneWord_answers rfl hq) fun e => ?_
  simp only [testBit_top (elemN_lt 32 (s.tile.vsrc w o.b) e), decide_eq_true_eq]

/-- extr, its element number taken modulo the elements of its type (R141). -/
theorem exec_extr_issue (h : Hdr) (o : ExtrOp) (hq : QReady s .c (.extr h o) .bit0 vecRes w rest) :
    exec (.extr h o) s = .next (s.vecDone (.extr h o) w rest 1 2
      [.s o.d (scalarOf o.ty (elemN (tyWidth o.ty) (s.tile.vsrc w o.a) ((s.tile.ssrc o.i).toNat % tyCount o.ty)))] 0) :=
  qword_issue hq

theorem digitBits_eq (n pos len pre x : Nat) : digitBits n pos len pre x =
    if pos + len = n ∨ x / 2 ^ (pos + len) = pre % 2 ^ (n - (pos + len)) then x / 2 ^ pos % 2 ^ len else 256 := by
  simp [digitBits]

end Sys2Proof.Machine
end

section
/-! SUPPORT. Lane moves and order keys together (R140–R144, R149, R150). -/

namespace Sys2Proof.Machine

/-- Settles O41: each word by the lemma of its shape, the keys by the top bit that tells a number's sign. -/
theorem laneMovesAndKeys : Obligations.LaneMovesAndKeys := by
  refine ⟨fun s h w rest => ⟨?sel, ?movv, ?perm, ?shfl, ?bcast, ?iota, ?digit, ?keyWords, ?extr⟩, fun ty x hx => ⟨?intKeys, ?nanKeys, ?floatKeys⟩⟩
  case sel => exact fun o hq => laneWord_answers rfl hq
  case movv => exact fun o hq => laneWord_answers rfl hq
  case perm => exact fun o => exec_perm_answers h o
  case shfl =>
    intro o hq
    refine State.answersElements_of_eq (laneWord_answers rfl hq) fun e => congrArg (FRes.mk · 0) ?_
    cases o.kind with
    | rot | xor => rfl
    | dn => simp only [← Nat.not_lt, ite_not]
    | up => simp only [← Nat.not_le, ite_not]
  case bcast => exact fun o hq => elemWord_answers hq rfl
  case iota =>
    intro ⟨d, a, step, ty, sat⟩ hq
    refine State.answersElements_of_eq (elemWord_answers hq rfl) fun e => congrArg (FRes.mk · 0) ((intBits_eq_reduced ty sat _).trans ?_)
    cases step with
    | s n => rfl
    | imm i => exact congrArg (fun z : Int => reduced ty sat (toZ (tySigned ty) (s.tile.getS a) + e * z)) (immInt_eq ty i)
  case digit => exact fun o hq => State.answersElements_of_eq (elemWord_answers hq rfl) fun e => congrArg (FRes.mk · 0) (digitBits_eq ..)
  case keyWords =>
    intro o p hp
    obtain rfl | hp := List.mem_cons.mp hp
    · exact vUnWord_answers o rfl
    · obtain rfl := List.mem_singleton.mp hp
      exact vUnWord_answers o rfl
  case extr => exact fun o => exec_extr_issue h o
  case intKeys => exact fun hf => ⟨okeyiBits_okeyBits_int hf x, okeyBits_int_lt hf hx⟩
  case nanKeys => exact fun hf hn => ⟨okeyBits_nan hf hn, okeyiBits_zero hf⟩
  case floatKeys => exact fun hf hn => okeyiBits_okeyBits_float hf hx hn

end Sys2Proof.Machine
end
